-- ==== Sys2Proof/Word.lean ====
section
/-!
DEFINITION. The word types of the machine and the small closed types that an instruction's operands are made of:
register fields, format codes (R26), tier codes (R84), rounding modes (R46), source forms (R79), guards (R75),
format specifications (R83), pair slots (R85), CSR names (R116).
-/

namespace Sys2Proof

/-- A scalar register, an address, an instruction word. -/
abbrev Word := BitVec 64
/-- The smallest addressable unit (R5). -/
abbrev Byte := BitVec 8

/-- Index of a `g` or `v` register (R61). -/
abbrev Reg := BitVec 5
/-- Index of an `m` register (R61). -/
abbrev MReg := BitVec 4
/-- Index of a `w` register (R61). -/
abbrev WReg := BitVec 3
/-- Index of a `z` tile (R61). -/
abbrev ZReg := BitVec 2
/-- Index of a `k` register (R61). -/
abbrev KReg := BitVec 3

/-- Format codes of R26. -/
inductive Fmt where
  | i8 | i16 | i32 | i64 | u8 | u16 | u32 | u64 | fp16 | bf16 | fp32 | np | uq15 | bfa24
deriving DecidableEq, Repr

/-- The three scalar floating-point formats of OP 0x20 to 0x23 (R99, R101). -/
inductive FFmt where
  | fp32 | bf16 | fp16
deriving DecidableEq, Repr

/-- Tier codes of R84. -/
inductive Tier where
  | core | pair | quad | stack | domain
deriving DecidableEq, Repr

/-- Rounding-mode fields of R46. -/
inductive Mode where
  | rne | rtz | rdn | rup | sr | dyn
deriving DecidableEq, Repr

/-- FEQ field of R80: plain, `.fe`, `.fc`. -/
inductive Feq where
  | plain | fe | fc
deriving DecidableEq, Repr

/-- The last source of an RR form (R79): a register, IMM20, the literal word, a constant-bank entry. -/
inductive Src where
  | reg (r : Reg)
  | imm (v : BitVec 20)
  | lit (v : BitVec 32)
  | cb (i : BitVec 8)
deriving DecidableEq, Repr

/-- A weight guard that is enabled (R75): the arm (false A, true B) and the `w` register. -/
structure WGuard where
  armB : Bool
  w : WReg
deriving DecidableEq, Repr

/-- The guard and control fields that every full word carries (R75); LIT is part of the source form. -/
structure Ctl where
  mg : MReg
  wg : Option WGuard
  chA : Bool
  chB : Bool
  chC : Bool
  hint : BitVec 2
  eo : Bool
  nv : Bool
  sy : Bool
deriving DecidableEq, Repr

/-- No guard, no wait-whole, no hint, no order bit. -/
def Ctl.none : Ctl :=
  { mg := 0, wg := .none, chA := false, chB := false, chC := false, hint := 0, eo := false, nv := false, sy := false }

/-- A format specification of shape FS (R83). -/
structure FmtSpec where
  fmt : Fmt
  nm1 : BitVec 4
  km1 : BitVec 4
  rhu : Bool
deriving DecidableEq, Repr

/-- One slot of a pair word (R85). -/
structure Slot where
  rop : BitVec 6
  d : Reg
  a : Reg
  i : Bool
  imm : BitVec 14
deriving DecidableEq, Repr

/-- The CSRs of R116. -/
inductive Csr where
  | vl | vtype | vstart | grant | rmode | fflags | repro | seed | fid | wth | wprune | armst
  | mstart | mvl | mmode | skew | ecnt0 | ecnt1 | ecnt2 | ecnt3 | cyc | epc | cause | tval | status
deriving DecidableEq, Repr

end Sys2Proof
end

