-- ==== Sys2Proof/Syntax.lean ====
section
/-!
DEFINITION. The instructions: one constructor for each row of spec/opcode_table.json, in the order of the table.
The 273 mnemonics of the opcode map (R90) carry their operands in the order of the operand list and then the guard and control
fields (R75); the pair word carries its two slots (R85); the 90 rows after it are the events of the part, steps that no word encodes:
they carry the number of the object that the event is about.
-/

namespace Sys2Proof

/-- The rows of the opcode table. -/
inductive Instr where
  /-- `ADD` (R95). -/
  | add (d a : Reg) (src : Src) (t : Ctl)
  /-- `SUB` (R95). -/
  | sub (d a : Reg) (src : Src) (t : Ctl)
  /-- `AND` (R95). -/
  | and (d a : Reg) (src : Src) (t : Ctl)
  /-- `OR` (R95). -/
  | or (d a : Reg) (src : Src) (t : Ctl)
  /-- `XOR` (R95). -/
  | xor (d a : Reg) (src : Src) (t : Ctl)
  /-- `SHL` (R95). -/
  | shl (d a : Reg) (src : Src) (t : Ctl)
  /-- `SHR` (R95). -/
  | shr (d a : Reg) (src : Src) (t : Ctl)
  /-- `SRA` (R95). -/
  | sra (d a : Reg) (src : Src) (t : Ctl)
  /-- `MIN` (R95). -/
  | min (d a : Reg) (src : Src) (t : Ctl)
  /-- `MAX` (R95). -/
  | max (d a : Reg) (src : Src) (t : Ctl)
  /-- `MINU` (R95). -/
  | minu (d a : Reg) (src : Src) (t : Ctl)
  /-- `MAXU` (R95). -/
  | maxu (d a : Reg) (src : Src) (t : Ctl)
  /-- `SLT` (R95). -/
  | slt (d a : Reg) (src : Src) (t : Ctl)
  /-- `SLTU` (R95). -/
  | sltu (d a : Reg) (src : Src) (t : Ctl)
  /-- `SEQ` (R95). -/
  | seq (d a : Reg) (src : Src) (t : Ctl)
  /-- `MUL` (R95). -/
  | mul (d a : Reg) (src : Src) (t : Ctl)
  /-- `MULH` (R95). -/
  | mulh (d a : Reg) (src : Src) (t : Ctl)
  /-- `MULHU` (R95). -/
  | mulhu (d a : Reg) (src : Src) (t : Ctl)
  /-- `DIV` (R96). -/
  | div (d a : Reg) (src : Src) (t : Ctl)
  /-- `DIVU` (R96). -/
  | divu (d a : Reg) (src : Src) (t : Ctl)
  /-- `REM` (R96). -/
  | rem (d a : Reg) (src : Src) (t : Ctl)
  /-- `REMU` (R96). -/
  | remu (d a : Reg) (src : Src) (t : Ctl)
  /-- `CLZ` (R97). -/
  | clz (d a : Reg) (t : Ctl)
  /-- `CTZ` (R97). -/
  | ctz (d a : Reg) (t : Ctl)
  /-- `POPC` (R97). -/
  | popc (d a : Reg) (t : Ctl)
  /-- `BSWAP` (R97). -/
  | bswap (d a : Reg) (t : Ctl)
  /-- `SXB` (R97). -/
  | sxb (d a : Reg) (t : Ctl)
  /-- `SXH` (R97). -/
  | sxh (d a : Reg) (t : Ctl)
  /-- `SXW` (R97). -/
  | sxw (d a : Reg) (t : Ctl)
  /-- `ZXB` (R97). -/
  | zxb (d a : Reg) (t : Ctl)
  /-- `ZXH` (R97). -/
  | zxh (d a : Reg) (t : Ctl)
  /-- `ZXW` (R97). -/
  | zxw (d a : Reg) (t : Ctl)
  /-- `ADDPC` (R98). -/
  | addpc (d : Reg) (src : Src) (t : Ctl)
  /-- `FADD` (R99). -/
  | fadd (f : FFmt) (d a : Reg) (src : Src) (t : Ctl)
  /-- `FSUB` (R99). -/
  | fsub (f : FFmt) (d a : Reg) (src : Src) (t : Ctl)
  /-- `FMUL` (R99). -/
  | fmul (f : FFmt) (d a : Reg) (src : Src) (t : Ctl)
  /-- `FDIV` (R99). -/
  | fdiv (f : FFmt) (d a : Reg) (src : Src) (t : Ctl)
  /-- `FMIN` (R100). -/
  | fmin (f : FFmt) (d a : Reg) (src : Src) (t : Ctl)
  /-- `FMAX` (R100). -/
  | fmax (f : FFmt) (d a : Reg) (src : Src) (t : Ctl)
  /-- `FSQRT` (R99). -/
  | fsqrt (f : FFmt) (d : Reg) (src : Src) (t : Ctl)
  /-- `FABS` (R99). -/
  | fabs (f : FFmt) (d : Reg) (src : Src) (t : Ctl)
  /-- `FNEG` (R99). -/
  | fneg (f : FFmt) (d : Reg) (src : Src) (t : Ctl)
  /-- `FEQ` (R99). -/
  | feq (f : FFmt) (d a : Reg) (src : Src) (t : Ctl)
  /-- `FLT` (R99). -/
  | flt (f : FFmt) (d a : Reg) (src : Src) (t : Ctl)
  /-- `FLE` (R99). -/
  | fle (f : FFmt) (d a : Reg) (src : Src) (t : Ctl)
  /-- `FFMA` (R101). -/
  | ffma (f : FFmt) (d a b : Reg) (src : Src) (t : Ctl)
  /-- `FFMS` (R101). -/
  | ffms (f : FFmt) (d a b : Reg) (src : Src) (t : Ctl)
  /-- `FFNMA` (R101). -/
  | ffnma (f : FFmt) (d a b : Reg) (src : Src) (t : Ctl)
  /-- `FFNMS` (R101). -/
  | ffnms (f : FFmt) (d a b : Reg) (src : Src) (t : Ctl)
  /-- `FCVT` (R102). -/
  | fcvt (d a : Reg) (dst src : Fmt) (md : Mode) (sat : Bool) (t : Ctl)
  /-- `JAL` (R103). -/
  | jal (d : Reg) (off : BitVec 20) (t : Ctl)
  /-- `JR` (R104). -/
  | jr (d a : Reg) (t : Ctl)
  /-- `B_EQ` (R105). -/
  | bEq (a b : Reg) (off : BitVec 15) (t : Ctl)
  /-- `B_NE` (R105). -/
  | bNe (a b : Reg) (off : BitVec 15) (t : Ctl)
  /-- `B_LT` (R105). -/
  | bLt (a b : Reg) (off : BitVec 15) (t : Ctl)
  /-- `B_GE` (R105). -/
  | bGe (a b : Reg) (off : BitVec 15) (t : Ctl)
  /-- `B_LTU` (R105). -/
  | bLtu (a b : Reg) (off : BitVec 15) (t : Ctl)
  /-- `B_GEU` (R105). -/
  | bGeu (a b : Reg) (off : BitVec 15) (t : Ctl)
  /-- `SUBBR` (R106). -/
  | subbr (d a : Reg) (off : BitVec 15) (t : Ctl)
  /-- `CSRR` (R115). -/
  | csrr (d : Reg) (r : Csr) (t : Ctl)
  /-- `CSRW` (R115). -/
  | csrw (r : Csr) (a : Reg) (t : Ctl)
  /-- `CSRS` (R115). -/
  | csrs (r : Csr) (a : Reg) (t : Ctl)
  /-- `CSRC` (R115). -/
  | csrc (r : Csr) (a : Reg) (t : Ctl)
  /-- `SETVL` (R112). -/
  | setvl (d a : Reg) (f : Fmt) (k : BitVec 4) (t : Ctl)
  /-- `HALT` (R270). -/
  | halt (t : Ctl)
  /-- `YIELD` (R271). -/
  | yield (t : Ctl)
  /-- `TRAP` (R272). -/
  | trap (imm : BitVec 20) (t : Ctl)
  /-- `ERET` (R273). -/
  | eret (t : Ctl)
  /-- `SLEEP` (R274). -/
  | sleep (a : Reg) (t : Ctl)
  /-- `WAITT` (R274). -/
  | waitt (a b : Reg) (t : Ctl)
  /-- `GRANT` (R275). -/
  | grant (d a : Reg) (t : Ctl)
  /-- `PGATE` (R389). -/
  | pgate (a b : Reg) (t : Ctl)
  /-- `XLINV_ADDR` (R338). -/
  | xlinvAddr (a : Reg) (t : Ctl)
  /-- `XLINV_PART` (R338). -/
  | xlinvPart (a : Reg) (t : Ctl)
  /-- `XLINV_ALL` (R338). -/
  | xlinvAll (t : Ctl)
  /-- `PGQ` (R339). -/
  | pgq (d a : Reg) (t : Ctl)
  /-- `PAIR_WORD` (R88). -/
  | pairWord (s0 s1 : Slot)
  /-- `VADD` (R126). -/
  | vadd (d a : Reg) (src : Src) (t : Ctl)
  /-- `VSUB` (R126). -/
  | vsub (d a : Reg) (src : Src) (t : Ctl)
  /-- `VMUL` (R126). -/
  | vmul (d a : Reg) (src : Src) (t : Ctl)
  /-- `VDIV` (R126). -/
  | vdiv (d a : Reg) (src : Src) (t : Ctl)
  /-- `VMIN` (R126). -/
  | vmin (d a : Reg) (src : Src) (t : Ctl)
  /-- `VMAX` (R126). -/
  | vmax (d a : Reg) (src : Src) (t : Ctl)
  /-- `VAND` (R126). -/
  | vand (d a : Reg) (src : Src) (t : Ctl)
  /-- `VOR` (R126). -/
  | vor (d a : Reg) (src : Src) (t : Ctl)
  /-- `VXOR` (R126). -/
  | vxor (d a : Reg) (src : Src) (t : Ctl)
  /-- `VSHL` (R126). -/
  | vshl (d a : Reg) (src : Src) (t : Ctl)
  /-- `VSHR` (R126). -/
  | vshr (d a : Reg) (src : Src) (t : Ctl)
  /-- `VSRA` (R126). -/
  | vsra (d a : Reg) (src : Src) (t : Ctl)
  /-- `VMULH` (R126). -/
  | vmulh (d a : Reg) (src : Src) (t : Ctl)
  /-- `VABSD` (R126). -/
  | vabsd (d a : Reg) (src : Src) (t : Ctl)
  /-- `VSGNJ` (R127). -/
  | vsgnj (d a : Reg) (src : Src) (t : Ctl)
  /-- `VADD_SAT` (R130). -/
  | vaddSat (d a : Reg) (src : Src) (t : Ctl)
  /-- `VSUB_SAT` (R130). -/
  | vsubSat (d a : Reg) (src : Src) (t : Ctl)
  /-- `VMUL_SAT` (R130). -/
  | vmulSat (d a : Reg) (src : Src) (t : Ctl)
  /-- `VFMA` (R131). -/
  | vfma (d a b : Reg) (src : Src) (t : Ctl)
  /-- `VFMS` (R131). -/
  | vfms (d a b : Reg) (src : Src) (t : Ctl)
  /-- `VFNMA` (R131). -/
  | vfnma (d a b : Reg) (src : Src) (t : Ctl)
  /-- `VFNMS` (R131). -/
  | vfnms (d a b : Reg) (src : Src) (t : Ctl)
  /-- `VNEG` (R132). -/
  | vneg (d a : Reg) (t : Ctl)
  /-- `VABS` (R132). -/
  | vabs (d a : Reg) (t : Ctl)
  /-- `VSQRT` (R132). -/
  | vsqrt (d a : Reg) (t : Ctl)
  /-- `VMOV` (R132). -/
  | vmov (d a : Reg) (t : Ctl)
  /-- `VNOT` (R132). -/
  | vnot (d a : Reg) (t : Ctl)
  /-- `VCMP_EQ` (R133). -/
  | vcmpEq (d : MReg) (a : Reg) (src : Src) (t : Ctl)
  /-- `VCMP_NE` (R133). -/
  | vcmpNe (d : MReg) (a : Reg) (src : Src) (t : Ctl)
  /-- `VCMP_LT` (R133). -/
  | vcmpLt (d : MReg) (a : Reg) (src : Src) (t : Ctl)
  /-- `VCMP_LE` (R133). -/
  | vcmpLe (d : MReg) (a : Reg) (src : Src) (t : Ctl)
  /-- `VCMP_GT` (R133). -/
  | vcmpGt (d : MReg) (a : Reg) (src : Src) (t : Ctl)
  /-- `VCMP_GE` (R133). -/
  | vcmpGe (d : MReg) (a : Reg) (src : Src) (t : Ctl)
  /-- `VCMP_UN` (R133). -/
  | vcmpUn (d : MReg) (a : Reg) (src : Src) (t : Ctl)
  /-- `VMERGE` (R134). -/
  | vmerge (d a b : Reg) (c : MReg) (t : Ctl)
  /-- `VCVT` (R135). -/
  | vcvt (d a : Reg) (dst src : Fmt) (md : Mode) (sat : Bool) (j : BitVec 4) (t : Ctl)
  /-- `VSFU_EXP` (R137). -/
  | vsfuExp (d a : Reg) (t : Ctl)
  /-- `VSFU_EXP2` (R137). -/
  | vsfuExp2 (d a : Reg) (t : Ctl)
  /-- `VSFU_LOG` (R137). -/
  | vsfuLog (d a : Reg) (t : Ctl)
  /-- `VSFU_LOG2` (R137). -/
  | vsfuLog2 (d a : Reg) (t : Ctl)
  /-- `VSFU_RCP` (R137). -/
  | vsfuRcp (d a : Reg) (t : Ctl)
  /-- `VSFU_RSQRT` (R137). -/
  | vsfuRsqrt (d a : Reg) (t : Ctl)
  /-- `VSFU_SQRT` (R137). -/
  | vsfuSqrt (d a : Reg) (t : Ctl)
  /-- `VSFU_TANH` (R137). -/
  | vsfuTanh (d a : Reg) (t : Ctl)
  /-- `VSFU_SIG` (R137). -/
  | vsfuSig (d a : Reg) (t : Ctl)
  /-- `VSFU_GELU` (R137). -/
  | vsfuGelu (d a : Reg) (t : Ctl)
  /-- `VSFU_SIN` (R137). -/
  | vsfuSin (d a : Reg) (t : Ctl)
  /-- `VSFU_COS` (R137). -/
  | vsfuCos (d a : Reg) (t : Ctl)
  /-- `VRED_FSUM` (R138). -/
  | vredFsum (d a b : Reg) (t : Ctl)
  /-- `VRED_FMAX` (R138). -/
  | vredFmax (d a b : Reg) (t : Ctl)
  /-- `VRED_FMIN` (R138). -/
  | vredFmin (d a b : Reg) (t : Ctl)
  /-- `VRED_ISUM` (R138). -/
  | vredIsum (d a b : Reg) (t : Ctl)
  /-- `VRED_IMAX` (R138). -/
  | vredImax (d a b : Reg) (t : Ctl)
  /-- `VRED_IMIN` (R138). -/
  | vredImin (d a b : Reg) (t : Ctl)
  /-- `VRED_IMAXU` (R138). -/
  | vredImaxu (d a b : Reg) (t : Ctl)
  /-- `VRED_IMINU` (R138). -/
  | vredIminu (d a b : Reg) (t : Ctl)
  /-- `VRED_AND` (R138). -/
  | vredAnd (d a b : Reg) (t : Ctl)
  /-- `VRED_OR` (R138). -/
  | vredOr (d a b : Reg) (t : Ctl)
  /-- `VRED_XOR` (R138). -/
  | vredXor (d a b : Reg) (t : Ctl)
  /-- `VID` (R140). -/
  | vid (d : Reg) (t : Ctl)
  /-- `VRNG_BITS` (R141). -/
  | vrngBits (d a : Reg) (t : Ctl)
  /-- `VRNG_UNIT` (R141). -/
  | vrngUnit (d a : Reg) (t : Ctl)
  /-- `VDROP` (R142). -/
  | vdrop (d a b : Reg) (t : Ctl)
  /-- `VPERM` (R143). -/
  | vperm (d a b : Reg) (t : Ctl)
  /-- `VROT` (R143). -/
  | vrot (d a : Reg) (src : Src) (t : Ctl)
  /-- `VSLIDE_UP` (R143). -/
  | vslideUp (d a : Reg) (src : Src) (t : Ctl)
  /-- `VSLIDE_DN` (R143). -/
  | vslideDn (d a : Reg) (src : Src) (t : Ctl)
  /-- `VCOMP` (R144). -/
  | vcomp (d a : Reg) (b : MReg) (t : Ctl)
  /-- `VEXP` (R144). -/
  | vexp (d a : Reg) (b : MReg) (t : Ctl)
  /-- `MAND` (R146). -/
  | mand (d a b : MReg) (t : Ctl)
  /-- `MOR` (R146). -/
  | mor (d a b : MReg) (t : Ctl)
  /-- `MXOR` (R146). -/
  | mxor (d a b : MReg) (t : Ctl)
  /-- `MANDN` (R146). -/
  | mandn (d a b : MReg) (t : Ctl)
  /-- `MNOT` (R146). -/
  | mnot (d a : MReg) (t : Ctl)
  /-- `MCNT` (R147). -/
  | mcnt (d : Reg) (a : MReg) (t : Ctl)
  /-- `MANY` (R147). -/
  | many (d : Reg) (a : MReg) (t : Ctl)
  /-- `MFIRST` (R147). -/
  | mfirst (d : Reg) (a : MReg) (t : Ctl)
  /-- `WSET` (R166). -/
  | wset (d : WReg) (src : Src) (t : Ctl)
  /-- `WSIG_H` (R166). -/
  | wsigH (d : WReg) (a : Reg) (t : Ctl)
  /-- `WSIG_S` (R166). -/
  | wsigS (d : WReg) (a : Reg) (t : Ctl)
  /-- `WGET` (R166). -/
  | wget (d : Reg) (a : WReg) (t : Ctl)
  /-- `WMUL` (R166). -/
  | wmul (d a b : WReg) (t : Ctl)
  /-- `WCMP` (R166). -/
  | wcmp (d : MReg) (a : WReg) (t : Ctl)
  /-- `ARM` (R154). -/
  | arm (a : WReg) (off : BitVec 15) (t : Ctl)
  /-- `ARMB` (R154). -/
  | armb (a : WReg) (off : BitVec 15) (t : Ctl)
  /-- `ARMEND` (R158). -/
  | armend (t : Ctl)
  /-- `JOIN` (R165). -/
  | join (d a b : Reg) (c : WReg) (t : Ctl)
  /-- `JOINB` (R165). -/
  | joinb (d a b c : Reg) (e : WReg) (t : Ctl)
  /-- `WLOOP` (R168). -/
  | wloop (d : WReg) (a : Reg) (off : BitVec 15) (t : Ctl)
  /-- `WLEND` (R168). -/
  | wlend (off : BitVec 15) (t : Ctl)
  /-- `LD8` (R175). -/
  | ld8 (d a : Reg) (off : BitVec 13) (fq : Feq) (t : Ctl)
  /-- `LD16` (R175). -/
  | ld16 (d a : Reg) (off : BitVec 13) (fq : Feq) (t : Ctl)
  /-- `LD32` (R175). -/
  | ld32 (d a : Reg) (off : BitVec 13) (fq : Feq) (t : Ctl)
  /-- `LD64` (R175). -/
  | ld64 (d a : Reg) (off : BitVec 13) (fq : Feq) (t : Ctl)
  /-- `LDZ8` (R175). -/
  | ldz8 (d a : Reg) (off : BitVec 13) (fq : Feq) (t : Ctl)
  /-- `LDZ16` (R175). -/
  | ldz16 (d a : Reg) (off : BitVec 13) (fq : Feq) (t : Ctl)
  /-- `LDZ32` (R175). -/
  | ldz32 (d a : Reg) (off : BitVec 13) (fq : Feq) (t : Ctl)
  /-- `ST8` (R175). -/
  | st8 (a b : Reg) (off : BitVec 13) (fq : Feq) (t : Ctl)
  /-- `ST16` (R175). -/
  | st16 (a b : Reg) (off : BitVec 13) (fq : Feq) (t : Ctl)
  /-- `ST32` (R175). -/
  | st32 (a b : Reg) (off : BitVec 13) (fq : Feq) (t : Ctl)
  /-- `ST64` (R175). -/
  | st64 (a b : Reg) (off : BitVec 13) (fq : Feq) (t : Ctl)
  /-- `VLD` (R176). -/
  | vld (d a : Reg) (off : BitVec 13) (fq : Feq) (k : BitVec 5) (rhu : Bool) (t : Ctl)
  /-- `VLDS` (R176). -/
  | vlds (d a b : Reg) (fq : Feq) (k : BitVec 5) (rhu : Bool) (t : Ctl)
  /-- `VLDX` (R176). -/
  | vldx (d a b : Reg) (fq : Feq) (k : BitVec 5) (rhu : Bool) (t : Ctl)
  /-- `VST` (R176). -/
  | vst (a b : Reg) (off : BitVec 13) (fq : Feq) (k : BitVec 5) (t : Ctl)
  /-- `VSTS` (R176). -/
  | vsts (a b c : Reg) (fq : Feq) (k : BitVec 5) (t : Ctl)
  /-- `VSTX` (R176). -/
  | vstx (a b c : Reg) (fq : Feq) (k : BitVec 5) (t : Ctl)
  /-- `VSTP` (R183). -/
  | vstp (a b : Reg) (off : BitVec 13) (fq : Feq) (k : BitVec 5) (t : Ctl)
  /-- `VSTP_PA` (R184). -/
  | vstpPa (a b : Reg) (off : BitVec 13) (fq : Feq) (k : BitVec 5) (t : Ctl)
  /-- `FESET` (R182). -/
  | feset (a b : Reg) (t : Ctl)
  /-- `FECLR` (R182). -/
  | feclr (a b : Reg) (t : Ctl)
  /-- `AMO_ADD` (R185). -/
  | amoAdd (n32 : Bool) (d a b : Reg) (t : Ctl)
  /-- `AMO_AND` (R185). -/
  | amoAnd (n32 : Bool) (d a b : Reg) (t : Ctl)
  /-- `AMO_OR` (R185). -/
  | amoOr (n32 : Bool) (d a b : Reg) (t : Ctl)
  /-- `AMO_XOR` (R185). -/
  | amoXor (n32 : Bool) (d a b : Reg) (t : Ctl)
  /-- `AMO_MIN` (R185). -/
  | amoMin (n32 : Bool) (d a b : Reg) (t : Ctl)
  /-- `AMO_MAX` (R185). -/
  | amoMax (n32 : Bool) (d a b : Reg) (t : Ctl)
  /-- `AMO_MINU` (R185). -/
  | amoMinu (n32 : Bool) (d a b : Reg) (t : Ctl)
  /-- `AMO_MAXU` (R185). -/
  | amoMaxu (n32 : Bool) (d a b : Reg) (t : Ctl)
  /-- `AMO_SWAP` (R185). -/
  | amoSwap (n32 : Bool) (d a b : Reg) (t : Ctl)
  /-- `AMO_CAS` (R185). -/
  | amoCas (n32 : Bool) (d a b c : Reg) (t : Ctl)
  /-- `VAMO_ADD` (R186). -/
  | vamoAdd (n32 : Bool) (d a b c : Reg) (t : Ctl)
  /-- `VAMO_AND` (R186). -/
  | vamoAnd (n32 : Bool) (d a b c : Reg) (t : Ctl)
  /-- `VAMO_OR` (R186). -/
  | vamoOr (n32 : Bool) (d a b c : Reg) (t : Ctl)
  /-- `VAMO_XOR` (R186). -/
  | vamoXor (n32 : Bool) (d a b c : Reg) (t : Ctl)
  /-- `VAMO_MIN` (R186). -/
  | vamoMin (n32 : Bool) (d a b c : Reg) (t : Ctl)
  /-- `VAMO_MAX` (R186). -/
  | vamoMax (n32 : Bool) (d a b c : Reg) (t : Ctl)
  /-- `VAMO_MINU` (R186). -/
  | vamoMinu (n32 : Bool) (d a b c : Reg) (t : Ctl)
  /-- `VAMO_MAXU` (R186). -/
  | vamoMaxu (n32 : Bool) (d a b c : Reg) (t : Ctl)
  /-- `VAMO_SWAP` (R186). -/
  | vamoSwap (n32 : Bool) (d a b c : Reg) (t : Ctl)
  /-- `VAMO_CAS` (R186). -/
  | vamoCas (n32 : Bool) (d a b c : Reg) (t : Ctl)
  /-- `AMOACC` (R187). -/
  | amoacc (md : Mode) (a b : Reg) (t : Ctl)
  /-- `VLDBFA` (R188). -/
  | vldbfa (md : Mode) (d a : Reg) (t : Ctl)
  /-- `FENCE_C` (R189). -/
  | fenceC (tier : Tier) (t : Ctl)
  /-- `FENCE_S` (R189). -/
  | fenceS (tier : Tier) (t : Ctl)
  /-- `FENCE_REC` (R189). -/
  | fenceRec (tier : Tier) (t : Ctl)
  /-- `FENCE_HOST` (R189). -/
  | fenceHost (tier : Tier) (t : Ctl)
  /-- `FENCE_ENG` (R189). -/
  | fenceEng (tier : Tier) (t : Ctl)
  /-- `STRM` (R191). -/
  | strm (d a b : Reg) (t : Ctl)
  /-- `STRMX` (R191). -/
  | strmx (d : Reg) (t : Ctl)
  /-- `STASH` (R190). -/
  | stash (a b : Reg) (t : Ctl)
  /-- `STFLUSH` (R190). -/
  | stflush (a b : Reg) (t : Ctl)
  /-- `STINV` (R190). -/
  | stinv (a b : Reg) (t : Ctl)
  /-- `PREF` (R190). -/
  | pref (a b : Reg) (t : Ctl)
  /-- `VCAPP` (R202). -/
  | vcapp (a b : Reg) (t : Ctl)
  /-- `CPY` (R196). -/
  | cpy (a b c e : Reg) (t : Ctl)
  /-- `GATH` (R199). -/
  | gath (a b c e : Reg) (t : Ctl)
  /-- `SCAT` (R199). -/
  | scat (a b c e : Reg) (t : Ctl)
  /-- `COLL_AG` (R200). -/
  | collAg (a b c e : Reg) (t : Ctl)
  /-- `COLL_RS` (R200). -/
  | collRs (f : Fmt) (a b c e : Reg) (t : Ctl)
  /-- `COLL_AR` (R200). -/
  | collAr (f : Fmt) (a b c e : Reg) (t : Ctl)
  /-- `EWAIT` (R201). -/
  | ewait (a : Reg) (t : Ctl)
  /-- `GLAUNCH` (R298). -/
  | glaunch (a b : Reg) (t : Ctl)
  /-- `NSPAWN` (R298). -/
  | nspawn (a b : Reg) (t : Ctl)
  /-- `DCSET` (R298). -/
  | dcset (a b : Reg) (t : Ctl)
  /-- `DCDEC` (R298). -/
  | dcdec (a b : Reg) (t : Ctl)
  /-- `NPATCH` (R298). -/
  | npatch (a b c : Reg) (t : Ctl)
  /-- `GID` (R304). -/
  | gid (tier : Tier) (d : Reg) (t : Ctl)
  /-- `GSPLIT` (R305). -/
  | gsplit (tier : Tier) (d a : Reg) (t : Ctl)
  /-- `LPUT` (R308). -/
  | lput (a : Reg) (t : Ctl)
  /-- `LGET` (R309). -/
  | lget (d : Reg) (t : Ctl)
  /-- `LFREE` (R311). -/
  | lfree (d : Reg) (t : Ctl)
  /-- `BARI` (R320). -/
  | bari (tier : Tier) (i : BitVec 6) (b : Reg) (t : Ctl)
  /-- `BARR` (R320). -/
  | barr (tier : Tier) (i : BitVec 6) (t : Ctl)
  /-- `BARW` (R320). -/
  | barw (tier : Tier) (i : BitVec 6) (t : Ctl)
  /-- `BARRW` (R320). -/
  | barrw (tier : Tier) (i : BitVec 6) (t : Ctl)
  /-- `MSMODE` (R206). -/
  | msmode (op : Bool) (mvl : BitVec 2) (t : Ctl)
  /-- `MCLAIM` (R208). -/
  | mclaim (d : Reg) (n : BitVec 6) (t : Ctl)
  /-- `MREL` (R208). -/
  | mrel (a : Reg) (t : Ctl)
  /-- `MLDS` (R209). -/
  | mlds (a b : Reg) (t : Ctl)
  /-- `MLDW` (R210). -/
  | mldw (a : Reg) (fs : FmtSpec) (t : Ctl)
  /-- `MSTRM` (R213). -/
  | mstrm (d : ZReg) (a : Reg) (fs : FmtSpec) (t : Ctl)
  /-- `MXPROD` (R214). -/
  | mxprod (d : ZReg) (a b : Reg) (t : Ctl)
  /-- `MZERO` (R217). -/
  | mzero (d : ZReg) (t : Ctl)
  /-- `MRDZ_SPLIT` (R217). -/
  | mrdzSplit (d : Reg) (a : ZReg) (b : Reg) (t : Ctl)
  /-- `MRDZ_MERGE` (R217). -/
  | mrdzMerge (d : Reg) (a : ZReg) (b : Reg) (t : Ctl)
  /-- `MWRZ` (R217). -/
  | mwrz (d : ZReg) (a b : Reg) (t : Ctl)
  /-- `MCOL` (R217). -/
  | mcol (d : Reg) (a : ZReg) (b : Reg) (t : Ctl)
  /-- `MTRS` (R217). -/
  | mtrs (d a : ZReg) (t : Ctl)
  /-- `MSTS` (R219). -/
  | msts (a : Reg) (b : ZReg) (c : Reg) (t : Ctl)
  /-- `MSTS_CMP` (R220). -/
  | mstsCmp (a : Reg) (b : ZReg) (c : Reg) (t : Ctl)
  /-- `MSTS_CMP_TRAP` (R220). -/
  | mstsCmpTrap (a : Reg) (b : ZReg) (c : Reg) (t : Ctl)
  /-- `SEQDEF` (R221). -/
  | seqdef (a : Reg) (t : Ctl)
  /-- `SEQRUN` (R222). -/
  | seqrun (a : KReg) (t : Ctl)
  /-- `KSET` (R224). -/
  | kset (d : KReg) (a : Reg) (t : Ctl)
  /-- `KCLR` (R224). -/
  | kclr (d : KReg) (a : Reg) (t : Ctl)
  /-- `KLD` (R224). -/
  | kld (d : KReg) (a : Reg) (t : Ctl)
  /-- `KTST` (R224). -/
  | ktst (d : Reg) (a : KReg) (b : Reg) (t : Ctl)
  /-- `VOPT_SGD` (R225). -/
  | voptSgd (a b c e : Reg) (t : Ctl)
  /-- `VOPT_MSGD` (R225). -/
  | voptMsgd (a b c e : Reg) (t : Ctl)
  /-- `VOPT_ADAM` (R225). -/
  | voptAdam (a b c e : Reg) (t : Ctl)
  /-- `VSAL` (R227). -/
  | vsal (d a b : Reg) (t : Ctl)
  /-- `VNMS` (R228). -/
  | vnms (d : MReg) (a : Reg) (n : BitVec 4) (t : Ctl)
  /-- `QTERM` (R250). -/
  | qterm (a b c : Reg) (t : Ctl)
  /-- `QVEC` (R250). -/
  | qvec (a b c : Reg) (t : Ctl)
  /-- `QEXEC` (R251). -/
  | qexec (a b : Reg) (t : Ctl)
  /-- `QSTAT` (R252). -/
  | qstat (d a : Reg) (t : Ctl)
  /-- event `STRAND_DISPATCH` (R294). -/
  | strandDispatch (core : Nat)
  /-- event `PRIORITY_PREEMPTION` (R295). -/
  | priorityPreemption
  /-- event `QUEUE_AGING` (R295). -/
  | queueAging (part q : Nat)
  /-- event `PREEMPTION_REQUEST` (R257). -/
  | preemptionRequest (sid : Nat)
  /-- event `STRAND_STOPPED` (R256). -/
  | strandStopped (sid : Nat)
  /-- event `TRAPPED_SAVE` (R256). -/
  | trappedSave (sid : Nat)
  /-- event `FAULT_RECORD_WRITE` (R263). -/
  | faultRecordWrite
  /-- event `FAULT_REPLY` (R264). -/
  | faultReply (part slot : Nat)
  /-- event `MIGRATION_SELECT` (R256). -/
  | migrationSelect (sid : Nat)
  /-- event `REEL_TRANSFER` (R379). -/
  | reelTransfer (sid pkg : Nat)
  /-- event `REEL_ARRIVED` (R379). -/
  | reelArrived (sid core : Nat)
  /-- event `NODE_COMPLETE` (R287). -/
  | nodeComplete (node : Nat)
  /-- event `READY_POOL_ENTRY` (R293). -/
  | readyPoolEntry
  /-- event `REPLAY_BIND` (R290). -/
  | replayBind (id : Nat)
  /-- event `SPAWNED_KERNEL_REJECT` (R298). -/
  | spawnedKernelReject (node : Nat)
  /-- event `ARBITER_PERIOD` (R393). -/
  | arbiterPeriod
  /-- event `ENGINE_ISSUE` (R193). -/
  | engineIssue (op : Nat)
  /-- event `ENGINE_DONE` (R195). -/
  | engineDone (op unit : Nat)
  /-- event `ENGINE_SUSPEND` (R195). -/
  | engineSuspend (op unit : Nat)
  /-- event `ENGINE_FAIL` (R195). -/
  | engineFail (op unit : Nat)
  /-- event `POST_STALL_RESUME` (R193). -/
  | postStallResume (sid : Nat)
  /-- event `STREAM_REFILL` (R192). -/
  | streamRefill (sid : Nat) (r : Reg) (granule : Nat)
  /-- event `GATHER_SUBREQUEST` (R376). -/
  | gatherSubrequest (op : Nat)
  /-- event `GATHER_REPLY` (R376). -/
  | gatherReply (op owner : Nat)
  /-- event `COLL_BLOCK` (R378). -/
  | collBlock (op rank : Nat)
  /-- event `QUERY_START` (R249). -/
  | queryStart (quad : Nat)
  /-- event `QUERY_DONE` (R248). -/
  | queryDone (quad ctx : Nat)
  /-- event `QUERY_SUSPEND` (R248). -/
  | querySuspend (quad ctx : Nat)
  /-- event `QUERY_FAIL` (R253). -/
  | queryFail (quad ctx : Nat)
  /-- event `BATCH_TIMEOUT` (R345). -/
  | batchTimeout (die : Nat)
  /-- event `BATCH_ARRIVE` (R346). -/
  | batchArrive (die src : Nat)
  /-- event `BATCH_APPLY` (R346). -/
  | batchApply (die src : Nat)
  /-- event `REMOTE_READ_REQUEST` (R346). -/
  | remoteReadRequest (die : Nat)
  /-- event `READ_REPLY` (R346). -/
  | readReply (die : Nat)
  /-- event `REMOTE_ATOMIC` (R349). -/
  | remoteAtomic (die : Nat)
  /-- event `REMOTE_ACCESS_TIMEOUT` (R380). -/
  | remoteAccessTimeout (sid pkg : Nat)
  /-- event `FLIT_DATA` (R372). -/
  | flitData (port : Nat)
  /-- event `FLIT_CREDIT` (R372). -/
  | flitCredit (port : Nat)
  /-- event `FLIT_REPLAY_REQUEST` (R372). -/
  | flitReplayRequest (port : Nat)
  /-- event `PORT_ENABLE` (R375). -/
  | portEnable (port : Nat)
  /-- event `PORT_TRAINED` (R375). -/
  | portTrained (port : Nat)
  /-- event `TRAINING_TIMEOUT` (R375). -/
  | trainingTimeout (port : Nat)
  /-- event `LANE_FAIL` (R375). -/
  | laneFail (port lane : Nat)
  /-- event `RETRAIN_DONE` (R375). -/
  | retrainDone (port : Nat)
  /-- event `RETRAIN_FAIL` (R375). -/
  | retrainFail (port : Nat)
  /-- event `PORT_DISABLE` (R375). -/
  | portDisable (port : Nat)
  /-- event `PEER_LOSS` (R380). -/
  | peerLoss (pkg : Nat)
  /-- event `HOST_PORT_DOWN` (R371). -/
  | hostPortDown
  /-- event `HOST_MEM_READ` (R354). -/
  | hostMemRead (host addr len : Nat)
  /-- event `HOST_MEM_WRITE` (R354). -/
  | hostMemWrite (host addr : Nat)
  /-- event `ECC_CORRECTED` (R397). -/
  | eccCorrected (chan : Nat)
  /-- event `ECC_UNCORRECTABLE` (R420). -/
  | eccUncorrectable (addr held : Nat)
  /-- event `DVFS_TRANSITION` (R383). -/
  | dvfsTransition (quad point : Nat)
  /-- event `POWER_WINDOW` (R386). -/
  | powerWindow
  /-- event `RAIL_WINDOW` (R236). -/
  | railWindow (core : Nat)
  /-- event `RAIL_STEP_RAISE` (R236). -/
  | railStepRaise (core : Nat)
  /-- event `BALLAST` (R385). -/
  | ballast (quad : Nat)
  /-- event `LANE_TRIM` (R382). -/
  | laneTrim (core : Nat)
  /-- event `GATE_DRAINED` (R388). -/
  | gateDrained (pair : Nat)
  /-- event `WAKE_DONE` (R388). -/
  | wakeDone (pair : Nat)
  /-- event `SLEEP_EXPIRY` (R274). -/
  | sleepExpiry (sid : Nat)
  /-- event `WAITT_END` (R274). -/
  | waittEnd (sid : Nat)
  /-- event `LEAT_SLOT_FREED` (R308). -/
  | leatSlotFreed (sid : Nat)
  /-- event `LEAT_ENTRY_ARRIVES` (R309). -/
  | leatEntryArrives (sid : Nat)
  /-- event `FE_WAIT_SATISFIED` (R181). -/
  | feWaitSatisfied (sid : Nat)
  /-- event `BARRIER_RELEASE` (R320). -/
  | barrierRelease (sid : Nat)
  /-- event `GSPLIT_ROUND_COMPLETE` (R305). -/
  | gsplitRoundComplete
  /-- event `PGATE_WAIT_END` (R389). -/
  | pgateWaitEnd (sid : Nat)
  /-- event `EWAIT_RETIRE` (R201). -/
  | ewaitRetire (sid : Nat)
  /-- event `CLAIM` (R398). -/
  | claim (host : Nat)
  /-- event `RENEW` (R398). -/
  | renew (host : Nat)
  /-- event `LEASE_LAPSE` (R398). -/
  | leaseLapse
  /-- event `HANDOVER` (R398). -/
  | handover (host dest : Nat)
  /-- event `ACCEPT` (R398). -/
  | accept (host : Nat)
  /-- event `HANDOVER_TIMEOUT` (R398). -/
  | handoverTimeout
  /-- event `READ` (R398). -/
  | read (host : Nat)
  /-- event `ATTEST` (R400). -/
  | attest (host : Nat)
  /-- event `SPDM_MEASUREMENT` (R400). -/
  | spdmMeasurement (host : Nat)
  /-- event `CREATE` (R391). -/
  | create (host : Nat)
  /-- event `MODIFY` (R394). -/
  | modify (host : Nat)
  /-- event `START` (R396). -/
  | start (host : Nat)
  /-- event `RESET` (R395). -/
  | reset (host part : Nat)
  /-- event `RESET_COMPLETE` (R395). -/
  | resetComplete (part : Nat)
  /-- event `DESTROY` (R395). -/
  | destroy (host part : Nat)
  /-- event `FWUPDATE` (R399). -/
  | fwupdate (host : Nat)
  /-- event `DEVICE_RESET` (R401). -/
  | deviceReset
  /-- event `HOST_PORT_UP` (R371). -/
  | hostPortUp
  /-- event `BISNP_RESPONSE` (R370). -/
  | bisnpResponse (line : Nat)
  /-- event `DOMAIN_BARRIER_ARRIVAL` (R321). -/
  | domainBarrierArrival
  /-- event `REMOTE_COUNTER_UPDATE` (R21). -/
  | remoteCounterUpdate
deriving DecidableEq, Repr

end Sys2Proof
end

