-- ==== Sys2Proof/WellFormed.lean ====
section
/-!
DEFINITION. What makes a term of `Instr` an instruction that a word can encode: the fields that R77 allows, the ranges
of R26, R82, R83, R85 to R87, R89 step 7 and the notes under the opcode map (R90). An event has no word and is well formed.
-/

namespace Sys2Proof

/-- R77: which guard and control fields may be non-zero. SY is allowed everywhere. -/
def Ctl.allows (t : Ctl) (g chA chB chC h o : Bool) : Bool :=
  (g || (t.mg == 0 && t.wg == .none)) && (chA || !t.chA) && (chB || !t.chB) && (chC || !t.chC)
    && (h || t.hint == 0) && (o || (!t.eo && !t.nv))

/-- The last source is a register (R79), so its field can carry a CH bit. -/
def Src.isReg : Src → Bool
  | .reg _ => true
  | _ => false

/-- The last source is the 20-bit immediate. -/
def Src.isImm : Src → Bool
  | .imm _ => true
  | _ => false

/-- `addpc` takes IMM20 or a literal word (R90). -/
def Src.isImmOrLit : Src → Bool
  | .imm _ => true
  | .lit _ => true
  | _ => false

/-- R79: in the three-source IMM20 form B is taken to be D. -/
def Src.impliedB (s : Src) (d b : Reg) : Bool := !s.isImm || d == b

/-- R115: a CSR with a field that a write form can change (R117). -/
def Csr.writable : Csr → Bool
  | .vl | .vtype | .grant | .fid | .mvl | .mmode | .cyc => false
  | _ => true

/-- Barrier objects of a tier (R19). -/
def Tier.barriers : Tier → Nat
  | .core => 16
  | .pair => 16
  | .quad => 32
  | .stack => 64
  | .domain => 64

/-- R83 for the tile instructions: NP needs 1 ≤ NM1 and KM1 ≤ NM1; elsewhere the three fields are 0. -/
def FmtSpec.tileOk (fs : FmtSpec) : Bool :=
  if fs.fmt = .np then decide (1 ≤ fs.nm1) && decide (fs.km1 ≤ fs.nm1)
  else fs.nm1 == 0 && fs.km1 == 0 && !fs.rhu

/-- What a slot's ROP works on (R86). -/
inductive RopClass where
  | int | flt | vec | load | store
deriving DecidableEq, Repr

/-- R86: the assigned restricted opcodes. -/
def Slot.ropClass (s : Slot) : Option RopClass :=
  let r := s.rop.toNat
  if r ≤ 0x09 then some .int
  else if r ≤ 0x0E then some .flt
  else if 0x10 ≤ r ∧ r ≤ 0x17 then some .vec
  else if 0x20 ≤ r ∧ r ≤ 0x21 then some .load
  else if 0x22 ≤ r ∧ r ≤ 0x23 then some .store
  else none

/-- R89 step 4: both ROP values are assigned, and IMM14 is 0 where I is 0. -/
def pairOk (s0 s1 : Slot) : Bool :=
  s0.ropClass.isSome && s1.ropClass.isSome && (s0.i || s0.imm == 0) && (s1.i || s1.imm == 0)

/-- The register class a slot writes: 0 for `g`, 1 for `v`, none for a store. -/
def Slot.writes (s : Slot) : Option Nat :=
  match s.ropClass with
  | some .int | some .flt | some .load => some 0
  | some .vec => some 1
  | _ => none

/-- R87: a memory ROP in slot 0, or two destinations of one class in one bank. -/
def pairBank (s0 s1 : Slot) : Bool :=
  s0.ropClass == some .load || s0.ropClass == some .store ||
  (match s0.writes, s1.writes with
   | some 0, some 0 => s0.d.toNat % 2 == s1.d.toNat % 2
   | some 1, some 1 => s0.d.toNat % 4 == s1.d.toNat % 4
   | _, _ => false)

/-- The conditions that a word of the instruction meets, whatever the state. -/
def Instr.wf : Instr → Bool
  | .add _ _ _ t => t.allows false false false false false false
  | .sub _ _ _ t => t.allows false false false false false false
  | .and _ _ _ t => t.allows false false false false false false
  | .or _ _ _ t => t.allows false false false false false false
  | .xor _ _ _ t => t.allows false false false false false false
  | .shl _ _ _ t => t.allows false false false false false false
  | .shr _ _ _ t => t.allows false false false false false false
  | .sra _ _ _ t => t.allows false false false false false false
  | .min _ _ _ t => t.allows false false false false false false
  | .max _ _ _ t => t.allows false false false false false false
  | .minu _ _ _ t => t.allows false false false false false false
  | .maxu _ _ _ t => t.allows false false false false false false
  | .slt _ _ _ t => t.allows false false false false false false
  | .sltu _ _ _ t => t.allows false false false false false false
  | .seq _ _ _ t => t.allows false false false false false false
  | .mul _ _ _ t => t.allows false false false false false false
  | .mulh _ _ _ t => t.allows false false false false false false
  | .mulhu _ _ _ t => t.allows false false false false false false
  | .div _ _ _ t => t.allows false false false false false false
  | .divu _ _ _ t => t.allows false false false false false false
  | .rem _ _ _ t => t.allows false false false false false false
  | .remu _ _ _ t => t.allows false false false false false false
  | .clz _ _ t => t.allows false false false false false false
  | .ctz _ _ t => t.allows false false false false false false
  | .popc _ _ t => t.allows false false false false false false
  | .bswap _ _ t => t.allows false false false false false false
  | .sxb _ _ t => t.allows false false false false false false
  | .sxh _ _ t => t.allows false false false false false false
  | .sxw _ _ t => t.allows false false false false false false
  | .zxb _ _ t => t.allows false false false false false false
  | .zxh _ _ t => t.allows false false false false false false
  | .zxw _ _ t => t.allows false false false false false false
  | .addpc _ src t => t.allows false false false false false false && src.isImmOrLit
  | .fadd _ _ _ _ t => t.allows false false false false false false
  | .fsub _ _ _ _ t => t.allows false false false false false false
  | .fmul _ _ _ _ t => t.allows false false false false false false
  | .fdiv _ _ _ _ t => t.allows false false false false false false
  | .fmin _ _ _ _ t => t.allows false false false false false false
  | .fmax _ _ _ _ t => t.allows false false false false false false
  | .fsqrt _ _ _ t => t.allows false false false false false false
  | .fabs _ _ _ t => t.allows false false false false false false
  | .fneg _ _ _ t => t.allows false false false false false false
  | .feq _ _ _ _ t => t.allows false false false false false false
  | .flt _ _ _ _ t => t.allows false false false false false false
  | .fle _ _ _ _ t => t.allows false false false false false false
  | .ffma _ d _ b src t => t.allows false false false false false false && src.impliedB d b
  | .ffms _ d _ b src t => t.allows false false false false false false && src.impliedB d b
  | .ffnma _ d _ b src t => t.allows false false false false false false && src.impliedB d b
  | .ffnms _ d _ b src t => t.allows false false false false false false && src.impliedB d b
  | .fcvt _ _ _ _ _ _ t => t.allows false false false false false false
  | .jal _ _ t => t.allows false false false false false false
  | .jr _ _ t => t.allows false false false false false false
  | .bEq _ _ _ t => t.allows false false false false false false
  | .bNe _ _ _ t => t.allows false false false false false false
  | .bLt _ _ _ t => t.allows false false false false false false
  | .bGe _ _ _ t => t.allows false false false false false false
  | .bLtu _ _ _ t => t.allows false false false false false false
  | .bGeu _ _ _ t => t.allows false false false false false false
  | .subbr _ _ _ t => t.allows false false false false false false
  | .csrr _ _ t => t.allows false false false false false false
  | .csrw r _ t => t.allows false false false false false false && r.writable
  | .csrs r _ t => t.allows false false false false false false && r.writable
  | .csrc r _ t => t.allows false false false false false false && r.writable
  | .setvl _ _ f k t => t.allows false false false false false false && (f == .np || k == 0)
  | .halt t => t.allows false false false false false false
  | .yield t => t.allows false false false false false false
  | .trap _ t => t.allows false false false false false false
  | .eret t => t.allows false false false false false false
  | .sleep _ t => t.allows false false false false false false
  | .waitt _ _ t => t.allows false false false false false false
  | .grant _ _ t => t.allows false false false false false false
  | .pgate _ _ t => t.allows false false false false false false
  | .xlinvAddr _ t => t.allows false false false false false false
  | .xlinvPart _ t => t.allows false false false false false false
  | .xlinvAll t => t.allows false false false false false false
  | .pgq _ _ t => t.allows false false false false false false
  | .pairWord s0 s1 => pairOk s0 s1 && !pairBank s0 s1
  | .vadd _ _ src t => t.allows true true (src.isReg) false false false
  | .vsub _ _ src t => t.allows true true (src.isReg) false false false
  | .vmul _ _ src t => t.allows true true (src.isReg) false false false
  | .vdiv _ _ src t => t.allows true true (src.isReg) false false false
  | .vmin _ _ src t => t.allows true true (src.isReg) false false false
  | .vmax _ _ src t => t.allows true true (src.isReg) false false false
  | .vand _ _ src t => t.allows true true (src.isReg) false false false
  | .vor _ _ src t => t.allows true true (src.isReg) false false false
  | .vxor _ _ src t => t.allows true true (src.isReg) false false false
  | .vshl _ _ src t => t.allows true true (src.isReg) false false false
  | .vshr _ _ src t => t.allows true true (src.isReg) false false false
  | .vsra _ _ src t => t.allows true true (src.isReg) false false false
  | .vmulh _ _ src t => t.allows true true (src.isReg) false false false
  | .vabsd _ _ src t => t.allows true true (src.isReg) false false false
  | .vsgnj _ _ src t => t.allows true true (src.isReg) false false false
  | .vaddSat _ _ src t => t.allows true true (src.isReg) false false false
  | .vsubSat _ _ src t => t.allows true true (src.isReg) false false false
  | .vmulSat _ _ src t => t.allows true true (src.isReg) false false false
  | .vfma d _ b src t => t.allows true true (!src.isImm) (src.isReg) false false && src.impliedB d b
  | .vfms d _ b src t => t.allows true true (!src.isImm) (src.isReg) false false && src.impliedB d b
  | .vfnma d _ b src t => t.allows true true (!src.isImm) (src.isReg) false false && src.impliedB d b
  | .vfnms d _ b src t => t.allows true true (!src.isImm) (src.isReg) false false && src.impliedB d b
  | .vneg _ _ t => t.allows true true false false false false
  | .vabs _ _ t => t.allows true true false false false false
  | .vsqrt _ _ t => t.allows true true false false false false
  | .vmov _ _ t => t.allows true true false false false false
  | .vnot _ _ t => t.allows true true false false false false
  | .vcmpEq d _ src t => t.allows true true (src.isReg) false false false && d != 0
  | .vcmpNe d _ src t => t.allows true true (src.isReg) false false false && d != 0
  | .vcmpLt d _ src t => t.allows true true (src.isReg) false false false && d != 0
  | .vcmpLe d _ src t => t.allows true true (src.isReg) false false false && d != 0
  | .vcmpGt d _ src t => t.allows true true (src.isReg) false false false && d != 0
  | .vcmpGe d _ src t => t.allows true true (src.isReg) false false false && d != 0
  | .vcmpUn d _ src t => t.allows true true (src.isReg) false false false && d != 0
  | .vmerge _ _ _ _ t => t.allows true true true false false false
  | .vcvt _ _ _ _ _ _ _ t => t.allows true true false false false false
  | .vsfuExp _ _ t => t.allows true true false false false false
  | .vsfuExp2 _ _ t => t.allows true true false false false false
  | .vsfuLog _ _ t => t.allows true true false false false false
  | .vsfuLog2 _ _ t => t.allows true true false false false false
  | .vsfuRcp _ _ t => t.allows true true false false false false
  | .vsfuRsqrt _ _ t => t.allows true true false false false false
  | .vsfuSqrt _ _ t => t.allows true true false false false false
  | .vsfuTanh _ _ t => t.allows true true false false false false
  | .vsfuSig _ _ t => t.allows true true false false false false
  | .vsfuGelu _ _ t => t.allows true true false false false false
  | .vsfuSin _ _ t => t.allows true true false false false false
  | .vsfuCos _ _ t => t.allows true true false false false false
  | .vredFsum _ _ _ t => t.allows true true false false false false
  | .vredFmax _ _ _ t => t.allows true true false false false false
  | .vredFmin _ _ _ t => t.allows true true false false false false
  | .vredIsum _ _ _ t => t.allows true true false false false false
  | .vredImax _ _ _ t => t.allows true true false false false false
  | .vredImin _ _ _ t => t.allows true true false false false false
  | .vredImaxu _ _ _ t => t.allows true true false false false false
  | .vredIminu _ _ _ t => t.allows true true false false false false
  | .vredAnd _ _ _ t => t.allows true true false false false false
  | .vredOr _ _ _ t => t.allows true true false false false false
  | .vredXor _ _ _ t => t.allows true true false false false false
  | .vid _ t => t.allows true false false false false false
  | .vrngBits _ _ t => t.allows true false false false false false
  | .vrngUnit _ _ t => t.allows true false false false false false
  | .vdrop _ _ _ t => t.allows true true false false false false
  | .vperm _ _ _ t => t.allows true true true false false false
  | .vrot _ _ _ t => t.allows true true false false false false
  | .vslideUp _ _ _ t => t.allows true true false false false false
  | .vslideDn _ _ _ t => t.allows true true false false false false
  | .vcomp _ _ _ t => t.allows true true false false false false
  | .vexp _ _ _ t => t.allows true true false false false false
  | .mand d _ _ t => t.allows false false false false false false && d != 0
  | .mor d _ _ t => t.allows false false false false false false && d != 0
  | .mxor d _ _ t => t.allows false false false false false false && d != 0
  | .mandn d _ _ t => t.allows false false false false false false && d != 0
  | .mnot d _ t => t.allows false false false false false false && d != 0
  | .mcnt _ _ t => t.allows false false false false false false
  | .many _ _ t => t.allows false false false false false false
  | .mfirst _ _ t => t.allows false false false false false false
  | .wset _ _ t => t.allows true false false false false false
  | .wsigH _ _ t => t.allows true true false false false false
  | .wsigS _ _ t => t.allows true true false false false false
  | .wget _ _ t => t.allows true false false false false false
  | .wmul _ _ _ t => t.allows true false false false false false
  | .wcmp d _ t => t.allows true false false false false false && d != 0
  | .arm _ _ t => t.allows false false false false false false
  | .armb _ _ t => t.allows false false false false false false
  | .armend t => t.allows false false false false false false
  | .join _ _ _ _ t => t.allows true true true false false false
  | .joinb d _ _ _ _ t => t.allows true true true true false false && decide (d ≤ 29)
  | .wloop _ _ _ t => t.allows false false false false false false
  | .wlend _ t => t.allows false false false false false false
  | .ld8 _ _ _ _ t => t.allows false false false false true false
  | .ld16 _ _ _ _ t => t.allows false false false false true false
  | .ld32 _ _ _ _ t => t.allows false false false false true false
  | .ld64 _ _ _ _ t => t.allows false false false false true false
  | .ldz8 _ _ _ _ t => t.allows false false false false true false
  | .ldz16 _ _ _ _ t => t.allows false false false false true false
  | .ldz32 _ _ _ _ t => t.allows false false false false true false
  | .st8 _ _ _ _ t => t.allows false false false false true false
  | .st16 _ _ _ _ t => t.allows false false false false true false
  | .st32 _ _ _ _ t => t.allows false false false false true false
  | .st64 _ _ _ _ t => t.allows false false false false true false
  | .vld _ _ _ _ k _ t => t.allows true false false false true true && decide (k ≤ 16)
  | .vlds _ _ _ _ k _ t => t.allows true false false false true true && decide (k ≤ 16)
  | .vldx _ _ _ _ k _ t => t.allows true false true false true true && decide (k ≤ 16)
  | .vst _ _ _ _ k t => t.allows true true false false true true && decide (k ≤ 16)
  | .vsts _ _ _ _ k t => t.allows true true false false true true && decide (k ≤ 16)
  | .vstx _ _ _ _ k t => t.allows true true false true true true && decide (k ≤ 16)
  | .vstp _ _ _ _ k t => t.allows true true false false true true && decide (k ≤ 16)
  | .vstpPa _ _ _ _ k t => t.allows true true false false true true && decide (k ≤ 16)
  | .feset _ _ t => t.allows false false false false false false
  | .feclr _ _ t => t.allows false false false false false false
  | .amoAdd _ _ _ _ t => t.allows false false false false true false
  | .amoAnd _ _ _ _ t => t.allows false false false false true false
  | .amoOr _ _ _ _ t => t.allows false false false false true false
  | .amoXor _ _ _ _ t => t.allows false false false false true false
  | .amoMin _ _ _ _ t => t.allows false false false false true false
  | .amoMax _ _ _ _ t => t.allows false false false false true false
  | .amoMinu _ _ _ _ t => t.allows false false false false true false
  | .amoMaxu _ _ _ _ t => t.allows false false false false true false
  | .amoSwap _ _ _ _ t => t.allows false false false false true false
  | .amoCas _ _ _ _ _ t => t.allows false false false false true false
  | .vamoAdd _ _ _ _ _ t => t.allows true false true true true true
  | .vamoAnd _ _ _ _ _ t => t.allows true false true true true true
  | .vamoOr _ _ _ _ _ t => t.allows true false true true true true
  | .vamoXor _ _ _ _ _ t => t.allows true false true true true true
  | .vamoMin _ _ _ _ _ t => t.allows true false true true true true
  | .vamoMax _ _ _ _ _ t => t.allows true false true true true true
  | .vamoMinu _ _ _ _ _ t => t.allows true false true true true true
  | .vamoMaxu _ _ _ _ _ t => t.allows true false true true true true
  | .vamoSwap _ _ _ _ _ t => t.allows true false true true true true
  | .vamoCas _ _ _ _ _ t => t.allows true false true true true true
  | .amoacc _ _ _ t => t.allows true false true false true true
  | .vldbfa _ _ _ t => t.allows true false false false true true
  | .fenceC _ t => t.allows false false false false false false
  | .fenceS _ t => t.allows false false false false false false
  | .fenceRec _ t => t.allows false false false false false false
  | .fenceHost _ t => t.allows false false false false false false
  | .fenceEng _ t => t.allows false false false false false false
  | .strm d _ _ t => t.allows false false false false true false && decide (24 ≤ d)
  | .strmx d t => t.allows false false false false false false && decide (24 ≤ d)
  | .stash _ _ t => t.allows false false false false true false
  | .stflush _ _ t => t.allows false false false false false false
  | .stinv _ _ t => t.allows false false false false false false
  | .pref _ _ t => t.allows false false false false true false
  | .vcapp _ _ t => t.allows true false true false true true
  | .cpy _ _ _ _ t => t.allows false false false false true true
  | .gath _ _ _ _ t => t.allows false false false false true true
  | .scat _ _ _ _ t => t.allows false false false false true true
  | .collAg _ _ _ _ t => t.allows false false false false true true
  | .collRs _ _ _ _ _ t => t.allows false false false false true true
  | .collAr _ _ _ _ _ t => t.allows false false false false true true
  | .ewait _ t => t.allows false false false false false false
  | .glaunch _ _ t => t.allows false false false false false false
  | .nspawn _ _ t => t.allows false false false false false false
  | .dcset _ _ t => t.allows false false false false false false
  | .dcdec _ _ t => t.allows false false false false false false
  | .npatch _ _ _ t => t.allows false false false false false false
  | .gid _ _ t => t.allows false false false false false false
  | .gsplit _ _ _ t => t.allows false false false false false false
  | .lput _ t => t.allows false true false false false false
  | .lget _ t => t.allows false false false false false false
  | .lfree _ t => t.allows false false false false false false
  | .bari tier i _ t => t.allows false false false false false false && decide (i.toNat < tier.barriers)
  | .barr tier i t => t.allows false false false false false false && decide (i.toNat < tier.barriers)
  | .barw tier i t => t.allows false false false false false false && decide (i.toNat < tier.barriers)
  | .barrw tier i t => t.allows false false false false false false && decide (i.toNat < tier.barriers)
  | .msmode _ _ t => t.allows false false false false false false
  | .mclaim _ n t => t.allows false false false false false false && decide (1 ≤ n ∧ n ≤ 32)
  | .mrel _ t => t.allows false false false false false false
  | .mlds _ _ t => t.allows false false false false false false
  | .mldw _ fs t => t.allows false false false false false false && fs.tileOk
  | .mstrm _ _ fs t => t.allows false true false false false false && fs.tileOk
  | .mxprod _ _ _ t => t.allows false true true false false false
  | .mzero _ t => t.allows false false false false false false
  | .mrdzSplit d _ _ t => t.allows false false false false false false && decide (d ≤ 30)
  | .mrdzMerge _ _ _ t => t.allows false false false false false false
  | .mwrz _ _ _ t => t.allows false true false false false false
  | .mcol _ _ _ t => t.allows false false false false false false
  | .mtrs _ _ t => t.allows false false false false false false
  | .msts _ _ _ t => t.allows false false false false false false
  | .mstsCmp _ _ _ t => t.allows false false false false false false
  | .mstsCmpTrap _ _ _ t => t.allows false false false false false false
  | .seqdef _ t => t.allows false false false false false false
  | .seqrun _ t => t.allows false false false false false false
  | .kset _ _ t => t.allows false false false false false false
  | .kclr _ _ t => t.allows false false false false false false
  | .kld _ _ t => t.allows false false false false false false
  | .ktst _ _ _ t => t.allows false false false false false false
  | .voptSgd _ _ _ _ t => t.allows false false true false true true
  | .voptMsgd _ _ _ _ t => t.allows false false true false true true
  | .voptAdam _ _ _ _ t => t.allows false false true false true true
  | .vsal _ _ _ t => t.allows true true true false false false
  | .vnms d _ n t => t.allows false true false false false false && d != 0 && decide (1 ≤ n ∧ n ≤ 8)
  | .qterm _ _ _ t => t.allows false false false false false false
  | .qvec _ _ _ t => t.allows false false false false false false
  | .qexec _ _ t => t.allows false false false false false false
  | .qstat _ _ t => t.allows false false false false false false
  | .strandDispatch _ => true
  | .priorityPreemption => true
  | .queueAging _ _ => true
  | .preemptionRequest _ => true
  | .strandStopped _ => true
  | .trappedSave _ => true
  | .faultRecordWrite => true
  | .faultReply _ _ => true
  | .migrationSelect _ => true
  | .reelTransfer _ _ => true
  | .reelArrived _ _ => true
  | .nodeComplete _ => true
  | .readyPoolEntry => true
  | .replayBind _ => true
  | .spawnedKernelReject _ => true
  | .arbiterPeriod => true
  | .engineIssue _ => true
  | .engineDone _ _ => true
  | .engineSuspend _ _ => true
  | .engineFail _ _ => true
  | .postStallResume _ => true
  | .streamRefill _ _ _ => true
  | .gatherSubrequest _ => true
  | .gatherReply _ _ => true
  | .collBlock _ _ => true
  | .queryStart _ => true
  | .queryDone _ _ => true
  | .querySuspend _ _ => true
  | .queryFail _ _ => true
  | .batchTimeout _ => true
  | .batchArrive _ _ => true
  | .batchApply _ _ => true
  | .remoteReadRequest _ => true
  | .readReply _ => true
  | .remoteAtomic _ => true
  | .remoteAccessTimeout _ _ => true
  | .flitData _ => true
  | .flitCredit _ => true
  | .flitReplayRequest _ => true
  | .portEnable _ => true
  | .portTrained _ => true
  | .trainingTimeout _ => true
  | .laneFail _ _ => true
  | .retrainDone _ => true
  | .retrainFail _ => true
  | .portDisable _ => true
  | .peerLoss _ => true
  | .hostPortDown => true
  | .hostMemRead _ _ _ => true
  | .hostMemWrite _ _ => true
  | .eccCorrected _ => true
  | .eccUncorrectable _ _ => true
  | .dvfsTransition _ _ => true
  | .powerWindow => true
  | .railWindow _ => true
  | .railStepRaise _ => true
  | .ballast _ => true
  | .laneTrim _ => true
  | .gateDrained _ => true
  | .wakeDone _ => true
  | .sleepExpiry _ => true
  | .waittEnd _ => true
  | .leatSlotFreed _ => true
  | .leatEntryArrives _ => true
  | .feWaitSatisfied _ => true
  | .barrierRelease _ => true
  | .gsplitRoundComplete => true
  | .pgateWaitEnd _ => true
  | .ewaitRetire _ => true
  | .claim _ => true
  | .renew _ => true
  | .leaseLapse => true
  | .handover _ _ => true
  | .accept _ => true
  | .handoverTimeout => true
  | .read _ => true
  | .attest _ => true
  | .spdmMeasurement _ => true
  | .create _ => true
  | .modify _ => true
  | .start _ => true
  | .reset _ _ => true
  | .resetComplete _ => true
  | .destroy _ _ => true
  | .fwupdate _ => true
  | .deviceReset => true
  | .hostPortUp => true
  | .bisnpResponse _ => true
  | .domainBarrierArrival => true
  | .remoteCounterUpdate => true

end Sys2Proof
end

