-- ==== Sys2Proof/Decode.lean ====
section
/-!
DEFINITION. The decoder, total on any bytes, and after it the encoder. A full word is cut into the fields of R74 once;
each OP value of R90 has one function from the fields to an instruction, or to nothing where R89 steps 6 and 7 take ILLEGAL.
What depends on the state (the code end, the core class, the constant count, privilege, `vtype`) is checked where the
instruction issues (Machine/Step.lean and the meanings).
-/

namespace Sys2Proof

/-- Why a word is no instruction, with the causes of R89 steps 2 to 7; `short` says that bytes are missing. -/
inductive DecodeError where
  | wordKind | litExec | illegal | pairBank | short
deriving DecidableEq, Repr

/-- What a word decodes to. -/
inductive Decoded where
  | instr (i : Instr)
  | bad (e : DecodeError)
deriving DecidableEq, Repr

/-- One bit. -/
def bit (b : Bool) : BitVec 1 := BitVec.ofBool b

/-! The codes that fields hold. -/

/-- R26. -/
def Fmt.code : Fmt → BitVec 5
  | .i8 => 0 | .i16 => 1 | .i32 => 2 | .i64 => 3 | .u8 => 4 | .u16 => 5 | .u32 => 6 | .u64 => 7
  | .fp16 => 8 | .bf16 => 9 | .fp32 => 10 | .np => 12 | .uq15 => 13 | .bfa24 => 14

/-- R26; 0xB, 0xF and anything above are reserved. -/
def Fmt.ofCode (c : BitVec 5) : Option Fmt :=
  match c.toNat with
  | 0 => some .i8 | 1 => some .i16 | 2 => some .i32 | 3 => some .i64
  | 4 => some .u8 | 5 => some .u16 | 6 => some .u32 | 7 => some .u64
  | 8 => some .fp16 | 9 => some .bf16 | 10 => some .fp32 | 12 => some .np | 13 => some .uq15 | 14 => some .bfa24
  | _ => none

/-- OP 0x20, 0x21, 0x22. -/
def FFmt.fop : FFmt → BitVec 8
  | .fp32 => 0x20 | .bf16 => 0x21 | .fp16 => 0x22

/-- FN 3:2 of OP 0x23. -/
def FFmt.code2 : FFmt → BitVec 2
  | .fp32 => 0 | .bf16 => 1 | .fp16 => 2

/-- FN 3:2 of OP 0x23; 3 is not assigned. -/
def FFmt.ofCode (c : BitVec 2) : Option FFmt :=
  match c.toNat with
  | 0 => some .fp32 | 1 => some .bf16 | 2 => some .fp16 | _ => none

/-- R46. -/
def Mode.code : Mode → BitVec 3
  | .rne => 0 | .rtz => 1 | .rdn => 2 | .rup => 3 | .sr => 4 | .dyn => 7

/-- R46; 5 and 6 are reserved. -/
def Mode.ofCode (c : BitVec 3) : Option Mode :=
  match c.toNat with
  | 0 => some .rne | 1 => some .rtz | 2 => some .rdn | 3 => some .rup | 4 => some .sr | 7 => some .dyn | _ => none

/-- R84. -/
def Tier.code : Tier → BitVec 3
  | .core => 0 | .pair => 1 | .quad => 2 | .stack => 3 | .domain => 4

/-- R84; 5 to 7 are reserved. -/
def Tier.ofCode (c : BitVec 3) : Option Tier :=
  match c.toNat with
  | 0 => some .core | 1 => some .pair | 2 => some .quad | 3 => some .stack | 4 => some .domain | _ => none

/-- R80. -/
def Feq.code : Feq → BitVec 2
  | .plain => 0 | .fe => 1 | .fc => 2

/-- R80; 3 is reserved. -/
def Feq.ofCode (c : BitVec 2) : Option Feq :=
  match c.toNat with
  | 0 => some .plain | 1 => some .fe | 2 => some .fc | _ => none

/-- The CSR numbers of R116. -/
def Csr.num : Csr → BitVec 12
  | .vl => 0x000 | .vtype => 0x001 | .vstart => 0x002 | .grant => 0x003
  | .rmode => 0x010 | .fflags => 0x011 | .repro => 0x012 | .seed => 0x013 | .fid => 0x014
  | .wth => 0x020 | .wprune => 0x021 | .armst => 0x022
  | .mstart => 0x030 | .mvl => 0x031 | .mmode => 0x032 | .skew => 0x040
  | .ecnt0 => 0x050 | .ecnt1 => 0x051 | .ecnt2 => 0x052 | .ecnt3 => 0x053
  | .cyc => 0x060 | .epc => 0x070 | .cause => 0x071 | .tval => 0x072 | .status => 0x073

/-- R116; a number that the map does not assign takes ILLEGAL. -/
def Csr.ofNum (n : BitVec 12) : Option Csr :=
  match n.toNat with
  | 0x000 => some .vl | 0x001 => some .vtype | 0x002 => some .vstart | 0x003 => some .grant
  | 0x010 => some .rmode | 0x011 => some .fflags | 0x012 => some .repro | 0x013 => some .seed | 0x014 => some .fid
  | 0x020 => some .wth | 0x021 => some .wprune | 0x022 => some .armst
  | 0x030 => some .mstart | 0x031 => some .mvl | 0x032 => some .mmode | 0x040 => some .skew
  | 0x050 => some .ecnt0 | 0x051 => some .ecnt1 | 0x052 => some .ecnt2 | 0x053 => some .ecnt3
  | 0x060 => some .cyc | 0x070 => some .epc | 0x071 => some .cause | 0x072 => some .tval | 0x073 => some .status
  | _ => none

/-! The fields of a full word (R74). -/

/-- Bits 61:0 of a full word. -/
structure Fields where
  op : BitVec 8
  fn : BitVec 6
  d : BitVec 5
  a : BitVec 5
  b : BitVec 5
  c : BitVec 5
  e : BitVec 5
  x : BitVec 5
  mg : BitVec 4
  wgEn : Bool
  wgArm : Bool
  wgW : BitVec 3
  chA : Bool
  chB : Bool
  chC : Bool
  hint : BitVec 2
  eo : Bool
  nv : Bool
  lit : Bool
  sy : Bool
deriving DecidableEq, Repr

/-- R74 and R75: the places of the fields. -/
def Fields.ofWord (w : Word) : Fields :=
  { op := w.extractLsb' 54 8, fn := w.extractLsb' 48 6, d := w.extractLsb' 43 5, a := w.extractLsb' 38 5,
    b := w.extractLsb' 33 5, c := w.extractLsb' 28 5, e := w.extractLsb' 23 5, x := w.extractLsb' 18 5,
    mg := w.extractLsb' 14 4, wgEn := w.getLsbD 13, wgArm := w.getLsbD 12, wgW := w.extractLsb' 9 3,
    chA := w.getLsbD 8, chB := w.getLsbD 7, chC := w.getLsbD 6, hint := w.extractLsb' 4 2,
    eo := w.getLsbD 3, nv := w.getLsbD 2, lit := w.getLsbD 1, sy := w.getLsbD 0 }

/-- FN 3:0, the function number of an S form (R79). -/
def Fields.fnLow (f : Fields) : BitVec 4 := f.fn.extractLsb' 0 4

/-- FN 5:4, SRCK (R79). -/
def Fields.srck (f : Fields) : BitVec 2 := f.fn.extractLsb' 4 2

/-- The guard and control fields; nothing where WG.EN is 0 and WG.ARM or WG.W is not (R76). -/
def Fields.ctl (f : Fields) : Option Ctl :=
  if !f.wgEn && (f.wgArm || f.wgW != 0) then none
  else some
    { mg := f.mg, wg := if f.wgEn then some { armB := f.wgArm, w := f.wgW } else none,
      chA := f.chA, chB := f.chB, chC := f.chC, hint := f.hint, eo := f.eo, nv := f.nv, sy := f.sy }

/-- FS of R83 in bits 30:18. -/
def Fields.fmtSpec (f : Fields) : Option FmtSpec :=
  (Fmt.ofCode (0#1 ++ f.c.extractLsb' 0 3 ++ f.e.extractLsb' 4 1)).bind fun q =>
    some { fmt := q, nm1 := f.e.extractLsb' 0 4, km1 := f.x.extractLsb' 1 4, rhu := f.x.getLsbD 0 }

/-- R81: the value of a literal word, where the word is one. -/
def litValue (w : Word) : Option (BitVec 32) :=
  if w.extractLsb' 62 2 == 0b10#2 && w.extractLsb' 32 30 == 0 then some (w.extractLsb' 0 32) else none

/-- The literal operand that follows, where SRCK is 1 and LIT is set. -/
def litSrc (lw : Option Word) : Option Src :=
  lw.bind fun w => (litValue w).bind fun v => some (.lit v)

/-- IMM20 in bits 37:18. -/
def Fields.imm20 (f : Fields) : BitVec 20 := f.b ++ f.c ++ f.e ++ f.x

/-- The constant-bank index in bits 25:18; bits 27:26 are zero. -/
def Fields.cbSrc (f : Fields) : Option Src :=
  if f.e.toNat < 8 then some (.cb (f.e.extractLsb' 0 3 ++ f.x)) else none

/-- R79: the last source of a two-source S form. -/
def src2 (f : Fields) (lw : Option Word) : Option Src :=
  match f.srck.toNat with
  | 0 => if !f.lit && f.c == 0 && f.e == 0 && f.x == 0 then some (.reg f.b) else none
  | 1 => if f.lit then (if f.imm20 == 0 then litSrc lw else none) else some (.imm f.imm20)
  | 2 => if !f.lit && f.b == 0 && f.c == 0 then f.cbSrc else none
  | _ => none

/-- R79: the last source of a one-source S form; the field it replaces is 0. -/
def src1 (f : Fields) (lw : Option Word) : Option Src :=
  match f.srck.toNat with
  | 0 => if !f.lit && f.imm20 == 0 then some (.reg f.a) else none
  | 1 => if f.a != 0 then none
         else if f.lit then (if f.imm20 == 0 then litSrc lw else none) else some (.imm f.imm20)
  | 2 => if !f.lit && f.a == 0 && f.b == 0 && f.c == 0 then f.cbSrc else none
  | _ => none

/-- R79: B and the last source of a three-source S form; in the IMM20 form B is taken to be D. -/
def src3 (f : Fields) (lw : Option Word) : Option (Reg × Src) :=
  match f.srck.toNat with
  | 0 => if !f.lit && f.e == 0 && f.x == 0 then some (f.b, .reg f.c) else none
  | 1 => if f.lit then
           (if f.c == 0 && f.e == 0 && f.x == 0 then (litSrc lw).bind fun s => some (f.b, s) else none)
         else some (f.d, .imm f.imm20)
  | 2 => if !f.lit && f.c == 0 then f.cbSrc.bind fun s => some (f.b, s) else none
  | _ => none

/-- OP 0x00 of R90. -/
def dec00 (f : Fields) (lw : Option Word) (t : Ctl) : Option Instr :=
  match f.fnLow.toNat with
  | 0 => (src2 f lw).bind fun s => some (.add f.d f.a s t)
  | 1 => (src2 f lw).bind fun s => some (.sub f.d f.a s t)
  | 2 => (src2 f lw).bind fun s => some (.and f.d f.a s t)
  | 3 => (src2 f lw).bind fun s => some (.or f.d f.a s t)
  | 4 => (src2 f lw).bind fun s => some (.xor f.d f.a s t)
  | 5 => (src2 f lw).bind fun s => some (.shl f.d f.a s t)
  | 6 => (src2 f lw).bind fun s => some (.shr f.d f.a s t)
  | 7 => (src2 f lw).bind fun s => some (.sra f.d f.a s t)
  | 8 => (src2 f lw).bind fun s => some (.min f.d f.a s t)
  | 9 => (src2 f lw).bind fun s => some (.max f.d f.a s t)
  | 10 => (src2 f lw).bind fun s => some (.minu f.d f.a s t)
  | 11 => (src2 f lw).bind fun s => some (.maxu f.d f.a s t)
  | 12 => (src2 f lw).bind fun s => some (.slt f.d f.a s t)
  | 13 => (src2 f lw).bind fun s => some (.sltu f.d f.a s t)
  | 14 => (src2 f lw).bind fun s => some (.seq f.d f.a s t)
  | _ => none

/-- OP 0x01 of R90. -/
def dec01 (f : Fields) (lw : Option Word) (t : Ctl) : Option Instr :=
  match f.fnLow.toNat with
  | 0 => (src2 f lw).bind fun s => some (.mul f.d f.a s t)
  | 1 => (src2 f lw).bind fun s => some (.mulh f.d f.a s t)
  | 2 => (src2 f lw).bind fun s => some (.mulhu f.d f.a s t)
  | 3 => (src2 f lw).bind fun s => some (.div f.d f.a s t)
  | 4 => (src2 f lw).bind fun s => some (.divu f.d f.a s t)
  | 5 => (src2 f lw).bind fun s => some (.rem f.d f.a s t)
  | 6 => (src2 f lw).bind fun s => some (.remu f.d f.a s t)
  | _ => none

/-- OP 0x02 of R90. -/
def dec02 (f : Fields) (_ : Option Word) (t : Ctl) : Option Instr :=
  match f.fn.toNat with
  | 0 => if f.b == 0 && f.c == 0 && f.e == 0 && f.x == 0 && !f.lit then some (.clz f.d f.a t) else none
  | 1 => if f.b == 0 && f.c == 0 && f.e == 0 && f.x == 0 && !f.lit then some (.ctz f.d f.a t) else none
  | 2 => if f.b == 0 && f.c == 0 && f.e == 0 && f.x == 0 && !f.lit then some (.popc f.d f.a t) else none
  | 3 => if f.b == 0 && f.c == 0 && f.e == 0 && f.x == 0 && !f.lit then some (.bswap f.d f.a t) else none
  | 4 => if f.b == 0 && f.c == 0 && f.e == 0 && f.x == 0 && !f.lit then some (.sxb f.d f.a t) else none
  | 5 => if f.b == 0 && f.c == 0 && f.e == 0 && f.x == 0 && !f.lit then some (.sxh f.d f.a t) else none
  | 6 => if f.b == 0 && f.c == 0 && f.e == 0 && f.x == 0 && !f.lit then some (.sxw f.d f.a t) else none
  | 7 => if f.b == 0 && f.c == 0 && f.e == 0 && f.x == 0 && !f.lit then some (.zxb f.d f.a t) else none
  | 8 => if f.b == 0 && f.c == 0 && f.e == 0 && f.x == 0 && !f.lit then some (.zxh f.d f.a t) else none
  | 9 => if f.b == 0 && f.c == 0 && f.e == 0 && f.x == 0 && !f.lit then some (.zxw f.d f.a t) else none
  | _ => none

/-- OP 0x03 of R90. -/
def dec03 (f : Fields) (lw : Option Word) (t : Ctl) : Option Instr :=
  match f.fnLow.toNat with
  | 0 => (src1 f lw).bind fun s => some (.addpc f.d s t)
  | _ => none

/-- OP 0x20 to 0x22 of R90. -/
def dec20 (q : FFmt) (f : Fields) (lw : Option Word) (t : Ctl) : Option Instr :=
  match f.fnLow.toNat with
  | 0 => (src2 f lw).bind fun s => some (.fadd q f.d f.a s t)
  | 1 => (src2 f lw).bind fun s => some (.fsub q f.d f.a s t)
  | 2 => (src2 f lw).bind fun s => some (.fmul q f.d f.a s t)
  | 3 => (src2 f lw).bind fun s => some (.fdiv q f.d f.a s t)
  | 4 => (src2 f lw).bind fun s => some (.fmin q f.d f.a s t)
  | 5 => (src2 f lw).bind fun s => some (.fmax q f.d f.a s t)
  | 6 => (src1 f lw).bind fun s => some (.fsqrt q f.d s t)
  | 7 => (src1 f lw).bind fun s => some (.fabs q f.d s t)
  | 8 => (src1 f lw).bind fun s => some (.fneg q f.d s t)
  | 9 => (src2 f lw).bind fun s => some (.feq q f.d f.a s t)
  | 10 => (src2 f lw).bind fun s => some (.flt q f.d f.a s t)
  | 11 => (src2 f lw).bind fun s => some (.fle q f.d f.a s t)
  | _ => none

/-- OP 0x23 of R90. -/
def dec23 (f : Fields) (lw : Option Word) (t : Ctl) : Option Instr :=
  (FFmt.ofCode (f.fn.extractLsb' 2 2)).bind fun q =>
  match (f.fn.extractLsb' 0 2).toNat with
  | 0 => (src3 f lw).bind fun bs => some (.ffma q f.d f.a bs.1 bs.2 t)
  | 1 => (src3 f lw).bind fun bs => some (.ffms q f.d f.a bs.1 bs.2 t)
  | 2 => (src3 f lw).bind fun bs => some (.ffnma q f.d f.a bs.1 bs.2 t)
  | _ => (src3 f lw).bind fun bs => some (.ffnms q f.d f.a bs.1 bs.2 t)

/-- OP 0x24 of R90. -/
def dec24 (f : Fields) (_ : Option Word) (t : Ctl) : Option Instr :=
  match f.fn.toNat with
  | 0 => if f.x == 0 && !f.e.getLsbD 4 && !f.lit then (Fmt.ofCode f.b).bind fun dst => (Fmt.ofCode f.c).bind fun src => (Mode.ofCode (f.e.setWidth 3)).bind fun md => some (.fcvt f.d f.a dst src md (f.e.getLsbD 3) t) else none
  | _ => none

/-- OP 0x28 of R90. -/
def dec28 (f : Fields) (_ : Option Word) (t : Ctl) : Option Instr :=
  match f.fn.toNat with
  | 0 => if f.a == 0 && !f.lit then some (.jal f.d (f.b ++ f.c ++ f.e ++ f.x) t) else none
  | _ => none

/-- OP 0x29 of R90. -/
def dec29 (f : Fields) (_ : Option Word) (t : Ctl) : Option Instr :=
  match f.fn.toNat with
  | 0 => if f.b == 0 && f.c == 0 && f.e == 0 && f.x == 0 && !f.lit then some (.jr f.d f.a t) else none
  | _ => none

/-- OP 0x2A of R90. -/
def dec2A (f : Fields) (_ : Option Word) (t : Ctl) : Option Instr :=
  match f.fn.toNat with
  | 0 => if f.d == 0 && !f.lit then some (.bEq f.a f.b (f.c ++ f.e ++ f.x) t) else none
  | 1 => if f.d == 0 && !f.lit then some (.bNe f.a f.b (f.c ++ f.e ++ f.x) t) else none
  | 2 => if f.d == 0 && !f.lit then some (.bLt f.a f.b (f.c ++ f.e ++ f.x) t) else none
  | 3 => if f.d == 0 && !f.lit then some (.bGe f.a f.b (f.c ++ f.e ++ f.x) t) else none
  | 4 => if f.d == 0 && !f.lit then some (.bLtu f.a f.b (f.c ++ f.e ++ f.x) t) else none
  | 5 => if f.d == 0 && !f.lit then some (.bGeu f.a f.b (f.c ++ f.e ++ f.x) t) else none
  | _ => none

/-- OP 0x2B of R90. -/
def dec2B (f : Fields) (_ : Option Word) (t : Ctl) : Option Instr :=
  match f.fn.toNat with
  | 0 => if f.b == 0 && !f.lit then some (.subbr f.d f.a (f.c ++ f.e ++ f.x) t) else none
  | _ => none

/-- OP 0x30 of R90. -/
def dec30 (f : Fields) (_ : Option Word) (t : Ctl) : Option Instr :=
  match f.fn.toNat with
  | 0 => if f.a == 0 && f.b == 0 && decide (f.c.toNat < 4) && !f.lit then (Csr.ofNum (f.c.extractLsb' 0 2 ++ f.e ++ f.x)).bind fun r => some (.csrr f.d r t) else none
  | 1 => if f.d == 0 && f.b == 0 && decide (f.c.toNat < 4) && !f.lit then (Csr.ofNum (f.c.extractLsb' 0 2 ++ f.e ++ f.x)).bind fun r => some (.csrw r f.a t) else none
  | 2 => if f.d == 0 && f.b == 0 && decide (f.c.toNat < 4) && !f.lit then (Csr.ofNum (f.c.extractLsb' 0 2 ++ f.e ++ f.x)).bind fun r => some (.csrs r f.a t) else none
  | 3 => if f.d == 0 && f.b == 0 && decide (f.c.toNat < 4) && !f.lit then (Csr.ofNum (f.c.extractLsb' 0 2 ++ f.e ++ f.x)).bind fun r => some (.csrc r f.a t) else none
  | _ => none

/-- OP 0x31 of R90. -/
def dec31 (f : Fields) (_ : Option Word) (t : Ctl) : Option Instr :=
  match f.fn.toNat with
  | 0 => if f.b == 0 && decide (f.c.toNat < 8) && f.e.toNat % 16 == 0 && !f.x.getLsbD 0 && !f.lit then (Fmt.ofCode (0#1 ++ f.c.extractLsb' 0 3 ++ f.e.extractLsb' 4 1)).bind fun q => some (.setvl f.d f.a q (f.x.extractLsb' 1 4) t) else none
  | _ => none

/-- OP 0x32 of R90. -/
def dec32 (f : Fields) (_ : Option Word) (t : Ctl) : Option Instr :=
  match f.fn.toNat with
  | 0 => if f.d == 0 && f.a == 0 && f.b == 0 && f.c == 0 && f.e == 0 && f.x == 0 && !f.lit then some (.halt t) else none
  | 1 => if f.d == 0 && f.a == 0 && f.b == 0 && f.c == 0 && f.e == 0 && f.x == 0 && !f.lit then some (.yield t) else none
  | 2 => if f.d == 0 && f.a == 0 && !f.lit then some (.trap (f.b ++ f.c ++ f.e ++ f.x) t) else none
  | 3 => if f.d == 0 && f.a == 0 && f.b == 0 && f.c == 0 && f.e == 0 && f.x == 0 && !f.lit then some (.eret t) else none
  | 4 => if f.d == 0 && f.b == 0 && f.c == 0 && f.e == 0 && f.x == 0 && !f.lit then some (.sleep f.a t) else none
  | 5 => if f.d == 0 && f.c == 0 && f.e == 0 && f.x == 0 && !f.lit then some (.waitt f.a f.b t) else none
  | 6 => if f.b == 0 && f.c == 0 && f.e == 0 && f.x == 0 && !f.lit then some (.grant f.d f.a t) else none
  | _ => none

/-- OP 0x33 of R90. -/
def dec33 (f : Fields) (_ : Option Word) (t : Ctl) : Option Instr :=
  match f.fn.toNat with
  | 0 => if f.d == 0 && f.c == 0 && f.e == 0 && f.x == 0 && !f.lit then some (.pgate f.a f.b t) else none
  | _ => none

/-- OP 0x34 of R90. -/
def dec34 (f : Fields) (_ : Option Word) (t : Ctl) : Option Instr :=
  match f.fn.toNat with
  | 0 => if f.d == 0 && f.b == 0 && f.c == 0 && f.e == 0 && f.x == 0 && !f.lit then some (.xlinvAddr f.a t) else none
  | 1 => if f.d == 0 && f.b == 0 && f.c == 0 && f.e == 0 && f.x == 0 && !f.lit then some (.xlinvPart f.a t) else none
  | 2 => if f.d == 0 && f.a == 0 && f.b == 0 && f.c == 0 && f.e == 0 && f.x == 0 && !f.lit then some (.xlinvAll t) else none
  | _ => none

/-- OP 0x35 of R90. -/
def dec35 (f : Fields) (_ : Option Word) (t : Ctl) : Option Instr :=
  match f.fn.toNat with
  | 0 => if f.b == 0 && f.c == 0 && f.e == 0 && f.x == 0 && !f.lit then some (.pgq f.d f.a t) else none
  | _ => none

/-- OP 0x38 of R90. -/
def dec38 (f : Fields) (lw : Option Word) (t : Ctl) : Option Instr :=
  match f.fnLow.toNat with
  | 0 => (src2 f lw).bind fun s => some (.vadd f.d f.a s t)
  | 1 => (src2 f lw).bind fun s => some (.vsub f.d f.a s t)
  | 2 => (src2 f lw).bind fun s => some (.vmul f.d f.a s t)
  | 3 => (src2 f lw).bind fun s => some (.vdiv f.d f.a s t)
  | 4 => (src2 f lw).bind fun s => some (.vmin f.d f.a s t)
  | 5 => (src2 f lw).bind fun s => some (.vmax f.d f.a s t)
  | 6 => (src2 f lw).bind fun s => some (.vand f.d f.a s t)
  | 7 => (src2 f lw).bind fun s => some (.vor f.d f.a s t)
  | 8 => (src2 f lw).bind fun s => some (.vxor f.d f.a s t)
  | 9 => (src2 f lw).bind fun s => some (.vshl f.d f.a s t)
  | 10 => (src2 f lw).bind fun s => some (.vshr f.d f.a s t)
  | 11 => (src2 f lw).bind fun s => some (.vsra f.d f.a s t)
  | 12 => (src2 f lw).bind fun s => some (.vmulh f.d f.a s t)
  | 13 => (src2 f lw).bind fun s => some (.vabsd f.d f.a s t)
  | 14 => (src2 f lw).bind fun s => some (.vsgnj f.d f.a s t)
  | _ => none

/-- OP 0x39 of R90. -/
def dec39 (f : Fields) (lw : Option Word) (t : Ctl) : Option Instr :=
  match f.fnLow.toNat with
  | 0 => (src2 f lw).bind fun s => some (.vaddSat f.d f.a s t)
  | 1 => (src2 f lw).bind fun s => some (.vsubSat f.d f.a s t)
  | 2 => (src2 f lw).bind fun s => some (.vmulSat f.d f.a s t)
  | _ => none

/-- OP 0x3A of R90. -/
def dec3A (f : Fields) (lw : Option Word) (t : Ctl) : Option Instr :=
  match f.fnLow.toNat with
  | 0 => (src3 f lw).bind fun bs => some (.vfma f.d f.a bs.1 bs.2 t)
  | 1 => (src3 f lw).bind fun bs => some (.vfms f.d f.a bs.1 bs.2 t)
  | 2 => (src3 f lw).bind fun bs => some (.vfnma f.d f.a bs.1 bs.2 t)
  | 3 => (src3 f lw).bind fun bs => some (.vfnms f.d f.a bs.1 bs.2 t)
  | _ => none

/-- OP 0x3B of R90. -/
def dec3B (f : Fields) (_ : Option Word) (t : Ctl) : Option Instr :=
  match f.fn.toNat with
  | 0 => if f.b == 0 && f.c == 0 && f.e == 0 && f.x == 0 && !f.lit then some (.vneg f.d f.a t) else none
  | 1 => if f.b == 0 && f.c == 0 && f.e == 0 && f.x == 0 && !f.lit then some (.vabs f.d f.a t) else none
  | 2 => if f.b == 0 && f.c == 0 && f.e == 0 && f.x == 0 && !f.lit then some (.vsqrt f.d f.a t) else none
  | 3 => if f.b == 0 && f.c == 0 && f.e == 0 && f.x == 0 && !f.lit then some (.vmov f.d f.a t) else none
  | 4 => if f.b == 0 && f.c == 0 && f.e == 0 && f.x == 0 && !f.lit then some (.vnot f.d f.a t) else none
  | _ => none

/-- OP 0x3C of R90. -/
def dec3C (f : Fields) (lw : Option Word) (t : Ctl) : Option Instr :=
  match f.fnLow.toNat with
  | 0 => if decide (f.d.toNat < 16) then (src2 f lw).bind fun s => some (.vcmpEq (f.d.setWidth 4) f.a s t) else none
  | 1 => if decide (f.d.toNat < 16) then (src2 f lw).bind fun s => some (.vcmpNe (f.d.setWidth 4) f.a s t) else none
  | 2 => if decide (f.d.toNat < 16) then (src2 f lw).bind fun s => some (.vcmpLt (f.d.setWidth 4) f.a s t) else none
  | 3 => if decide (f.d.toNat < 16) then (src2 f lw).bind fun s => some (.vcmpLe (f.d.setWidth 4) f.a s t) else none
  | 4 => if decide (f.d.toNat < 16) then (src2 f lw).bind fun s => some (.vcmpGt (f.d.setWidth 4) f.a s t) else none
  | 5 => if decide (f.d.toNat < 16) then (src2 f lw).bind fun s => some (.vcmpGe (f.d.setWidth 4) f.a s t) else none
  | 6 => if decide (f.d.toNat < 16) then (src2 f lw).bind fun s => some (.vcmpUn (f.d.setWidth 4) f.a s t) else none
  | _ => none

/-- OP 0x3D of R90. -/
def dec3D (f : Fields) (_ : Option Word) (t : Ctl) : Option Instr :=
  match f.fn.toNat with
  | 0 => if f.e == 0 && f.x == 0 && decide (f.c.toNat < 16) && !f.lit then some (.vmerge f.d f.a f.b (f.c.setWidth 4) t) else none
  | _ => none

/-- OP 0x3E of R90. -/
def dec3E (f : Fields) (_ : Option Word) (t : Ctl) : Option Instr :=
  match f.fn.toNat with
  | 0 => if !f.e.getLsbD 4 && decide (f.x.toNat < 16) && !f.lit then (Fmt.ofCode f.b).bind fun dst => (Fmt.ofCode f.c).bind fun src => (Mode.ofCode (f.e.setWidth 3)).bind fun md => some (.vcvt f.d f.a dst src md (f.e.getLsbD 3) (f.x.setWidth 4) t) else none
  | _ => none

/-- OP 0x3F of R90. -/
def dec3F (f : Fields) (_ : Option Word) (t : Ctl) : Option Instr :=
  match f.fn.toNat with
  | 0 => if f.b == 0 && f.c == 0 && f.e == 0 && f.x == 0 && !f.lit then some (.vsfuExp f.d f.a t) else none
  | 1 => if f.b == 0 && f.c == 0 && f.e == 0 && f.x == 0 && !f.lit then some (.vsfuExp2 f.d f.a t) else none
  | 2 => if f.b == 0 && f.c == 0 && f.e == 0 && f.x == 0 && !f.lit then some (.vsfuLog f.d f.a t) else none
  | 3 => if f.b == 0 && f.c == 0 && f.e == 0 && f.x == 0 && !f.lit then some (.vsfuLog2 f.d f.a t) else none
  | 4 => if f.b == 0 && f.c == 0 && f.e == 0 && f.x == 0 && !f.lit then some (.vsfuRcp f.d f.a t) else none
  | 5 => if f.b == 0 && f.c == 0 && f.e == 0 && f.x == 0 && !f.lit then some (.vsfuRsqrt f.d f.a t) else none
  | 6 => if f.b == 0 && f.c == 0 && f.e == 0 && f.x == 0 && !f.lit then some (.vsfuSqrt f.d f.a t) else none
  | 7 => if f.b == 0 && f.c == 0 && f.e == 0 && f.x == 0 && !f.lit then some (.vsfuTanh f.d f.a t) else none
  | 8 => if f.b == 0 && f.c == 0 && f.e == 0 && f.x == 0 && !f.lit then some (.vsfuSig f.d f.a t) else none
  | 9 => if f.b == 0 && f.c == 0 && f.e == 0 && f.x == 0 && !f.lit then some (.vsfuGelu f.d f.a t) else none
  | 10 => if f.b == 0 && f.c == 0 && f.e == 0 && f.x == 0 && !f.lit then some (.vsfuSin f.d f.a t) else none
  | 11 => if f.b == 0 && f.c == 0 && f.e == 0 && f.x == 0 && !f.lit then some (.vsfuCos f.d f.a t) else none
  | _ => none

/-- OP 0x40 of R90. -/
def dec40 (f : Fields) (_ : Option Word) (t : Ctl) : Option Instr :=
  match f.fn.toNat with
  | 0 => if f.c == 0 && f.e == 0 && f.x == 0 && !f.lit then some (.vredFsum f.d f.a f.b t) else none
  | 1 => if f.c == 0 && f.e == 0 && f.x == 0 && !f.lit then some (.vredFmax f.d f.a f.b t) else none
  | 2 => if f.c == 0 && f.e == 0 && f.x == 0 && !f.lit then some (.vredFmin f.d f.a f.b t) else none
  | 3 => if f.c == 0 && f.e == 0 && f.x == 0 && !f.lit then some (.vredIsum f.d f.a f.b t) else none
  | 4 => if f.c == 0 && f.e == 0 && f.x == 0 && !f.lit then some (.vredImax f.d f.a f.b t) else none
  | 5 => if f.c == 0 && f.e == 0 && f.x == 0 && !f.lit then some (.vredImin f.d f.a f.b t) else none
  | 6 => if f.c == 0 && f.e == 0 && f.x == 0 && !f.lit then some (.vredImaxu f.d f.a f.b t) else none
  | 7 => if f.c == 0 && f.e == 0 && f.x == 0 && !f.lit then some (.vredIminu f.d f.a f.b t) else none
  | 8 => if f.c == 0 && f.e == 0 && f.x == 0 && !f.lit then some (.vredAnd f.d f.a f.b t) else none
  | 9 => if f.c == 0 && f.e == 0 && f.x == 0 && !f.lit then some (.vredOr f.d f.a f.b t) else none
  | 10 => if f.c == 0 && f.e == 0 && f.x == 0 && !f.lit then some (.vredXor f.d f.a f.b t) else none
  | _ => none

/-- OP 0x41 of R90. -/
def dec41 (f : Fields) (_ : Option Word) (t : Ctl) : Option Instr :=
  match f.fn.toNat with
  | 0 => if f.a == 0 && f.b == 0 && f.c == 0 && f.e == 0 && f.x == 0 && !f.lit then some (.vid f.d t) else none
  | _ => none

/-- OP 0x42 of R90. -/
def dec42 (f : Fields) (_ : Option Word) (t : Ctl) : Option Instr :=
  match f.fn.toNat with
  | 0 => if f.b == 0 && f.c == 0 && f.e == 0 && f.x == 0 && !f.lit then some (.vrngBits f.d f.a t) else none
  | 1 => if f.b == 0 && f.c == 0 && f.e == 0 && f.x == 0 && !f.lit then some (.vrngUnit f.d f.a t) else none
  | _ => none

/-- OP 0x43 of R90. -/
def dec43 (f : Fields) (_ : Option Word) (t : Ctl) : Option Instr :=
  match f.fn.toNat with
  | 0 => if f.c == 0 && f.e == 0 && f.x == 0 && !f.lit then some (.vdrop f.d f.a f.b t) else none
  | _ => none

/-- OP 0x60 of R90. -/
def dec60 (f : Fields) (lw : Option Word) (t : Ctl) : Option Instr :=
  match f.fn.toNat with
  | 0 => if f.c == 0 && f.e == 0 && f.x == 0 && !f.lit then some (.vperm f.d f.a f.b t) else none
  | _ =>
    match f.fnLow.toNat with
    | 1 => (src2 f lw).bind fun s => some (.vrot f.d f.a s t)
    | 2 => (src2 f lw).bind fun s => some (.vslideUp f.d f.a s t)
    | 3 => (src2 f lw).bind fun s => some (.vslideDn f.d f.a s t)
    | _ => none

/-- OP 0x61 of R90. -/
def dec61 (f : Fields) (_ : Option Word) (t : Ctl) : Option Instr :=
  match f.fn.toNat with
  | 0 => if f.c == 0 && f.e == 0 && f.x == 0 && decide (f.b.toNat < 16) && !f.lit then some (.vcomp f.d f.a (f.b.setWidth 4) t) else none
  | 1 => if f.c == 0 && f.e == 0 && f.x == 0 && decide (f.b.toNat < 16) && !f.lit then some (.vexp f.d f.a (f.b.setWidth 4) t) else none
  | _ => none

/-- OP 0x62 of R90. -/
def dec62 (f : Fields) (_ : Option Word) (t : Ctl) : Option Instr :=
  match f.fn.toNat with
  | 0 => if f.c == 0 && f.e == 0 && f.x == 0 && decide (f.d.toNat < 16) && decide (f.a.toNat < 16) && decide (f.b.toNat < 16) && !f.lit then some (.mand (f.d.setWidth 4) (f.a.setWidth 4) (f.b.setWidth 4) t) else none
  | 1 => if f.c == 0 && f.e == 0 && f.x == 0 && decide (f.d.toNat < 16) && decide (f.a.toNat < 16) && decide (f.b.toNat < 16) && !f.lit then some (.mor (f.d.setWidth 4) (f.a.setWidth 4) (f.b.setWidth 4) t) else none
  | 2 => if f.c == 0 && f.e == 0 && f.x == 0 && decide (f.d.toNat < 16) && decide (f.a.toNat < 16) && decide (f.b.toNat < 16) && !f.lit then some (.mxor (f.d.setWidth 4) (f.a.setWidth 4) (f.b.setWidth 4) t) else none
  | 3 => if f.c == 0 && f.e == 0 && f.x == 0 && decide (f.d.toNat < 16) && decide (f.a.toNat < 16) && decide (f.b.toNat < 16) && !f.lit then some (.mandn (f.d.setWidth 4) (f.a.setWidth 4) (f.b.setWidth 4) t) else none
  | 4 => if f.b == 0 && f.c == 0 && f.e == 0 && f.x == 0 && decide (f.d.toNat < 16) && decide (f.a.toNat < 16) && !f.lit then some (.mnot (f.d.setWidth 4) (f.a.setWidth 4) t) else none
  | _ => none

/-- OP 0x63 of R90. -/
def dec63 (f : Fields) (_ : Option Word) (t : Ctl) : Option Instr :=
  match f.fn.toNat with
  | 0 => if f.b == 0 && f.c == 0 && f.e == 0 && f.x == 0 && decide (f.a.toNat < 16) && !f.lit then some (.mcnt f.d (f.a.setWidth 4) t) else none
  | 1 => if f.b == 0 && f.c == 0 && f.e == 0 && f.x == 0 && decide (f.a.toNat < 16) && !f.lit then some (.many f.d (f.a.setWidth 4) t) else none
  | 2 => if f.b == 0 && f.c == 0 && f.e == 0 && f.x == 0 && decide (f.a.toNat < 16) && !f.lit then some (.mfirst f.d (f.a.setWidth 4) t) else none
  | _ => none

/-- OP 0x68 of R90. -/
def dec68 (f : Fields) (lw : Option Word) (t : Ctl) : Option Instr :=
  match f.fn.toNat with
  | 1 => if f.b == 0 && f.c == 0 && f.e == 0 && f.x == 0 && decide (f.d.toNat < 8) && !f.lit then some (.wsigH (f.d.setWidth 3) f.a t) else none
  | 2 => if f.b == 0 && f.c == 0 && f.e == 0 && f.x == 0 && decide (f.d.toNat < 8) && !f.lit then some (.wsigS (f.d.setWidth 3) f.a t) else none
  | 3 => if f.b == 0 && f.c == 0 && f.e == 0 && f.x == 0 && decide (f.a.toNat < 8) && !f.lit then some (.wget f.d (f.a.setWidth 3) t) else none
  | 4 => if f.c == 0 && f.e == 0 && f.x == 0 && decide (f.d.toNat < 8) && decide (f.a.toNat < 8) && decide (f.b.toNat < 8) && !f.lit then some (.wmul (f.d.setWidth 3) (f.a.setWidth 3) (f.b.setWidth 3) t) else none
  | 5 => if f.b == 0 && f.c == 0 && f.e == 0 && f.x == 0 && decide (f.d.toNat < 16) && decide (f.a.toNat < 8) && !f.lit then some (.wcmp (f.d.setWidth 4) (f.a.setWidth 3) t) else none
  | _ =>
    match f.fnLow.toNat with
    | 0 => if decide (f.d.toNat < 8) then (src1 f lw).bind fun s => some (.wset (f.d.setWidth 3) s t) else none
    | _ => none

/-- OP 0x69 of R90. -/
def dec69 (f : Fields) (_ : Option Word) (t : Ctl) : Option Instr :=
  match f.fn.toNat with
  | 0 => if f.d == 0 && f.b == 0 && decide (f.a.toNat < 8) && !f.lit then some (.arm (f.a.setWidth 3) (f.c ++ f.e ++ f.x) t) else none
  | 1 => if f.d == 0 && f.b == 0 && decide (f.a.toNat < 8) && !f.lit then some (.armb (f.a.setWidth 3) (f.c ++ f.e ++ f.x) t) else none
  | 2 => if f.d == 0 && f.a == 0 && f.b == 0 && f.c == 0 && f.e == 0 && f.x == 0 && !f.lit then some (.armend t) else none
  | _ => none

/-- OP 0x6A of R90. -/
def dec6A (f : Fields) (_ : Option Word) (t : Ctl) : Option Instr :=
  match f.fn.toNat with
  | 0 => if f.e == 0 && f.x == 0 && decide (f.c.toNat < 8) && !f.lit then some (.join f.d f.a f.b (f.c.setWidth 3) t) else none
  | 1 => if f.x == 0 && decide (f.e.toNat < 8) && !f.lit then some (.joinb f.d f.a f.b f.c (f.e.setWidth 3) t) else none
  | _ => none

/-- OP 0x6B of R90. -/
def dec6B (f : Fields) (_ : Option Word) (t : Ctl) : Option Instr :=
  match f.fn.toNat with
  | 0 => if f.b == 0 && decide (f.d.toNat < 8) && !f.lit then some (.wloop (f.d.setWidth 3) f.a (f.c ++ f.e ++ f.x) t) else none
  | 1 => if f.d == 0 && f.a == 0 && f.b == 0 && !f.lit then some (.wlend (f.c ++ f.e ++ f.x) t) else none
  | _ => none

/-- OP 0x70 of R90. -/
def dec70 (f : Fields) (_ : Option Word) (t : Ctl) : Option Instr :=
  match f.fn.toNat with
  | 0 => if f.b == 0 && !f.lit then (Feq.ofCode (f.x.extractLsb' 0 2)).bind fun fq => some (.ld8 f.d f.a (f.c ++ f.e ++ f.x.extractLsb' 2 3) fq t) else none
  | 1 => if f.b == 0 && !f.lit then (Feq.ofCode (f.x.extractLsb' 0 2)).bind fun fq => some (.ld16 f.d f.a (f.c ++ f.e ++ f.x.extractLsb' 2 3) fq t) else none
  | 2 => if f.b == 0 && !f.lit then (Feq.ofCode (f.x.extractLsb' 0 2)).bind fun fq => some (.ld32 f.d f.a (f.c ++ f.e ++ f.x.extractLsb' 2 3) fq t) else none
  | 3 => if f.b == 0 && !f.lit then (Feq.ofCode (f.x.extractLsb' 0 2)).bind fun fq => some (.ld64 f.d f.a (f.c ++ f.e ++ f.x.extractLsb' 2 3) fq t) else none
  | 4 => if f.b == 0 && !f.lit then (Feq.ofCode (f.x.extractLsb' 0 2)).bind fun fq => some (.ldz8 f.d f.a (f.c ++ f.e ++ f.x.extractLsb' 2 3) fq t) else none
  | 5 => if f.b == 0 && !f.lit then (Feq.ofCode (f.x.extractLsb' 0 2)).bind fun fq => some (.ldz16 f.d f.a (f.c ++ f.e ++ f.x.extractLsb' 2 3) fq t) else none
  | 6 => if f.b == 0 && !f.lit then (Feq.ofCode (f.x.extractLsb' 0 2)).bind fun fq => some (.ldz32 f.d f.a (f.c ++ f.e ++ f.x.extractLsb' 2 3) fq t) else none
  | _ => none

/-- OP 0x71 of R90. -/
def dec71 (f : Fields) (_ : Option Word) (t : Ctl) : Option Instr :=
  match f.fn.toNat with
  | 0 => if f.d == 0 && !f.lit then (Feq.ofCode (f.x.extractLsb' 0 2)).bind fun fq => some (.st8 f.a f.b (f.c ++ f.e ++ f.x.extractLsb' 2 3) fq t) else none
  | 1 => if f.d == 0 && !f.lit then (Feq.ofCode (f.x.extractLsb' 0 2)).bind fun fq => some (.st16 f.a f.b (f.c ++ f.e ++ f.x.extractLsb' 2 3) fq t) else none
  | 2 => if f.d == 0 && !f.lit then (Feq.ofCode (f.x.extractLsb' 0 2)).bind fun fq => some (.st32 f.a f.b (f.c ++ f.e ++ f.x.extractLsb' 2 3) fq t) else none
  | 3 => if f.d == 0 && !f.lit then (Feq.ofCode (f.x.extractLsb' 0 2)).bind fun fq => some (.st64 f.a f.b (f.c ++ f.e ++ f.x.extractLsb' 2 3) fq t) else none
  | _ => none

/-- OP 0x72 of R90. -/
def dec72 (f : Fields) (_ : Option Word) (t : Ctl) : Option Instr :=
  let k := f.fn.extractLsb' 1 5
  let r := f.fn.getLsbD 0
  if f.b == 0 && !f.lit then (Feq.ofCode (f.x.extractLsb' 0 2)).bind fun fq => some (.vld f.d f.a (f.c ++ f.e ++ f.x.extractLsb' 2 3) fq k r t) else none

/-- OP 0x73 of R90. -/
def dec73 (f : Fields) (_ : Option Word) (t : Ctl) : Option Instr :=
  let k := f.fn.extractLsb' 1 5
  let r := f.fn.getLsbD 0
  if f.c == 0 && f.e == 0 && decide (f.x.toNat < 4) && !f.lit then (Feq.ofCode (f.x.extractLsb' 0 2)).bind fun fq => some (.vlds f.d f.a f.b fq k r t) else none

/-- OP 0x74 of R90. -/
def dec74 (f : Fields) (_ : Option Word) (t : Ctl) : Option Instr :=
  let k := f.fn.extractLsb' 1 5
  let r := f.fn.getLsbD 0
  if f.c == 0 && f.e == 0 && decide (f.x.toNat < 4) && !f.lit then (Feq.ofCode (f.x.extractLsb' 0 2)).bind fun fq => some (.vldx f.d f.a f.b fq k r t) else none

/-- OP 0x75 of R90. -/
def dec75 (f : Fields) (_ : Option Word) (t : Ctl) : Option Instr :=
  let k := f.fn.extractLsb' 1 5
  if f.fn.getLsbD 0 then none else if f.d == 0 && !f.lit then (Feq.ofCode (f.x.extractLsb' 0 2)).bind fun fq => some (.vst f.a f.b (f.c ++ f.e ++ f.x.extractLsb' 2 3) fq k t) else none

/-- OP 0x76 of R90. -/
def dec76 (f : Fields) (_ : Option Word) (t : Ctl) : Option Instr :=
  let k := f.fn.extractLsb' 1 5
  if f.fn.getLsbD 0 then none else if f.d == 0 && f.e == 0 && decide (f.x.toNat < 4) && !f.lit then (Feq.ofCode (f.x.extractLsb' 0 2)).bind fun fq => some (.vsts f.a f.b f.c fq k t) else none

/-- OP 0x77 of R90. -/
def dec77 (f : Fields) (_ : Option Word) (t : Ctl) : Option Instr :=
  let k := f.fn.extractLsb' 1 5
  if f.fn.getLsbD 0 then none else if f.d == 0 && f.e == 0 && decide (f.x.toNat < 4) && !f.lit then (Feq.ofCode (f.x.extractLsb' 0 2)).bind fun fq => some (.vstx f.a f.b f.c fq k t) else none

/-- OP 0x78 of R90. -/
def dec78 (f : Fields) (_ : Option Word) (t : Ctl) : Option Instr :=
  let k := f.fn.extractLsb' 1 5
  if f.fn.getLsbD 0 then if f.d == 0 && !f.lit then (Feq.ofCode (f.x.extractLsb' 0 2)).bind fun fq => some (.vstpPa f.a f.b (f.c ++ f.e ++ f.x.extractLsb' 2 3) fq k t) else none
else if f.d == 0 && !f.lit then (Feq.ofCode (f.x.extractLsb' 0 2)).bind fun fq => some (.vstp f.a f.b (f.c ++ f.e ++ f.x.extractLsb' 2 3) fq k t) else none

/-- OP 0x79 of R90. -/
def dec79 (f : Fields) (_ : Option Word) (t : Ctl) : Option Instr :=
  match f.fn.toNat with
  | 0 => if f.d == 0 && f.c == 0 && f.e == 0 && f.x == 0 && !f.lit then some (.feset f.a f.b t) else none
  | 1 => if f.d == 0 && f.c == 0 && f.e == 0 && f.x == 0 && !f.lit then some (.feclr f.a f.b t) else none
  | _ => none

/-- OP 0x7A of R90. -/
def dec7A (f : Fields) (_ : Option Word) (t : Ctl) : Option Instr :=
  let n := (f.fn.extractLsb' 4 2).toNat
  if n ≥ 2 then none else
  match f.fnLow.toNat with
  | 0 => if f.c == 0 && f.e == 0 && f.x == 0 && !f.lit then some (.amoAdd (n == 1) f.d f.a f.b t) else none
  | 1 => if f.c == 0 && f.e == 0 && f.x == 0 && !f.lit then some (.amoAnd (n == 1) f.d f.a f.b t) else none
  | 2 => if f.c == 0 && f.e == 0 && f.x == 0 && !f.lit then some (.amoOr (n == 1) f.d f.a f.b t) else none
  | 3 => if f.c == 0 && f.e == 0 && f.x == 0 && !f.lit then some (.amoXor (n == 1) f.d f.a f.b t) else none
  | 4 => if f.c == 0 && f.e == 0 && f.x == 0 && !f.lit then some (.amoMin (n == 1) f.d f.a f.b t) else none
  | 5 => if f.c == 0 && f.e == 0 && f.x == 0 && !f.lit then some (.amoMax (n == 1) f.d f.a f.b t) else none
  | 6 => if f.c == 0 && f.e == 0 && f.x == 0 && !f.lit then some (.amoMinu (n == 1) f.d f.a f.b t) else none
  | 7 => if f.c == 0 && f.e == 0 && f.x == 0 && !f.lit then some (.amoMaxu (n == 1) f.d f.a f.b t) else none
  | 8 => if f.c == 0 && f.e == 0 && f.x == 0 && !f.lit then some (.amoSwap (n == 1) f.d f.a f.b t) else none
  | 9 => if f.e == 0 && f.x == 0 && !f.lit then some (.amoCas (n == 1) f.d f.a f.b f.c t) else none
  | _ => none

/-- OP 0x7B of R90. -/
def dec7B (f : Fields) (_ : Option Word) (t : Ctl) : Option Instr :=
  let n := (f.fn.extractLsb' 4 2).toNat
  if n ≥ 2 then none else
  match f.fnLow.toNat with
  | 0 => if f.e == 0 && f.x == 0 && !f.lit then some (.vamoAdd (n == 1) f.d f.a f.b f.c t) else none
  | 1 => if f.e == 0 && f.x == 0 && !f.lit then some (.vamoAnd (n == 1) f.d f.a f.b f.c t) else none
  | 2 => if f.e == 0 && f.x == 0 && !f.lit then some (.vamoOr (n == 1) f.d f.a f.b f.c t) else none
  | 3 => if f.e == 0 && f.x == 0 && !f.lit then some (.vamoXor (n == 1) f.d f.a f.b f.c t) else none
  | 4 => if f.e == 0 && f.x == 0 && !f.lit then some (.vamoMin (n == 1) f.d f.a f.b f.c t) else none
  | 5 => if f.e == 0 && f.x == 0 && !f.lit then some (.vamoMax (n == 1) f.d f.a f.b f.c t) else none
  | 6 => if f.e == 0 && f.x == 0 && !f.lit then some (.vamoMinu (n == 1) f.d f.a f.b f.c t) else none
  | 7 => if f.e == 0 && f.x == 0 && !f.lit then some (.vamoMaxu (n == 1) f.d f.a f.b f.c t) else none
  | 8 => if f.e == 0 && f.x == 0 && !f.lit then some (.vamoSwap (n == 1) f.d f.a f.b f.c t) else none
  | 9 => if f.e == 0 && f.x == 0 && !f.lit then some (.vamoCas (n == 1) f.d f.a f.b f.c t) else none
  | _ => none

/-- OP 0x7C of R90. -/
def dec7C (f : Fields) (_ : Option Word) (t : Ctl) : Option Instr :=
  if f.fn.toNat ≥ 16 then none else
  (Mode.ofCode (f.fn.extractLsb' 0 3)).bind fun md =>
  if f.fn.getLsbD 3 then if f.b == 0 && f.c == 0 && f.e == 0 && f.x == 0 && !f.lit then some (.vldbfa md f.d f.a t) else none
  else if f.d == 0 && f.c == 0 && f.e == 0 && f.x == 0 && !f.lit then some (.amoacc md f.a f.b t) else none

/-- OP 0x7D of R90. -/
def dec7D (f : Fields) (_ : Option Word) (t : Ctl) : Option Instr :=
  (Tier.ofCode (f.fn.extractLsb' 3 3)).bind fun tier =>
  match (f.fn.extractLsb' 0 3).toNat with
  | 0 => if f.d == 0 && f.a == 0 && f.b == 0 && f.c == 0 && f.e == 0 && f.x == 0 && !f.lit then some (.fenceC tier t) else none
  | 1 => if f.d == 0 && f.a == 0 && f.b == 0 && f.c == 0 && f.e == 0 && f.x == 0 && !f.lit then some (.fenceS tier t) else none
  | 2 => if f.d == 0 && f.a == 0 && f.b == 0 && f.c == 0 && f.e == 0 && f.x == 0 && !f.lit then some (.fenceRec tier t) else none
  | 3 => if f.d == 0 && f.a == 0 && f.b == 0 && f.c == 0 && f.e == 0 && f.x == 0 && !f.lit then some (.fenceHost tier t) else none
  | 4 => if f.d == 0 && f.a == 0 && f.b == 0 && f.c == 0 && f.e == 0 && f.x == 0 && !f.lit then some (.fenceEng tier t) else none
  | _ => none

/-- OP 0x7E of R90. -/
def dec7E (f : Fields) (_ : Option Word) (t : Ctl) : Option Instr :=
  match f.fn.toNat with
  | 0 => if f.c == 0 && f.e == 0 && f.x == 0 && !f.lit then some (.strm f.d f.a f.b t) else none
  | 1 => if f.a == 0 && f.b == 0 && f.c == 0 && f.e == 0 && f.x == 0 && !f.lit then some (.strmx f.d t) else none
  | _ => none

/-- OP 0x7F of R90. -/
def dec7F (f : Fields) (_ : Option Word) (t : Ctl) : Option Instr :=
  match f.fn.toNat with
  | 0 => if f.d == 0 && f.c == 0 && f.e == 0 && f.x == 0 && !f.lit then some (.stash f.a f.b t) else none
  | 1 => if f.d == 0 && f.c == 0 && f.e == 0 && f.x == 0 && !f.lit then some (.stflush f.a f.b t) else none
  | 2 => if f.d == 0 && f.c == 0 && f.e == 0 && f.x == 0 && !f.lit then some (.stinv f.a f.b t) else none
  | 3 => if f.d == 0 && f.c == 0 && f.e == 0 && f.x == 0 && !f.lit then some (.pref f.a f.b t) else none
  | _ => none

/-- OP 0x80 of R90. -/
def dec80 (f : Fields) (_ : Option Word) (t : Ctl) : Option Instr :=
  match f.fn.toNat with
  | 0 => if f.d == 0 && f.c == 0 && f.e == 0 && f.x == 0 && !f.lit then some (.vcapp f.a f.b t) else none
  | _ => none

/-- OP 0x88 of R90. -/
def dec88 (f : Fields) (_ : Option Word) (t : Ctl) : Option Instr :=
  match f.fn.toNat with
  | 0 => if f.d == 0 && f.x == 0 && !f.lit then some (.cpy f.a f.b f.c f.e t) else none
  | _ => none

/-- OP 0x89 of R90. -/
def dec89 (f : Fields) (_ : Option Word) (t : Ctl) : Option Instr :=
  match f.fn.toNat with
  | 0 => if f.d == 0 && f.x == 0 && !f.lit then some (.gath f.a f.b f.c f.e t) else none
  | 1 => if f.d == 0 && f.x == 0 && !f.lit then some (.scat f.a f.b f.c f.e t) else none
  | _ => none

/-- OP 0x8A of R90. -/
def dec8A (f : Fields) (_ : Option Word) (t : Ctl) : Option Instr :=
  let g := f.fn.extractLsb' 2 4
  match (f.fn.extractLsb' 0 2).toNat with
  | 0 => if g == 0 then if f.d == 0 && f.x == 0 && !f.lit then some (.collAg f.a f.b f.c f.e t) else none else none
  | 1 => (Fmt.ofCode (0#1 ++ g)).bind fun q => if f.d == 0 && f.x == 0 && !f.lit then some (.collRs q f.a f.b f.c f.e t) else none
  | 2 => (Fmt.ofCode (0#1 ++ g)).bind fun q => if f.d == 0 && f.x == 0 && !f.lit then some (.collAr q f.a f.b f.c f.e t) else none
  | _ => none

/-- OP 0x8B of R90. -/
def dec8B (f : Fields) (_ : Option Word) (t : Ctl) : Option Instr :=
  match f.fn.toNat with
  | 0 => if f.d == 0 && f.b == 0 && f.c == 0 && f.e == 0 && f.x == 0 && !f.lit then some (.ewait f.a t) else none
  | _ => none

/-- OP 0x90 of R90. -/
def dec90 (f : Fields) (_ : Option Word) (t : Ctl) : Option Instr :=
  match f.fn.toNat with
  | 0 => if f.d == 0 && f.c == 0 && f.e == 0 && f.x == 0 && !f.lit then some (.glaunch f.a f.b t) else none
  | 1 => if f.d == 0 && f.c == 0 && f.e == 0 && f.x == 0 && !f.lit then some (.nspawn f.a f.b t) else none
  | 2 => if f.d == 0 && f.c == 0 && f.e == 0 && f.x == 0 && !f.lit then some (.dcset f.a f.b t) else none
  | 3 => if f.d == 0 && f.c == 0 && f.e == 0 && f.x == 0 && !f.lit then some (.dcdec f.a f.b t) else none
  | 4 => if f.d == 0 && f.e == 0 && f.x == 0 && !f.lit then some (.npatch f.a f.b f.c t) else none
  | _ => none

/-- OP 0x91 of R90. -/
def dec91 (f : Fields) (_ : Option Word) (t : Ctl) : Option Instr :=
  (Tier.ofCode (f.fn.extractLsb' 3 3)).bind fun tier =>
  match (f.fn.extractLsb' 0 3).toNat with
  | 0 => if f.a == 0 && f.b == 0 && f.c == 0 && f.e == 0 && f.x == 0 && !f.lit then some (.gid tier f.d t) else none
  | 1 => if f.b == 0 && f.c == 0 && f.e == 0 && f.x == 0 && !f.lit then some (.gsplit tier f.d f.a t) else none
  | _ => none

/-- OP 0x92 of R90. -/
def dec92 (f : Fields) (_ : Option Word) (t : Ctl) : Option Instr :=
  match f.fn.toNat with
  | 0 => if f.d == 0 && f.b == 0 && f.c == 0 && f.e == 0 && f.x == 0 && !f.lit then some (.lput f.a t) else none
  | 1 => if f.a == 0 && f.b == 0 && f.c == 0 && f.e == 0 && f.x == 0 && !f.lit then some (.lget f.d t) else none
  | 2 => if f.a == 0 && f.b == 0 && f.c == 0 && f.e == 0 && f.x == 0 && !f.lit then some (.lfree f.d t) else none
  | _ => none

/-- OP 0x93 of R90. -/
def dec93 (f : Fields) (_ : Option Word) (t : Ctl) : Option Instr :=
  (Tier.ofCode (f.fn.extractLsb' 3 3)).bind fun tier =>
  match (f.fn.extractLsb' 0 3).toNat with
  | 0 => if f.d == 0 && f.a == 0 && f.c == 0 && decide (f.e.toNat < 2) && !f.lit then some (.bari tier (f.e.extractLsb' 0 1 ++ f.x) f.b t) else none
  | 1 => if f.d == 0 && f.a == 0 && f.b == 0 && f.c == 0 && decide (f.e.toNat < 2) && !f.lit then some (.barr tier (f.e.extractLsb' 0 1 ++ f.x) t) else none
  | 2 => if f.d == 0 && f.a == 0 && f.b == 0 && f.c == 0 && decide (f.e.toNat < 2) && !f.lit then some (.barw tier (f.e.extractLsb' 0 1 ++ f.x) t) else none
  | 3 => if f.d == 0 && f.a == 0 && f.b == 0 && f.c == 0 && decide (f.e.toNat < 2) && !f.lit then some (.barrw tier (f.e.extractLsb' 0 1 ++ f.x) t) else none
  | _ => none

/-- OP 0x98 of R90. -/
def dec98 (f : Fields) (_ : Option Word) (t : Ctl) : Option Instr :=
  match f.fn.toNat with
  | 0 => if f.d == 0 && f.a == 0 && f.b == 0 && f.c == 0 && f.e == 0 && decide (f.x.toNat < 8) && !f.lit then some (.msmode (f.x.getLsbD 0) (f.x.extractLsb' 1 2) t) else none
  | _ => none

/-- OP 0x99 of R90. -/
noncomputable def dec99 (f : Fields) (_ : Option Word) (t : Ctl) : Option Instr :=
  match f.fn.toNat with
  | 0 => if f.a == 0 && f.b == 0 && f.c == 0 && decide (f.e.toNat < 2) && !f.lit then some (.mclaim f.d (f.e.extractLsb' 0 1 ++ f.x) t) else none
  | 1 => if f.d == 0 && f.b == 0 && f.c == 0 && f.e == 0 && f.x == 0 && !f.lit then some (.mrel f.a t) else none
  | _ => none

/-- OP 0x9A of R90. -/
noncomputable def dec9A (f : Fields) (_ : Option Word) (t : Ctl) : Option Instr :=
  match f.fn.toNat with
  | 0 => if f.d == 0 && f.c == 0 && f.e == 0 && f.x == 0 && !f.lit then some (.mlds f.a f.b t) else none
  | 1 => if f.d == 0 && f.b == 0 && decide (f.c.toNat < 8) && !f.lit then (f.fmtSpec).bind fun fs => some (.mldw f.a fs t) else none
  | _ => none

/-- OP 0x9B of R90. -/
noncomputable def dec9B (f : Fields) (_ : Option Word) (t : Ctl) : Option Instr :=
  match f.fn.toNat with
  | 0 => if f.b == 0 && decide (f.d.toNat < 4) && decide (f.c.toNat < 8) && !f.lit then (f.fmtSpec).bind fun fs => some (.mstrm (f.d.setWidth 2) f.a fs t) else none
  | _ => none

/-- OP 0x9C of R90. -/
noncomputable def dec9C (f : Fields) (_ : Option Word) (t : Ctl) : Option Instr :=
  match f.fn.toNat with
  | 0 => if f.c == 0 && f.e == 0 && f.x == 0 && decide (f.d.toNat < 4) && !f.lit then some (.mxprod (f.d.setWidth 2) f.a f.b t) else none
  | _ => none

/-- OP 0x9D of R90. -/
noncomputable def dec9D (f : Fields) (_ : Option Word) (t : Ctl) : Option Instr :=
  match f.fn.toNat with
  | 0 => if f.a == 0 && f.b == 0 && f.c == 0 && f.e == 0 && f.x == 0 && decide (f.d.toNat < 4) && !f.lit then some (.mzero (f.d.setWidth 2) t) else none
  | 1 => if f.c == 0 && f.e == 0 && f.x == 0 && decide (f.a.toNat < 4) && !f.lit then some (.mrdzSplit f.d (f.a.setWidth 2) f.b t) else none
  | 2 => if f.c == 0 && f.e == 0 && f.x == 0 && decide (f.a.toNat < 4) && !f.lit then some (.mrdzMerge f.d (f.a.setWidth 2) f.b t) else none
  | 3 => if f.c == 0 && f.e == 0 && f.x == 0 && decide (f.d.toNat < 4) && !f.lit then some (.mwrz (f.d.setWidth 2) f.a f.b t) else none
  | 4 => if f.c == 0 && f.e == 0 && f.x == 0 && decide (f.a.toNat < 4) && !f.lit then some (.mcol f.d (f.a.setWidth 2) f.b t) else none
  | 5 => if f.b == 0 && f.c == 0 && f.e == 0 && f.x == 0 && decide (f.d.toNat < 4) && decide (f.a.toNat < 4) && !f.lit then some (.mtrs (f.d.setWidth 2) (f.a.setWidth 2) t) else none
  | _ => none

/-- OP 0x9E of R90. -/
noncomputable def dec9E (f : Fields) (_ : Option Word) (t : Ctl) : Option Instr :=
  match f.fn.toNat with
  | 0 => if f.d == 0 && f.e == 0 && f.x == 0 && decide (f.b.toNat < 4) && !f.lit then some (.msts f.a (f.b.setWidth 2) f.c t) else none
  | 1 => if f.d == 0 && f.e == 0 && f.x == 0 && decide (f.b.toNat < 4) && !f.lit then some (.mstsCmp f.a (f.b.setWidth 2) f.c t) else none
  | 2 => if f.d == 0 && f.e == 0 && f.x == 0 && decide (f.b.toNat < 4) && !f.lit then some (.mstsCmpTrap f.a (f.b.setWidth 2) f.c t) else none
  | _ => none

/-- OP 0x9F of R90. -/
noncomputable def dec9F (f : Fields) (_ : Option Word) (t : Ctl) : Option Instr :=
  match f.fn.toNat with
  | 0 => if f.d == 0 && f.b == 0 && f.c == 0 && f.e == 0 && f.x == 0 && !f.lit then some (.seqdef f.a t) else none
  | 1 => if f.d == 0 && f.b == 0 && f.c == 0 && f.e == 0 && f.x == 0 && decide (f.a.toNat < 8) && !f.lit then some (.seqrun (f.a.setWidth 3) t) else none
  | _ => none

/-- OP 0xA0 of R90. -/
noncomputable def decA0 (f : Fields) (_ : Option Word) (t : Ctl) : Option Instr :=
  match f.fn.toNat with
  | 0 => if f.b == 0 && f.c == 0 && f.e == 0 && f.x == 0 && decide (f.d.toNat < 8) && !f.lit then some (.kset (f.d.setWidth 3) f.a t) else none
  | 1 => if f.b == 0 && f.c == 0 && f.e == 0 && f.x == 0 && decide (f.d.toNat < 8) && !f.lit then some (.kclr (f.d.setWidth 3) f.a t) else none
  | 2 => if f.b == 0 && f.c == 0 && f.e == 0 && f.x == 0 && decide (f.d.toNat < 8) && !f.lit then some (.kld (f.d.setWidth 3) f.a t) else none
  | 3 => if f.c == 0 && f.e == 0 && f.x == 0 && decide (f.a.toNat < 8) && !f.lit then some (.ktst f.d (f.a.setWidth 3) f.b t) else none
  | _ => none

/-- OP 0xB0 of R90. -/
noncomputable def decB0 (f : Fields) (_ : Option Word) (t : Ctl) : Option Instr :=
  match f.fn.toNat with
  | 0 => if f.d == 0 && f.x == 0 && !f.lit then some (.voptSgd f.a f.b f.c f.e t) else none
  | 1 => if f.d == 0 && f.x == 0 && !f.lit then some (.voptMsgd f.a f.b f.c f.e t) else none
  | 2 => if f.d == 0 && f.x == 0 && !f.lit then some (.voptAdam f.a f.b f.c f.e t) else none
  | _ => none

/-- OP 0xB1 of R90. -/
noncomputable def decB1 (f : Fields) (_ : Option Word) (t : Ctl) : Option Instr :=
  match f.fn.toNat with
  | 0 => if f.c == 0 && f.e == 0 && f.x == 0 && !f.lit then some (.vsal f.d f.a f.b t) else none
  | 1 => if f.b == 0 && f.c == 0 && f.e == 0 && decide (f.d.toNat < 16) && decide (f.x.toNat < 16) && !f.lit then some (.vnms (f.d.setWidth 4) f.a (f.x.extractLsb' 0 4) t) else none
  | _ => none

/-- OP 0xB8 of R90. -/
noncomputable def decB8 (f : Fields) (_ : Option Word) (t : Ctl) : Option Instr :=
  match f.fn.toNat with
  | 0 => if f.d == 0 && f.e == 0 && f.x == 0 && !f.lit then some (.qterm f.a f.b f.c t) else none
  | _ => none

/-- OP 0xB9 of R90. -/
noncomputable def decB9 (f : Fields) (_ : Option Word) (t : Ctl) : Option Instr :=
  match f.fn.toNat with
  | 0 => if f.d == 0 && f.e == 0 && f.x == 0 && !f.lit then some (.qvec f.a f.b f.c t) else none
  | _ => none

/-- OP 0xBA of R90. -/
noncomputable def decBA (f : Fields) (_ : Option Word) (t : Ctl) : Option Instr :=
  match f.fn.toNat with
  | 0 => if f.d == 0 && f.c == 0 && f.e == 0 && f.x == 0 && !f.lit then some (.qexec f.a f.b t) else none
  | _ => none

/-- OP 0xBB of R90. -/
noncomputable def decBB (f : Fields) (_ : Option Word) (t : Ctl) : Option Instr :=
  match f.fn.toNat with
  | 0 => if f.b == 0 && f.c == 0 && f.e == 0 && f.x == 0 && !f.lit then some (.qstat f.d f.a t) else none
  | _ => none

/-- R90: the instruction of the fields, before R77 and the ranges are checked. -/
noncomputable def decodeFields (f : Fields) (lw : Option Word) (t : Ctl) : Option Instr :=
  match f.op.toNat with
  | 0x00 => dec00 f lw t
  | 0x01 => dec01 f lw t
  | 0x02 => dec02 f lw t
  | 0x03 => dec03 f lw t
  | 0x20 => dec20 .fp32 f lw t
  | 0x21 => dec20 .bf16 f lw t
  | 0x22 => dec20 .fp16 f lw t
  | 0x23 => dec23 f lw t
  | 0x24 => dec24 f lw t
  | 0x28 => dec28 f lw t
  | 0x29 => dec29 f lw t
  | 0x2A => dec2A f lw t
  | 0x2B => dec2B f lw t
  | 0x30 => dec30 f lw t
  | 0x31 => dec31 f lw t
  | 0x32 => dec32 f lw t
  | 0x33 => dec33 f lw t
  | 0x34 => dec34 f lw t
  | 0x35 => dec35 f lw t
  | 0x38 => dec38 f lw t
  | 0x39 => dec39 f lw t
  | 0x3A => dec3A f lw t
  | 0x3B => dec3B f lw t
  | 0x3C => dec3C f lw t
  | 0x3D => dec3D f lw t
  | 0x3E => dec3E f lw t
  | 0x3F => dec3F f lw t
  | 0x40 => dec40 f lw t
  | 0x41 => dec41 f lw t
  | 0x42 => dec42 f lw t
  | 0x43 => dec43 f lw t
  | 0x60 => dec60 f lw t
  | 0x61 => dec61 f lw t
  | 0x62 => dec62 f lw t
  | 0x63 => dec63 f lw t
  | 0x68 => dec68 f lw t
  | 0x69 => dec69 f lw t
  | 0x6A => dec6A f lw t
  | 0x6B => dec6B f lw t
  | 0x70 => dec70 f lw t
  | 0x71 => dec71 f lw t
  | 0x72 => dec72 f lw t
  | 0x73 => dec73 f lw t
  | 0x74 => dec74 f lw t
  | 0x75 => dec75 f lw t
  | 0x76 => dec76 f lw t
  | 0x77 => dec77 f lw t
  | 0x78 => dec78 f lw t
  | 0x79 => dec79 f lw t
  | 0x7A => dec7A f lw t
  | 0x7B => dec7B f lw t
  | 0x7C => dec7C f lw t
  | 0x7D => dec7D f lw t
  | 0x7E => dec7E f lw t
  | 0x7F => dec7F f lw t
  | 0x80 => dec80 f lw t
  | 0x88 => dec88 f lw t
  | 0x89 => dec89 f lw t
  | 0x8A => dec8A f lw t
  | 0x8B => dec8B f lw t
  | 0x90 => dec90 f lw t
  | 0x91 => dec91 f lw t
  | 0x92 => dec92 f lw t
  | 0x93 => dec93 f lw t
  | 0x98 => dec98 f lw t
  | 0x99 => dec99 f lw t
  | 0x9A => dec9A f lw t
  | 0x9B => dec9B f lw t
  | 0x9C => dec9C f lw t
  | 0x9D => dec9D f lw t
  | 0x9E => dec9E f lw t
  | 0x9F => dec9F f lw t
  | 0xA0 => decA0 f lw t
  | 0xB0 => decB0 f lw t
  | 0xB1 => decB1 f lw t
  | 0xB8 => decB8 f lw t
  | 0xB9 => decB9 f lw t
  | 0xBA => decBA f lw t
  | 0xBB => decBB f lw t
  | _ => none

/-- A full word: ILLEGAL where OP, FN, a reserved bit, a field or a range is wrong (R89 steps 6 and 7). -/
noncomputable def decodeFull (f : Fields) (lw : Option Word) : Option Instr :=
  f.ctl.bind fun t => (decodeFields f lw t).bind fun i => if i.wf then some i else none

/-- R85: one slot of a pair word. -/
def Slot.ofBits (v : BitVec 31) : Slot :=
  { rop := v.extractLsb' 25 6, d := v.extractLsb' 20 5, a := v.extractLsb' 15 5, i := v.getLsbD 14, imm := v.extractLsb' 0 14 }

/-- R85 to R87. -/
def decodePair (w : Word) : Decoded :=
  let s0 := Slot.ofBits (w.extractLsb' 31 31)
  let s1 := Slot.ofBits (w.extractLsb' 0 31)
  if !pairOk s0 s1 then .bad .illegal
  else if pairBank s0 s1 then .bad .pairBank
  else .instr (.pairWord s0 s1)

/-- R72: the full word carries LIT, so that the next word belongs to it. -/
def needsLit (w : Word) : Bool := w.extractLsb' 62 2 == 0#2 && w.getLsbD 1

/-- R71 and R89 steps 2 to 7: the instruction of a word, `lw` being the word after it. -/
noncomputable def decode (w : Word) (lw : Option Word) : Decoded :=
  match (w.extractLsb' 62 2).toNat with
  | 0 => match decodeFull (Fields.ofWord w) lw with
         | some i => .instr i
         | none => .bad .illegal
  | 1 => decodePair w
  | 2 => .bad .litExec
  | _ => .bad .wordKind

/-- A word from its eight bytes, the lowest address first (R5). -/
def wordOfBytes : List Byte → Option (Word × List Byte)
  | b0 :: b1 :: b2 :: b3 :: b4 :: b5 :: b6 :: b7 :: r => some (b7 ++ b6 ++ b5 ++ b4 ++ b3 ++ b2 ++ b1 ++ b0, r)
  | _ => none

/-- The bytes of a word, the lowest address first. -/
def bytesOfWord (w : Word) : List Byte :=
  [w.extractLsb' 0 8, w.extractLsb' 8 8, w.extractLsb' 16 8, w.extractLsb' 24 8,
   w.extractLsb' 32 8, w.extractLsb' 40 8, w.extractLsb' 48 8, w.extractLsb' 56 8]

/-- The decoder on bytes, the first byte at the lowest address: the instruction whose words they begin with. -/
noncomputable def decodeBytes (bs : List Byte) : Decoded :=
  match wordOfBytes bs with
  | none => .bad .short
  | some (w, r) =>
    if needsLit w then
      match wordOfBytes r with
      | none => .bad .short
      | some (l, _) => decode w (some l)
    else decode w none

/-- The instruction that the bits `w` stand for, in the order of spec/opcode_table.json. -/
noncomputable def decodeTableWord (_nbits w : Nat) : Option Instr :=
  match decodeBytes (bytesOfWord (BitVec.ofNat 64 w) ++ bytesOfWord (BitVec.ofNat 64 (w >>> 64))) with
  | .instr i => some i
  | .bad _ => none

/-! The encoder. -/

/-- R74: the word of the fields. -/
def Fields.toWord (f : Fields) : Word :=
  0b00#2 ++ f.op ++ f.fn ++ f.d ++ f.a ++ f.b ++ f.c ++ f.e ++ f.x ++ f.mg ++ bit f.wgEn ++ bit f.wgArm ++ f.wgW
    ++ bit f.chA ++ bit f.chB ++ bit f.chC ++ f.hint ++ bit f.eo ++ bit f.nv ++ bit f.lit ++ bit f.sy

/-- OP, FN and the guard and control fields; every operand field 0. -/
def Fields.base (op : BitVec 8) (fn : BitVec 6) (t : Ctl) : Fields :=
  { op := op, fn := fn, d := 0, a := 0, b := 0, c := 0, e := 0, x := 0, mg := t.mg,
    wgEn := t.wg.isSome, wgArm := (t.wg.map (·.armB)).getD false, wgW := (t.wg.map (·.w)).getD 0,
    chA := t.chA, chB := t.chB, chC := t.chC, hint := t.hint, eo := t.eo, nv := t.nv, lit := false, sy := t.sy }

/-- Field D set. -/
def Fields.pD (f : Fields) (v : BitVec 5) : Fields := { f with d := v }

/-- Field A set. -/
def Fields.pA (f : Fields) (v : BitVec 5) : Fields := { f with a := v }

/-- Field B set. -/
def Fields.pB (f : Fields) (v : BitVec 5) : Fields := { f with b := v }

/-- Field C set. -/
def Fields.pC (f : Fields) (v : BitVec 5) : Fields := { f with c := v }

/-- Field E set. -/
def Fields.pE (f : Fields) (v : BitVec 5) : Fields := { f with e := v }

/-- Field X set. -/
def Fields.pX (f : Fields) (v : BitVec 5) : Fields := { f with x := v }

/-- SRCK (R79). -/
def Src.kind : Src → BitVec 2
  | .reg _ => 0 | .imm _ => 1 | .lit _ => 1 | .cb _ => 2

/-- The literal word of a source (R81). -/
def Src.litWord : Src → Option Word
  | .lit v => some (0b10#2 ++ 0#30 ++ v)
  | _ => none

/-- IMM20 placed in bits 37:18. -/
def Fields.putImm (f : Fields) (v : BitVec 20) : Fields :=
  (((f.pB (v.extractLsb' 15 5)).pC (v.extractLsb' 10 5)).pE (v.extractLsb' 5 5)).pX (v.extractLsb' 0 5)

/-- The constant-bank index placed in bits 25:18. -/
def Fields.putCb (f : Fields) (i : BitVec 8) : Fields :=
  { f with e := (i.extractLsb' 5 3).setWidth 5, x := i.extractLsb' 0 5 }

/-- R79, one source. -/
def Fields.put1 (f : Fields) : Src → Fields
  | .reg r => { f with a := r }
  | .imm v => f.putImm v
  | .lit _ => { f with lit := true }
  | .cb i => f.putCb i

/-- R79, two sources. -/
def Fields.put2 (f : Fields) : Src → Fields
  | .reg r => { f with b := r }
  | .imm v => f.putImm v
  | .lit _ => { f with lit := true }
  | .cb i => f.putCb i

/-- R79, three sources. -/
def Fields.put3 (f : Fields) (b : Reg) : Src → Fields
  | .reg r => { f with b := b, c := r }
  | .imm v => f.putImm v
  | .lit _ => { f with b := b, lit := true }
  | .cb i => { f with b := b }.putCb i

set_option maxHeartbeats 1000000 in
/-- The fields and the literal word of an instruction that a full word encodes. -/
def fieldsOf : Instr → Option (Fields × Option Word)
  | .add d a src t => some ((((Fields.base 0x00 (src.kind ++ 0x0#4) t).pD d).pA a).put2 src, src.litWord)
  | .sub d a src t => some ((((Fields.base 0x00 (src.kind ++ 0x1#4) t).pD d).pA a).put2 src, src.litWord)
  | .and d a src t => some ((((Fields.base 0x00 (src.kind ++ 0x2#4) t).pD d).pA a).put2 src, src.litWord)
  | .or d a src t => some ((((Fields.base 0x00 (src.kind ++ 0x3#4) t).pD d).pA a).put2 src, src.litWord)
  | .xor d a src t => some ((((Fields.base 0x00 (src.kind ++ 0x4#4) t).pD d).pA a).put2 src, src.litWord)
  | .shl d a src t => some ((((Fields.base 0x00 (src.kind ++ 0x5#4) t).pD d).pA a).put2 src, src.litWord)
  | .shr d a src t => some ((((Fields.base 0x00 (src.kind ++ 0x6#4) t).pD d).pA a).put2 src, src.litWord)
  | .sra d a src t => some ((((Fields.base 0x00 (src.kind ++ 0x7#4) t).pD d).pA a).put2 src, src.litWord)
  | .min d a src t => some ((((Fields.base 0x00 (src.kind ++ 0x8#4) t).pD d).pA a).put2 src, src.litWord)
  | .max d a src t => some ((((Fields.base 0x00 (src.kind ++ 0x9#4) t).pD d).pA a).put2 src, src.litWord)
  | .minu d a src t => some ((((Fields.base 0x00 (src.kind ++ 0xA#4) t).pD d).pA a).put2 src, src.litWord)
  | .maxu d a src t => some ((((Fields.base 0x00 (src.kind ++ 0xB#4) t).pD d).pA a).put2 src, src.litWord)
  | .slt d a src t => some ((((Fields.base 0x00 (src.kind ++ 0xC#4) t).pD d).pA a).put2 src, src.litWord)
  | .sltu d a src t => some ((((Fields.base 0x00 (src.kind ++ 0xD#4) t).pD d).pA a).put2 src, src.litWord)
  | .seq d a src t => some ((((Fields.base 0x00 (src.kind ++ 0xE#4) t).pD d).pA a).put2 src, src.litWord)
  | .mul d a src t => some ((((Fields.base 0x01 (src.kind ++ 0x0#4) t).pD d).pA a).put2 src, src.litWord)
  | .mulh d a src t => some ((((Fields.base 0x01 (src.kind ++ 0x1#4) t).pD d).pA a).put2 src, src.litWord)
  | .mulhu d a src t => some ((((Fields.base 0x01 (src.kind ++ 0x2#4) t).pD d).pA a).put2 src, src.litWord)
  | .div d a src t => some ((((Fields.base 0x01 (src.kind ++ 0x3#4) t).pD d).pA a).put2 src, src.litWord)
  | .divu d a src t => some ((((Fields.base 0x01 (src.kind ++ 0x4#4) t).pD d).pA a).put2 src, src.litWord)
  | .rem d a src t => some ((((Fields.base 0x01 (src.kind ++ 0x5#4) t).pD d).pA a).put2 src, src.litWord)
  | .remu d a src t => some ((((Fields.base 0x01 (src.kind ++ 0x6#4) t).pD d).pA a).put2 src, src.litWord)
  | .clz d a t => some (((Fields.base 0x02 0x00 t).pD d).pA a, none)
  | .ctz d a t => some (((Fields.base 0x02 (0x01) t).pD d).pA a, none)
  | .popc d a t => some (((Fields.base 0x02 (0x02) t).pD d).pA a, none)
  | .bswap d a t => some (((Fields.base 0x02 (0x03) t).pD d).pA a, none)
  | .sxb d a t => some (((Fields.base 0x02 (0x04) t).pD d).pA a, none)
  | .sxh d a t => some (((Fields.base 0x02 (0x05) t).pD d).pA a, none)
  | .sxw d a t => some (((Fields.base 0x02 (0x06) t).pD d).pA a, none)
  | .zxb d a t => some (((Fields.base 0x02 (0x07) t).pD d).pA a, none)
  | .zxh d a t => some (((Fields.base 0x02 (0x08) t).pD d).pA a, none)
  | .zxw d a t => some (((Fields.base 0x02 (0x09) t).pD d).pA a, none)
  | .addpc d src t => some (((Fields.base 0x03 (src.kind ++ 0x0#4) t).pD d).put1 src, src.litWord)
  | .fadd f d a src t => some ((((Fields.base f.fop (src.kind ++ 0x0#4) t).pD d).pA a).put2 src, src.litWord)
  | .fsub f d a src t => some ((((Fields.base f.fop (src.kind ++ 0x1#4) t).pD d).pA a).put2 src, src.litWord)
  | .fmul f d a src t => some ((((Fields.base f.fop (src.kind ++ 0x2#4) t).pD d).pA a).put2 src, src.litWord)
  | .fdiv f d a src t => some ((((Fields.base f.fop (src.kind ++ 0x3#4) t).pD d).pA a).put2 src, src.litWord)
  | .fmin f d a src t => some ((((Fields.base f.fop (src.kind ++ 0x4#4) t).pD d).pA a).put2 src, src.litWord)
  | .fmax f d a src t => some ((((Fields.base f.fop (src.kind ++ 0x5#4) t).pD d).pA a).put2 src, src.litWord)
  | .fsqrt f d src t => some (((Fields.base f.fop (src.kind ++ 0x6#4) t).pD d).put1 src, src.litWord)
  | .fabs f d src t => some (((Fields.base f.fop (src.kind ++ 0x7#4) t).pD d).put1 src, src.litWord)
  | .fneg f d src t => some (((Fields.base f.fop (src.kind ++ 0x8#4) t).pD d).put1 src, src.litWord)
  | .feq f d a src t => some ((((Fields.base f.fop (src.kind ++ 0x9#4) t).pD d).pA a).put2 src, src.litWord)
  | .flt f d a src t => some ((((Fields.base f.fop (src.kind ++ 0xA#4) t).pD d).pA a).put2 src, src.litWord)
  | .fle f d a src t => some ((((Fields.base f.fop (src.kind ++ 0xB#4) t).pD d).pA a).put2 src, src.litWord)
  | .ffma f d a b src t => some ((((Fields.base 0x23 (src.kind ++ f.code2 ++ 0#2) t).pD d).pA a).put3 b src, src.litWord)
  | .ffms f d a b src t => some ((((Fields.base 0x23 (src.kind ++ f.code2 ++ 1#2) t).pD d).pA a).put3 b src, src.litWord)
  | .ffnma f d a b src t => some ((((Fields.base 0x23 (src.kind ++ f.code2 ++ 2#2) t).pD d).pA a).put3 b src, src.litWord)
  | .ffnms f d a b src t => some ((((Fields.base 0x23 (src.kind ++ f.code2 ++ 3#2) t).pD d).pA a).put3 b src, src.litWord)
  | .fcvt d a dst src md sat t => some ((((((Fields.base 0x24 0x00 t).pD d).pA a).pB (dst.code)).pC (src.code)).pE (0#1 ++ bit sat ++ md.code), none)
  | .jal d off t => some ((((((Fields.base 0x28 0x00 t).pD d).pB (off.extractLsb' 15 5)).pC (off.extractLsb' 10 5)).pE (off.extractLsb' 5 5)).pX (off.extractLsb' 0 5), none)
  | .jr d a t => some (((Fields.base 0x29 0x00 t).pD d).pA a, none)
  | .bEq a b off t => some ((((((Fields.base 0x2A 0x00 t).pA a).pB b).pC (off.extractLsb' 10 5)).pE (off.extractLsb' 5 5)).pX (off.extractLsb' 0 5), none)
  | .bNe a b off t => some ((((((Fields.base 0x2A (0x01) t).pA a).pB b).pC (off.extractLsb' 10 5)).pE (off.extractLsb' 5 5)).pX (off.extractLsb' 0 5), none)
  | .bLt a b off t => some ((((((Fields.base 0x2A (0x02) t).pA a).pB b).pC (off.extractLsb' 10 5)).pE (off.extractLsb' 5 5)).pX (off.extractLsb' 0 5), none)
  | .bGe a b off t => some ((((((Fields.base 0x2A (0x03) t).pA a).pB b).pC (off.extractLsb' 10 5)).pE (off.extractLsb' 5 5)).pX (off.extractLsb' 0 5), none)
  | .bLtu a b off t => some ((((((Fields.base 0x2A (0x04) t).pA a).pB b).pC (off.extractLsb' 10 5)).pE (off.extractLsb' 5 5)).pX (off.extractLsb' 0 5), none)
  | .bGeu a b off t => some ((((((Fields.base 0x2A (0x05) t).pA a).pB b).pC (off.extractLsb' 10 5)).pE (off.extractLsb' 5 5)).pX (off.extractLsb' 0 5), none)
  | .subbr d a off t => some ((((((Fields.base 0x2B 0x00 t).pD d).pA a).pC (off.extractLsb' 10 5)).pE (off.extractLsb' 5 5)).pX (off.extractLsb' 0 5), none)
  | .csrr d r t => some (((((Fields.base 0x30 0x00 t).pD d).pC ((r.num.extractLsb' 10 2).setWidth 5)).pE (r.num.extractLsb' 5 5)).pX (r.num.extractLsb' 0 5), none)
  | .csrw r a t => some (((((Fields.base 0x30 (0x01) t).pC ((r.num.extractLsb' 10 2).setWidth 5)).pE (r.num.extractLsb' 5 5)).pX (r.num.extractLsb' 0 5)).pA a, none)
  | .csrs r a t => some (((((Fields.base 0x30 (0x02) t).pC ((r.num.extractLsb' 10 2).setWidth 5)).pE (r.num.extractLsb' 5 5)).pX (r.num.extractLsb' 0 5)).pA a, none)
  | .csrc r a t => some (((((Fields.base 0x30 (0x03) t).pC ((r.num.extractLsb' 10 2).setWidth 5)).pE (r.num.extractLsb' 5 5)).pX (r.num.extractLsb' 0 5)).pA a, none)
  | .setvl d a f k t => some ((((((Fields.base 0x31 0x00 t).pD d).pA a).pC ((f.code.extractLsb' 1 3).setWidth 5)).pE (f.code.extractLsb' 0 1 ++ 0#4)).pX (k ++ 0#1), none)
  | .halt t => some (Fields.base 0x32 0x00 t, none)
  | .yield t => some (Fields.base 0x32 (0x01) t, none)
  | .trap imm t => some (((((Fields.base 0x32 (0x02) t).pB (imm.extractLsb' 15 5)).pC (imm.extractLsb' 10 5)).pE (imm.extractLsb' 5 5)).pX (imm.extractLsb' 0 5), none)
  | .eret t => some (Fields.base 0x32 (0x03) t, none)
  | .sleep a t => some ((Fields.base 0x32 (0x04) t).pA a, none)
  | .waitt a b t => some (((Fields.base 0x32 (0x05) t).pA a).pB b, none)
  | .grant d a t => some (((Fields.base 0x32 (0x06) t).pD d).pA a, none)
  | .pgate a b t => some (((Fields.base 0x33 0x00 t).pA a).pB b, none)
  | .xlinvAddr a t => some ((Fields.base 0x34 0x00 t).pA a, none)
  | .xlinvPart a t => some ((Fields.base 0x34 (0x01) t).pA a, none)
  | .xlinvAll t => some (Fields.base 0x34 (0x02) t, none)
  | .pgq d a t => some (((Fields.base 0x35 0x00 t).pD d).pA a, none)
  | .vadd d a src t => some ((((Fields.base 0x38 (src.kind ++ 0x0#4) t).pD d).pA a).put2 src, src.litWord)
  | .vsub d a src t => some ((((Fields.base 0x38 (src.kind ++ 0x1#4) t).pD d).pA a).put2 src, src.litWord)
  | .vmul d a src t => some ((((Fields.base 0x38 (src.kind ++ 0x2#4) t).pD d).pA a).put2 src, src.litWord)
  | .vdiv d a src t => some ((((Fields.base 0x38 (src.kind ++ 0x3#4) t).pD d).pA a).put2 src, src.litWord)
  | .vmin d a src t => some ((((Fields.base 0x38 (src.kind ++ 0x4#4) t).pD d).pA a).put2 src, src.litWord)
  | .vmax d a src t => some ((((Fields.base 0x38 (src.kind ++ 0x5#4) t).pD d).pA a).put2 src, src.litWord)
  | .vand d a src t => some ((((Fields.base 0x38 (src.kind ++ 0x6#4) t).pD d).pA a).put2 src, src.litWord)
  | .vor d a src t => some ((((Fields.base 0x38 (src.kind ++ 0x7#4) t).pD d).pA a).put2 src, src.litWord)
  | .vxor d a src t => some ((((Fields.base 0x38 (src.kind ++ 0x8#4) t).pD d).pA a).put2 src, src.litWord)
  | .vshl d a src t => some ((((Fields.base 0x38 (src.kind ++ 0x9#4) t).pD d).pA a).put2 src, src.litWord)
  | .vshr d a src t => some ((((Fields.base 0x38 (src.kind ++ 0xA#4) t).pD d).pA a).put2 src, src.litWord)
  | .vsra d a src t => some ((((Fields.base 0x38 (src.kind ++ 0xB#4) t).pD d).pA a).put2 src, src.litWord)
  | .vmulh d a src t => some ((((Fields.base 0x38 (src.kind ++ 0xC#4) t).pD d).pA a).put2 src, src.litWord)
  | .vabsd d a src t => some ((((Fields.base 0x38 (src.kind ++ 0xD#4) t).pD d).pA a).put2 src, src.litWord)
  | .vsgnj d a src t => some ((((Fields.base 0x38 (src.kind ++ 0xE#4) t).pD d).pA a).put2 src, src.litWord)
  | .vaddSat d a src t => some ((((Fields.base 0x39 (src.kind ++ 0x0#4) t).pD d).pA a).put2 src, src.litWord)
  | .vsubSat d a src t => some ((((Fields.base 0x39 (src.kind ++ 0x1#4) t).pD d).pA a).put2 src, src.litWord)
  | .vmulSat d a src t => some ((((Fields.base 0x39 (src.kind ++ 0x2#4) t).pD d).pA a).put2 src, src.litWord)
  | .vfma d a b src t => some ((((Fields.base 0x3A (src.kind ++ 0x0#4) t).pD d).pA a).put3 b src, src.litWord)
  | .vfms d a b src t => some ((((Fields.base 0x3A (src.kind ++ 0x1#4) t).pD d).pA a).put3 b src, src.litWord)
  | .vfnma d a b src t => some ((((Fields.base 0x3A (src.kind ++ 0x2#4) t).pD d).pA a).put3 b src, src.litWord)
  | .vfnms d a b src t => some ((((Fields.base 0x3A (src.kind ++ 0x3#4) t).pD d).pA a).put3 b src, src.litWord)
  | .vneg d a t => some (((Fields.base 0x3B 0x00 t).pD d).pA a, none)
  | .vabs d a t => some (((Fields.base 0x3B (0x01) t).pD d).pA a, none)
  | .vsqrt d a t => some (((Fields.base 0x3B (0x02) t).pD d).pA a, none)
  | .vmov d a t => some (((Fields.base 0x3B (0x03) t).pD d).pA a, none)
  | .vnot d a t => some (((Fields.base 0x3B (0x04) t).pD d).pA a, none)
  | .vcmpEq d a src t => some ((((Fields.base 0x3C (src.kind ++ 0x0#4) t).pD (d.setWidth 5)).pA a).put2 src, src.litWord)
  | .vcmpNe d a src t => some ((((Fields.base 0x3C (src.kind ++ 0x1#4) t).pD (d.setWidth 5)).pA a).put2 src, src.litWord)
  | .vcmpLt d a src t => some ((((Fields.base 0x3C (src.kind ++ 0x2#4) t).pD (d.setWidth 5)).pA a).put2 src, src.litWord)
  | .vcmpLe d a src t => some ((((Fields.base 0x3C (src.kind ++ 0x3#4) t).pD (d.setWidth 5)).pA a).put2 src, src.litWord)
  | .vcmpGt d a src t => some ((((Fields.base 0x3C (src.kind ++ 0x4#4) t).pD (d.setWidth 5)).pA a).put2 src, src.litWord)
  | .vcmpGe d a src t => some ((((Fields.base 0x3C (src.kind ++ 0x5#4) t).pD (d.setWidth 5)).pA a).put2 src, src.litWord)
  | .vcmpUn d a src t => some ((((Fields.base 0x3C (src.kind ++ 0x6#4) t).pD (d.setWidth 5)).pA a).put2 src, src.litWord)
  | .vmerge d a b c t => some (((((Fields.base 0x3D 0x00 t).pD d).pA a).pB b).pC (c.setWidth 5), none)
  | .vcvt d a dst src md sat j t => some (((((((Fields.base 0x3E 0x00 t).pD d).pA a).pB (dst.code)).pC (src.code)).pE (0#1 ++ bit sat ++ md.code)).pX (j.setWidth 5), none)
  | .vsfuExp d a t => some (((Fields.base 0x3F 0x00 t).pD d).pA a, none)
  | .vsfuExp2 d a t => some (((Fields.base 0x3F (0x01) t).pD d).pA a, none)
  | .vsfuLog d a t => some (((Fields.base 0x3F (0x02) t).pD d).pA a, none)
  | .vsfuLog2 d a t => some (((Fields.base 0x3F (0x03) t).pD d).pA a, none)
  | .vsfuRcp d a t => some (((Fields.base 0x3F (0x04) t).pD d).pA a, none)
  | .vsfuRsqrt d a t => some (((Fields.base 0x3F (0x05) t).pD d).pA a, none)
  | .vsfuSqrt d a t => some (((Fields.base 0x3F (0x06) t).pD d).pA a, none)
  | .vsfuTanh d a t => some (((Fields.base 0x3F (0x07) t).pD d).pA a, none)
  | .vsfuSig d a t => some (((Fields.base 0x3F (0x08) t).pD d).pA a, none)
  | .vsfuGelu d a t => some (((Fields.base 0x3F (0x09) t).pD d).pA a, none)
  | .vsfuSin d a t => some (((Fields.base 0x3F (0x0A) t).pD d).pA a, none)
  | .vsfuCos d a t => some (((Fields.base 0x3F (0x0B) t).pD d).pA a, none)
  | .vredFsum d a b t => some ((((Fields.base 0x40 0x00 t).pD d).pA a).pB b, none)
  | .vredFmax d a b t => some ((((Fields.base 0x40 (0x01) t).pD d).pA a).pB b, none)
  | .vredFmin d a b t => some ((((Fields.base 0x40 (0x02) t).pD d).pA a).pB b, none)
  | .vredIsum d a b t => some ((((Fields.base 0x40 (0x03) t).pD d).pA a).pB b, none)
  | .vredImax d a b t => some ((((Fields.base 0x40 (0x04) t).pD d).pA a).pB b, none)
  | .vredImin d a b t => some ((((Fields.base 0x40 (0x05) t).pD d).pA a).pB b, none)
  | .vredImaxu d a b t => some ((((Fields.base 0x40 (0x06) t).pD d).pA a).pB b, none)
  | .vredIminu d a b t => some ((((Fields.base 0x40 (0x07) t).pD d).pA a).pB b, none)
  | .vredAnd d a b t => some ((((Fields.base 0x40 (0x08) t).pD d).pA a).pB b, none)
  | .vredOr d a b t => some ((((Fields.base 0x40 (0x09) t).pD d).pA a).pB b, none)
  | .vredXor d a b t => some ((((Fields.base 0x40 (0x0A) t).pD d).pA a).pB b, none)
  | .vid d t => some ((Fields.base 0x41 0x00 t).pD d, none)
  | .vrngBits d a t => some (((Fields.base 0x42 0x00 t).pD d).pA a, none)
  | .vrngUnit d a t => some (((Fields.base 0x42 (0x01) t).pD d).pA a, none)
  | .vdrop d a b t => some ((((Fields.base 0x43 0x00 t).pD d).pA a).pB b, none)
  | .vperm d a b t => some ((((Fields.base 0x60 0x00 t).pD d).pA a).pB b, none)
  | .vrot d a src t => some ((((Fields.base 0x60 (src.kind ++ 0x1#4) t).pD d).pA a).put2 src, src.litWord)
  | .vslideUp d a src t => some ((((Fields.base 0x60 (src.kind ++ 0x2#4) t).pD d).pA a).put2 src, src.litWord)
  | .vslideDn d a src t => some ((((Fields.base 0x60 (src.kind ++ 0x3#4) t).pD d).pA a).put2 src, src.litWord)
  | .vcomp d a b t => some ((((Fields.base 0x61 0x00 t).pD d).pA a).pB (b.setWidth 5), none)
  | .vexp d a b t => some ((((Fields.base 0x61 (0x01) t).pD d).pA a).pB (b.setWidth 5), none)
  | .mand d a b t => some ((((Fields.base 0x62 0x00 t).pD (d.setWidth 5)).pA (a.setWidth 5)).pB (b.setWidth 5), none)
  | .mor d a b t => some ((((Fields.base 0x62 (0x01) t).pD (d.setWidth 5)).pA (a.setWidth 5)).pB (b.setWidth 5), none)
  | .mxor d a b t => some ((((Fields.base 0x62 (0x02) t).pD (d.setWidth 5)).pA (a.setWidth 5)).pB (b.setWidth 5), none)
  | .mandn d a b t => some ((((Fields.base 0x62 (0x03) t).pD (d.setWidth 5)).pA (a.setWidth 5)).pB (b.setWidth 5), none)
  | .mnot d a t => some (((Fields.base 0x62 (0x04) t).pD (d.setWidth 5)).pA (a.setWidth 5), none)
  | .mcnt d a t => some (((Fields.base 0x63 0x00 t).pD d).pA (a.setWidth 5), none)
  | .many d a t => some (((Fields.base 0x63 (0x01) t).pD d).pA (a.setWidth 5), none)
  | .mfirst d a t => some (((Fields.base 0x63 (0x02) t).pD d).pA (a.setWidth 5), none)
  | .wset d src t => some (((Fields.base 0x68 (src.kind ++ 0x0#4) t).pD (d.setWidth 5)).put1 src, src.litWord)
  | .wsigH d a t => some (((Fields.base 0x68 (0x01) t).pD (d.setWidth 5)).pA a, none)
  | .wsigS d a t => some (((Fields.base 0x68 (0x02) t).pD (d.setWidth 5)).pA a, none)
  | .wget d a t => some (((Fields.base 0x68 (0x03) t).pD d).pA (a.setWidth 5), none)
  | .wmul d a b t => some ((((Fields.base 0x68 (0x04) t).pD (d.setWidth 5)).pA (a.setWidth 5)).pB (b.setWidth 5), none)
  | .wcmp d a t => some (((Fields.base 0x68 (0x05) t).pD (d.setWidth 5)).pA (a.setWidth 5), none)
  | .arm a off t => some (((((Fields.base 0x69 0x00 t).pA (a.setWidth 5)).pC (off.extractLsb' 10 5)).pE (off.extractLsb' 5 5)).pX (off.extractLsb' 0 5), none)
  | .armb a off t => some (((((Fields.base 0x69 (0x01) t).pA (a.setWidth 5)).pC (off.extractLsb' 10 5)).pE (off.extractLsb' 5 5)).pX (off.extractLsb' 0 5), none)
  | .armend t => some (Fields.base 0x69 (0x02) t, none)
  | .join d a b c t => some (((((Fields.base 0x6A 0x00 t).pD d).pA a).pB b).pC (c.setWidth 5), none)
  | .joinb d a b c e t => some ((((((Fields.base 0x6A (0x01) t).pD d).pA a).pB b).pC c).pE (e.setWidth 5), none)
  | .wloop d a off t => some ((((((Fields.base 0x6B 0x00 t).pD (d.setWidth 5)).pA a).pC (off.extractLsb' 10 5)).pE (off.extractLsb' 5 5)).pX (off.extractLsb' 0 5), none)
  | .wlend off t => some ((((Fields.base 0x6B (0x01) t).pC (off.extractLsb' 10 5)).pE (off.extractLsb' 5 5)).pX (off.extractLsb' 0 5), none)
  | .ld8 d a off fq t => some ((((((Fields.base 0x70 0x00 t).pD d).pA a).pC (off.extractLsb' 8 5)).pE (off.extractLsb' 3 5)).pX (off.extractLsb' 0 3 ++ fq.code), none)
  | .ld16 d a off fq t => some ((((((Fields.base 0x70 (0x01) t).pD d).pA a).pC (off.extractLsb' 8 5)).pE (off.extractLsb' 3 5)).pX (off.extractLsb' 0 3 ++ fq.code), none)
  | .ld32 d a off fq t => some ((((((Fields.base 0x70 (0x02) t).pD d).pA a).pC (off.extractLsb' 8 5)).pE (off.extractLsb' 3 5)).pX (off.extractLsb' 0 3 ++ fq.code), none)
  | .ld64 d a off fq t => some ((((((Fields.base 0x70 (0x03) t).pD d).pA a).pC (off.extractLsb' 8 5)).pE (off.extractLsb' 3 5)).pX (off.extractLsb' 0 3 ++ fq.code), none)
  | .ldz8 d a off fq t => some ((((((Fields.base 0x70 (0x04) t).pD d).pA a).pC (off.extractLsb' 8 5)).pE (off.extractLsb' 3 5)).pX (off.extractLsb' 0 3 ++ fq.code), none)
  | .ldz16 d a off fq t => some ((((((Fields.base 0x70 (0x05) t).pD d).pA a).pC (off.extractLsb' 8 5)).pE (off.extractLsb' 3 5)).pX (off.extractLsb' 0 3 ++ fq.code), none)
  | .ldz32 d a off fq t => some ((((((Fields.base 0x70 (0x06) t).pD d).pA a).pC (off.extractLsb' 8 5)).pE (off.extractLsb' 3 5)).pX (off.extractLsb' 0 3 ++ fq.code), none)
  | .st8 a b off fq t => some ((((((Fields.base 0x71 0x00 t).pA a).pB b).pC (off.extractLsb' 8 5)).pE (off.extractLsb' 3 5)).pX (off.extractLsb' 0 3 ++ fq.code), none)
  | .st16 a b off fq t => some ((((((Fields.base 0x71 (0x01) t).pA a).pB b).pC (off.extractLsb' 8 5)).pE (off.extractLsb' 3 5)).pX (off.extractLsb' 0 3 ++ fq.code), none)
  | .st32 a b off fq t => some ((((((Fields.base 0x71 (0x02) t).pA a).pB b).pC (off.extractLsb' 8 5)).pE (off.extractLsb' 3 5)).pX (off.extractLsb' 0 3 ++ fq.code), none)
  | .st64 a b off fq t => some ((((((Fields.base 0x71 (0x03) t).pA a).pB b).pC (off.extractLsb' 8 5)).pE (off.extractLsb' 3 5)).pX (off.extractLsb' 0 3 ++ fq.code), none)
  | .vld d a off fq k rhu t => some ((((((Fields.base 0x72 (k ++ bit rhu) t).pD d).pA a).pC (off.extractLsb' 8 5)).pE (off.extractLsb' 3 5)).pX (off.extractLsb' 0 3 ++ fq.code), none)
  | .vlds d a b fq k rhu t => some (((((Fields.base 0x73 (k ++ bit rhu) t).pD d).pA a).pB b).pX (fq.code.setWidth 5), none)
  | .vldx d a b fq k rhu t => some (((((Fields.base 0x74 (k ++ bit rhu) t).pD d).pA a).pB b).pX (fq.code.setWidth 5), none)
  | .vst a b off fq k t => some ((((((Fields.base 0x75 (k ++ 0#1) t).pA a).pB b).pC (off.extractLsb' 8 5)).pE (off.extractLsb' 3 5)).pX (off.extractLsb' 0 3 ++ fq.code), none)
  | .vsts a b c fq k t => some (((((Fields.base 0x76 (k ++ 0#1) t).pA a).pB b).pC c).pX (fq.code.setWidth 5), none)
  | .vstx a b c fq k t => some (((((Fields.base 0x77 (k ++ 0#1) t).pA a).pB b).pC c).pX (fq.code.setWidth 5), none)
  | .vstp a b off fq k t => some ((((((Fields.base 0x78 (k ++ 0#1) t).pA a).pB b).pC (off.extractLsb' 8 5)).pE (off.extractLsb' 3 5)).pX (off.extractLsb' 0 3 ++ fq.code), none)
  | .vstpPa a b off fq k t => some ((((((Fields.base 0x78 (k ++ 1#1) t).pA a).pB b).pC (off.extractLsb' 8 5)).pE (off.extractLsb' 3 5)).pX (off.extractLsb' 0 3 ++ fq.code), none)
  | .feset a b t => some (((Fields.base 0x79 0x00 t).pA a).pB b, none)
  | .feclr a b t => some (((Fields.base 0x79 (0x01) t).pA a).pB b, none)
  | .amoAdd n32 d a b t => some ((((Fields.base 0x7A (0#1 ++ bit n32 ++ 0x0#4) t).pD d).pA a).pB b, none)
  | .amoAnd n32 d a b t => some ((((Fields.base 0x7A (0#1 ++ bit n32 ++ 0x1#4) t).pD d).pA a).pB b, none)
  | .amoOr n32 d a b t => some ((((Fields.base 0x7A (0#1 ++ bit n32 ++ 0x2#4) t).pD d).pA a).pB b, none)
  | .amoXor n32 d a b t => some ((((Fields.base 0x7A (0#1 ++ bit n32 ++ 0x3#4) t).pD d).pA a).pB b, none)
  | .amoMin n32 d a b t => some ((((Fields.base 0x7A (0#1 ++ bit n32 ++ 0x4#4) t).pD d).pA a).pB b, none)
  | .amoMax n32 d a b t => some ((((Fields.base 0x7A (0#1 ++ bit n32 ++ 0x5#4) t).pD d).pA a).pB b, none)
  | .amoMinu n32 d a b t => some ((((Fields.base 0x7A (0#1 ++ bit n32 ++ 0x6#4) t).pD d).pA a).pB b, none)
  | .amoMaxu n32 d a b t => some ((((Fields.base 0x7A (0#1 ++ bit n32 ++ 0x7#4) t).pD d).pA a).pB b, none)
  | .amoSwap n32 d a b t => some ((((Fields.base 0x7A (0#1 ++ bit n32 ++ 0x8#4) t).pD d).pA a).pB b, none)
  | .amoCas n32 d a b c t => some (((((Fields.base 0x7A (0#1 ++ bit n32 ++ 0x9#4) t).pD d).pA a).pB b).pC c, none)
  | .vamoAdd n32 d a b c t => some (((((Fields.base 0x7B (0#1 ++ bit n32 ++ 0x0#4) t).pD d).pA a).pB b).pC c, none)
  | .vamoAnd n32 d a b c t => some (((((Fields.base 0x7B (0#1 ++ bit n32 ++ 0x1#4) t).pD d).pA a).pB b).pC c, none)
  | .vamoOr n32 d a b c t => some (((((Fields.base 0x7B (0#1 ++ bit n32 ++ 0x2#4) t).pD d).pA a).pB b).pC c, none)
  | .vamoXor n32 d a b c t => some (((((Fields.base 0x7B (0#1 ++ bit n32 ++ 0x3#4) t).pD d).pA a).pB b).pC c, none)
  | .vamoMin n32 d a b c t => some (((((Fields.base 0x7B (0#1 ++ bit n32 ++ 0x4#4) t).pD d).pA a).pB b).pC c, none)
  | .vamoMax n32 d a b c t => some (((((Fields.base 0x7B (0#1 ++ bit n32 ++ 0x5#4) t).pD d).pA a).pB b).pC c, none)
  | .vamoMinu n32 d a b c t => some (((((Fields.base 0x7B (0#1 ++ bit n32 ++ 0x6#4) t).pD d).pA a).pB b).pC c, none)
  | .vamoMaxu n32 d a b c t => some (((((Fields.base 0x7B (0#1 ++ bit n32 ++ 0x7#4) t).pD d).pA a).pB b).pC c, none)
  | .vamoSwap n32 d a b c t => some (((((Fields.base 0x7B (0#1 ++ bit n32 ++ 0x8#4) t).pD d).pA a).pB b).pC c, none)
  | .vamoCas n32 d a b c t => some (((((Fields.base 0x7B (0#1 ++ bit n32 ++ 0x9#4) t).pD d).pA a).pB b).pC c, none)
  | .amoacc md a b t => some (((Fields.base 0x7C (0#2 ++ 0#1 ++ md.code) t).pA a).pB b, none)
  | .vldbfa md d a t => some (((Fields.base 0x7C (0#2 ++ 1#1 ++ md.code) t).pD d).pA a, none)
  | .fenceC tier t => some (Fields.base 0x7D (tier.code ++ 0#3) t, none)
  | .fenceS tier t => some (Fields.base 0x7D (tier.code ++ 1#3) t, none)
  | .fenceRec tier t => some (Fields.base 0x7D (tier.code ++ 2#3) t, none)
  | .fenceHost tier t => some (Fields.base 0x7D (tier.code ++ 3#3) t, none)
  | .fenceEng tier t => some (Fields.base 0x7D (tier.code ++ 4#3) t, none)
  | .strm d a b t => some ((((Fields.base 0x7E 0x00 t).pD d).pA a).pB b, none)
  | .strmx d t => some ((Fields.base 0x7E (0x01) t).pD d, none)
  | .stash a b t => some (((Fields.base 0x7F 0x00 t).pA a).pB b, none)
  | .stflush a b t => some (((Fields.base 0x7F (0x01) t).pA a).pB b, none)
  | .stinv a b t => some (((Fields.base 0x7F (0x02) t).pA a).pB b, none)
  | .pref a b t => some (((Fields.base 0x7F (0x03) t).pA a).pB b, none)
  | .vcapp a b t => some (((Fields.base 0x80 0x00 t).pA a).pB b, none)
  | .cpy a b c e t => some (((((Fields.base 0x88 0x00 t).pA a).pB b).pC c).pE e, none)
  | .gath a b c e t => some (((((Fields.base 0x89 0x00 t).pA a).pB b).pC c).pE e, none)
  | .scat a b c e t => some (((((Fields.base 0x89 (0x01) t).pA a).pB b).pC c).pE e, none)
  | .collAg a b c e t => some (((((Fields.base 0x8A 0x00 t).pA a).pB b).pC c).pE e, none)
  | .collRs f a b c e t => some (((((Fields.base 0x8A (f.code.extractLsb' 0 4 ++ 1#2) t).pA a).pB b).pC c).pE e, none)
  | .collAr f a b c e t => some (((((Fields.base 0x8A (f.code.extractLsb' 0 4 ++ 2#2) t).pA a).pB b).pC c).pE e, none)
  | .ewait a t => some ((Fields.base 0x8B 0x00 t).pA a, none)
  | .glaunch a b t => some (((Fields.base 0x90 0x00 t).pA a).pB b, none)
  | .nspawn a b t => some (((Fields.base 0x90 (0x01) t).pA a).pB b, none)
  | .dcset a b t => some (((Fields.base 0x90 (0x02) t).pA a).pB b, none)
  | .dcdec a b t => some (((Fields.base 0x90 (0x03) t).pA a).pB b, none)
  | .npatch a b c t => some ((((Fields.base 0x90 (0x04) t).pA a).pB b).pC c, none)
  | .gid tier d t => some ((Fields.base 0x91 (tier.code ++ 0#3) t).pD d, none)
  | .gsplit tier d a t => some (((Fields.base 0x91 (tier.code ++ 1#3) t).pD d).pA a, none)
  | .lput a t => some ((Fields.base 0x92 0x00 t).pA a, none)
  | .lget d t => some ((Fields.base 0x92 (0x01) t).pD d, none)
  | .lfree d t => some ((Fields.base 0x92 (0x02) t).pD d, none)
  | .bari tier i b t => some ((((Fields.base 0x93 (tier.code ++ 0#3) t).pE ((i.extractLsb' 5 1).setWidth 5)).pX (i.extractLsb' 0 5)).pB b, none)
  | .barr tier i t => some (((Fields.base 0x93 (tier.code ++ 1#3) t).pE ((i.extractLsb' 5 1).setWidth 5)).pX (i.extractLsb' 0 5), none)
  | .barw tier i t => some (((Fields.base 0x93 (tier.code ++ 2#3) t).pE ((i.extractLsb' 5 1).setWidth 5)).pX (i.extractLsb' 0 5), none)
  | .barrw tier i t => some (((Fields.base 0x93 (tier.code ++ 3#3) t).pE ((i.extractLsb' 5 1).setWidth 5)).pX (i.extractLsb' 0 5), none)
  | .msmode op mvl t => some ((Fields.base 0x98 0x00 t).pX (0#2 ++ mvl ++ bit op), none)
  | .mclaim d n t => some ((((Fields.base 0x99 0x00 t).pD d).pE ((n.extractLsb' 5 1).setWidth 5)).pX (n.extractLsb' 0 5), none)
  | .mrel a t => some ((Fields.base 0x99 (0x01) t).pA a, none)
  | .mlds a b t => some (((Fields.base 0x9A 0x00 t).pA a).pB b, none)
  | .mldw a fs t => some (((((Fields.base 0x9A (0x01) t).pA a).pC ((fs.fmt.code.extractLsb' 1 3).setWidth 5)).pE (fs.fmt.code.extractLsb' 0 1 ++ fs.nm1)).pX (fs.km1 ++ bit fs.rhu), none)
  | .mstrm d a fs t => some ((((((Fields.base 0x9B 0x00 t).pD (d.setWidth 5)).pA a).pC ((fs.fmt.code.extractLsb' 1 3).setWidth 5)).pE (fs.fmt.code.extractLsb' 0 1 ++ fs.nm1)).pX (fs.km1 ++ bit fs.rhu), none)
  | .mxprod d a b t => some ((((Fields.base 0x9C 0x00 t).pD (d.setWidth 5)).pA a).pB b, none)
  | .mzero d t => some ((Fields.base 0x9D 0x00 t).pD (d.setWidth 5), none)
  | .mrdzSplit d a b t => some ((((Fields.base 0x9D (0x01) t).pD d).pA (a.setWidth 5)).pB b, none)
  | .mrdzMerge d a b t => some ((((Fields.base 0x9D (0x02) t).pD d).pA (a.setWidth 5)).pB b, none)
  | .mwrz d a b t => some ((((Fields.base 0x9D (0x03) t).pD (d.setWidth 5)).pA a).pB b, none)
  | .mcol d a b t => some ((((Fields.base 0x9D (0x04) t).pD d).pA (a.setWidth 5)).pB b, none)
  | .mtrs d a t => some (((Fields.base 0x9D (0x05) t).pD (d.setWidth 5)).pA (a.setWidth 5), none)
  | .msts a b c t => some ((((Fields.base 0x9E 0x00 t).pA a).pB (b.setWidth 5)).pC c, none)
  | .mstsCmp a b c t => some ((((Fields.base 0x9E (0x01) t).pA a).pB (b.setWidth 5)).pC c, none)
  | .mstsCmpTrap a b c t => some ((((Fields.base 0x9E (0x02) t).pA a).pB (b.setWidth 5)).pC c, none)
  | .seqdef a t => some ((Fields.base 0x9F 0x00 t).pA a, none)
  | .seqrun a t => some ((Fields.base 0x9F (0x01) t).pA (a.setWidth 5), none)
  | .kset d a t => some (((Fields.base 0xA0 0x00 t).pD (d.setWidth 5)).pA a, none)
  | .kclr d a t => some (((Fields.base 0xA0 (0x01) t).pD (d.setWidth 5)).pA a, none)
  | .kld d a t => some (((Fields.base 0xA0 (0x02) t).pD (d.setWidth 5)).pA a, none)
  | .ktst d a b t => some ((((Fields.base 0xA0 (0x03) t).pD d).pA (a.setWidth 5)).pB b, none)
  | .voptSgd a b c e t => some (((((Fields.base 0xB0 0x00 t).pA a).pB b).pC c).pE e, none)
  | .voptMsgd a b c e t => some (((((Fields.base 0xB0 (0x01) t).pA a).pB b).pC c).pE e, none)
  | .voptAdam a b c e t => some (((((Fields.base 0xB0 (0x02) t).pA a).pB b).pC c).pE e, none)
  | .vsal d a b t => some ((((Fields.base 0xB1 0x00 t).pD d).pA a).pB b, none)
  | .vnms d a n t => some ((((Fields.base 0xB1 (0x01) t).pD (d.setWidth 5)).pA a).pX (n.setWidth 5), none)
  | .qterm a b c t => some ((((Fields.base 0xB8 0x00 t).pA a).pB b).pC c, none)
  | .qvec a b c t => some ((((Fields.base 0xB9 0x00 t).pA a).pB b).pC c, none)
  | .qexec a b t => some (((Fields.base 0xBA 0x00 t).pA a).pB b, none)
  | .qstat d a t => some (((Fields.base 0xBB 0x00 t).pD d).pA a, none)
  | .pairWord _ _ => none
  | .strandDispatch _ => none
  | .priorityPreemption => none
  | .queueAging _ _ => none
  | .preemptionRequest _ => none
  | .strandStopped _ => none
  | .trappedSave _ => none
  | .faultRecordWrite => none
  | .faultReply _ _ => none
  | .migrationSelect _ => none
  | .reelTransfer _ _ => none
  | .reelArrived _ _ => none
  | .nodeComplete _ => none
  | .readyPoolEntry => none
  | .replayBind _ => none
  | .spawnedKernelReject _ => none
  | .arbiterPeriod => none
  | .engineIssue _ => none
  | .engineDone _ _ => none
  | .engineSuspend _ _ => none
  | .engineFail _ _ => none
  | .postStallResume _ => none
  | .streamRefill _ _ _ => none
  | .gatherSubrequest _ => none
  | .gatherReply _ _ => none
  | .collBlock _ _ => none
  | .queryStart _ => none
  | .queryDone _ _ => none
  | .querySuspend _ _ => none
  | .queryFail _ _ => none
  | .batchTimeout _ => none
  | .batchArrive _ _ => none
  | .batchApply _ _ => none
  | .remoteReadRequest _ => none
  | .readReply _ => none
  | .remoteAtomic _ => none
  | .remoteAccessTimeout _ _ => none
  | .flitData _ => none
  | .flitCredit _ => none
  | .flitReplayRequest _ => none
  | .portEnable _ => none
  | .portTrained _ => none
  | .trainingTimeout _ => none
  | .laneFail _ _ => none
  | .retrainDone _ => none
  | .retrainFail _ => none
  | .portDisable _ => none
  | .peerLoss _ => none
  | .hostPortDown => none
  | .hostMemRead _ _ _ => none
  | .hostMemWrite _ _ => none
  | .eccCorrected _ => none
  | .eccUncorrectable _ _ => none
  | .dvfsTransition _ _ => none
  | .powerWindow => none
  | .railWindow _ => none
  | .railStepRaise _ => none
  | .ballast _ => none
  | .laneTrim _ => none
  | .gateDrained _ => none
  | .wakeDone _ => none
  | .sleepExpiry _ => none
  | .waittEnd _ => none
  | .leatSlotFreed _ => none
  | .leatEntryArrives _ => none
  | .feWaitSatisfied _ => none
  | .barrierRelease _ => none
  | .gsplitRoundComplete => none
  | .pgateWaitEnd _ => none
  | .ewaitRetire _ => none
  | .claim _ => none
  | .renew _ => none
  | .leaseLapse => none
  | .handover _ _ => none
  | .accept _ => none
  | .handoverTimeout => none
  | .read _ => none
  | .attest _ => none
  | .spdmMeasurement _ => none
  | .create _ => none
  | .modify _ => none
  | .start _ => none
  | .reset _ _ => none
  | .resetComplete _ => none
  | .destroy _ _ => none
  | .fwupdate _ => none
  | .deviceReset => none
  | .hostPortUp => none
  | .bisnpResponse _ => none
  | .domainBarrierArrival => none
  | .remoteCounterUpdate => none

/-- R85: the bits of a slot. -/
def Slot.toBits (s : Slot) : BitVec 31 := s.rop ++ s.d ++ s.a ++ bit s.i ++ s.imm

/-- The word of an instruction and the literal word after it; an event has none. -/
def encode (i : Instr) : Option (Word × Option Word) :=
  match i with
  | .pairWord s0 s1 => some (0b01#2 ++ s0.toBits ++ s1.toBits, none)
  | i => (fieldsOf i).map fun p => (p.1.toWord, p.2)

/-- R72: the bytes that the words of an S form take. -/
def Src.bytes : Src → Word
  | .lit _ => 16
  | _ => 8

/-- R72: how many bytes the instruction's words take. -/
def Instr.size (i : Instr) : Nat :=
  match encode i with
  | some (_, some _) => 16
  | _ => 8

end Sys2Proof
end

