-- ==== Sys2Proof/Machine/Num.lean ====
section
/-!
DEFINITION. Formats and arithmetic (02_numbers.md). A floating-point operation forms its exact result as a magnitude
that can be cut at any binary place, and rounds it once (R32). The rounding modes of R46 and the element hash of R47 act
through one function, `roundAt`.
-/

namespace Sys2Proof.Machine

/-! Rounding modes and the element hash. -/

/-- The modes a result can be rounded in: `Mode` without DYN. -/
inductive RMode where
  | rne | rtz | rdn | rup | sr
deriving DecidableEq, Repr

/-- `rmode`.MODE (R46), which holds 0 to 4. -/
def RMode.ofBits (b : BitVec 3) : RMode :=
  match b.toNat with
  | 0 => .rne | 1 => .rtz | 2 => .rdn | 3 => .rup | _ => .sr

/-- DYN names the mode in `rmode` (R46). -/
def RMode.ofMode (dyn : RMode) : Mode → RMode
  | .rne => .rne | .rtz => .rtz | .rdn => .rdn | .rup => .rup | .sr => .sr | .dyn => dyn

/-- R47: the element hash H(a, s). -/
def elemHash (a s : Word) : Word :=
  let x := a + s * 0x9E6C63D0676A9A99
  let x := x ^^^ (x >>> 32)
  let x := x * 0xD6E8FEB86659FD93
  let x := x ^^^ (x >>> 32)
  let x := x * 0xD6E8FEB86659FD93
  x ^^^ (x >>> 32)

/-- R48: r is bits 63:40 of the hash. -/
def hash24 (a s : Word) : Nat := ((elemHash a s).extractLsb' 40 24).toNat

/-- R47: the key of a result in a register; class 0 `v`, 1 `g`, 2 `z`, 3 `w`. -/
def regKey (cls d i : Nat) : Word := BitVec.ofNat 64 (2 ^ 63 + cls * 2 ^ 24 + d * 2 ^ 16 + i)

/-- How one result is rounded: the mode, and the 24 hash bits that SR compares with (R48). -/
structure Rnd where
  mode : RMode
  r : Nat
deriving DecidableEq, Repr

/-- The rounding of a result whose key is `a`. -/
def Rnd.at (mode : RMode) (seed a : Word) : Rnd :=
  { mode := mode, r := if mode = .sr then hash24 a seed else 0 }

/-- Rounding to nearest, ties to even, wherever a rule names RNE. -/
def Rnd.rne : Rnd := { mode := .rne, r := 0 }

/-! Exact magnitudes. -/

/-- The bits of the integer square root from bit `b` down, `r` being the bits above. -/
def isqrtFrom (x : Nat) : Nat → Nat → Nat
  | 0, r => if (r + 1) * (r + 1) ≤ x then r + 1 else r
  | b + 1, r =>
    let c := r + 2 ^ (b + 1)
    isqrtFrom x b (if c * c ≤ x then c else r)

/-- The largest n with n² ≤ x. -/
def isqrt (x : Nat) : Nat := isqrtFrom x (x.log2 / 2 + 1) 0

/-- An exact non-negative real: m·2^e, (n / d)·2^e, or the square root of m·2^e. -/
inductive Mag where
  | dyadic (m : Nat) (e : Int)
  | ratio (n d : Nat) (e : Int)
  | root (m : Nat) (e : Int)
deriving DecidableEq, Repr

/-- floor(n·2^s), and whether it is exact. -/
def shiftFloor (n : Nat) (s : Int) : Nat × Bool :=
  if 0 ≤ s then (n <<< s.toNat, true)
  else
    let k := (-s).toNat
    (n >>> k, n % 2 ^ k == 0)

/-- floor(x·2^k), and whether it is exact. -/
def Mag.floorAt (x : Mag) (k : Int) : Nat × Bool :=
  match x with
  | .dyadic m e => shiftFloor m (e + k)
  | .ratio n d e =>
    let s := e + k
    let n' := if 0 ≤ s then n <<< s.toNat else n
    let d' := if 0 ≤ s then d else d <<< (-s).toNat
    (n' / d', n' % d' == 0)
  | .root m e =>
    let (y, ex) := shiftFloor m (e + 2 * k)
    let r := isqrt y
    (r, ex && r * r == y)

/-- The magnitude is 0. -/
def Mag.isZero : Mag → Bool
  | .dyadic m _ => m == 0
  | .ratio n _ _ => n == 0
  | .root m _ => m == 0

/-- floor(log2 x) for x > 0. -/
def Mag.log2 (x : Mag) : Int :=
  match x with
  | .dyadic m e => m.log2 + e
  | .ratio n d e =>
    let g : Int := (n.log2 : Int) - d.log2
    let lower := if 0 ≤ g then d <<< g.toNat ≤ n else d ≤ n <<< (-g).toNat
    (if lower then g else g - 1) + e
  | .root m e => (((m.log2 : Int) + e) / 2)

/-- Rounds `x`, negative where `neg`, to a multiple of 2^u: the multiple's magnitude and whether it is inexact (R46, R48). -/
def roundAt (rd : Rnd) (neg : Bool) (x : Mag) (u : Int) : Nat × Bool :=
  let (t, ex) := x.floorAt (24 - u)
  let n := t >>> 24
  let f := t % 2 ^ 24
  let inexact := f != 0 || !ex
  let up : Bool :=
    match rd.mode with
    | .rne => decide (f > 2 ^ 23) || (f == 2 ^ 23 && (!ex || n % 2 == 1))
    | .rtz => false
    | .rdn => neg && inexact
    | .rup => !neg && inexact
    | .sr =>
      if !inexact then false
      else if neg then !decide (rd.r < 2 ^ 24 - (f + if ex then 0 else 1))
      else decide (rd.r < f)
  (if up then n + 1 else n, inexact)

/-! Flags (R30). -/

/-- `fflags` bits 4:0: NV, DZ, OF, UF, NX. -/
abbrev FFlags := BitVec 5
/-- Invalid. -/
def flagNV : FFlags := 16
/-- Divide by zero. -/
def flagDZ : FFlags := 8
/-- Overflow. -/
def flagOF : FFlags := 4
/-- Underflow. -/
def flagUF : FFlags := 2
/-- Inexact. -/
def flagNX : FFlags := 1
/-- A flag where the condition holds. -/
def flagIf (c : Bool) (f : FFlags) : FFlags := if c then f else 0

/-! Binary floating point. -/

/-- A binary format of R28 by its exponent and fraction widths. -/
structure FloatFmt where
  ebits : Nat
  fbits : Nat
deriving DecidableEq, Repr

/-- binary32 (R28). -/
def fp32 : FloatFmt := { ebits := 8, fbits := 23 }
/-- binary16 (R28). -/
def fp16 : FloatFmt := { ebits := 5, fbits := 10 }
/-- binary32 without its low 16 bits (R28). -/
def bf16 : FloatFmt := { ebits := 8, fbits := 7 }

/-- The formats of OP 0x20 to 0x23. -/
def FloatFmt.ofFFmt : FFmt → FloatFmt
  | .fp32 => fp32 | .bf16 => bf16 | .fp16 => fp16

/-- The exponent bias. -/
def FloatFmt.bias (q : FloatFmt) : Int := 2 ^ (q.ebits - 1) - 1
/-- The width in bits. -/
def FloatFmt.width (q : FloatFmt) : Nat := 1 + q.ebits + q.fbits
/-- The bits of +∞. -/
def FloatFmt.infBits (q : FloatFmt) : Nat := (2 ^ q.ebits - 1) <<< q.fbits
/-- The largest finite value. -/
def FloatFmt.maxBits (q : FloatFmt) : Nat := q.infBits - 1
/-- The canonical NaN (R28). -/
def FloatFmt.nanBits (q : FloatFmt) : Nat := q.infBits + 2 ^ (q.fbits - 1)
/-- The sign bit placed. -/
def FloatFmt.signed (q : FloatFmt) (neg : Bool) (b : Nat) : Nat := if neg then b + 2 ^ (q.ebits + q.fbits) else b

/-- An exact dyadic number m·2^e. -/
structure Dy where
  m : Int
  e : Int
deriving DecidableEq, Repr

/-- The exact sum. -/
def Dy.add (x y : Dy) : Dy :=
  let e := min x.e y.e
  { m := x.m * 2 ^ (x.e - e).toNat + y.m * 2 ^ (y.e - e).toNat, e := e }

/-- The exact product. -/
def Dy.mul (x y : Dy) : Dy := { m := x.m * y.m, e := x.e + y.e }
/-- The exact negation. -/
def Dy.neg (x : Dy) : Dy := { m := -x.m, e := x.e }
/-- 0. -/
def Dy.zero : Dy := { m := 0, e := 0 }
/-- An integer. -/
def Dy.ofInt (n : Int) : Dy := { m := n, e := 0 }
/-- Comparison of exact values: less. -/
def Dy.lt (x y : Dy) : Bool := decide ((x.add y.neg).m < 0)
/-- Comparison of exact values: equal. -/
def Dy.beq (x y : Dy) : Bool := (x.add y.neg).m == 0

/-- What a float's bits stand for (R28): a NaN, an infinity, or a finite value with its sign. -/
inductive FVal where
  | nan (signalling : Bool)
  | inf (neg : Bool)
  | fin (neg : Bool) (m : Nat) (e : Int)
deriving DecidableEq, Repr

/-- The value of the bits. -/
def FVal.ofBits (q : FloatFmt) (b : Nat) : FVal :=
  let f := b % 2 ^ q.fbits
  let x := (b >>> q.fbits) % 2 ^ q.ebits
  let neg := (b >>> (q.fbits + q.ebits)) % 2 == 1
  if x == 2 ^ q.ebits - 1 then
    if f == 0 then .inf neg else .nan (f < 2 ^ (q.fbits - 1))
  else if x == 0 then .fin neg f (1 - q.bias - q.fbits)
  else .fin neg (f + 2 ^ q.fbits) (x - q.bias - q.fbits)

/-- The exact value of a finite float; 0 for the others. -/
def FVal.dy : FVal → Dy
  | .fin neg m e => { m := if neg then -(m : Int) else m, e := e }
  | _ => Dy.zero

/-- The sign bit. -/
def FVal.isNeg : FVal → Bool
  | .nan _ => false
  | .inf n => n
  | .fin n _ _ => n

/-- A finite zero. -/
def FVal.isZero : FVal → Bool
  | .fin _ m _ => m == 0
  | _ => false

/-- A NaN. -/
def FVal.isNaN : FVal → Bool
  | .nan _ => true
  | _ => false

/-- A signalling NaN (R29). -/
def FVal.isSNaN : FVal → Bool
  | .nan s => s
  | _ => false

/-- An infinity. -/
def FVal.isInf : FVal → Bool
  | .inf _ => true
  | _ => false

/-- The value with its sign inverted. -/
def FVal.neg : FVal → FVal
  | .nan s => .nan s
  | .inf n => .inf (!n)
  | .fin n m e => .fin (!n) m e

/-- A result: its bits and the flags it raises. -/
structure FRes where
  bits : Nat
  flags : FFlags
deriving DecidableEq, Repr

/-- The canonical NaN with NV where `nv`. -/
def FRes.nan (q : FloatFmt) (nv : Bool) : FRes := { bits := q.nanBits, flags := flagIf nv flagNV }

/-- The result of an overflow (R48, R50). -/
def overflowBits (q : FloatFmt) (rd : Rnd) (neg : Bool) : Nat :=
  q.signed neg <|
    match rd.mode with
    | .rne => q.infBits
    | .rtz => q.maxBits
    | .rdn => if neg then q.infBits else q.maxBits
    | .rup => if neg then q.maxBits else q.infBits
    | .sr => q.maxBits

/-- The magnitude bits of n·2^u, u being the unit that the exponent E fixes. -/
def magBits (q : FloatFmt) (E : Int) (n : Nat) : Nat :=
  if E ≤ 1 - q.bias then n else ((E + q.bias - 1).toNat <<< q.fbits) + n

/-- Rounds a non-zero magnitude to the format once (R32), with OF, UF and NX; tininess is detected after rounding (R30). -/
def roundMag (q : FloatFmt) (rd : Rnd) (neg : Bool) (x : Mag) : FRes :=
  if x.isZero then { bits := q.signed neg 0, flags := 0 }
  else
    let E := x.log2
    let emin := 1 - q.bias
    let u := max E emin - q.fbits
    let (n, inexact) := roundAt rd neg x u
    let b := magBits q E n
    let tooBig : Bool :=
      match rd.mode with
      | .sr => let t := magBits q E (x.floorAt (-u)).1
               decide (q.infBits ≤ t) || (t == q.maxBits && inexact)
      | _ => decide (q.infBits ≤ b)
    if tooBig then { bits := overflowBits q rd neg, flags := flagOF ||| flagNX }
    else
      let lifted := E == emin - 1 && (roundAt rd neg x (E - q.fbits)).1 == 2 ^ (q.fbits + 1)
      let tiny := decide (E < emin) && !lifted
      { bits := q.signed neg b, flags := flagIf inexact flagNX ||| flagIf (tiny && inexact) flagUF }

/-- Rounds an exact dyadic value; `zneg` is the sign of a zero result. -/
def roundDy (q : FloatFmt) (rd : Rnd) (zneg : Bool) (x : Dy) : FRes :=
  if x.m = 0 then { bits := q.signed zneg 0, flags := 0 }
  else roundMag q rd (decide (x.m < 0)) (.dyadic x.m.natAbs x.e)

/-- An exact sum of zero is +0 in every mode except RDN (R32). -/
def Rnd.zeroNeg (rd : Rnd) : Bool := rd.mode == .rdn

/-- a + b (R99, R100). -/
def fAddV (q : FloatFmt) (rd : Rnd) (a b : FVal) : FRes :=
  match a, b with
  | .nan s, y => FRes.nan q (s || y.isSNaN)
  | _, .nan s => FRes.nan q s
  | .inf n, .inf k => if n == k then { bits := q.signed n q.infBits, flags := 0 } else FRes.nan q true
  | .inf n, _ => { bits := q.signed n q.infBits, flags := 0 }
  | _, .inf n => { bits := q.signed n q.infBits, flags := 0 }
  | .fin n m e, .fin k m' e' =>
    roundDy q rd (if m == 0 && m' == 0 && n == k then n else rd.zeroNeg) ((FVal.fin n m e).dy.add (FVal.fin k m' e').dy)

/-- a × b. -/
def fMulV (q : FloatFmt) (rd : Rnd) (a b : FVal) : FRes :=
  match a, b with
  | .nan s, y => FRes.nan q (s || y.isSNaN)
  | _, .nan s => FRes.nan q s
  | .inf n, y => if y.isZero then FRes.nan q true else { bits := q.signed (n != y.isNeg) q.infBits, flags := 0 }
  | x, .inf n => if x.isZero then FRes.nan q true else { bits := q.signed (n != x.isNeg) q.infBits, flags := 0 }
  | .fin n m e, .fin k m' e' => roundDy q rd (n != k) ((FVal.fin n m e).dy.mul (FVal.fin k m' e').dy)

/-- a / b. -/
def fDivV (q : FloatFmt) (rd : Rnd) (a b : FVal) : FRes :=
  match a, b with
  | .nan s, y => FRes.nan q (s || y.isSNaN)
  | _, .nan s => FRes.nan q s
  | .inf n, y => if y.isInf then FRes.nan q true else { bits := q.signed (n != y.isNeg) q.infBits, flags := 0 }
  | x, .inf n => { bits := q.signed (n != x.isNeg) 0, flags := 0 }
  | .fin n m e, .fin k m' e' =>
    if m' = 0 then
      if m = 0 then FRes.nan q true else { bits := q.signed (n != k) q.infBits, flags := flagDZ }
    else roundMag q rd (n != k) (.ratio m m' (e - e'))

/-- √b. -/
def fSqrtV (q : FloatFmt) (rd : Rnd) (b : FVal) : FRes :=
  match b with
  | .nan s => FRes.nan q s
  | .inf n => if n then FRes.nan q true else { bits := q.infBits, flags := 0 }
  | .fin n m e =>
    if m = 0 then { bits := q.signed n 0, flags := 0 }
    else if n then FRes.nan q true
    else roundMag q rd false (.root m e)

/-- a × b + c, rounded once (R101); 0 × ∞ raises NV even where c is a quiet NaN. -/
def fFmaV (q : FloatFmt) (rd : Rnd) (a b c : FVal) : FRes :=
  let inv := (a.isInf && b.isZero) || (a.isZero && b.isInf)
  let pn := a.isNeg != b.isNeg
  if a.isNaN || b.isNaN || c.isNaN || inv then FRes.nan q (inv || a.isSNaN || b.isSNaN || c.isSNaN)
  else if a.isInf || b.isInf then
    if c.isInf && c.isNeg != pn then FRes.nan q true else { bits := q.signed pn q.infBits, flags := 0 }
  else if c.isInf then { bits := q.signed c.isNeg q.infBits, flags := 0 }
  else
    let p := a.dy.mul b.dy
    roundDy q rd (if p.m = 0 && c.isZero && pn == c.isNeg then pn else rd.zeroNeg) (p.add c.dy)

/-- The order of two values that are not NaN: less, with −0 equal to +0. -/
def FVal.lt (a b : FVal) : Bool :=
  match a, b with
  | .inf n, .inf k => n && !k
  | .inf n, _ => n
  | _, .inf k => !k
  | x, y => x.dy.lt y.dy

/-- Equality of two values that are not NaN. -/
def FVal.eqv (a b : FVal) : Bool :=
  match a, b with
  | .inf n, .inf k => n == k
  | .inf _, _ => false
  | _, .inf _ => false
  | x, y => x.dy.beq y.dy

/-- `fmin` and `fmax` on bits: −0 counts below +0 (R99), one NaN gives the other operand (R100). -/
def fMinMax (q : FloatFmt) (isMax : Bool) (a b : Nat) : FRes :=
  let x := FVal.ofBits q a
  let y := FVal.ofBits q b
  let nv := flagIf (x.isSNaN || y.isSNaN) flagNV
  if x.isNaN && y.isNaN then { bits := q.nanBits, flags := nv }
  else if x.isNaN then { bits := b, flags := nv }
  else if y.isNaN then { bits := a, flags := nv }
  else
    let less := x.lt y || (x.eqv y && x.isNeg && !y.isNeg)
    { bits := if isMax then (if less then b else a) else (if less then a else b), flags := 0 }

/-- `fabs` and `fneg` (R100). -/
def fSign (q : FloatFmt) (abs : Bool) (b : Nat) : FRes :=
  match FVal.ofBits q b with
  | .nan s => FRes.nan q s
  | v =>
    let m := b % 2 ^ (q.ebits + q.fbits)
    { bits := q.signed (!abs && !v.isNeg) m, flags := 0 }

/-- The relations of comparisons (R100, R133): a NaN operand is unordered. -/
inductive Rel where
  | eq | ne | lt | le | gt | ge | un
deriving DecidableEq, Repr

/-- The truth of a comparison of two floats and its flags: `eq`, `ne` and `un` raise NV for a signalling NaN only. -/
def fCompare (q : FloatFmt) (rel : Rel) (a b : Nat) : Bool × FFlags :=
  let x := FVal.ofBits q a
  let y := FVal.ofBits q b
  let un := x.isNaN || y.isNaN
  let sn := x.isSNaN || y.isSNaN
  match rel with
  | .eq => (!un && x.eqv y, flagIf sn flagNV)
  | .ne => (un || !x.eqv y, flagIf sn flagNV)
  | .un => (un, flagIf sn flagNV)
  | .lt => (!un && x.lt y, flagIf un flagNV)
  | .le => (!un && (x.lt y || x.eqv y), flagIf un flagNV)
  | .gt => (!un && y.lt x, flagIf un flagNV)
  | .ge => (!un && (y.lt x || x.eqv y), flagIf un flagNV)

/-! Formats of elements. -/

/-- The float format of a code, where it is one. -/
def floatOf : Fmt → Option FloatFmt
  | .fp32 => some fp32
  | .fp16 => some fp16
  | .bf16 => some bf16
  | _ => none

/-- Element width in a register, in bits (R26); BFA24 exists in memory only. -/
def fmtWidth : Fmt → Nat
  | .i8 | .u8 => 8
  | .i16 | .u16 | .fp16 | .bf16 | .np | .uq15 => 16
  | .i32 | .u32 | .fp32 => 32
  | .i64 | .u64 => 64
  | .bfa24 => 32

/-- A signed integer format. -/
def fmtSigned : Fmt → Bool
  | .i8 | .i16 | .i32 | .i64 => true
  | _ => false

/-- An I or U format. -/
def fmtInt : Fmt → Bool
  | .i8 | .i16 | .i32 | .i64 | .u8 | .u16 | .u32 | .u64 => true
  | _ => false

/-- A float format. -/
def fmtFloat (q : Fmt) : Bool := (floatOf q).isSome

/-- `sat(x, lo, hi)` (R7). -/
def sat (x lo hi : Int) : Int := max lo (min x hi)

/-- The minimum of an I or U format. -/
def fmtMin (q : Fmt) : Int := if fmtSigned q then -(2 ^ (fmtWidth q - 1) : Nat) else 0
/-- The maximum of an I or U format. -/
def fmtMax (q : Fmt) : Int := if fmtSigned q then (2 ^ (fmtWidth q - 1) : Nat) - 1 else (2 ^ fmtWidth q : Nat) - 1

/-- The two's-complement value of the low w bits. -/
def signedOf (w b : Nat) : Int :=
  let x := b % 2 ^ w
  if x < 2 ^ (w - 1) then x else (x : Int) - (2 ^ w : Nat)

/-- The value of an integer element. -/
def intOf (q : Fmt) (b : Nat) : Int :=
  if fmtSigned q then signedOf (fmtWidth q) b else (b % 2 ^ fmtWidth q : Nat)

/-- The low w bits of an integer. -/
def bitsOf (w : Nat) (x : Int) : Nat := (x % (2 ^ w : Nat)).toNat

/-- A weight's code read as R43 says: above 0x8000 counts as 0x8000. -/
def uqVal (b : Nat) : Nat := min (b % 2 ^ 16) 0x8000

/-- Rounds a signed exact value to an integer; the flag says inexact. -/
def roundInt (rd : Rnd) (x : Dy) (u : Int) : Int × Bool :=
  let neg := decide (x.m < 0)
  let (n, ix) := roundAt rd neg (.dyadic x.m.natAbs x.e) u
  (if neg then -(n : Int) else n, ix)

/-- Float to float (R50). -/
def convFF (src dst : FloatFmt) (rd : Rnd) (satur : Bool) (b : Nat) : FRes :=
  match FVal.ofBits src b with
  | .nan s => FRes.nan dst s
  | .inf n => { bits := dst.signed n (if satur then dst.maxBits else dst.infBits), flags := 0 }
  | .fin n m e =>
    let r := roundMag dst rd n (.dyadic m e)
    if satur && r.bits % 2 ^ (dst.ebits + dst.fbits) == dst.infBits then { r with bits := dst.signed n dst.maxBits } else r

/-- Float to integer (R50). -/
def convFI (src : FloatFmt) (dst : Fmt) (rd : Rnd) (b : Nat) : FRes :=
  let w := fmtWidth dst
  match FVal.ofBits src b with
  | .nan _ => { bits := 0, flags := flagNV }
  | .inf n => { bits := bitsOf w (if n then fmtMin dst else fmtMax dst), flags := flagNV }
  | .fin n m e =>
    let (k, ix) := roundAt rd n (.dyadic m e) 0
    let x : Int := if n then -(k : Int) else k
    let y := sat x (fmtMin dst) (fmtMax dst)
    { bits := bitsOf w y, flags := if y = x then flagIf ix flagNX else flagNV }

/-- Integer to float (R50). -/
def convIF (src : Fmt) (dst : FloatFmt) (rd : Rnd) (satur : Bool) (b : Nat) : FRes :=
  let r := roundDy dst rd false (Dy.ofInt (intOf src b))
  if satur && r.bits % 2 ^ (dst.ebits + dst.fbits) == dst.infBits then
    { r with bits := dst.signed (decide (intOf src b < 0)) dst.maxBits } else r

/-- Integer to integer (R50): low bits, sign or zero extension, or the limits under `.sat`. -/
def convII (src dst : Fmt) (satur : Bool) (b : Nat) : FRes :=
  let x := intOf src b
  { bits := bitsOf (fmtWidth dst) (if satur then sat x (fmtMin dst) (fmtMax dst) else x), flags := 0 }

/-- Float to UQ1.15 (R50). -/
def convFW (src : FloatFmt) (rd : Rnd) (b : Nat) : FRes :=
  match FVal.ofBits src b with
  | .nan _ => { bits := 0, flags := flagNV }
  | .inf n => { bits := if n then 0 else 0x8000, flags := 0 }
  | .fin n m e =>
    let (k, ix) := roundAt rd n (.dyadic m e) (-15)
    { bits := if n then 0 else min k 0x8000, flags := flagIf ix flagNX }

/-- UQ1.15 to float (R50). -/
def convWF (dst : FloatFmt) (rd : Rnd) (b : Nat) : FRes := roundDy dst rd false { m := uqVal b, e := -15 }

/-- R50 for one element of formats that are not NP: nothing where no row covers the pair. -/
def convert (src dst : Fmt) (rd : Rnd) (satur : Bool) (b : Nat) : Option FRes :=
  match floatOf src, floatOf dst with
  | some s, some d => if src = dst then none else some (convFF s d rd satur b)
  | some s, none =>
    if fmtInt dst then some (convFI s dst rd b)
    else if dst = .uq15 then some (convFW s rd b) else none
  | none, some d =>
    if fmtInt src then some (convIF src d rd satur b)
    else if src = .uq15 then some (convWF d rd b) else none
  | none, none => if fmtInt src && fmtInt dst then some (convII src dst satur b) else none

/-- R33: the FP32 value whose bits 31:12 are the immediate. -/
def immFloat (v : BitVec 20) : Nat := v.toNat <<< 12

/-- R81: an FP32 constant converted to a narrower format with RNE; no flag is set. -/
def constFloat (q : FloatFmt) (b : Nat) : Nat :=
  if q = fp32 then b else (convFF fp32 q Rnd.rne false b).bits

/-! Nested-plane integers. -/

/-- R38: the leading k of n planes of I, rounded half up under `.rhu`. -/
def npLead (n k : Nat) (rhu : Bool) (i : Int) : Int :=
  if rhu && k < n then
    let t := i / (2 ^ (n - k - 1) : Nat)
    sat ((t + 1) / 2) (-(2 ^ (k - 1) : Nat)) ((2 ^ (k - 1) : Nat) - 1)
  else i / (2 ^ (n - k) : Nat)

/-- R41: one element of a block that renormalises, round(I / 2, RNE). -/
def halfRne (i : Int) : Int :=
  let h := i / 2
  if i % 2 = 0 then h else if h % 2 = 0 then h else h + 1

/-- The block conversion of R51: E, the integers, the validity bit, flags. -/
structure NpBlock where
  exp : Nat
  ints : List Int
  valid : Bool
  flags : FFlags
deriving DecidableEq, Repr

/-- The larger of two exact magnitudes. -/
def maxAbs (x y : Dy) : Dy :=
  let ax : Dy := { x with m := x.m.natAbs }
  let ay : Dy := { y with m := y.m.natAbs }
  if ax.lt ay then ay else ax

/-- R51 for the elements of one block, each with the rounding of its own key. -/
def toNpBlock (k : Nat) (xs : List (FVal × Rnd)) : NpBlock :=
  if xs.any fun p => p.1.isNaN || p.1.isInf then
    { exp := 0xFF, ints := xs.map fun _ => 0, valid := false, flags := flagIf (xs.any fun p => p.1.isNaN) flagNV }
  else
    let m := xs.foldl (fun acc p => maxAbs acc p.1.dy) Dy.zero
    let e0 : Int := if m.m = 0 then 0x7F else sat ((Mag.dyadic m.m.natAbs m.e).log2 + 128) 0 0xFE
    let pass (e : Int) : List (Int × Bool) :=
      xs.map fun p => roundInt p.2 p.1.dy (-((k : Int) - 1 + 127 - e))
    let top : Int := (2 ^ (k - 1) : Nat)
    let p1 := pass e0
    let again := decide (e0 < 0xFE) && p1.any fun q => q.1 == top
    let e := if again then e0 + 1 else e0
    let ps := if again then pass e else p1
    let lim := ps.any fun q => decide (q.1 > top - 1) || decide (q.1 < -top)
    { exp := e.toNat, ints := ps.map fun q => sat q.1 (-top) (top - 1), valid := true,
      flags := flagIf lim flagOF ||| flagIf (ps.any (·.2)) flagNX }

/-- The exact value of I_k with block exponent E: I_k / 2^(k−1) × 2^(E−127) (R35, R38). -/
def npVal (k : Nat) (i : Int) (exp : Nat) : Dy := { m := i, e := (exp : Int) - 127 - ((k : Int) - 1) }

/-- NP planes to NP planes (R50). -/
def npPlanes (k j : Nat) (rd : Rnd) (i : Int) : Int × FFlags :=
  if j < k then
    let (r, ix) := roundInt rd (Dy.ofInt i) ((k : Int) - j)
    let top : Int := (2 ^ (j - 1) : Nat)
    let s := sat r (-top) (top - 1)
    (s, flagIf ix flagNX ||| flagIf (s != r) flagOF)
  else (i * (2 ^ (j - k) : Nat), 0)

/-! Reproducible summation (R52). -/

/-- `pair` of R52 on terms that may be absent. -/
def pairSum (q : FloatFmt) (p r : Option Nat × FFlags) : Option Nat × FFlags :=
  match p.1, r.1 with
  | none, _ => (r.1, p.2 ||| r.2)
  | _, none => (p.1, p.2 ||| r.2)
  | some a, some b =>
    let s := fAddV q Rnd.rne (FVal.ofBits q a) (FVal.ofBits q b)
    (some s.bits, p.2 ||| r.2 ||| s.flags)

/-- One level of the tree. -/
def pairLevel (q : FloatFmt) : List (Option Nat × FFlags) → List (Option Nat × FFlags)
  | a :: b :: r => pairSum q a b :: pairLevel q r
  | l => l

/-- The sum of a block of 32 terms: five levels. -/
def blockSum (q : FloatFmt) (t : List (Option Nat)) : Option Nat × FFlags :=
  let l := t.map fun x => (x, (0 : FFlags))
  match pairLevel q (pairLevel q (pairLevel q (pairLevel q (pairLevel q l)))) with
  | r :: _ => r
  | [] => (none, 0)

/-- R52 over the blocks of 32 terms, `n` of them. -/
def reproSum (q : FloatFmt) : Nat → List (Option Nat) → Option Nat × FFlags → Option Nat × FFlags
  | 0, _, acc => acc
  | n + 1, xs, acc =>
    reproSum q n (xs.drop 32) (pairSum q acc (blockSum q (xs.take 32 ++ List.replicate (32 - min 32 xs.length) none)))

end Sys2Proof.Machine
end

