-- ==== Sys2Proof/Machine/Fix.lean ====
section
/-!
DEFINITION. The special functions of R137 and the exponential of R166, evaluated in fixed point with 320 fraction bits, far
beyond the bounds that the manual states, so that a free choice can be held to those bounds (log entry 14). A non-negative
real is a number of units of 2^-320.
-/

namespace Sys2Proof.Machine

/-- Fraction bits. -/
def fixBits : Nat := 320
/-- 1. -/
def fixOne : Nat := 2 ^ fixBits
/-- ln 2. -/
def fixLn2 : Nat := 0xb17217f7d1cf79abc9e3b39803f2f6af40f343267298b62d8a0d175b8baafa2be7b876206debac98
/-- π with 460 fraction bits. -/
def fixPi460 : Nat := 0x3243f6a8885a308d313198a2e03707344a4093822299f31d0082efa98ec4e6c89452821e638d01377be5466cf34e90c6cc0ac29b7c97c50dd3f8
/-- 1 / √2. -/
def fixRsqrt2 : Nat := 0xb504f333f9de6484597d89b3754abe9f1d6f60ba893ba84ced17ac85833399154afc83043ab8a2c3
/-- 2 / √π. -/
def fixTwoRsqrtPi : Nat := 0x120dd750429b6d11ae3a914fed7fd8688281341d7587cea2e7342b06199cc416180eb39f0b24e1e22

/-- The product. -/
def fixMul (a b : Nat) : Nat := a * b / fixOne
/-- The quotient. -/
def fixDiv (a b : Nat) : Nat := a * fixOne / b

/-- m·2^e in units. -/
def fixOf (m : Nat) (e : Int) : Nat := (shiftFloor m (e + fixBits)).1

/-- The sum of r^k / k! from a term on, `n` terms being left. -/
def expSeries (r : Nat) : Nat → Nat → Nat → Nat
  | 0, _, _ => 0
  | n + 1, k, term => term + expSeries r n (k + 1) (fixMul term r / (k + 1))

/-- e^r for 0 ≤ r < 1. -/
def fixExp (r : Nat) : Nat := expSeries r 80 0 fixOne

/-- The sum of z^(2k+1) / (2k+1). -/
def atanhSeries (z2 : Nat) : Nat → Nat → Nat → Nat
  | 0, _, _ => 0
  | n + 1, k, p => p / (2 * k + 1) + atanhSeries z2 n (k + 1) (fixMul p z2)

/-- ln y for 1 ≤ y < 2. -/
def fixLn (y : Nat) : Nat :=
  let z := fixDiv (y - fixOne) (y + fixOne)
  2 * atanhSeries (fixMul z z) 110 0 z

/-- The alternating sum x − x³/3! + … or 1 − x²/2! + …: its terms of even and of odd place. -/
def trigSeries (x2 : Nat) : Nat → Nat → Nat → Nat × Nat
  | 0, _, _ => (0, 0)
  | n + 1, k, term =>
    let r := trigSeries x2 n (k + 2) (fixMul term x2 / ((k + 1) * (k + 2)))
    (term + r.2, r.1)

/-- sin x for 0 ≤ x < 2π, in units, signed. -/
def fixSin (x : Nat) : Int :=
  let r := trigSeries (fixMul x x) 70 1 x
  (r.1 : Int) - r.2
/-- cos x for 0 ≤ x < 2π. -/
def fixCos (x : Nat) : Int :=
  let r := trigSeries (fixMul x x) 70 0 fixOne
  (r.1 : Int) - r.2

/-- The alternating sum of z^(2k+1) / (k! (2k+1)): its even and odd terms. -/
def erfSeries (z2 : Nat) : Nat → Nat → Nat → Nat × Nat
  | 0, _, _ => (0, 0)
  | n + 1, k, p =>
    let r := erfSeries z2 n (k + 1) (fixMul p z2 / (k + 1))
    (p / (2 * k + 1) + r.2, r.1)

/-- erf z for 0 ≤ z < 11. -/
def fixErf (z : Nat) : Nat :=
  let r := erfSeries (fixMul z z) 520 0 z
  fixMul fixTwoRsqrtPi (r.1 - r.2)

/-- A magnitude known to lie strictly between multiples of its unit: an odd bit is put below it. -/
def inexactMag (units : Nat) (e : Int) : Mag := .dyadic (2 * units + 1) (e - fixBits - 1)

/-- e^x for x = ±m·2^e, as a magnitude: overflow and underflow are kept far outside every format. -/
def expMag (neg : Bool) (m : Nat) (e : Int) : Mag :=
  if m = 0 then .dyadic 1 0
  else if (Mag.dyadic m e).log2 ≥ 9 then .dyadic 1 (if neg then -400 else 400)
  else
    let x := fixOf m e
    let n := x / fixLn2
    let r := x % fixLn2
    if neg then inexactMag (fixExp (fixLn2 - r)) (-(n : Int) - 1) else inexactMag (fixExp r) n

/-- 2^x. -/
def exp2Mag (neg : Bool) (m : Nat) (e : Int) : Mag × Bool :=
  let (n, ex) := (Mag.dyadic m e).floorAt 0
  if ex then (.dyadic 1 (if neg then -(min n 4000 : Nat) else (min n 4000 : Nat)), true)
  else if n ≥ 512 then (.dyadic 1 (if neg then -400 else 400), false)
  else
    let f := fixMul (fixOf m e % fixOne) fixLn2
    (if neg then inexactMag (fixExp (fixLn2 - f)) (-(n : Int) - 1) else inexactMag (fixExp f) n, false)

/-- ln x for x = m·2^e > 0: negative, magnitude in units. -/
def lnUnits (m : Nat) (e : Int) : Bool × Nat :=
  let k : Int := (Mag.dyadic m e).log2
  let y := fixOf m (e - k)
  let v : Int := fixLn y + k * fixLn2
  (decide (v < 0), v.natAbs)

/-- The functions of R137. -/
inductive Sfu where
  | exp | exp2 | log | log2 | rcp | rsqrt | sqrt | tanh | sig | gelu | sin | cos
deriving DecidableEq, Repr

/-- The exact value of a function at ±m·2^e, m > 0, where no special result of R137 stands: its sign, its magnitude, and
whether the magnitude is exact. -/
def sfuReal (fn : Sfu) (neg : Bool) (m : Nat) (e : Int) : Bool × Mag × Bool :=
  match fn with
  | .exp => (false, expMag neg m e, false)
  | .exp2 => let (x, ex) := exp2Mag neg m e; (false, x, ex)
  | .log => let (n, u) := lnUnits m e; (n, inexactMag u 0, false)
  | .log2 =>
    let k : Int := (Mag.dyadic m e).log2
    if m = 2 ^ m.log2 then (decide (k < 0), .dyadic k.natAbs 0, true)
    else let (n, u) := lnUnits m e; (n, inexactMag (fixDiv u fixLn2) 0, false)
  | .rcp => (neg, .ratio 1 m (-e), decide (m = 2 ^ m.log2))
  | .rsqrt =>
    let ex := decide (m = 2 ^ m.log2) && (e + m.log2) % 2 == 0
    if ex then (false, .dyadic 1 (-((e + m.log2) / 2)), true)
    else
      let m' := if e % 2 = 0 then m else 2 * m
      let e' := if e % 2 = 0 then e else e - 1
      (false, inexactMag (isqrt (2 ^ 900 / m')) (fixBits - 450 - e' / 2), false)
  | .sqrt => (false, .root m e, false)
  | .tanh =>
    if (Mag.dyadic m e).log2 ≥ 7 then (neg, inexactMag (fixOne - 1) 0, false)
    else
      let x := fixOf m (e + 1)
      let n := x / fixLn2
      let w := fixExp (x % fixLn2) <<< n
      (neg, inexactMag (fixDiv (w - fixOne) (w + fixOne)) 0, false)
  | .sig =>
    if (Mag.dyadic m e).log2 ≥ 8 then (false, if neg then .dyadic 1 (-400) else inexactMag (fixOne - 1) 0, false)
    else
      let x := fixOf m e
      let n := x / fixLn2
      let w := fixExp (x % fixLn2) <<< n
      (false, if neg then .ratio (2 * fixOne + 1) (2 * (fixOne + w) + 1) 0 else inexactMag (fixDiv w (fixOne + w)) 0, false)
  | .gelu =>
    if (Mag.dyadic m e).log2 ≥ 4 then
      (neg, if neg then .dyadic 1 (-400) else .dyadic (m * 2 ^ 200 - 1) (e - 200), false)
    else
      let r := fixErf (fixMul (fixOf m e) fixRsqrt2)
      let h := if neg then fixOne - min r (fixOne - 1) else fixOne + r
      (neg, .dyadic (m * (2 * h + 1)) (e - fixBits - 2), false)
  | .sin | .cos =>
    if (Mag.dyadic m e).log2 < -100 && fn == .sin then (neg, .dyadic (m * 2 ^ 200 - 1) (e - 200), false)
    else
    let x := (shiftFloor m (e + 460)).1 % (2 * fixPi460)
    let y := x / 2 ^ 140
    let v : Int := match fn with | .sin => (if neg then -(fixSin y) else fixSin y) | _ => fixCos y
    (decide (v < 0), inexactMag v.natAbs 0, false)

/-- An FP32 result within 1 ulp of a magnitude, or within 2 ulp where `wide`: its sign and bits, and whether it is exact;
`c` chooses. Where `must`, a representable value is returned. -/
def sfuChoose (wide must : Bool) (c : Nat) (neg : Bool) (x : Mag) : Nat × Option Nat :=
  let lo := (roundMag fp32 { mode := .rtz, r := 0 } false x).bits
  let hi := (roundMag fp32 { mode := .rup, r := 0 } false x).bits
  if x.log2 ≥ 128 then (fp32.signed neg fp32.infBits, none)
  else if lo == hi then
    let b := if must then lo else match c % 3 with | 0 => lo | 1 => lo - 1 | _ => lo + 1
    (fp32.signed neg b, some (fp32.signed neg lo))
  else
    let b := if wide then (match c % 4 with | 0 => lo - 1 | 1 => lo | 2 => hi | _ => min (hi + 1) fp32.infBits)
      else if c % 2 = 0 then lo else hi
    (fp32.signed neg b, none)

/-- An FP32 result within 2^-22 of a value, `c` choosing. -/
def sfuNear (c : Nat) (neg : Bool) (x : Mag) : Nat :=
  let u : Int := (x.floorAt fixBits).1
  let v : Int := if neg then -u else u
  let r : Int := (2 ^ (fixBits - 22) : Nat)
  let off : Int := (c % (2 ^ (fixBits - 21) + 1) : Nat) - r
  (roundDy fp32 { mode := if 0 ≤ off then .rdn else .rup, r := 0 } false { m := v + off, e := -(fixBits : Int) }).bits

end Sys2Proof.Machine
end

