-- ==== Sys2Proof/Config.lean ====
section
/-!
DEFINITION. What one part fixes, and the free values: values that the manual leaves open. A free value is a constant with
no body, so that nothing can be proved about which value it is.
-/

namespace Sys2Proof.Config

/-- Free values are drawn in order: the step that needs one reads `State.freeCount` and advances it (log entry 3). -/
opaque free : Nat → Nat

/-- What the board of this part is: 0 its form, 1 how many channels are filled, 2 the bytes of each (R1, R2; log entry 8). -/
opaque board : Nat → Nat

/-- Which of the results within its bound a special function gives, by the function's number and its input (R137, R55; log
entry 14). -/
opaque sfuChoice : Nat → Nat → Nat

/-- Whether an RSA-4096 signature over a digest verifies under the fused key (R399; log entry 9). -/
opaque rsaVerifies : BitVec 512 → List (BitVec 8) → Bool

/-- The RSA-4096 signature with the identity key over a report (R400; log entry 9). -/
opaque rsaSign : List (BitVec 8) → List (BitVec 8)

/-- CRC-64 of a flit, whose polynomial the manual does not give (R372; log entry 9). -/
opaque crc64 : List (BitVec 8) → BitVec 64

/-- What a receiver's error correction makes of a flit, whose code the manual does not give (R372; log entry 9). -/
opaque fecCorrect : List (BitVec 8) → List (BitVec 8)

/-- The parity that a sender's error correction adds to a flit (R372; log entry 9). -/
opaque fecParity : List (BitVec 8) → BitVec 64

/-- Which of the usable routes the hash of a source die and a destination die selects (R374; log entry 9). -/
opaque routeHash : Nat → Nat → Nat

/-- The quads whose sensors are the neighbours of a quad's, which a floor plan would give (R387; log entry 9). -/
opaque quadNeighbours : Nat → List Nat

/-- The physical line of 128 bytes where the reel of a strand begins (R268; log entry 25). -/
opaque reelLine : Nat → Nat

/-- How many words of a strand's reel lie before its scalar section and before its device section, and make up the latter (R268;
log entry 25). -/
opaque reelPad : Nat → Nat → Nat

/-- A byte of a reel that the device fills in its own way, by the reel's writing and the byte's place (R268; log entry 25). -/
opaque reelByte : Nat → Nat → BitVec 8

/-- The integrity tag over a device section (R268; log entry 25). -/
opaque reelTag : List (BitVec 8) → BitVec 64

end Sys2Proof.Config
end

