-- ==== Sys2Proof/Machine/Map.lean ====
section
/-!
DEFINITION. Sparse tables: lists of a key and a value, keys strictly rising. Memory is such a table of bytes in which no
entry equals what an unlisted address reads as (0), so that equal memories are equal lists.
-/

namespace Sys2Proof.Machine

/-- A table by number. -/
abbrev NMap (α : Type) := List (Nat × α)

/-- The entry of a key. -/
def NMap.get? {α : Type} (k : Nat) : NMap α → Option α
  | [] => none
  | (i, v) :: r => if i = k then some v else NMap.get? k r

/-- The entry of a key, or what an absent key stands for. -/
def NMap.getD {α : Type} (t : NMap α) (k : Nat) (d : α) : α := (t.get? k).getD d

/-- Writes the entry of a key and keeps the keys rising. -/
def NMap.set {α : Type} (k : Nat) (v : α) : NMap α → NMap α
  | [] => [(k, v)]
  | (i, x) :: r => if k < i then (k, v) :: (i, x) :: r else if k = i then (k, v) :: r else (i, x) :: NMap.set k v r

/-- Removes the entry of a key. -/
def NMap.del {α : Type} (k : Nat) : NMap α → NMap α
  | [] => []
  | (i, x) :: r => if i = k then r else (i, x) :: NMap.del k r

/-- The keys. -/
def NMap.keys {α : Type} (t : NMap α) : List Nat := t.map (·.1)

/-- Changes the entry of a key, an absent key standing for `d`. -/
def NMap.upd {α : Type} (t : NMap α) (k : Nat) (d : α) (f : α → α) : NMap α := NMap.set k (f (t.getD k d)) t

/-- Keys strictly rise. -/
def NMap.rising {α : Type} : NMap α → Bool
  | [] => true
  | [_] => true
  | a :: b :: r => decide (a.1 < b.1) && NMap.rising (b :: r)

/-- A set of numbers, strictly rising. -/
abbrev NSet := List Nat

/-- Membership. -/
def NSet.has (k : Nat) (t : NSet) : Bool := t.any (· == k)

/-- Adds a number. -/
def NSet.add (k : Nat) : NSet → NSet
  | [] => [k]
  | i :: r => if k < i then k :: i :: r else if k = i then i :: r else i :: NSet.add k r

/-- Removes a number. -/
def NSet.del (k : Nat) : NSet → NSet
  | [] => []
  | i :: r => if i = k then r else i :: NSet.del k r

/-- Numbers strictly rise. -/
def NSet.rising : NSet → Bool
  | [] => true
  | [_] => true
  | a :: b :: r => decide (a < b) && NSet.rising (b :: r)

/-- Memory: the bytes that differ from 0, addresses strictly rising. -/
abbrev Memory := List Host.Cell

/-- What an unlisted address reads as. -/
def Memory.blank : BitVec 8 := 0

/-- The byte at an address. -/
def Memory.read (m : Memory) (a : Nat) : BitVec 8 := NMap.getD m a Memory.blank

/-- Writes a byte; writing 0 removes the entry. -/
def Memory.write (m : Memory) (a : Nat) (b : BitVec 8) : Memory :=
  if b = Memory.blank then NMap.del a m else NMap.set a b m

/-- Writes bytes at ascending addresses. -/
def Memory.writeL (m : Memory) (a : Nat) : List (BitVec 8) → Memory
  | [] => m
  | b :: r => Memory.writeL (m.write a b) (a + 1) r

/-- Writes the bytes that are present at ascending addresses. -/
def Memory.writeO (m : Memory) (a : Nat) : List (Option (BitVec 8)) → Memory
  | [] => m
  | none :: r => Memory.writeO m (a + 1) r
  | some b :: r => Memory.writeO (m.write a b) (a + 1) r

/-- Reads `n` bytes at ascending addresses. -/
def Memory.readL (m : Memory) (a n : Nat) : List (BitVec 8) := (List.range n).map fun i => m.read (a + i)

/-- The canonical form. -/
def Memory.wf (m : Memory) : Bool := NMap.rising m && m.all fun c => c.2 != Memory.blank

/-- A number from bytes, the lowest address first (R5). -/
def leNat : List (BitVec 8) → Nat
  | [] => 0
  | b :: r => b.toNat + 256 * leNat r

/-- The `n` bytes of a number, the lowest address first (R5). -/
def leBytes : Nat → Nat → List (BitVec 8)
  | 0, _ => []
  | n + 1, x => BitVec.ofNat 8 x :: leBytes n (x / 256)

end Sys2Proof.Machine
end

