-- ==== Sys2Proof/Machine/Types.lean ====
section
/-!
DEFINITION. The pieces that State is made of: a strand's context (R255), and the units, controllers and tables that the
strands of a package share. All of it is plain data.
-/

namespace Sys2Proof.Machine

/-! A strand. -/

/-- The privilege a strand runs at (R117 PPRV, R267, R273). -/
inductive Priv where
  | user | control | firmware
deriving DecidableEq, Repr

/-- The life cycle of R256. -/
inductive Life where
  | ready | running | stopping | saved | trapped | trappedSaved | migrating | halted
deriving DecidableEq, Repr

/-- `vtype` (R117): FMT and the NP field; SEW and BSZ follow from FMT. -/
structure VType where
  fmt : Fmt
  np : BitVec 5
deriving DecidableEq, Repr

/-- The CSRs of a strand (R116, R117), but for those that stand elsewhere: `grant`, `armst`.DEPTH and ARMS, `mvl` and `mmode`. -/
structure Csrs where
  vl : BitVec 12
  vt : VType
  vstart : BitVec 12
  rmode : BitVec 3
  fflags : BitVec 5
  reproEn : Bool
  reproLock : Bool
  seed : Word
  fidHdr : BitVec 3
  wth : BitVec 16
  wprune : BitVec 16
  pbf : Bool
  mstart : BitVec 32
  skew : BitVec 4
  epc : Word
  code : BitVec 8
  slot1 : Bool
  tval : Word
  pprv : BitVec 2
  vpend : Bool
  mpend : Bool
deriving DecidableEq, Repr

/-- What a vector or matrix instruction captures when it is posted (R49, R58, R116). `vstart` is the one that the strand's
program order gives the instruction: 0 behind a vector instruction (R123) or a `setvl` (R112). -/
structure Captured where
  g : Vector Word 32
  vl : BitVec 12
  vstart : BitVec 12
  vt : VType
  rmode : BitVec 3
  reproEn : Bool
  seed : Word
  wth : BitVec 16
  wprune : BitVec 16
  skew : BitVec 4
deriving DecidableEq, Repr

/-- Why a home does not do what another package asks: a marked granule (R420), host memory that is unreachable (R371). -/
inductive Denial where
  | poison | peer
deriving DecidableEq, Repr

/-- An atomic that has gone to another package's home: its number, the home's die, and the answer once it has come, which is what the home held, or why
it did nothing (R349). -/
structure Errand where
  tag : Nat
  home : Nat
  answer : Option (List Byte × Option Denial)
deriving DecidableEq, Repr

/-- An atomic whose answer has come takes it. -/
def Errand.take (tag : Nat) (x : List Byte × Option Denial) (e : Errand) : Errand := if e.tag = tag then { e with answer := some x } else e

/-- How far an instruction has come that has begun and has not completed (R258): the range reserved by `vcapp` or
`msts.cmp` (R202, R219), the lines acted on (R190), the granules that it has moved with their full-empty bit (R180), by virtual
address, and the elements in them, whether an `lput` has reserved its entry (R308), the atomic that it has sent to another
package's home (R349). -/
structure Progress where
  reserved : Option (Nat × Nat)
  linePos : Nat
  held : NSet
  moved : NSet
  leat : Bool
  errand : Option Errand
deriving DecidableEq, Repr

/-- An instruction that has not begun. -/
def Progress.none : Progress := { reserved := .none, linePos := 0, held := [], moved := [], leat := false, errand := .none }

/-- What a strand waits for (R255 wait state, R274, R181, R193, R201, R305, R308, R309, R320, R336, R388). What is `left` of
a timed wait is cycles on a core and nanoseconds in a reel (R274); a word of the partition record is watched as 2^60 + 128·partition + its
place. `issue` waits until the strand's engine operations have issued (R251, R298), `budget` for the Millrace's next period (R297),
`barHome` for the answer of the home of a domain barrier object (R315), `far` for a line that its die has asked another package's home for
(R346), `home` for the answer to an atomic there, by its number (R349). `queue` is the scalar part's wait for older posted work (R58), `own` a wait of an instruction that the scalar part
executes itself, and `pause` no wait: the instruction stops at a restart point (R258). -/
inductive Wait where
  | sleep (left : Nat)
  | waitt (loc : Nat) (old : Word) (left : Nat)
  | fe (addr : Nat) (full : Bool)
  | migr (addr : Nat)
  | barrier (tier : Tier) (unit idx : Nat) (gen : BitVec 32)
  | lput
  | lget
  | split (tier : Tier) (colour : Nat)
  | pgate (pair : Nat) (gate : Bool)
  | engine
  | issue
  | budget
  | barHome (idx : Nat)
  | ewait (sel : Nat)
  | fenceEng
  | snoop (line : Nat)
  | far (line : Nat)
  | home (die tag : Nat)
  | queue
  | pause
  | own (w : Wait)
deriving DecidableEq, Repr

/-- A wait that travels in the reel; the others end, and their instructions are executed again. -/
def Wait.travels : Wait → Bool
  | .sleep _ | .waitt _ _ _ | .split _ _ | .barrier _ _ _ _ | .barHome _ => true
  | _ => false

/-- A posted instruction that has not completed: its address, its words, what it captured, how far it has come (R49, R258,
R260); behind a waiting `barw`, what it waits for itself and the value that it has received (R321). -/
structure Posted where
  pc : Word
  word : Word
  lit : Option Word
  cap : Captured
  prog : Progress
  wait : Option Wait
  woke : Option Word
deriving DecidableEq, Repr

/-- A posted instruction without the entry of the Leat that it has reserved (R308, R312), and without a wait that does not travel. -/
def Posted.release (p : Posted) : Posted := { p with prog := { p.prog with leat := false }, wait := p.wait.filter Wait.travels }

/-- An entry of an arm's store window (R156, R422): the arm, the elements it belongs to, the virtual address and the
location, the bytes, the number of its store at this level, and the register block of an NP store, which is committed as one
version (R42). An entry that belongs to no element stays when elements are pruned; it carries a weight that no rule gives
(log entry 51). -/
structure WinEnt where
  armB : Bool
  elems : List Nat
  va : Nat
  loc : Nat
  data : List Byte
  store : Nat
  block : Option Nat
  weight : Nat
deriving DecidableEq, Repr

/-- An open arm pair (R150): its weight register and captured threshold, the arm that runs, E and the RUN and PRUNED bits,
its store window in program order, its store count, and the address of a store that has been counted and has not
completed (R157). -/
structure Arm where
  wreg : WReg
  wth : BitVec 16
  armB : Bool
  outer : BitVec 2048
  run : BitVec 2048
  pruned : BitVec 2048
  window : List WinEnt
  stores : Nat
  counted : Option Word
deriving DecidableEq, Repr

/-- The record of an open soft loop (R167). -/
structure SoftLoop where
  addr : Word
  wreg : WReg
  bound : BitVec 64
  pass : BitVec 64
  wth : BitVec 16
  live : BitVec 2048
  depth : Nat
deriving DecidableEq, Repr

/-- A bound stream register (R191, R192): the range, the position (bytes, or elements of an NP stream), and what the copy
unit has read ahead, by virtual address. -/
structure Stream where
  base : Nat
  len : Nat
  pos : Nat
  ahead : NMap Byte
deriving DecidableEq, Repr

/-- The trap frame of a control strand (R267): SPC and the posted instructions that had not started. -/
structure Frame where
  spc : Word
  posted : List Posted
deriving DecidableEq, Repr

/-- A pending barrier arrival (R317). -/
structure Arrival where
  tier : Tier
  unit : Nat
  idx : Nat
  gen : BitVec 32
deriving DecidableEq, Repr

/-- The header of a kernel (R277). -/
structure Header where
  cls : Nat
  clMin : Nat
  clMax : Nat
  slots : Nat
  spOff : Nat
  spLen : Nat
  fid : BitVec 3
  repro : Bool
  ctrl : Bool
  ebud : Nat
  nconst : Nat
  entry : Nat
  codeEnd : Nat
  handler : Nat
  data : Nat
deriving DecidableEq, Repr

/-- The header of a kernel that has none of the fields set. -/
def Header.zero : Header :=
  { cls := 0, clMin := 1, clMax := 8, slots := 0, spOff := 0, spLen := 0, fid := 0, repro := false, ctrl := false,
    ebud := 0, nconst := 0, entry := 0, codeEnd := 0, handler := 0, data := 0 }

/-- States of an operand slot (R207). -/
inductive SlotSt where
  | empty | loading | filled
deriving DecidableEq, Repr

/-- An operand slot that is not FREE (R207, R208): its state, the first slot of its run, 8 KiB of data and 64 bytes of
scales, the granules of them that are marked (R420). -/
structure OpSlot where
  st : SlotSt
  run : Nat
  image : BitVec 66048
  poison : NSet
deriving DecidableEq, Repr

/-- The latched weight tile: a copy of its slot's image and the format it is read in (R207, R210). -/
structure Latch where
  fs : FmtSpec
  image : BitVec 66048
deriving DecidableEq, Repr

/-- States of the sequencer (R223); one that runs is SUSPENDED between two of its words (log entry 19). -/
inductive SeqSt where
  | empty | defined | suspended
deriving DecidableEq, Repr

/-- The matrix state of a strand that holds the engine (R203, R204, R217, R221 to R224): the mode, MVL, 64 × 64 cells of 32
bits and their tails for each `z` tile, row r and column c at bits 32·(64·r + c), whether an integer combination wrote each cell last (R212),
the row cursors, `k`, the slots that are
not FREE, the latched tile, the sequence record with the iteration vector and the word that come next. -/
structure Matrix where
  op : Bool
  mvl : Nat
  z : Vector (BitVec 131072) 4
  tail : Vector (BitVec 131072) 4
  isInt : Vector (BitVec 4096) 4
  row : Vector Nat 4
  k : Vector (BitVec 256) 8
  slots : NMap OpSlot
  latch : Option Latch
  seq : SeqSt
  seqRec : List Byte
  seqIdx : List Nat
  seqWord : Nat
deriving DecidableEq, Repr

/-- R204: the matrix state at launch. -/
def Matrix.launch (mill : Bool) : Matrix :=
  { op := false, mvl := if mill then 64 else 32, z := Vector.replicate 4 0, tail := Vector.replicate 4 0,
    isInt := Vector.replicate 4 0, row := Vector.replicate 4 0, k := Vector.replicate 8 0, slots := [], latch := none, seq := .empty, seqRec := [],
    seqIdx := [], seqWord := 0 }

/-- What a strand's scalar part keeps while a posted instruction runs with the values it captured; the `vstart` that this one
began with. -/
structure Resume where
  spc : Word
  cap : Captured
  began : BitVec 12
deriving DecidableEq, Repr

/-- A strand's context (R255), its place and its life state. `wait` is what the oldest posted instruction waits for, and `hold`
what the scalar part waits for; `prog` belongs to the instruction that is executed. `woke` holds a value where the wait of the instruction that is
to be executed again has ended: what `gsplit` returns, and 0 for the others. `late` names a package that does not answer the
accesses of the instruction that comes next (R380). -/
structure Strand where
  sid : Nat
  core : Nat
  hwSlot : Nat
  part : Nat
  node : Nat
  index : Nat
  life : Life
  priv : Priv
  base : Word
  hdr : Header
  clMap : BitVec 8
  pc : Word
  g : Vector Word 32
  v : Vector (BitVec 16384) 32
  vok : Vector (BitVec 16) 32
  m : Vector (BitVec 2048) 16
  w : Vector (BitVec 32768) 8
  cb : List (BitVec 32)
  csr : Csrs
  arms : List Arm
  loop : Option SoftLoop
  streams : NMap Stream
  posted : List Posted
  resume : Option Resume
  wait : Option Wait
  hold : Option Wait
  woke : Option Word
  late : Option Nat
  frame : Option Frame
  arrivals : List Arrival
  prog : Progress
  mat : Matrix
deriving DecidableEq, Repr

/-- R117: the CSRs at launch under a header. -/
def Csrs.launch (h : Header) : Csrs :=
  { vl := 0, vt := { fmt := .fp32, np := 0 }, vstart := 0, rmode := 0, fflags := 0, reproEn := h.repro,
    reproLock := h.repro, seed := 0, fidHdr := h.fid, wth := 0, wprune := 0, pbf := false, mstart := 0, skew := 4,
    epc := 0, code := 0, slot1 := false, tval := 0, pprv := 0, vpend := false, mpend := false }

/-- A strand with its launch values (R40, R117, R204, R296; log entry 5 for `v`, `m` and `w`). -/
def Strand.launch (sid core hwSlot part node index : Nat) (base : Word) (h : Header) (clMap : BitVec 8)
    (cb : List (BitVec 32)) : Strand :=
  { sid := sid, core := core, hwSlot := hwSlot, part := part, node := node, index := index, life := .ready,
    priv := if h.ctrl then .control else .user, base := base, hdr := h, clMap := clMap,
    pc := base + BitVec.ofNat 64 h.entry, g := Vector.replicate 32 0, v := Vector.replicate 32 0,
    vok := Vector.replicate 32 0xFFFF, m := Vector.replicate 16 0, w := Vector.replicate 8 0, cb := cb,
    csr := Csrs.launch h, arms := [], loop := none, streams := [], posted := [], resume := none, wait := none,
    hold := none, woke := none, late := none, frame := none, arrivals := [], prog := Progress.none,
    mat := Matrix.launch (core % 2 == 0) }

/-! Shared units. -/

/-- A cached translation (R333): the partition, the page's first virtual address, its level, the leaf, and, once an access has
needed it, its tensor entry, in which nothing stands for a malformed one (R421). -/
structure TlbEntry where
  part : Nat
  va : Nat
  level : Nat
  leaf : Word
  tensor : Option (Option (Nat × Nat × Nat))
deriving DecidableEq, Repr

/-- What belongs to a core: `cyc`, `ecnt0` to `ecnt3`, the record cache, the L1 TLB, the rail controller (the FID of
the kernel that the engine was handed to last, and whether its step has still to go to that FID's floor, R236), the lanes
and the clusters that are lost, whether the core itself is lost, whether a retrim waits for its strands to stop (R310, R382). -/
structure Core where
  cyc : BitVec 64
  ecnt : Vector (BitVec 32) 4
  records : List (Nat × List Byte)
  tlb : List TlbEntry
  railStep : Nat
  railFid : BitVec 3
  railNew : Bool
  railCount : Nat
  railQuiet : Nat
  fidSat : Bool
  windowStart : Nat
  badLanes : NSet
  lostClusters : NSet
  lost : Bool
  trimDue : Bool
deriving DecidableEq, Repr

/-- A core at reset: 0 in `cyc` and `ecnt` (R117), the rail at step 15 (log entry 6). -/
def Core.reset : Core :=
  { cyc := 0, ecnt := Vector.replicate 4 0, records := [], tlb := [], railStep := 15, railFid := 0, railNew := false, railCount := 0, railQuiet := 0,
    fidSat := false, windowStart := 0, badLanes := [], lostClusters := [], lost := false, trimDue := false }

/-- A Leat entry (R307). -/
structure LeatEntry where
  data : BitVec 16384
  len : Nat
  fmt : Fmt
  ok : BitVec 16
  poison : Bool
deriving DecidableEq, Repr

/-- The sail core's gate (R388). -/
inductive Gate where
  | on | draining | gated | waking
deriving DecidableEq, Repr

/-- What belongs to a pair: the Leat, the gate of its sail core with a held request. -/
structure Pair where
  leat : List LeatEntry
  gate : Gate
  request : Bool
deriving DecidableEq, Repr

/-- A pair at reset (log entry 6). -/
def Pair.reset : Pair := { leat := [], gate := .on, request := false }

/-- States of a barrier object (R317). -/
structure Barrier where
  isOpen : Bool
  n : Nat
  arr : Nat
  gen : BitVec 32
deriving DecidableEq, Repr

/-- A barrier object at reset (R317). -/
def Barrier.free : Barrier := { isOpen := false, n := 0, arr := 0, gen := 0 }

/-! The fabric (R344 to R346). -/

/-- A write event: the bytes at an address, those that it does not write being absent, and the quad whose L2 slice took
it. -/
structure Wr where
  addr : Nat
  quad : Nat
  data : List (Option Byte)
deriving DecidableEq, Repr

/-- A closed batch: its die, its place among that die's batches, its vector, its writes in order, the dies that have
received its header, those that have received its data (R373), and those that have applied it. -/
structure Batch where
  src : Nat
  seq : Nat
  vec : NMap Nat
  writes : List Wr
  headed : NSet
  arrived : NSet
  applied : NSet
deriving DecidableEq, Repr

/-- Header and data of the batch have arrived at a die. -/
def Batch.here (b : Batch) (e : Nat) : Bool := NSet.has e b.headed && NSet.has e b.arrived

/-- A logic die as a memory site: its vector clock, its open batch oldest first, the lines it holds copies of, and the bytes
of other lines that stand in its order behind what their home has (R347): each with the number of the batch that takes it
to its home, or 0 where a batch of another die wrote it over one of its own; the lines that it has asked other packages' homes
for and that have not come (R346), and those that the home could not reach when it was last asked (R371). -/
structure Die where
  vec : NMap Nat
  pending : List Wr
  copies : NMap (List Byte)
  own : NMap (Byte × Nat)
  asked : NSet
  refused : NSet
deriving DecidableEq, Repr

/-- A die at reset. -/
def Die.reset : Die := { vec := [], pending := [], copies := [], own := [], asked := [], refused := [] }

/-- The die holds a copy of the line, or bytes of it. -/
def Die.holds (x : Die) (line : Nat) : Bool := (x.copies.get? line).isSome || x.own.any fun b => b.1 / 128 == line

/-- The domain as this package sees it: its own number, the packages present, those lost (R326, R374, R380), whether the
host port is UP (R371), the device-memory lines that the host may hold (R370), the bytes of LPDDR-6 that other packages have filled
(R2, R326). -/
structure Dom where
  pkg : Nat
  members : NSet
  lost : NSet
  hostUp : Bool
  hostLines : NSet
  filled : NMap Nat
deriving DecidableEq, Repr

/-- One package, numbered 0, before bring-up (log entry 6). -/
def Dom.reset : Dom := { pkg := 0, members := [0], lost := [], hostUp := false, hostLines := [], filled := [] }

/-! Engine operations (R193 to R200). -/

/-- States of an engine operation (R195), `failing` for one that a reply has ended and that will be FAILED once what it has sent is answered
(R377); a retired one is gone. -/
inductive EngSt where
  | posted | running | suspended | saved | failing | done | failed
deriving DecidableEq, Repr

/-- The kinds of collective (R200). -/
inductive CollKind where
  | ag | rs | ar
deriving DecidableEq, Repr

/-- What an operation moves: a copy by its length word (R196), a gather or a scatter of `n` elements of 2^esz bytes through
the list at `idx` (R199), a collective, under the number of its first participant, which has them all where it is `closed`
(R200). -/
inductive EngJob where
  | cpy (dst src : Nat) (len : Word)
  | gath (dst src idx esz n : Nat)
  | scat (dst src idx esz n : Nat)
  | coll (kind : CollKind) (f : Fmt) (dst src len rank p tag group : Nat) (closed : Bool)
deriving DecidableEq, Repr

/-- A shape record (R197). -/
structure Shape where
  esz : Nat
  rank : Nat
  ext : List Nat
  sstr : List Int
  dstr : List Int
deriving DecidableEq, Repr

/-- An element that a gather or a scatter has sent: its place in the list, the virtual addresses of its source and its destination,
their locations, and for a scatter its bytes. -/
structure ReqElem where
  idx : Nat
  srcVa : Nat
  dstVa : Nat
  src : Nat
  dst : Nat
  data : List Byte
deriving DecidableEq, Repr

/-- A sub-request of a gather or a scatter that its owner has not answered (R376): the owner and the elements. -/
structure SubReq where
  owner : Nat
  elems : List ReqElem
deriving DecidableEq, Repr

/-- An engine operation: its issuer, its address, its state and job; the shape record once it is read; its counter; the units
it has moved; how many list elements it has sent; the sub-requests in flight; the dies of other owners that it has written
through (R353); a collective's own source once it is read, by rank the contributions to what it reduces or receives with the packages
that they come from, and the reduced parts (R378), or the bytes that a gather has for elements of granules that are not whole yet, by
element; why it failed or is suspended. -/
structure EngOp where
  sid : Nat
  part : Nat
  core : Nat
  epc : Word
  st : EngSt
  job : EngJob
  shape : Option Shape
  ctr : Option Nat
  moved : NSet
  sent : Nat
  out : List SubReq
  dies : NSet
  own : Option (List Byte)
  got : NMap (List Byte)
  senders : NMap Nat
  parts : NMap (List Byte)
  cause : BitVec 8
  tval : Word
deriving DecidableEq, Repr

/-- An engine operation has come to its end (R195). -/
def EngOp.ended (o : EngOp) : Bool := o.st == .done || o.st == .failed

/-! Dependence counters, graphs and nodes (14_queue.md). -/

/-- States of a counter (R288). -/
inductive CtrSt where
  | idle | armed | fired
deriving DecidableEq, Repr

/-- What a counter is bound to: a node run, or the reply of a fault record. -/
inductive CtrBind where
  | node (n : Nat)
  | reply (part slot : Nat)
deriving DecidableEq, Repr

/-- A dependence counter (R288). -/
structure Ctr where
  count : Nat
  st : CtrSt
  bound : Option CtrBind
deriving DecidableEq, Repr

/-- A counter at reset. -/
def Ctr.reset : Ctr := { count := 0, st := .idle, bound := none }

/-- States of a replay (R289); VERIFYING passes within a step, and a replay that is RETIRED or FAILED is gone. -/
inductive ReplaySt where
  | pending | live | draining
deriving DecidableEq, Repr

/-- A replay of a graph (R289, R290): its launch counter word, the counters that it has bound, its kernels, the swap of its DIRTY that has gone
to another package's home (R349). -/
structure Replay where
  graph : Nat
  part : Nat
  core : Nat
  epc : Word
  user : Bool
  launch : Nat
  st : ReplaySt
  slot : Nat
  gen : Nat
  ctrs : List Nat
  kernels : List Nat
  errand : Option Errand
deriving DecidableEq, Repr

/-- States of a node (R293). -/
inductive NodeSt where
  | waiting | outside | ready | running | complete | discarded
deriving DecidableEq, Repr

/-- A run of a node: from a graph's replay, from `nspawn`, or of a boot kernel (R284, R298, R396). `due` are members that are still on
their way from another package (R379). -/
structure NodeRun where
  part : Nat
  recAddr : Nat
  replay : Option Nat
  gate : Option Nat
  kernel : Nat
  hdr : Header
  nstr : Nat
  tier : Tier
  queue : Nat
  succ : List Nat
  param : Nat
  slot : Nat
  boot : Bool
  st : NodeSt
  age : Nat
  members : List (Nat × Nat)
  due : List Nat
  errs : Nat
  epc : Word
  core : Nat
  user : Bool
  verified : Bool
  sailOnly : Bool
  killed : Bool
deriving DecidableEq, Repr

/-- A resident kernel (R281); `query` where its code holds a query opcode (R278). -/
structure Kernel where
  base : Nat
  part : Nat
  ref : Nat
  hdr : Header
  query : Bool
deriving DecidableEq, Repr

/-- A fault record (R263) with what it belongs to: a strand, an engine operation, a query context, or nothing. -/
inductive FaultOf where
  | strand (sid : Nat)
  | engine (op : Nat)
  | query (quad ctx : Nat)
  | none
deriving DecidableEq, Repr

/-- A fault record (R263). -/
structure FaultRec where
  part : Nat
  owner : FaultOf
  epc : Word
  tval : Word
  spc : Word
  cause : BitVec 8
  flags : BitVec 8
  core : Nat
  strand : Nat
  vstart : Nat
  mstart : Nat
deriving DecidableEq, Repr

/-- A record of `gsplit` (R305): the node, the tier, the unit, and the arrivals of the current round as sid, strand index and
colour. -/
structure Split where
  node : Nat
  tier : Tier
  unit : Nat
  arrived : List (Nat × Nat × Nat)
deriving DecidableEq, Repr

/-- A partition record (R390). -/
structure PartRec where
  quads : BitVec 64
  ptroot : Nat
  faultArea : Nat
  ctrBase : Nat
  ctrLast : Nat
  pool : Nat
  llcq : Nat
  l2q : Nat
  memBud : Nat
  linkBud : Nat
  schedBud : Nat
  stackBar : BitVec 64
  domBar : BitVec 64
  mlog : Nat
  queues : Vector (BitVec 16) 16
  fcount : BitVec 64
  nptab : Nat
deriving DecidableEq, Repr

/-- A partition that CREATE has not made. -/
def PartRec.zero : PartRec :=
  { quads := 0, ptroot := 0, faultArea := 0, ctrBase := 0, ctrLast := 0, pool := 0, llcq := 0, l2q := 0, memBud := 0,
    linkBud := 0, schedBud := 0, stackBar := 0, domBar := 0, mlog := 0, queues := Vector.replicate 16 0, fcount := 0,
    nptab := 0 }

/-- The Millrace. `slots` are the records whose reply counter has not fired, `unreplied` the slots whose record was read with REPLY
still 0 (R262), both by 256·partition + slot; `inForce` are the records that the Millrace goes by until its next period, where a
MODIFY has changed them since (R394); `updates` are the decrements of counters, by partition, that wait for the Millrace's next period
(R297). -/
structure Millrace where
  ctrs : NMap Ctr
  replays : NMap Replay
  nodes : NMap NodeRun
  pool : List Nat
  outside : List Nat
  credit : NMap Nat
  lastTurn : NMap Nat
  boost : NMap Nat
  kernels : List Kernel
  underflow : NMap Nat
  faults : List FaultRec
  slots : NMap FaultRec
  unreplied : NSet
  nextSlot : NMap Nat
  splits : List Split
  used : NMap Nat
  inForce : NMap PartRec
  updates : List (Nat × Nat × Nat)
  nextId : Nat
deriving DecidableEq, Repr

/-- The Millrace at reset. -/
def Millrace.reset : Millrace :=
  { ctrs := [], replays := [], nodes := [], pool := [], outside := [], credit := [], lastTurn := [], boost := [],
    kernels := [], underflow := [], faults := [], slots := [], unreplied := [], nextSlot := [], splits := [], used := [], inForce := [], updates := [], nextId := 1 }

/-! Partitions (21_partitions.md). -/

/-- States of a partition (R395). -/
inductive PartSt where
  | absent | stopped | running | resetting
deriving DecidableEq, Repr

/-- A partition: its state, its record, the entries and the running digest of its measurement log (R280, R400). -/
structure Part where
  st : PartSt
  record : PartRec
  logLen : Nat
  digest : BitVec 512
deriving DecidableEq, Repr

/-- A partition number that nothing has created. -/
def Part.absent : Part := { st := .absent, record := PartRec.zero, logLen := 0, digest := 0 }

end Sys2Proof.Machine
end

