-- ==== Sys2Proof/Machine/Units.lean ====
section
/-!
DEFINITION. The pieces of State beside strands and memory: query contexts (R248), the quads' clocks and sensors (R383 to
R387), Sluice ports (R372, R375), messages from other packages and from hosts, the management controller (R398 to R401).
-/

namespace Sys2Proof.Machine

/-! The board (R1, R2). -/

/-- The two forms of R1. -/
inductive Form where
  | bare | module
deriving DecidableEq, Repr

/-- The power that a form is rated for, in watts, where R1 states one. -/
def Form.rating : Form → Option Nat
  | .bare => none
  | .module => some 1800

/-- The form, the filled LPDDR-6 channels and the bytes of each (R2). -/
structure Board where
  form : Form
  channels : Nat
  channelBytes : Nat
deriving DecidableEq, Repr

/-- The AXV7-M (R1), which stands in State.reset until bring-up finds the board (log entry 8). -/
def Board.m : Board := { form := .module, channels := 64, channelBytes := 2 ^ 34 }

/-- R2: the LPDDR-6 range is filled up to the capacity of the filled channels, at most 1 TiB. -/
def Board.bytes (b : Board) : Nat := min (b.channels * b.channelBytes) (2 ^ 40)

/-- A board that R1, R2 and R401 allow: every stack fills 4, 8, 12 or 16 channels. -/
def Board.ok (b : Board) : Bool :=
  [16, 32, 48, 64].contains b.channels && decide (b.channels * b.channelBytes ≤ 2 ^ 40) && (b.form == .bare || b == Board.m)

/-! Queries (R238 to R254). -/

/-- States of a query context (R248); a context that is FREE has no entry. -/
inductive QSt where
  | building | queued | running | suspended | saved | done | failed
deriving DecidableEq, Repr

/-- Roles of a term (R250). -/
inductive Role where
  | should | must | not
deriving DecidableEq, Repr

/-- A term: the first posting block, the weight, the role. -/
structure QTerm where
  list : Nat
  weight : Nat
  role : Role
deriving DecidableEq, Repr

/-- A vector part: the record's address, ALPHA and BETA, and the record and the query vector once they are read. -/
structure QVec where
  recAddr : Nat
  alpha : Nat
  beta : Nat
  read : Option (List Byte × List Byte)
deriving DecidableEq, Repr

/-- A query context that is not FREE; `lines` is what the query has read, by address and length, which it does not read again
(its cursors, R248, R254); `saved` is what its save region is to hold, or held, when it was saved, and `unsaved` says that it has
still to be written there (R254, R336). -/
structure QCtx where
  st : QSt
  sid : Nat
  part : Nat
  core : Nat
  terms : List QTerm
  vec : Option QVec
  area : Nat
  k : Nat
  ctr : Option Nat
  epc : Word
  order : Nat
  err : Nat
  errAddr : Word
  count : Nat
  lines : NMap (List Byte)
  saved : List Byte
  unsaved : Bool
deriving DecidableEq, Repr

/-! Quads. -/

/-- Kinds of sensor (R387). -/
inductive SensorKind where
  | thermal | current
deriving DecidableEq, Repr

/-- A sensor (R387): its last reading and the value used for it, how many windows the reading has not changed, the neighbours'
median when it last changed, whether it is flagged, how many windows it has passed every check since, its substitutions. Readings are in tenths of a
degree, or in tenths of a percent of the rated current. -/
structure Sensor where
  kind : SensorKind
  reading : Int
  used : Int
  still : Nat
  medianThen : Int
  flagged : Bool
  passed : Nat
  subst : Nat
deriving DecidableEq, Repr

/-- What belongs to a quad: its DVFS point (21 is 3.3 GHz, 0 is 1.2 GHz), whether ballast runs, its sensors. -/
structure Quad where
  point : Nat
  ballast : Bool
  sensors : List Sensor
deriving DecidableEq, Repr

/-- A sensor at reset (log entry 6). -/
def Sensor.reset (k : SensorKind) : Sensor :=
  { kind := k, reading := 0, used := 0, still := 0, medianThen := 0, flagged := false, passed := 0, subst := 0 }

/-- A quad at reset: nominal clock, four thermal sensors, a current sensor for each of its two rails (R18, R387; log entry
6). -/
def Quad.reset : Quad :=
  { point := 21, ballast := false,
    sensors := List.replicate 4 (Sensor.reset .thermal) ++ List.replicate 2 (Sensor.reset .current) }

/-- The power controller (R386): the cap and the window's measurement in watts, quiet windows in a row. -/
structure Power where
  cap : Nat
  watts : Nat
  quiet : Nat
deriving DecidableEq, Repr

/-- 1600 W (R386). -/
def Power.reset : Power := { cap := 1600, watts := 0, quiet := 0 }

/-! Sluice ports. -/

/-- States of a port (R375). -/
inductive PortSt where
  | down | training | up | degraded | retrain
deriving DecidableEq, Repr

/-! Messages from outside (R373, R354, R398). -/

/-- The operations of R185. -/
inductive Amo where
  | add | and | or | xor | min | max | minu | maxu | swap | cas
deriving DecidableEq, Repr

/-- What an atomic asks of its home (R349): an operation of R185 with its operands; the addition of `amoacc` (R187) with the
block's virtual address, rounding and values; the block that `vldbfa` reads (R188); a reservation of `vcapp` (R202) of b bytes in
units; the record update of `msts.cmp` (R220), with MVL, the rounding mode in `rmode`, the size of the image by format and mode, and whether it
is `.trap`. -/
inductive RemoteOp where
  | amo (op : Amo) (b c : Nat)
  | acc (va : Nat) (mode : RMode) (seed : BitVec 64) (xs : List Nat)
  | look
  | reserve (b unit : Nat)
  | record (m : Nat) (dyn : RMode) (sizes : List Nat) (traps : Bool)
deriving DecidableEq, Repr

/-- What a strand asks of a domain barrier object whose home is another package (R320): an arrival, an initialisation, whether
it is OPEN. -/
inductive BarOp where
  | arrive | init (n : Nat) | look
deriving DecidableEq, Repr

/-- A message between packages (R373): the header of a batch for a die, which says whether the data goes with it, and the data
(R345); a read request of a die for bytes with that die's vector, an atomic with its number, a reply with the bytes, the home's
vector, the granules of them that are marked (R420), why it is denied, and the number of the atomic that it answers; a counter's decrement with the die
that it comes from and that die's vector, and its reply (R349); a strand of this package that has halted on another (and whether it
was killed); a request to a domain barrier object with its sender, the answer with the generation that the request met, the
generation after a release; a reel with its sender (the strand, its node, its operations, its queries, its device section with the
tag, the vector of what its dies have written) and what its target says to it (R379); a collective's block or reduced part from a rank of a package for a rank (R378); a
sub-request of a gather or a scatter for an owner, with the locations of its elements and, for a scatter, their bytes, and the
owner's reply, which names the element that failed and why (R376); what firmware tells firmware of the links and the domain. -/
inductive Msg where
  | batchHead (die src seq : Nat) (vec : NMap Nat) (data : Bool)
  | batchData (die src seq : Nat) (writes : List Wr)
  | read (die src addr n : Nat) (vec : NMap Nat)
  | reply (die : Nat) (addr : Nat) (data : List Byte) (vec : NMap Nat) (marks : NSet) (denied : Option Denial) (tag : Option Nat)
  | atomic (die src addr n : Nat) (op : RemoteOp) (vec : NMap Nat) (tag : Nat)
  | counter (src part idx n : Nat) (vec : NMap Nat)
  | counterDone (die home : Nat) (vec : NMap Nat)
  | halted (sid : Nat) (killed : Bool)
  | barrier (src sid idx : Nat) (op : BarOp)
  | barrierReply (sid : Nat) (ok : Bool) (gen : BitVec 32)
  | barrierGen (idx : Nat) (gen : BitVec 32)
  | reel (src : Nat) (a : Strand) (n : NodeRun) (ops : NMap EngOp) (qs : NMap QCtx) (dev : List Byte) (tag : Nat)
      (vec : NMap Nat)
  | reelPlaced (sid : Nat) (ok : Bool)
  | block (src : Nat) (kind : CollKind) (f : Fmt) (p len tag rank dest : Nat) (reduced : Bool) (data : List Byte)
  | listReq (src op owner : Nat) (gather : Bool) (n : Nat) (elems : List (Nat × List Byte)) (vec : NMap Nat)
  | listReply (die op owner : Nat) (failed : Option (Nat × Denial)) (data : List (List Byte)) (vec : NMap Nat)
  | manage (data : List Byte)
deriving DecidableEq, Repr

/-- A message on its way: its identity (R375), which is the package that sent it and a number, how many packages have forwarded it
(R374), the die that it comes from and the die that it goes to. -/
structure Parcel where
  pkg : Nat
  num : Nat
  hops : Nat
  src : Nat
  dst : Nat
  msg : Msg
deriving DecidableEq, Repr

/-- A port: its state, the lanes that are locked and work, whether the peer is attested and of this domain, the SEQ
expected and the SEQ to send next, the credits to send and the flits taken whose credit is still to be returned, by virtual channel,
the last 128 flits sent in order with how often they were replayed, the messages whose last flit, by its SEQ, is not acknowledged, the
messages that are not wholly in flits with the bytes that are left, flits that have arrived, flits to send, and by virtual channel
the payload received. -/
structure Port where
  st : PortSt
  lanes : NSet
  attested : Bool
  sameDomain : Bool
  expected : Nat
  next : Nat
  credits : NMap Nat
  owed : NMap Nat
  sent : List (Nat × List Byte)
  replays : NMap Nat
  unacked : List (Nat × Parcel)
  queue : List (Parcel × List Byte)
  arrived : List (List Byte)
  out : List (List Byte)
  payload : NMap (List Byte)
deriving DecidableEq, Repr

/-- A port at reset: DOWN (R375). -/
def Port.reset : Port :=
  { st := .down, lanes := [], attested := false, sameDomain := false, expected := 0, next := 0, credits := [], owed := [], sent := []
    replays := [], unacked := [], queue := [], arrived := [], out := [], payload := [] }

/-- A command of a host (R398 to R400), and an access of a host to device memory (R354). CREATE and MODIFY carry the 128
bytes of a partition record (R390). -/
inductive Cmd where
  | claim | renew | handover (dest : Nat) | accept | read | attest (nonce : List Byte) (part : Nat)
  | spdm (nonce : List Byte) (part : Nat) | create (record : List Byte) | modify (record : List Byte)
  | start (pid base : Nat) | reset (pid : Nat)
  | destroy (pid : Nat) | fwupdate (image sig : List Byte) (version : Nat) | memWrite (addr : Nat) (data : List Byte)
deriving DecidableEq, Repr

/-! The management controller. -/

/-- Who owns the device (R398). -/
inductive Owner where
  | vacant | owned (host : Nat) | pending (host dest : Nat)
deriving DecidableEq, Repr

/-- Management events (R371, R375, R380, R382, R387, R395 to R397, R401). -/
inductive MgmtEvent where
  | hostPort | port (p : Nat) | poisonedLine (line : Nat) | lane (core lane : Nat) | cluster (core cluster : Nat)
  | sensor (quad i : Nat) | startRefused (part reason : Nat) | stopped (part : Nat) | leaseLapsed | corrected (place : Nat)
  | fidSat (core : Nat) | bringUp (step : Nat) | stateLost (part : Nat)
deriving DecidableEq, Repr

/-- What a package holds (R8 to R12, R23): stacks, quads, pairs, cores, clusters, logical lanes; MiB of vector registers, operand
memory, scratchpads, L2 and LLC; ready-pool nodes, dependence counters, partitions at most; Sluice ports. -/
structure Totals where
  sramStacks : Nat
  quads : Nat
  pairs : Nat
  cores : Nat
  clusters : Nat
  lanes : Nat
  vregs : Nat
  operand : Nat
  scratchpad : Nat
  l2 : Nat
  llc : Nat
  poolNodes : Nat
  counters : Nat
  partitions : Nat
  ports : Nat
deriving DecidableEq, Repr

/-- The package totals of R24. -/
def Totals.package : Totals :=
  { sramStacks := 4, quads := 64, pairs := 256, cores := 512, clusters := 4096, lanes := 16384, vregs := 32, operand := 96
    scratchpad := 512, l2 := 256, llc := 2048, poolNodes := 16384, counters := 65536, partitions := 32, ports := 12 }

/-- What READ returns (R24, R401): bring-up done, the owner, the events, the filled channels with the bytes of each, the package
totals, by core the clusters that are lost to feathering. -/
structure Report where
  up : Bool
  owner : Owner
  events : List MgmtEvent
  board : Board
  totals : Totals
  lost : NMap NSet
deriving DecidableEq, Repr

/-- An answer to a host. -/
inductive Answer where
  | ok | denied | refused (reason : Nat) | bytes (l : List Byte) | poisoned
  | state (r : Report)
deriving DecidableEq, Repr

/-- The management controller: whether bring-up is done, the owner, events in order, commands in arrival order, answers,
the firmware's image in place with its signature, its version and digest, the rollback counter, an update that waits (R399), records
that went to firmware (R267), errors corrected in the period by quad, and by 64 + channel (R397), the remap table by channel (R332). -/
structure Mgmt where
  up : Bool
  owner : Owner
  events : List MgmtEvent
  mailbox : List (Nat × Cmd)
  answers : List (Nat × Answer)
  fwImage : List Byte
  fwSig : List Byte
  fwVersion : Nat
  fwDigest : BitVec 512
  rollback : Nat
  fwPending : Option (List Byte × List Byte × Nat)
  serial : Nat
  records : List FaultRec
  corrected : NMap Nat
  remap : NMap Nat
deriving DecidableEq, Repr

/-- The controller at reset (log entry 6). -/
def Mgmt.reset : Mgmt :=
  { up := false, owner := .vacant, events := [], mailbox := [], answers := [], fwImage := [], fwSig := [], fwVersion := 0, fwDigest := 0
    rollback := 0, fwPending := none, serial := 0, records := [], corrected := [], remap := [] }

/-- A strand that came from another package: that package, its number and its node there, the node that it runs under here. -/
structure Guest where
  src : Nat
  sid : Nat
  from_ : Nat
  node : Nat
deriving DecidableEq, Repr

/-- The links: ports, the ports of the route to each package in order of preference (R374), messages that have arrived,
messages sent to other packages, messages that wait for a usable route, the identities of the messages that have come and the number
of the next one sent (R375), what has come for firmware, by strand the package of a reel that this package has sent and whose target has not
confirmed it (R379) and of a strand that runs there, strands that came from other packages, by TAG of a collective that
has FAILED for a mismatch how many participants here have still to issue it (R200), and the lines that a step of the Millrace has found
to have their home on another package and no copy at its die (R346); the port that messages from one die to another have taken, by 128
times the one and the other (R374). -/
structure Links where
  ports : NMap Port
  routes : NMap (List Nat)
  inbox : List Msg
  sent : List (Nat × Msg)
  held : List Parcel
  seen : List (Nat × Nat)
  nextMsg : Nat
  managed : List (List Byte)
  reels : NMap Nat
  away : NMap Nat
  guests : NMap Guest
  badTags : NMap Nat
  missed : List Nat
  taken : NMap Nat
deriving DecidableEq, Repr

/-- The messages that received payload holds, whose form the manual does not give, and what is left of it (R372; log entry
9). -/
opaque messages : List Byte → List Parcel × List Byte

/-- The bytes of a message, whose form the manual does not give (R372; log entry 9). -/
opaque messageBytes : Parcel → List Byte

/-- The links at reset. -/
def Links.reset : Links := { ports := [], routes := [], inbox := [], sent := [], held := [], seen := [], nextMsg := 0, managed := [], reels := [], away := [], guests := [], badTags := [], missed := [], taken := [] }

end Sys2Proof.Machine
end

