-- ==== Sys2Proof/Machine/State.lean ====
section
/-!
DEFINITION. The state of the machine: the strand whose turn it is, the strands beside it, and everything the package and
its domain hold. A step lets one agent act; the agenda says which.
-/

namespace Sys2Proof.Machine

/-- Why the machine would stop. There is no such reason: every stop the manual describes is a trap, a state of an object
or a record, and all of these are next states. Nothing raises a fault. -/
inductive Fault where
deriving DecidableEq, Repr

/-- Why an instruction has no meaning here. -/
inductive Refusal where
  /-- Raised by an arm of `exec` whose instruction has no meaning yet. Safe: the machine stops where the hardware goes on. -/
  | notModelled (mnemonic : String)
deriving DecidableEq, Repr

/-- Who acts in a step (log entry 2): an event of the part, another strand, the scalar part ahead of posted work, the oldest
posted instruction, the same as far as the restart point after `n` units of it (R216, R258), a posted `lput` that starts behind the oldest one
(R308). -/
inductive Turn where
  | event (i : Instr)
  | strand (sid : Nat)
  | post
  | drain
  | part (n : Nat)
  | reserve
deriving DecidableEq, Repr

/-- The state of the package and its domain. -/
structure State where
  /-- The strand whose instructions the step executes. -/
  act : Strand
  /-- Every other strand. -/
  parked : List Strand
  /-- The words of the instruction being executed (R71), which a trap of posted work keeps (R260). -/
  ir : Word × Option Word
  /-- Physical memory of the domain and the scratchpads. -/
  mem : Memory
  /-- Scratchpad granules that are full (R180). -/
  full : NSet
  /-- Granules that are poisoned (R420). -/
  poison : NSet
  /-- The logic dies as sites (R344). -/
  dies : NMap Die
  /-- Closed batches that some die has not applied, in the order of closing (R345, R346). -/
  flight : List Batch
  dom : Dom
  cores : NMap Core
  pairs : NMap Pair
  /-- The L2 TLB of each quad (R333). -/
  l2tlb : NMap (List TlbEntry)
  /-- Lines pinned by `stash` in each quad, with the partition (R190). -/
  pins : NMap (List (Nat × Nat))
  /-- Barrier objects by tier, unit and index (R315). -/
  barriers : NMap Barrier
  /-- Engine operations by number, the oldest first, and the next number (R193). -/
  engines : NMap EngOp
  nextOp : Nat
  /-- Query contexts that are not FREE, by 16·quad + context (R238). -/
  queries : NMap QCtx
  mill : Millrace
  quads : NMap Quad
  power : Power
  links : Links
  mgmt : Mgmt
  parts : NMap Part
  board : Board
  /-- Which agents act next. -/
  agenda : List Turn
  /-- How many units an instruction may still do before it stops at a restart point (R258); no bound where there is none. -/
  budget : Option Nat
  /-- How many free values have been drawn. -/
  freeCount : Nat
deriving DecidableEq, Repr

/-- Right after reset, before bring-up (R401): no strand runs, no partition exists, memory lists nothing. `act` stands for
no strand (log entry 4). -/
def State.reset : State :=
  { act := { Strand.launch 0 0 0 0 0 0 0 Header.zero 0xFF [] with life := .halted, pc := 0 }
    parked := [], ir := (0, none), mem := [], full := [], poison := [], dies := [], flight := [], dom := Dom.reset, cores := [],
    pairs := [], l2tlb := [], pins := [], barriers := [], engines := [], nextOp := 1, queries := [],
    mill := Millrace.reset, quads := [], power := Power.reset, links := Links.reset, mgmt := Mgmt.reset, parts := [], board := Board.m, agenda := [], budget := none,
    freeCount := 0 }

end Sys2Proof.Machine
end

