-- ==== Sys2Proof/Machine/Ops.lean ====
section
/-!
DEFINITION. The named operations over a strand: its registers, the order of its words, taking a trap and returning from one.
-/

namespace Sys2Proof.Machine

/-- What a step gives. -/
abbrev Out := Host.Outcome State Fault Refusal

/-! Trap causes (R261). -/

/-- The names of R261. -/
inductive Cause where
  | illegal | wordKind | pairBank | litExec | typeCombo | codeEnd | fetchXlt | dataXlt | perm | align | poison | armWin
  | armDepth | cmpFull | slot | stream | seq | barrier | peer | trapI | priv | leat | query
deriving DecidableEq, Repr

/-- The codes of R261. -/
def Cause.code : Cause → BitVec 8
  | .illegal => 0x01 | .wordKind => 0x02 | .pairBank => 0x03 | .litExec => 0x04 | .typeCombo => 0x05 | .codeEnd => 0x06
  | .fetchXlt => 0x07 | .dataXlt => 0x08 | .perm => 0x09 | .align => 0x0A | .poison => 0x0B | .armWin => 0x0C
  | .armDepth => 0x0D | .cmpFull => 0x0E | .slot => 0x0F | .stream => 0x10 | .seq => 0x11 | .barrier => 0x12
  | .peer => 0x13 | .trapI => 0x14 | .priv => 0x15 | .leat => 0x16 | .query => 0x17

/-- Where a trap restarts (R260): the scalar part's own word; the address after the word (TRAPI, R272); a posted
instruction from an element (VPEND) or from a place along K (MPEND). -/
inductive Restart where
  | scalar
  | after
  | vec (start : Nat)
  | mat (k : Nat)
deriving DecidableEq, Repr

/-- A trap. -/
structure Trap where
  cause : Cause
  tval : Word
  at_ : Restart
  slot1 : Bool
deriving DecidableEq, Repr

/-- A trap of the scalar part. -/
def Trap.scalar (c : Cause) (tval : Word) : Trap := { cause := c, tval := tval, at_ := .scalar, slot1 := false }
/-- A trap of a posted instruction at its first element. -/
def Trap.posted (c : Cause) (tval : Word) (start : Nat) : Trap := { cause := c, tval := tval, at_ := .vec start, slot1 := false }

/-- How a piece of an instruction ends: with a value, with a trap, or waiting. -/
inductive Res (α : Type) where
  | ok (a : α) (s : State)
  | trap (t : Trap) (s : State)
  | wait (w : Wait) (s : State)
deriving Repr

/-- Sequence. -/
def Res.bind {α β : Type} (r : Res α) (f : α → State → Res β) : Res β :=
  match r with
  | .ok a s => f a s
  | .trap t s => .trap t s
  | .wait w s => .wait w s

/-- The state of a result that waits, changed. -/
def Res.waits {α : Type} (r : Res α) (f : State → State) : Res α :=
  match r with
  | .wait w s => .wait w (f s)
  | r => r

/-- A value mapped. -/
def Res.map {α β : Type} (r : Res α) (f : α → β) : Res β := r.bind fun a s => .ok (f a) s

/-! Registers. -/

/-- Changes the acting strand. -/
def State.onAct (s : State) (f : Strand → Strand) : State := { s with act := f s.act }
/-- Changes the acting strand's CSRs. -/
def State.onCsr (s : State) (f : Csrs → Csrs) : State := { s with act := { s.act with csr := f s.act.csr } }

/-- Reads `g`: `g0` reads as zero (R92). -/
def State.g (s : State) (r : Reg) : Word := if r = 0 then 0 else s.act.g[r.toNat]

/-- Writes `g`: writes to `g0` are discarded (R92). -/
def State.setG (s : State) (r : Reg) (x : Word) : State :=
  if r = 0 then s else { s with act := { s.act with g := s.act.g.set r.toNat x } }

/-- Continues at an address. -/
def State.goto (s : State) (pc : Word) : State := { s with act := { s.act with pc := pc } }

/-- Accumulates flags (R30). -/
def State.raise (s : State) (f : FFlags) : State :=
  { s with act := { s.act with csr := { s.act.csr with fflags := s.act.csr.fflags ||| f } } }

/-- A vector register. -/
def State.v (s : State) (r : Reg) : BitVec 16384 := s.act.v[r.toNat]
/-- Writes a vector register. -/
def State.setV (s : State) (r : Reg) (x : BitVec 16384) : State :=
  { s with act := { s.act with v := s.act.v.set r.toNat x } }
/-- The block-validity bits of a vector register (R40). -/
def State.vok (s : State) (r : Reg) : BitVec 16 := s.act.vok[r.toNat]
/-- Writes the block-validity bits. -/
def State.setVok (s : State) (r : Reg) (x : BitVec 16) : State :=
  { s with act := { s.act with vok := s.act.vok.set r.toNat x } }
/-- A mask register: `m0` reads as all ones (R56). -/
def State.m (s : State) (r : MReg) : BitVec 2048 := if r = 0 then BitVec.allOnes 2048 else s.act.m[r.toNat]
/-- Writes a mask register. -/
def State.setM (s : State) (r : MReg) (x : BitVec 2048) : State :=
  if r = 0 then s else { s with act := { s.act with m := s.act.m.set r.toNat x } }
/-- A weight register. -/
def State.w (s : State) (r : WReg) : BitVec 32768 := s.act.w[r.toNat]
/-- Writes a weight register. -/
def State.setW (s : State) (r : WReg) (x : BitVec 32768) : State :=
  { s with act := { s.act with w := s.act.w.set r.toNat x } }

/-- The w bits of element i. -/
def lane {n : Nat} (r : BitVec n) (w i : Nat) : Nat := (r.toNat >>> (i * w)) % 2 ^ w

/-- Element i replaced. -/
def setLane {n : Nat} (r : BitVec n) (w i x : Nat) : BitVec n :=
  (r &&& ~~~(BitVec.ofNat n (2 ^ w - 1) <<< (i * w))) ||| (BitVec.ofNat n (x % 2 ^ w) <<< (i * w))

/-- A constant of the bank (R82). -/
def State.cb (s : State) (i : BitVec 8) : BitVec 32 := s.act.cb.getD i.toNat 0

/-- `vl`. -/
def State.vl (s : State) : Nat := s.act.csr.vl.toNat
/-- The element format of `vtype`. -/
def State.fmt (s : State) : Fmt := s.act.csr.vt.fmt
/-- The rounding mode in `rmode`. -/
def State.rmode (s : State) : RMode := RMode.ofBits s.act.csr.rmode
/-- The clusters granted (R117 `grant`.C). -/
def Strand.clusters (a : Strand) : Nat := ((List.range 8).filter fun i => a.clMap.getLsbD i).length

/-- A free value below `n`, and the counter advanced (log entry 3). -/
def State.draw (s : State) (n : Nat) : Nat × State :=
  (Config.free s.freeCount % n, { s with freeCount := s.freeCount + 1 })

/-! Posted work. -/

/-- What a posted instruction captures (R49). -/
def Strand.captured (a : Strand) : Captured :=
  { g := a.g, vl := a.csr.vl, vstart := a.csr.vstart, vt := a.csr.vt, rmode := a.csr.rmode, reproEn := a.csr.reproEn, seed := a.csr.seed,
    wth := a.csr.wth, wprune := a.csr.wprune, skew := a.csr.skew }

/-- VPEND belongs to the oldest posted instruction, and not to the one in the trap frame (R260, R273). -/
def Strand.pend (a : Strand) : Bool := a.csr.vpend && a.frame.isNone

/-- `vstart` names the restart point of the oldest posted instruction (R258, R260). -/
def Strand.vstartHeld (a : Strand) : Bool := a.pend && !a.posted.isEmpty

/-- Captured values put in place, but for `vstart`. -/
def Csrs.put (c : Csrs) (p : Captured) : Csrs :=
  { c with vl := p.vl, vt := p.vt, rmode := p.rmode, reproEn := p.reproEn, seed := p.seed, wth := p.wth,
           wprune := p.wprune, skew := p.skew }

/-- A posted instruction takes the place of the scalar part's word, with the values it captured; under VPEND it begins at
`vstart` (R264, R273). -/
def State.begin (s : State) (p : Posted) : State :=
  let v0 := if s.act.pend then s.act.csr.vstart else p.cap.vstart
  { s with
    ir := (p.word, p.lit)
    act := { s.act with
      resume := some { spc := s.act.pc, cap := s.act.captured, began := v0 }
      pc := p.pc, g := p.cap.g, csr := { s.act.csr.put p.cap with vstart := v0 }, prog := p.prog
      woke := p.woke.orElse fun _ => s.act.woke } }

/-- `g` registers after a posted instruction: what it wrote, and elsewhere what the scalar part held. -/
def mergeG (before after kept : Vector Word 32) : Vector Word 32 :=
  Vector.ofFn fun i => if after[i] = before[i] then kept[i] else after[i]

/-- The scalar part waits no longer for posted work (R58). -/
def Strand.unhold (a : Strand) : Strand := { a with hold := a.hold.filter (· != .queue) }

/-- The scalar part's word and values put back. `before` are the values the posted instruction began with. An instruction that
left `vstart` as it was leaves the scalar part's own (R112, R123). -/
def State.giveBack (s : State) (before : Vector Word 32) (r : Resume) : State :=
  { s with act := { s.act.unhold with
      resume := none, pc := r.spc, g := mergeG before s.act.g r.cap.g, prog := Progress.none
      csr := { s.act.csr.put r.cap with vstart := if s.act.csr.vstart = r.began then r.cap.vstart else s.act.csr.vstart } } }

/-- The instruction that runs, as posted work (R260). -/
def State.asPosted (s : State) : Posted :=
  { pc := s.act.pc, word := s.ir.1, lit := s.ir.2, cap := s.act.captured, prog := s.act.prog, wait := none, woke := none }

/-! Taking a trap (R260 to R267). -/

/-- FLAGS of a fault record (R263). -/
def recFlags (slot1 vpend mpend eng ctrl : Bool) : BitVec 8 :=
  0#3 ++ bit ctrl ++ bit eng ++ bit mpend ++ bit vpend ++ bit slot1

/-- The fault record of a strand (R263). -/
def Strand.faultRec (a : Strand) (ctrl : Bool) : FaultRec :=
  { part := a.part, owner := .strand a.sid, epc := a.csr.epc, tval := a.csr.tval, spc := a.pc, cause := a.csr.code,
    flags := recFlags a.csr.slot1 a.csr.vpend a.csr.mpend false ctrl, core := a.core, strand := a.hwSlot,
    vstart := a.csr.vstart.toNat, mstart := a.csr.mstart.toNat }

/-- A fault record waits for the Millrace (R262). -/
def State.report (s : State) (f : FaultRec) : State := { s with mill := { s.mill with faults := s.mill.faults ++ [f] } }

/-- The CSRs that a trap sets: `epc`, `cause`, `tval`, and the restart point with VPEND or MPEND (R260). -/
def Csrs.trapped (c : Csrs) (t : Trap) (epc : Word) : Csrs :=
  { c with
    epc := epc, code := t.cause.code, slot1 := t.slot1, tval := t.tval
    vpend := match t.at_ with | .vec _ => true | _ => false
    mpend := match t.at_ with | .mat _ => true | _ => false
    vstart := match t.at_ with | .vec k => BitVec.ofNat 12 k | _ => c.vstart
    mstart := match t.at_ with | .mat k => BitVec.ofNat 32 k | _ => c.mstart }

/-- The trap's posted instruction, where it is one. -/
def Trap.isPosted (t : Trap) : Bool :=
  match t.at_ with
  | .vec _ => true
  | .mat _ => true
  | _ => false

/-- The trapped strand: SPC, `epc` and what stays posted, without what it had reserved of the Leat (R308). `nx` is the address after the trapping word. -/
def State.trapPoint (s : State) (t : Trap) (nx : Word) : State :=
  let p := s.asPosted
  let a := s.act
  let a1 : Strand :=
    match a.resume with
    | some r => { a with pc := r.spc, g := r.cap.g, posted := p :: a.posted, resume := none
                         csr := { (a.csr.trapped t a.pc).put r.cap with
                           vstart := match t.at_ with | .vec k => BitVec.ofNat 12 k | _ => r.cap.vstart } }
    | none =>
      if t.isPosted then { a with pc := nx, csr := a.csr.trapped t a.pc, posted := p :: a.posted }
      else
        match t.at_ with
        | .after => { a with pc := nx, csr := a.csr.trapped t nx }
        | _ => { a with csr := a.csr.trapped t a.pc }
  { s with act := { a1 with
      posted := a1.posted.map Posted.release, wait := none, hold := none, woke := none, late := none, prog := Progress.none } }

/-- R262 and R267: a user strand is TRAPPED and its record waits to be written; a control strand continues at its handler;
with the frame occupied, and in a firmware strand, the record has CTRL and the strand stops. -/
def State.takeTrap (s : State) (t : Trap) (nx : Word) : State :=
  let s := s.trapPoint t nx
  let a := s.act
  match a.priv, a.frame with
  | .control, none =>
    { s with act := { a with
        frame := some { spc := a.pc, posted := a.posted }, posted := []
        csr := { a.csr with pprv := 1 }
        pc := a.base + BitVec.ofNat 64 a.hdr.handler } }
  | .user, _ => ({ s with act := { a with life := .trapped } }).report (a.faultRec false)
  | _, _ => ({ s with act := { a with life := .trapped } }).report (a.faultRec true)

/-- The restart point of a posted instruction that is resumed: element 0, or the start of K, where VPEND or MPEND is clear. -/
def Csrs.resumed (c : Csrs) (posted : Bool) : Csrs :=
  { c with vstart := if posted && !c.vpend then 0 else c.vstart, mstart := if posted && !c.mpend then 0 else c.mstart }

/-- The oldest of the posted instructions restarts at element 0 where VPEND is clear, with nothing of it done (R273). -/
def restartHead (vpend : Bool) : List Posted → List Posted
  | [] => []
  | p :: r => (if vpend then p else { p with cap := { p.cap with vstart := 0 }, prog := Progress.none }) :: r

/-- R273: the return from a trap. -/
def State.trapReturn (s : State) : State :=
  let a := s.act
  let priv := match a.csr.pprv.toNat with | 0 => Priv.user | 1 => .control | _ => .firmware
  match a.frame with
  | some f =>
    { s with act := { a with
        priv := priv, pc := f.spc, posted := restartHead (a.csr.vpend || a.csr.mpend) f.posted, frame := none, woke := none
        csr := a.csr.resumed (!f.posted.isEmpty) } }
  | none => { s with act := { a with priv := priv, pc := a.csr.epc, woke := none } }

/-! The end of an instruction. -/

/-- The instruction has completed and the strand continues at `nx`; a posted one gives the scalar part its place back. -/
def State.done (s : State) (before : Vector Word 32) (nx : Word) : State :=
  match s.act.resume with
  | none =>
    { s with act := { s.act with
        pc := nx, woke := if s.act.posted.isEmpty then none else s.act.woke, late := none, prog := Progress.none } }
  | some r => { s with act := { (s.giveBack before r).act with woke := none, late := none } }

/-- What the queue waits for: nothing where an instruction only stops at a restart point. -/
def Wait.ofQueue (w : Wait) : Option Wait := if w = .pause then none else some w

/-- The instruction waits: it takes effect when it is executed again. One that the scalar part executes itself holds the
scalar part; every other one waits as posted work, and the scalar part goes on at `nx` (R58, R321). -/
def State.stall (s : State) (before : Vector Word 32) (nx : Word) (w : Wait) : State :=
  match w with
  | .own w => { s with act := { s.act with hold := some w, late := none, prog := { Progress.none with errand := s.act.prog.errand } } }
  | w =>
    let p := s.asPosted
    match s.act.resume with
    | none =>
      { s with act := { s.act with
          wait := w.ofQueue, woke := none, late := none, pc := nx, posted := p :: s.act.posted, prog := Progress.none } }
    | some r =>
      let s := s.giveBack before r
      { s with act := { s.act with wait := w.ofQueue, woke := none, late := none, posted := p :: s.act.posted } }

/-- The outcome of an instruction begun in `s0`, the word after it lying at `nx`. -/
def Res.fin (r : Res Unit) (s0 : State) (nx : Word) : Out :=
  match r with
  | .ok _ s => .next (s.done s0.act.g nx)
  | .trap t s => .next (s.takeTrap t nx)
  | .wait w s => .next (s.stall s0.act.g nx w)

/-- The address after the word being executed. -/
def State.after (s : State) : Word := s.act.pc + 8

end Sys2Proof.Machine
end

