-- ==== Sys2Proof/Machine/Flags.lean ====
section
/-!
DEFINITION. Flags and conditions: how `fflags` accumulates (R30), the truth values that integer comparisons write, the
conditions of branches (R105), signed views of registers.
-/

namespace Sys2Proof.Machine

/-- A truth value as an integer: 1 or 0 (R95, R99). -/
def ofTruth (c : Bool) : Word := if c then 1 else 0

/-- The signed value of a register. -/
def sval (x : Word) : Int := x.toInt

/-- The conditions of `b` (R105). -/
inductive Cond where
  | eq | ne | lt | ge | ltu | geu
deriving DecidableEq, Repr

/-- Whether a condition holds of two registers. -/
def Cond.holds (c : Cond) (a b : Word) : Bool :=
  match c with
  | .eq => a == b
  | .ne => a != b
  | .lt => a.slt b
  | .ge => !a.slt b
  | .ltu => a.ult b
  | .geu => !a.ult b

/-- The flags of a list of results together. -/
def unionFlags (l : List FFlags) : FFlags := l.foldl (· ||| ·) 0

end Sys2Proof.Machine
end

