-- ==== Sys2Proof/Machine/Links.lean ====
section
/-!
DEFINITION. Messages to and from other packages, and the flits that carry them (R372 to R375).
-/

namespace Sys2Proof.Machine

/-! Ports. -/

/-- Changes the links. -/
def State.onLinks (s : State) (f : Links → Links) : State := { s with links := f s.links }
/-- A port. -/
def State.port (s : State) (p : Nat) : Port := s.links.ports.getD p Port.reset
/-- A port replaced; a package has twelve. -/
def State.setPort (s : State) (p : Nat) (x : Port) : State :=
  if p < 12 then s.onLinks fun l => { l with ports := NMap.set p x l.ports } else s

/-- R374: the port carries messages. -/
def Port.usable (x : Port) : Bool := x.st == .up || x.st == .degraded

/-- A management event is raised. -/
def State.event (s : State) (e : MgmtEvent) : State := { s with mgmt := { s.mgmt with events := s.mgmt.events ++ [e] } }

/-! Flits (R372). -/

/-- A flit of 256 bytes. -/
def flitOf (type vc seq : Nat) (payload : List Byte) (credits : Nat) : List Byte :=
  let head := leBytes 1 (16 * type + vc) ++ leBytes 1 0 ++ leBytes 2 seq ++ payload ++ leBytes 4 credits
  let body := head ++ leBytes 8 (Config.crc64 head).toNat
  body ++ leBytes 8 (Config.fecParity body).toNat

/-- A payload without messages. -/
def noPayload : List Byte := List.replicate 232 0

/-- TYPE of a flit. -/
def flitType (f : List Byte) : Nat := leNat (f.take 1) / 16
/-- VC of a flit. -/
def flitVc (f : List Byte) : Nat := leNat (f.take 1) % 16
/-- SEQ of a flit. -/
def flitSeq (f : List Byte) : Nat := leNat ((f.drop 2).take 2)
/-- PAYLOAD of a flit. -/
def flitPayload (f : List Byte) : List Byte := (f.drop 4).take 232
/-- CREDITS of a flit for a VC, in flits. -/
def flitCredit (f : List Byte) (vc : Nat) : Nat := 8 * (leNat ((f.drop 236).take 4) / 16 ^ vc % 16)
/-- A flit as the receiver has it: as it came where its parity agrees, and else what error correction makes of it. -/
def received (f : List Byte) : List Byte :=
  if f.length = 256 ∧ leNat (f.drop 248) = (Config.fecParity (f.take 248)).toNat then f else Config.fecCorrect f
/-- The flit passes its CRC. -/
def flitGood (f : List Byte) : Bool := f.length == 256 && leNat ((f.drop 240).take 8) == (Config.crc64 (f.take 240)).toNat

/-- R373: the virtual channel of a message. -/
def Msg.vc : Msg → Nat
  | .batchHead _ _ _ _ _ | .batchData _ _ _ _ | .atomic _ _ _ _ _ _ _ => 0
  | .read _ _ _ _ _ => 1
  | .reply _ _ _ _ _ _ _ | .counterDone _ _ _ => 2
  | .counter _ _ _ _ _ | .halted _ _ | .barrier _ _ _ _ | .barrierReply _ _ _ | .barrierGen _ _ => 3
  | .block _ _ _ _ _ _ _ _ _ _ => 4
  | .reel _ _ _ _ _ _ _ _ | .reelPlaced _ _ => 5
  | .listReq _ _ _ _ _ _ _ | .listReply _ _ _ _ _ _ => 6
  | .manage _ => 7

/-- CREDITS of the next flit: what is owed on each VC in units of 8 flits, 15 units at most; and the port that owes that much less. -/
def Port.refund (x : Port) : Nat × Port :=
  let c (vc : Nat) : Nat := min 15 (x.owed.getD vc 0 / 8)
  ((List.range 8).foldl (fun n vc => n + c vc * 16 ^ vc) 0,
   { x with owed := (List.range 8).foldl (fun m vc => if c vc = 0 then m else m.upd vc 0 (· - 8 * c vc)) x.owed })

/-- Up to n bytes of the messages of a VC, packed end to end, the messages that end with them, and what is left to send. -/
def takeBytes (vc : Nat) : Nat → List (Parcel × List Byte) → List Byte × List Parcel × List (Parcel × List Byte)
  | _, [] => ([], [], [])
  | n, (p, bs) :: r =>
    if p.msg.vc ≠ vc ∨ n = 0 then let t := takeBytes vc n r; (t.1, t.2.1, (p, bs) :: t.2.2)
    else if n < bs.length then
      (bs.take n, [], (p, bs.drop n) :: r)
    else
      let t := takeBytes vc (n - bs.length) r
      (bs ++ t.1, p :: t.2.1, t.2.2)

/-- The bytes of the messages of a VC that are left to send. -/
def Port.backlog (x : Port) (vc : Nat) : Nat := x.queue.foldl (fun n q => if q.1.msg.vc = vc then n + q.2.length else n) 0

/-- A flit of the next SEQ with which messages end: the last 128 flits are kept for replay, and messages whose last flit is no
longer kept count as acknowledged (log entry 30). -/
def Port.emit (x : Port) (f : List Byte) (ends : List Parcel) : Port :=
  let sent := (x.sent ++ [(x.next, f)]).drop (x.sent.length + 1 - 128)
  { x with
    out := x.out ++ [f], next := (x.next + 1) % 65536, sent := sent, replays := NMap.del x.next x.replays
    unacked := (x.unacked ++ ends.map fun p => (x.next, p)).filter fun u => sent.any fun g => g.1 == u.1 }

/-- One data flit of a VC: a credit less. -/
def Port.sendFlit (x : Port) (vc : Nat) : Port :=
  let t := takeBytes vc 232 x.queue
  let (credits, x) := x.refund
  { x with credits := x.credits.upd vc 0 (· - 1), queue := t.2.2 }.emit
    (flitOf 1 vc x.next (t.1 ++ List.replicate (232 - t.1.length) 0) credits) t.2.1

/-- Data flits of a VC as far as its credits go (R373): whole ones, and where `all` the last one with what is left, filled with zeros. -/
def Port.pumpVc (all : Bool) (vc : Nat) : Nat → Port → Port
  | 0, x => x
  | n + 1, x =>
    if 0 < x.credits.getD vc 0 ∧ (232 ≤ x.backlog vc ∨ (all ∧ 0 < x.backlog vc)) then Port.pumpVc all vc n (x.sendFlit vc) else x

/-- Data flits of every VC: a full channel blocks no other (R373). -/
def Port.pump (all : Bool) (x : Port) : Port := (List.range 8).foldl (fun x vc => Port.pumpVc all vc (x.backlog vc / 232 + 1) x) x

/-- A credit-only flit where a unit of credit is owed and no data flit takes it along; it has its SEQ and is replayed as a data flit is
(log entry 31). -/
def Port.creditFlit (x : Port) : Port :=
  if (List.range 8).any fun vc => decide (8 ≤ x.owed.getD vc 0) then
    let (c, x) := x.refund
    x.emit (flitOf 2 7 x.next noPayload c) []
  else x

/-! Routes (R374). -/

/-- The port that messages from a die to a die of another package take: the one that they have taken, while it is usable. -/
def State.route (s : State) (src dst : Nat) : Option Nat :=
  let l := (s.links.routes.getD (dst / 8) []).filter fun p => (s.port p).usable
  ((s.links.taken.get? (128 * src + dst)).filter l.contains).orElse fun _ => l[Config.routeHash src dst % l.length]?

/-- A message goes on the route between its dies; it waits where none is usable. Whether the link sends a flit that is not full at
once is a free value. -/
def State.carry (s : State) (p : Parcel) : State :=
  match s.route p.src p.dst with
  | none => s.onLinks fun l => { l with held := l.held ++ [p] }
  | some q =>
    let (n, s) := (s.onLinks fun l => { l with taken := NMap.set (128 * p.src + p.dst) q l.taken }).draw 2
    let x := s.port q
    s.setPort q ({ x with queue := x.queue ++ [(p, messageBytes p)] }.pump (n == 1))

/-- A message from a die of this package to a die of another. -/
def State.sendMsg (s : State) (src dst : Nat) (m : Msg) : State :=
  let n := s.links.nextMsg
  (s.onLinks fun l => { l with sent := l.sent ++ [(dst / 8, m)], nextMsg := n + 1 }).carry
    { pkg := s.dom.pkg, num := n, hops := 0, src := src, dst := dst, msg := m }

/-- A message from the lower die of stack 0 of this package to that of another: its Millrace and its firmware (R8). -/
def State.tell (s : State) (pkg : Nat) (m : Msg) : State := s.sendMsg (8 * s.dom.pkg) (8 * pkg) m

/-- The other packages of the domain that are not lost. -/
def State.peers (s : State) : List Nat := s.dom.members.filter fun k => k != s.dom.pkg && !NSet.has k s.dom.lost

/-- A message that has arrived is consumed. -/
def State.consume (s : State) (m : Msg) : State := s.onLinks fun l => { l with inbox := l.inbox.erase m }

/-- A message comes: a second copy is discarded by its identity (R375); one for another package goes on, past three at most (R374); what
VC 7 brings is firmware's. -/
def State.receive (s : State) (p : Parcel) : State :=
  if s.links.seen.contains (p.pkg, p.num) then s
  else
    let s := s.onLinks fun l => { l with seen := (p.pkg, p.num) :: l.seen }
    if p.dst / 8 ≠ s.dom.pkg then (if p.hops < 3 then s.carry { p with hops := p.hops + 1 } else s)
    else
      match p.msg with
      | .manage bs => s.onLinks fun l => { l with managed := l.managed ++ [bs] }
      | m => s.onLinks fun l => { l with inbox := l.inbox ++ [m] }

/-! What arrives (R372). -/

/-- The flit at the head of those that have arrived, corrected. -/
def State.headFlit (s : State) (p : Nat) : Option (List Byte) :=
  let x := s.port p
  if x.usable then x.arrived.head?.map received else none

/-- A replay is requested from the SEQ expected. -/
def Port.askReplay (x : Port) : Port := { x with out := x.out ++ [flitOf 3 7 x.expected noPayload 0] }

/-- The credits that a flit returns, and what may be sent with them. -/
def Port.credited (x : Port) (f : List Byte) : Port :=
  { x with credits := (List.range 8).foldl (fun c vc => c.upd vc 0 (· + flitCredit f vc)) x.credits }.pump true

/-- A data or a credit flit that passes its CRC, in its turn: the expected one is taken; a copy of an earlier
one is dropped; after a gap a replay is requested. -/
def State.inTurn (s : State) (p : Nat) (f : List Byte) (take : Port → State) : State :=
  let x := s.port p
  if flitSeq f = x.expected then take { x.credited f with expected := (x.expected + 1) % 65536 }
  else if (flitSeq f + 65536 - x.expected) % 65536 < 32768 then s.setPort p x.askReplay
  else s

/-- A data flit adds its payload to that of its VC, and its credit is owed. -/
def State.takeData (s : State) (p : Nat) (f : List Byte) : State :=
  s.inTurn p f fun x =>
    let vc := flitVc f
    let r := messages (x.payload.getD vc [] ++ flitPayload f)
    r.1.foldl State.receive (s.setPort p ({ x with
      payload := NMap.set vc r.2 x.payload, owed := x.owed.upd vc 0 (· + 1) } : Port).creditFlit)

/-- The head of what has arrived is taken. -/
def State.dropFlit (s : State) (p : Nat) : State :=
  let x := s.port p
  s.setPort p { x with arrived := x.arrived.tail }

/-- A data flit, one that fails its CRC, or one of a TYPE that is discarded. -/
def execFlitData (port : Nat) (s : State) : Out :=
  .next (match s.headFlit port with
    | none => s
    | some f =>
      if !flitGood f then let s := s.dropFlit port; s.setPort port (s.port port).askReplay
      else if flitType f = 2 ∨ flitType f = 3 then s
      else if flitType f = 1 then (s.dropFlit port).takeData port f
      else s.dropFlit port)

def execFlitCredit (port : Nat) (s : State) : Out :=
  .next (match s.headFlit port with
    | none => s
    | some f => if flitGood f && flitType f == 2 then let s := s.dropFlit port; s.inTurn port f (s.setPort port) else s)

end Sys2Proof.Machine
end

