-- ==== Sys2Proof/Machine/Mem.lean ====
section
/-!
DEFINITION. Memory as the agents reach it: the logic dies as sites that send batches of writes (R344 to R346), the table
walk and its caches (R325 to R333), the checks on each access in their order (R330), full-empty bits (R180).
A location is a number: a physical address of 52 bits, or 2^52 + 2^21·pair + offset in a scratchpad.
-/

namespace Sys2Proof.Machine

/-! Where things lie (R8, R9, R17, R332). -/

/-- The stack of a core. -/
def stackOf (core : Nat) : Nat := core / 128
/-- The package quad index of a core. -/
def quadOf (core : Nat) : Nat := core / 8
/-- The package pair index of a core. -/
def pairOf (core : Nat) : Nat := core / 2
/-- The core is a mill core. -/
def isMill (core : Nat) : Bool := core % 2 == 0

/-- The dies of this package, two to a stack, the lower one even. -/
def State.die (s : State) (stack upper : Nat) : Nat := s.dom.pkg * 8 + stack * 2 + upper
/-- The site of a core's accesses: the lower die of its stack (R17). -/
def State.coreDie (s : State) (core : Nat) : Nat := s.die (stackOf core) 0
/-- The site of a quad's engine: the upper die of its stack (R8). -/
def State.quernDie (s : State) (core : Nat) : Nat := s.die (stackOf core) 1
/-- The die is one of this package. -/
def State.ownDie (s : State) (d : Nat) : Bool := d / 8 == s.dom.pkg
/-- Every die of the domain but those of lost packages. -/
def State.allDies (s : State) : List Nat :=
  (s.dom.members.filter fun p => !NSet.has p s.dom.lost).flatMap fun p => (List.range 8).map fun i => p * 8 + i

/-- The scratchpad of a pair begins here. -/
def padBase (pair : Nat) : Nat := 2 ^ 52 + pair * 2 ^ 21
/-- A location in a scratchpad. -/
def isPad (a : Nat) : Bool := decide (2 ^ 52 ≤ a)

/-- R332: the home slice, 0 to 127, of a local address. -/
def homeSlice (p : Nat) : Nat :=
  let x := p >>> 8
  (x ^^^ (x >>> 7) ^^^ (x >>> 14) ^^^ (x >>> 21) ^^^ (x >>> 28) ^^^ (x >>> 35)) % 128

/-- The home die: the logic die under the SRAM die of the home slice (log entry 10). -/
def homeDie (a : Nat) : Nat :=
  let l := homeSlice (a % 2 ^ 48)
  (a / 2 ^ 48) * 8 + (l / 32) * 2 + (l / 16) % 2

/-- Why an access does not go on: a cause, or what it waits for: a write for a page that moves (R336) or a line that the host holds (R370), a
read for a line of another package's home (R346). -/
inductive Stop where
  | bad (c : Cause)
  | stall (w : Wait)
deriving DecidableEq, Repr

/-! Sites, clocks and batches. -/

/-- A die's state. -/
def State.dieAt (s : State) (d : Nat) : Die := s.dies.getD d Die.reset
/-- Changes a die's state. -/
def State.onDie (s : State) (d : Nat) (f : Die → Die) : State := { s with dies := s.dies.upd d Die.reset f }

/-- The bytes of a copy with a write laid over it. -/
def overLine (line : Nat) (old : List Byte) (w : Wr) : List Byte :=
  (List.range 128).map fun i =>
    let a := line * 128 + i
    ((if w.addr ≤ a then w.data[a - w.addr]? else none).bind id).getD (old.getD i 0)

/-- The lines that `n` bytes at an address touch. -/
def linesOf (a n : Nat) : List Nat :=
  if n = 0 then [] else (List.range ((a + n - 1) / 128 - a / 128 + 1)).map (a / 128 + ·)

/-- Whether the data of a batch goes to a die of another package with the header: it does where the die homes or holds a copy of a line in it;
which other lines of other packages' homes it holds, this package does not know (R345; DESIGN CHOICE, log entry 24). -/
def State.dataFor (s : State) (e : Nat) (b : Batch) : Bool × State :=
  let lines := b.writes.flatMap fun w => linesOf w.addr w.data.length
  if lines.any fun l => homeDie (128 * l) == e || (s.dieAt e).holds l then (true, s)
  else if lines.any fun l => !s.ownDie (homeDie (128 * l)) then let (n, s) := s.draw 2; (n == 1, s)
  else (false, s)

/-- A closed batch goes to every die of the other packages, in two messages on VC 0 where its data goes along (R345, R373). -/
def State.sendBatch (s : State) (b : Batch) : State :=
  (s.allDies.filter fun e => !s.ownDie e).foldl (fun s e =>
    let x := s.dataFor e b
    let s := x.2.sendMsg b.src e (.batchHead e b.src b.seq b.vec x.1)
    if x.1 then s.sendMsg b.src e (.batchData e b.src b.seq b.writes) else s) s

/-- R345: the die closes its open batch and sends it. -/
def State.closeBatch (s : State) (d : Nat) : State :=
  let x := s.dieAt d
  if x.pending.isEmpty then s
  else
    let seq := x.vec.getD d 0 + 1
    let vec := NMap.set d seq x.vec
    let b : Batch := { src := d, seq := seq, vec := vec, writes := x.pending, headed := [d], arrived := [d], applied := [d] }
    { s with dies := NMap.set d { x with vec := vec, pending := [] } s.dies, flight := s.flight ++ [b] }.sendBatch b

/-- A die's copies take a write, where it holds copies of its lines. -/
def Die.copyWrite (x : Die) (w : Wr) : Die :=
  { x with copies := (linesOf w.addr w.data.length).foldl (fun c line =>
      match c.get? line with
      | some old => NMap.set line (overLine line old w) c
      | none => c) x.copies }

/-- A die's own bytes of lines that have their home elsewhere, after a write of its own that batch `k` takes there. -/
def ownWrite (k a : Nat) : List (Option Byte) → NMap (Byte × Nat) → NMap (Byte × Nat)
  | [], m => m
  | none :: r, m => ownWrite k (a + 1) r m
  | some b :: r, m => ownWrite k (a + 1) r (NMap.set a (b, k) m)

/-- Bytes of granules of the die's own order stand in a list of its bytes (R347). -/
def ownGranule (m : NMap (Byte × Nat)) (a : Nat) : Bool := m.any fun b => b.1 / 16 == a / 16

/-- The same after a write of another die, which stands over the die's own in its order (R347, R348): wherever the die has bytes
of the granule that stand in its own order, and everywhere where `ahead` says that the home has still to apply the write. `m0` are the
bytes before it. -/
def ownOver (ahead : Bool) (m0 : NMap (Byte × Nat)) (a : Nat) : List (Option Byte) → NMap (Byte × Nat) → NMap (Byte × Nat)
  | [], m => m
  | none :: r, m => ownOver ahead m0 (a + 1) r m
  | some b :: r, m => ownOver ahead m0 (a + 1) r (if ahead || ownGranule m0 a then NMap.set a (b, 0) m else m)

/-- The host gives up the lines of n bytes (R370): no step does this to a line that the host holds, but the host's own answer (`heed`; log
entry 35). -/
def State.takeBack (s : State) (a n : Nat) : State :=
  { s with dom := { s.dom with hostLines := (linesOf a n).foldl (fun l k => NSet.del k l) s.dom.hostLines } }

/-- The die has asked another package's home for a line of the write. -/
def Die.awaits (x : Die) (w : Wr) : Bool := (linesOf w.addr w.data.length).any fun l => NSet.has l x.asked

/-- One write of a batch at a die: its copies; at a die of this package the home line, where the die is the home, and else the bytes of its
own order, those of a line on its way from another package's home among them (log entry 24). -/
def State.applyWrite (s : State) (d : Nat) (ahead : Bool) (w : Wr) : State :=
  let s := s.onDie d fun x => x.copyWrite w
  if !s.ownDie d then s
  else if homeDie w.addr = d then { s with mem := s.mem.writeO w.addr w.data }.takeBack w.addr w.data.length
  else s.onDie d fun x => { x with own := ownOver (ahead || x.awaits w) x.own w.addr w.data x.own }

/-- The home h of bytes has applied batch `k` of a die: they no longer stand only in that die's own order, but for those of a line that is
on its way from another package's home. -/
def Die.landed (x : Die) (h k : Nat) : Die :=
  { x with own := x.own.filter fun b =>
      !(homeDie b.1 == h && b.2.2 != 0 && decide (b.2.2 ≤ k) && !NSet.has (b.1 / 128) x.asked) }

/-- R346: die e applies a batch and advances its entry; a batch that every die has applied is gone. -/
def State.applyBatch (s : State) (e : Nat) (b : Batch) : State :=
  let s := b.writes.foldl (fun s w => s.applyWrite e (!NSet.has (homeDie w.addr) b.applied) w) s
  let s := s.onDie e fun x => { x with vec := NMap.set b.src b.seq x.vec }
  let s := s.onDie b.src fun x => x.landed e b.seq
  let b' : Batch := { b with applied := NSet.add e b.applied, headed := NSet.add e b.headed, arrived := NSet.add e b.arrived }
  { s with flight :=
      (s.flight.map fun c => if c.src = b.src ∧ c.seq = b.seq then b' else c).filter fun c =>
        !(s.allDies.all fun d => NSet.has d c.applied) }

/-- R370: a write goes to a line of its home e that the host may hold. -/
def State.snoops (s : State) (e : Nat) (w : Wr) : Bool :=
  homeDie w.addr == e && (linesOf w.addr w.data.length).any fun k => NSet.has k s.dom.hostLines

/-- R346, R370, R380: the conditions under which die e may apply the batch; the entries of lost packages are not compared, and the
home waits for the host's answer to its BISnp. -/
def State.mayApply (s : State) (e : Nat) (b : Batch) : Bool :=
  let v := (s.dieAt e).vec
  !(b.writes.any (s.snoops e)) &&
  !NSet.has e b.applied && v.getD b.src 0 + 1 == b.seq &&
    b.vec.all fun p => p.1 == b.src || NSet.has (p.1 / 8) s.dom.lost || decide (p.2 ≤ v.getD p.1 0)

/-- Die e applies, in the order in which they were closed, the batches that a vector covers. -/
def State.catchUp (s : State) (e : Nat) (target : NMap Nat) : State :=
  s.flight.foldl (fun s b =>
    if !NSet.has e b.applied && decide (b.seq ≤ target.getD b.src 0) then s.applyBatch e b else s) s

/-- The location has its home on another package. -/
def State.far (s : State) (a : Nat) : Bool := !isPad a && !s.ownDie (homeDie a)

/-- The agents of a die cannot read a location from its own lines: its home is on another package, and the die holds no copy (R346). -/
def State.lacks (s : State) (d a : Nat) : Bool := s.far a && ((s.dieAt d).copies.get? (a / 128)).isNone

/-- R346: the die asks the home on another package for the line of a location, once; the request goes on VC 1 with the die's vector (R373;
log entry 24), and the reply brings a copy. -/
def State.ask (s : State) (d a : Nat) : State :=
  let line := a / 128
  if NSet.has line (s.dieAt d).asked then s
  else
    let s := s.onDie d fun x => { x with asked := NSet.add line x.asked }
    s.sendMsg d (homeDie a) (.read (homeDie a) d (128 * line) 128 (s.dieAt d).vec)

/-- What an agent of a die that lacks a line waits for, or PEER where the home could not reach the line when it was last asked (R371). Either
way it asks (again). -/
def State.lackStop (s : State) (d a : Nat) : Stop :=
  if NSet.has (a / 128) (s.dieAt d).refused then .bad .peer else .stall (.far (a / 128))

/-- A byte as the agents of die d read it (R346, R347): the home's own line, the die's copy, the bytes that stand in the die's
order behind what the home has, and else the home's line, which is on this package: they wait for a copy of another line (`State.lacks`). -/
def State.byteAt (s : State) (d a : Nat) : Byte :=
  if isPad a then s.mem.read a
  else
    let h := homeDie a
    if h = d then s.mem.read a
    else
      match (s.dieAt d).copies.get? (a / 128) with
      | some l => l.getD (a % 128) 0
      | none =>
        match (s.dieAt d).own.get? a with
        | some b => b.1
        | none => s.mem.read a

/-- The bytes at ascending addresses. -/
def State.bytesAt (s : State) (d a n : Nat) : List Byte := (List.range n).map fun i => s.byteAt d (a + i)

/-- Die d and a home h agree, before h answers d: h closes its open batch, because what its own agents have written to its own
lines may follow what that batch holds (R343, R351; DEDUCED, log entry 24); h applies what d's vector covers, d what h's
vector covers (R346). -/
def State.exchange (s : State) (d h : Nat) : State :=
  let s := s.closeBatch h
  if s.flight.isEmpty then s
  else
    let s := s.catchUp h (s.dieAt d).vec
    s.catchUp d (s.dieAt h).vec

/-- R346: before a read from its home returns, the reader's die has applied what the home's vector covers. The read travels
with its die's vector, as an atomic does (R349), so that the home answers nothing older than what the reader's die has
applied (R351; DEDUCED, log entry 24). A copy of a line whose home is on another package came with that home's vector. -/
def State.readSync (s : State) (d a : Nat) : State :=
  if isPad a || s.far a then s
  else
    let h := homeDie a
    if h = d then s
    else
      match (s.dieAt d).copies.get? (a / 128) with
      | some _ => s
      | none => s.exchange d h

/-- A write event by an agent of die d (R342, R344): at the home's own die it is performed; a line homed elsewhere, or copied
elsewhere, joins the open batch, which is closed at 256 writes (R345). -/
def State.writeSome (s : State) (d quad a : Nat) (data : List (Option Byte)) : State :=
  if isPad a then { s with mem := s.mem.writeO a data }
  else
    let w : Wr := { addr := a, quad := quad, data := data }
    let h := homeDie a
    let s := s.onDie d fun x => x.copyWrite w
    let s :=
      if h = d then { s with mem := s.mem.writeO a data }
      else s.onDie d fun x => { x with own := ownWrite (x.vec.getD d 0 + 1) a data x.own }
    let shared := h ≠ d ∨ (s.allDies.any fun e => e != d && (linesOf a data.length).any (s.dieAt e).holds)
    if shared then
      let s := s.onDie d fun x => { x with pending := x.pending ++ [w] }
      if 256 ≤ (s.dieAt d).pending.length then s.closeBatch d else s
    else s

/-- A write event of whole bytes. -/
def State.write (s : State) (d quad a : Nat) (data : List Byte) : State := s.writeSome d quad a (data.map some)

/-- What die d's agents have written has reached a home, in their order (R354). -/
def State.reach (s : State) (d h : Nat) : State :=
  if h = d then s
  else
    let s := s.closeBatch d
    s.catchUp h (s.dieAt d).vec

/-- A die's own bytes of a line as the writes that it has still to send make them (R347): those in flight to the line's home,
in the order of their batches, then those of the open batch. -/
def State.rebuildOwn (s : State) (d line : Nat) : State :=
  let h := homeDie (line * 128)
  let keep := (s.dieAt d).own.filter fun b => b.1 / 128 != line
  let sent := s.flight.foldl (fun (m : NMap (Byte × Nat)) b =>
    if NSet.has h b.applied then m
    else if b.src = d then b.writes.foldl (fun m w => ownWrite b.seq w.addr w.data m) m
    else if NSet.has d b.applied then b.writes.foldl (fun m w => ownOver true m w.addr w.data m) m
    else m) []
  let all := (s.dieAt d).pending.foldl (fun m w =>
    if homeDie w.addr = d then m else ownWrite ((s.dieAt d).vec.getD d 0 + 1) w.addr w.data m) sent
  s.onDie d fun x => { x with own := all.foldl (fun m b => if b.1 / 128 = line then NMap.set b.1 b.2 m else m) keep }

/-- Room for `n` more write events in the open batch, which is closed where it has none (R345). -/
def State.room (s : State) (d n : Nat) : State :=
  if (s.dieAt d).pending.length + n > 256 then s.closeBatch d else s

/-- R349: an atomic at its home on this package, begun by an agent of die d: the die's batch is closed (R345), and the home applies what the
die's vector covers. In a scratchpad the bank is the home. -/
def State.atomicSync (s : State) (d a : Nat) : State :=
  let s := s.closeBatch d
  if isPad a then s else s.exchange d (homeDie a)

/-- The atomic's write at its home, and its reply, which carries the home's vector to die d (R349). -/
def State.atomicWrite (s : State) (d quad a : Nat) (data : List Byte) : State :=
  if isPad a then s.write d quad a data
  else
    let h := homeDie a
    let s := (s.write h quad a data).closeBatch h
    s.catchUp d (s.dieAt h).vec

/-- R346: a die's vector is at or above a home's but for the home's entry; entries of lost packages are not compared. -/
def State.covers (s : State) (d home : Nat) (vec : NMap Nat) : Bool :=
  vec.all fun p => p.1 == home || NSet.has (p.1 / 8) s.dom.lost || decide (p.2 ≤ (s.dieAt d).vec.getD p.1 0)

/-- R349: a die has applied what a vector covers, or can from what is under way to it. -/
def State.reaches (s : State) (d : Nat) (vec : NMap Nat) : Bool := (s.catchUp d vec).covers d d vec

/-- The host may hold one of the lines of these bytes (R370). -/
def State.lent (s : State) (a n : Nat) : Bool := (linesOf a n).any fun k => NSet.has k s.dom.hostLines

/-- R341: everything that die d's agents have written is performed at a tier's scope. -/
def State.performAt (s : State) (d : Nat) (tier : Tier) : State :=
  match tier with
  | .core => s
  | .pair => s
  | .quad => s
  | .stack =>
    let s := s.closeBatch d
    let v := (s.dieAt d).vec
    (s.catchUp (d / 2 * 2) v).catchUp (d / 2 * 2 + 1) v
  | .domain =>
    let s := s.closeBatch d
    let v := (s.dieAt d).vec
    s.allDies.foldl (fun s e => s.catchUp e v) s

/-- What die d's agents have written and read is there for die e's: the operations of a strand's engines, and the strand
itself where it goes on under another die, follow its accesses (R343, R350). -/
def State.bringAlong (s : State) (d e : Nat) : State :=
  if d = e then s else let s := s.closeBatch d; s.catchUp e (s.dieAt d).vec

/-! Translation. -/

/-- Why a translation fails: the level whose entry failed, 7 for bits 63:57 or the region (R339 FLEV), and why the entry could not be
read, where that is so. -/
structure WalkFail where
  level : Nat
  cause : Option Stop
deriving DecidableEq, Repr

/-- How an access ends whose translation fails, `c` being the cause of a failed entry. -/
def WalkFail.stop (e : WalkFail) (c : Cause) : Stop := e.cause.getD (.bad c)

/-- A leaf bit (R328). -/
def TlbEntry.flag (t : TlbEntry) (i : Nat) : Bool := t.leaf.getLsbD i
/-- R, W, X, HS, SHARD, POISON, MIG of R328. -/
def TlbEntry.canRead (t : TlbEntry) : Bool := t.flag 2
/-- W of R328. -/
def TlbEntry.canWrite (t : TlbEntry) : Bool := t.flag 3
/-- X of R328. -/
def TlbEntry.canExec (t : TlbEntry) : Bool := t.flag 4
/-- HS of R328. -/
def TlbEntry.hostShared (t : TlbEntry) : Bool := t.flag 5
/-- SHARD of R328. -/
def TlbEntry.shard (t : TlbEntry) : Bool := t.flag 6
/-- POISON of R328. -/
def TlbEntry.poisoned (t : TlbEntry) : Bool := t.flag 12
/-- MIG of R328. -/
def TlbEntry.migrating (t : TlbEntry) : Bool := t.flag 13
/-- PL of R328. -/
def TlbEntry.pl (t : TlbEntry) : Nat := (t.leaf.extractLsb' 8 4).toNat
/-- TIX of R328. -/
def TlbEntry.tix (t : TlbEntry) : Nat := (t.leaf.extractLsb' 52 12).toNat

/-- The bytes that a leaf of a level maps (R327). -/
def leafSize (level : Nat) : Nat := match level with | 2 => 2 ^ 30 | 3 => 2 ^ 21 | _ => 2 ^ 16

/-- The index of a level (R327). -/
def levelIndex (va level : Nat) : Nat :=
  match level with
  | 0 => (va >>> 48) % 512
  | 1 => (va >>> 39) % 512
  | 2 => (va >>> 30) % 512
  | 3 => (va >>> 21) % 512
  | _ => (va >>> 16) % 32

/-- R326: the local address lies in filled LPDDR-6, of which there are `n` bytes, or in host memory. -/
def localMapped (n l : Nat) : Bool :=
  decide (l < n) || (decide (0x400000000000 ≤ l) && decide (l ≤ 0x7FFFFFFFFFFF))

/-- R329: the leaf entry is malformed at this level, `n` bytes of LPDDR-6 being filled. -/
def leafBad (n : Nat) (e : Word) (level : Nat) : Bool :=
  let pa := (e.extractLsb' 16 36).toNat
  e.getLsbD 7 || e.getLsbD 14 || e.getLsbD 15 ||
  (e.extractLsb' 8 4 == 0 && e.extractLsb' 52 12 != 0) ||
  decide (level < 2) ||
  (level == 3 && pa % 32 != 0) || (level == 2 && pa % 2 ^ 14 != 0) ||
  (e.getLsbD 6 && level == 4) ||
  !localMapped n (pa % 2 ^ 32 * 2 ^ 16)

/-- R328 and R329: the pointer entry is malformed: a zero bit is set, it stands at level 4, its table is not aligned. -/
def pointerBad (e : Word) (level : Nat) : Bool :=
  e.extractLsb' 2 6 != 0 || e.extractLsb' 52 12 != 0 || level == 4 ||
  (decide (level < 3) && e.extractLsb' 8 4 != 0)

/-- R326, R371: the package or the host port is not reachable. -/
def State.unreachable (s : State) (a : Nat) : Bool :=
  let pkg := a / 2 ^ 48
  !NSet.has pkg s.dom.members || NSet.has pkg s.dom.lost ||
  (pkg == s.dom.pkg && decide (0x400000000000 ≤ a % 2 ^ 48) && !s.dom.hostUp)

/-- A granule of these bytes is poisoned, for a read of any byte or a write of less than a granule (R420). -/
def State.poisonHit (s : State) (a n : Nat) (whole : Bool) : Bool :=
  !whole && (List.range ((a + n + 15) / 16 - a / 16)).any fun i => NSet.has (a / 16 + i) s.poison

/-- R2, R326: the bytes of LPDDR-6 that a package of the domain has filled; another package's as firmware knows it (log entry 8). -/
def State.capacity (s : State) (pkg : Nat) : Nat :=
  if pkg = s.dom.pkg then s.board.bytes else s.dom.filled.getD pkg s.board.bytes

/-- The n bytes at a physical address lie in filled LPDDR-6 or in host memory of their package (R2, R326). -/
def State.filledAt (s : State) (a n : Nat) : Bool := localMapped (s.capacity (a / 2 ^ 48)) (a % 2 ^ 48 + (n - 1))

/-- The bytes of LPDDR-6 by which a leaf is judged: those of the package that PA names; on a SHARD leaf, whose package field is not
taken from PA (R331), those of the package of the domain that has the most. -/
def State.leafCap (s : State) (e : Word) : Nat :=
  if e.getLsbD 6 then s.dom.members.foldl (fun n p => max n (s.capacity p)) 0
  else s.capacity ((e.extractLsb' 16 36).toNat / 2 ^ 32)

/-- Bytes of a table at a physical address, read as a load of a die's agents would read them (R333, R373). Where the address is not filled
or reserved they are 0 (DESIGN CHOICE, log entry 66). -/
def State.tableRead (s : State) (d a n : Nat) : Except Stop (List Byte) × State :=
  if s.unreachable a then (.error (.bad .peer), s)
  else if s.poisonHit a n false then (.error (.bad .poison), s)
  else if s.lacks d a then (.error (s.lackStop d a), s.ask d a)
  else let s := s.readSync d a; (.ok (s.bytesAt d a n), s)

/-- The walk from a table at a level, `n` levels being left (R327). -/
def State.walk (s : State) (d va : Nat) : Nat → Nat → Nat → Except WalkFail (Word × Nat) × State
  | 0, _, level => (.error { level := level, cause := none }, s)
  | n + 1, table, level =>
    match s.tableRead d (table + 8 * levelIndex va level) 8 with
    | (.error c, s) => (.error { level := level, cause := some c }, s)
    | (.ok b, s) =>
      let e : Word := BitVec.ofNat 64 (leNat b)
      if !e.getLsbD 0 then (.error { level := level, cause := none }, s)
      else if e.getLsbD 1 then
        if leafBad (s.leafCap e) e level then (.error { level := level, cause := none }, s) else (.ok (e, level), s)
      else if pointerBad e level then (.error { level := level, cause := none }, s)
      else s.walk d va n ((e.extractLsb' 8 44).toNat * 256) (level + 1)

/-- The partition of a number. -/
def State.part (s : State) (p : Nat) : Part := s.parts.getD p Part.absent

/-- The fields of a tensor-table entry (R421): plane base, scale base, strips; nothing where it is malformed. -/
def tensorOf (b : List Byte) : Option (Nat × Nat × Nat) :=
  let p := leNat (b.take 8)
  let q := leNat ((b.drop 8).take 8)
  let n := leNat ((b.drop 16).take 4)
  if p % 128 = 0 ∧ q % 16 = 0 ∧ n ≠ 0 ∧ leNat (b.drop 20) = 0 then some (p, q, n) else none

/-- R421: a tensor-table entry, read as a load of a die's agents would read it. -/
def State.tensorEntry (s : State) (d part tix : Nat) : Except Stop (Option (Nat × Nat × Nat)) × State :=
  match s.tableRead d ((s.part part).record.nptab + 32 * tix) 32 with
  | (.ok b, s) => (.ok (tensorOf b), s)
  | (.error c, s) => (.error c, s)

/-- The region that is not translated (R325). -/
def inRegion (va : Nat) : Bool := decide (0x01FFFFF000000000 ≤ va) && decide (va ≤ 0x01FFFFFFFFFFFFFF)

/-- A core's state. -/
def State.core (s : State) (c : Nat) : Core := s.cores.getD c Core.reset
/-- Changes a core's state. -/
def State.onCore (s : State) (c : Nat) (f : Core → Core) : State := { s with cores := s.cores.upd c Core.reset f }
/-- A pair's state. -/
def State.pair (s : State) (p : Nat) : Pair := s.pairs.getD p Pair.reset
/-- Changes a pair's state. -/
def State.onPair (s : State) (p : Nat) (f : Pair → Pair) : State := { s with pairs := s.pairs.upd p Pair.reset f }

/-- The cached leaf that covers an address. -/
def tlbFind (part va : Nat) (l : List TlbEntry) : Option TlbEntry :=
  l.find? fun t => t.part == part && decide (t.va ≤ va) && decide (va < t.va + leafSize t.level)

/-- A leaf that a walk has found; its tensor entry is not read yet. -/
def leafEntry (part va : Nat) (leaf : Word) (level : Nat) : TlbEntry :=
  { part := part, va := va / leafSize level * leafSize level, level := level, leaf := leaf, tensor := none }

/-- R333: the leaf of an address for a partition, from the L1 TLB of a core, the L2 TLB of its quad, or a walk, which both
then hold; the oldest entries leave when there is no room (log entry 11). -/
def State.lookup (s : State) (core part va : Nat) : Except WalkFail TlbEntry × State :=
  let fill (s : State) (t : TlbEntry) : State := s.onCore core fun c => { c with tlb := (t :: c.tlb).take 96 }
  match tlbFind part va (s.core core).tlb with
  | some t => (.ok t, s)
  | none =>
    let q := quadOf core
    match tlbFind part va (s.l2tlb.getD q []) with
    | some t => (.ok t, fill s t)
    | none =>
      let d := s.coreDie core
      match s.walk d va 5 (s.part part).record.ptroot 0 with
      | (.error e, s) => (.error e, s)
      | (.ok (leaf, level), s) =>
        let t := leafEntry part va leaf level
        (.ok t, fill { s with l2tlb := s.l2tlb.upd q [] fun l => (t :: l).take 4096 } t)

/-- R421: the tensor entry that a leaf names: as it is cached with the leaf, or read now and cached with it from then on. -/
def State.tensorFor (s : State) (core : Nat) (t : TlbEntry) : Except Stop (Option (Nat × Nat × Nat)) × State :=
  match t.tensor with
  | some x => (.ok x, s)
  | none =>
    match s.tensorEntry (s.coreDie core) t.part t.tix with
    | (.error c, s) => (.error c, s)
    | (.ok x, s) =>
      let keep (l : List TlbEntry) : List TlbEntry := l.map fun u => if u = t then { t with tensor := some x } else u
      (.ok x, { s.onCore core fun c => { c with tlb := keep c.tlb } with
        l2tlb := s.l2tlb.upd (quadOf core) [] keep })

/-- R331: the owner package of an address on a SHARD leaf. -/
def State.shardPkg (s : State) (va : Nat) : Nat :=
  let h := elemHash (BitVec.ofNat 64 (va >>> 21)) 0
  let o := ((h.extractLsb' 32 32).toNat * s.dom.members.length) / 2 ^ 32
  s.dom.members.getD o 0

/-- The physical address behind a leaf. -/
def State.physOf (s : State) (t : TlbEntry) (va : Nat) : Nat :=
  let pa := (t.leaf.extractLsb' 16 36).toNat * 2 ^ 16 + va % leafSize t.level
  if t.shard then s.shardPkg va * 2 ^ 48 + pa % 2 ^ 48 else pa

/-! Checks on each access (R330). -/

/-- The kinds of access: `merge` and `update` read bytes that they then write, as a store of a part of a block and as an access that also
needs R; `atomic` acts at the home (R349), and `look` reads there. -/
inductive Kind where
  | read | write | merge | update | atomic | look | fetch
deriving DecidableEq, Repr

/-- The kind writes. -/
def Kind.writes : Kind → Bool
  | .write | .merge | .update | .atomic => true
  | _ => false

/-- The kind reads through the agent's die (R346). -/
def Kind.reads : Kind → Bool
  | .read | .merge | .update | .fetch => true
  | _ => false

/-- Where an access goes: a location, with the leaf behind it if there is one, or a byte of the partition record. -/
inductive Loc where
  | at_ (a : Nat) (leaf : Option TlbEntry)
  | record (off : Nat)
deriving DecidableEq, Repr

/-- How the checks end: a location, a cause, or a write that stalls. -/
inductive Chk where
  | ok (l : Loc)
  | bad (c : Cause)
  | stall (w : Wait)
deriving DecidableEq, Repr

/-- R280: the page of an address holds a byte of the locked range of a resident kernel of the partition. -/
def State.locked (s : State) (part : Nat) (t : TlbEntry) : Bool :=
  s.mill.kernels.any fun k => k.part == part && decide (k.base < t.va + leafSize t.level) && decide (t.va < k.base + k.hdr.data)

/-- R330: the leaf permits an access of a kind for a partition. -/
def State.permits (s : State) (part : Nat) (t : TlbEntry) (k : Kind) : Bool :=
  match k with
  | .read | .look => t.canRead
  | .write | .merge => t.canWrite && !s.locked part t
  | .update | .atomic => t.canRead && t.canWrite && !s.locked part t
  | .fetch => t.canExec

/-- An access that does not go on, as the checks say it. -/
def Stop.chk : Stop → Chk
  | .bad c => .bad c
  | .stall w => .stall w

/-- The checks of R330 in their order, for `n` bytes at `va` by an agent of a core for a partition; `fe` where FEQ is not
plain; `whole` for a write of a whole granule. -/
def State.check (s : State) (core part : Nat) (va n algn : Nat) (k : Kind) (fe whole : Bool) : Chk × State :=
  let xlt : Cause := if k = .fetch then .fetchXlt else .dataXlt
  if va % algn ≠ 0 then (.bad .align, s)
  else if 2 ^ 57 ≤ va then (.bad xlt, s)
  else if inRegion va then
    let off := va - 0x01FFFFF000000000
    if off < 2 ^ 21 then
      if k = .fetch then (.bad .perm, s)
      else
        let a := padBase (pairOf core) + off
        if s.poisonHit a n (whole && k = .write) then (.bad .poison, s) else (.ok (.at_ a none), s)
    else if 0x800000000 ≤ off ∧ off + n ≤ 0x800000080 then
      if (k = .read ∨ k = .look) ∧ !fe then (.ok (.record (off - 0x800000000)), s) else (.bad .perm, s)
    else (.bad xlt, s)
  else
    match s.lookup core part va with
    | (.error e, s) => ((e.stop xlt).chk, s)
    | (.ok t, s) =>
      let a := s.physOf t va
      if !s.filledAt a n then (.bad xlt, s)
      else if !s.permits part t k || fe then (.bad .perm, s)
      else if t.poisoned then (.bad .poison, s)
      else if k.writes && t.migrating then (.stall (.migr va), s)
      else if s.poisonHit a n (whole && k = .write) then (.bad .poison, s)
      else if s.unreachable a then (.bad .peer, s)
      else if k.writes && NSet.has (a / 128) s.dom.hostLines then (.stall (.snoop (a / 128)), s)
      else (.ok (.at_ a (some t)), s)

/-- The checks on an access of the acting strand: a package that does not answer it gives PEER (R380), and a read that its die cannot serve
from its own lines asks another package's home and waits (R346). -/
def State.access (s : State) (va n algn : Nat) (k : Kind) (fe whole : Bool) : Chk × State :=
  match s.check s.act.core s.act.part va n algn k fe whole with
  | (.ok (.at_ a l), s) =>
    if !isPad a && s.act.late == some (a / 2 ^ 48) then (.bad .peer, s)
    else if k.reads && s.lacks (s.coreDie s.act.core) a then ((s.lackStop (s.coreDie s.act.core) a).chk, s.ask (s.coreDie s.act.core) a)
    else (.ok (.at_ a l), s)
  | (.stall (.far l), s) => (if s.act.late == some (128 * l / 2 ^ 48) then .bad .peer else .stall (.far l), s)
  | r => r

/-- The partition record as its window shows it (R390). -/
def Part.bytes (pid : Nat) (p : Part) : List Byte :=
  let r := p.record
  leBytes 8 pid ++ leBytes 8 r.quads.toNat ++ leBytes 8 r.ptroot ++ leBytes 8 r.faultArea ++ leBytes 2 r.ctrBase ++
  leBytes 2 r.ctrLast ++ leBytes 2 r.pool ++ leBytes 2 r.llcq ++ leBytes 1 r.l2q ++ leBytes 1 0 ++ leBytes 2 r.memBud ++
  leBytes 2 r.linkBud ++ leBytes 2 r.schedBud ++ leBytes 8 r.stackBar.toNat ++ leBytes 8 r.domBar.toNat ++
  leBytes 8 r.mlog ++ (r.queues.toList.flatMap fun q => leBytes 2 q.toNat) ++ leBytes 8 r.fcount.toNat ++
  leBytes 8 r.nptab ++ leBytes 8 0

/-- The bytes at a location, as a core reads them. -/
def State.locBytes (s : State) (core part : Nat) (l : Loc) (n : Nat) : List Byte :=
  match l with
  | .at_ a _ => s.bytesAt (s.coreDie core) a n
  | .record off => (((s.part part).bytes part).drop off).take n

/-- The location number, a byte of the partition record standing for no location. -/
def Loc.addr : Loc → Nat
  | .at_ a _ => a
  | .record _ => 0

/-- The reader's die applies what the read needs. -/
def State.locSync (s : State) (core : Nat) : Loc → State
  | .at_ a _ => s.readSync (s.coreDie core) a
  | .record _ => s

/-! Full-empty bits (R180). -/

/-- The granule of a location is full. -/
def State.isFull (s : State) (a : Nat) : Bool := NSet.has (a / 16) s.full
/-- Sets a granule full. -/
def State.setFull (s : State) (a : Nat) : State := { s with full := NSet.add (a / 16) s.full }
/-- Sets a granule empty. -/
def State.setEmpty (s : State) (a : Nat) : State := { s with full := NSet.del (a / 16) s.full }

/-- A load's access to a granule: the wait, and what happens to the bit. `held` says that the granule already moves in this
instruction's step. -/
def State.feLoad (s : State) (fq : Feq) (a : Nat) (held : Bool) : Option Wait × State :=
  match fq with
  | .plain => (none, s)
  | .fe => if held || s.isFull a then (none, s) else (some (.fe a true), s)
  | .fc => if held then (none, s) else if s.isFull a then (none, s.setEmpty a) else (some (.fe a true), s)

/-- A store's access to a granule. -/
def State.feStore (s : State) (fq : Feq) (a : Nat) (held : Bool) : Option Wait × State :=
  match fq with
  | .plain => (none, s)
  | .fe => if held then (none, s) else if s.isFull a then (some (.fe a false), s) else (none, s.setFull a)
  | .fc => (none, s.setFull a)

/-! Scalar accesses (R175, R185). -/

/-- The value of `n` bytes at a virtual address, as the acting strand loads them. -/
def State.load (s : State) (va n : Nat) (fq : Feq) : Res Nat :=
  let c := s.act.core
  match s.access va n n .read (fq != .plain) false with
  | (.bad e, s) => .trap (Trap.scalar e (BitVec.ofNat 64 va)) s
  | (.stall w, s) => .wait (.own w) s
  | (.ok l, s) =>
    match s.feLoad fq l.addr false with
    | (some w, s) => .wait (.own w) s
    | (none, s) =>
      let s := s.locSync c l
      .ok (leNat (s.locBytes c s.act.part l n)) s

/-- Stores the low `n` bytes of a value. -/
def State.store (s : State) (va n x : Nat) (fq : Feq) : Res Unit :=
  let c := s.act.core
  match s.access va n n .write (fq != .plain) false with
  | (.bad e, s) => .trap (Trap.scalar e (BitVec.ofNat 64 va)) s
  | (.stall w, s) => .wait (.own w) s
  | (.ok l, s) =>
    match s.feStore fq l.addr false with
    | (some w, s) => .wait (.own w) s
    | (none, s) => .ok () (s.write (s.coreDie c) (quadOf c) l.addr (leBytes n x))

end Sys2Proof.Machine
end

