-- ==== Sys2Proof/Machine/Operands.lean ====
section
/-!
DEFINITION. Operand forms: the last source of an S form in each of its forms (R79, R81, R82), offsets, the checks that
depend on the state (R89 steps 6 to 8).
-/

namespace Sys2Proof.Machine

/-- ILLEGAL at decode: `tval` holds the word (R89). -/
def State.illegal (s : State) : Trap := Trap.scalar .illegal s.ir.1
/-- TYPECOMBO at decode (R89 step 9). -/
def State.typeCombo (s : State) : Trap := Trap.scalar .typeCombo s.ir.1
/-- PRIV at decode (R89 step 8). -/
def State.privTrap (s : State) : Trap := Trap.scalar .priv s.ir.1

/-- A constant-bank index is below the kernel's constant count (R82). -/
def State.srcOk (s : State) : Src → Bool
  | .cb i => decide (i.toNat < s.act.cb.length)
  | _ => true

/-- R81: the last source of an integer or address operation. -/
def State.srcInt (s : State) : Src → Word
  | .reg r => s.g r
  | .imm v => v.signExtend 64
  | .lit v => v.signExtend 64
  | .cb i => (s.cb i).signExtend 64

/-- R31, R81: the last source of a scalar floating-point operation, as bits of the format. -/
def State.srcFloat (s : State) (q : FloatFmt) : Src → Nat
  | .reg r => (s.g r).toNat % 2 ^ q.width
  | .imm v => constFloat q (immFloat v)
  | .lit v => constFloat q v.toNat
  | .cb i => constFloat q (s.cb i).toNat

/-- Ends with the effect where the last source is legal, and with ILLEGAL where it is not. -/
def State.withSrc (s : State) (src : Src) (k : Res Unit) : Out :=
  (if s.srcOk src then k else .trap s.illegal s).fin s (s.act.pc + src.bytes)

/-- The privileged instructions of control strands and firmware (R89 step 8). -/
def State.privileged (s : State) (k : Res Unit) : Res Unit :=
  if s.act.priv = .user then .trap s.privTrap s else k

/-- The byte address in a register plus a signed offset. -/
def State.ea (s : State) (r : Reg) (off : BitVec 13) : Nat := (s.g r + off.signExtend 64).toNat

/-- The address `off` words from the word being executed. -/
def State.target {n : Nat} (s : State) (off : BitVec n) : Word := s.act.pc + (off.signExtend 64 <<< 3)

/-- The `vlmax` of c clusters and elements of w bits (R112). -/
def vlmax (c w : Nat) : Nat := 2048 * c / w

/-- An instruction of the vector queue has completed: `vstart` is 0 (R123), and VPEND is clear but while a handler runs,
where it belongs to the instruction in the frame (R273). -/
def State.queueDone (s : State) : State :=
  s.onCsr fun c => { c with vstart := 0, vpend := c.vpend && s.act.frame.isSome }

/-- The end of an instruction of the vector queue that has no elements. -/
def Res.finQ (r : Res Unit) (s0 : State) : Out := (r.bind fun _ s => .ok () s.queueDone).fin s0 s0.after

/-- A trap of an instruction of the vector queue that has no elements (R260). -/
def Trap.queue (c : Cause) (tval : Nat) : Trap := Trap.posted c (BitVec.ofNat 64 tval) 0

/-- A trap at fetch, decode or a scalar access, taken by an instruction of the vector queue: it is posted work (R260). -/
def Res.asQueue {α : Type} (r : Res α) : Res α :=
  match r with
  | .trap t s => .trap { t with at_ := match t.at_ with | .scalar => .vec 0 | x => x } s
  | r => r

end Sys2Proof.Machine
end

