-- ==== Sys2Proof/Machine/Lanes.lean ====
section
/-!
DEFINITION. Elements: which are active (R56), how an element fault inside an arm is absorbed (R162, R163), what an arm's
store window shows (R159), element results and block-validity bits (R40), vector operands (R79, R81).
-/

namespace Sys2Proof.Machine

/-! Formats of an instruction. -/

/-- The element width of `vtype`. -/
def State.sew (s : State) : Nat := fmtWidth s.fmt
/-- `vtype`.NP, the plane count in force. -/
def State.npk (s : State) : Nat := s.act.csr.vt.np.toNat
/-- Sets of element formats (R125): integers, floats, NP, UQ1.15. -/
def fmtIn (ints floats np uq : Bool) (q : Fmt) : Bool :=
  if fmtInt q then ints else if fmtFloat q then floats else if q = .np then np else if q = .uq15 then uq else false

/-! Active elements. -/

/-- The code of a weight register's element, read as R43 says. -/
def State.code (s : State) (r : WReg) (i : Nat) : Nat := uqVal (lane (s.w r) 16 i)

/-- R149: the condition of an arm on a code, `t` being the threshold. -/
def armCond (armB : Bool) (u t : Nat) : Bool := decide (t < if armB then 0x8000 - u else u)

/-- The condition of a weight guard. -/
def State.guardOk (s : State) (g : Option WGuard) (i : Nat) : Bool :=
  match g with
  | none => true
  | some g => armCond g.armB (s.code g.w i) s.act.csr.wth.toNat

/-- The implicit guards: RUN of the innermost open level (R151) and LIVE of an open soft loop (R167). -/
def State.implicitOk (s : State) (i : Nat) : Bool :=
  (match s.act.arms with | [] => true | a :: _ => a.run.getLsbD i) &&
  (match s.act.loop with | none => true | some l => l.live.getLsbD i)

/-- R56. -/
def State.active (s : State) (t : Ctl) (i : Nat) : Bool :=
  decide (s.act.csr.vstart.toNat ≤ i) && decide (i < s.vl) && (s.m t.mg).getLsbD i && s.guardOk t.wg i && s.implicitOk i

/-- The elements that are active but for `vstart`: those of the whole instruction, wherever it goes on (R258). -/
def State.allActives (s : State) (t : Ctl) : List Nat :=
  (List.range s.vl).filter fun i => (s.m t.mg).getLsbD i && s.guardOk t.wg i && s.implicitOk i

/-- The active elements, ascending. -/
def State.actives (s : State) (t : Ctl) : List Nat := (List.range s.vl).filter (s.active t)

/-! Faults of elements. -/

/-- R152: the path weight of an element times 32768 to the number of open levels. -/
def State.pathWeight (s : State) (i : Nat) : Nat :=
  s.act.arms.foldl (fun acc a => acc * (if a.armB then 0x8000 - s.code a.wreg i else s.code a.wreg i)) 1

/-- R161: the causes that pruning absorbs. -/
def Cause.prunable : Cause → Bool
  | .dataXlt | .perm | .align | .poison => true
  | _ => false

/-- R162: a fault on element i is prunable. -/
def State.mayPrune (s : State) (i : Nat) (c : Cause) : Bool :=
  match s.act.arms with
  | [] => false
  | a :: r =>
    c.prunable && a.run.getLsbD i && !a.pruned.getLsbD i &&
    decide (s.pathWeight i ≤ s.act.csr.wprune.toNat * 32768 ^ r.length)

/-- R163: element i is pruned from the running arm of the innermost level. -/
def State.prune (s : State) (i : Nat) : State :=
  match s.act.arms with
  | [] => s
  | a :: r =>
    let a' : Arm := { a with
      run := a.run &&& ~~~(1#2048 <<< i), pruned := a.pruned ||| (1#2048 <<< i)
      window := a.window.filter fun e => !(e.armB == a.armB && e.elems.contains i) }
    let s := { s with act := { s.act with arms := a' :: r } }
    (s.setW a.wreg (setLane (s.w a.wreg) 16 i (if a.armB then 0x8000 else 0))).onCsr fun c => { c with pbf := true }

/-- How a piece of an access ends: with a value, with a fault at a virtual address, or waiting. -/
inductive Get (α : Type) where
  | ok (a : α)
  | bad (c : Cause) (va : Nat)
  | stall (w : Wait)
deriving Repr

/-- The instruction stops at element i and waits: the elements below have taken effect (R181, R258). While a handler runs, VPEND
stays as it is: it belongs to the instruction in the frame (R273). -/
def State.waitAt (s : State) (i : Nat) (w : Wait) : Res Unit :=
  .wait w (s.onCsr fun c => { c with vstart := BitVec.ofNat 12 i, vpend := c.vpend || s.act.frame.isNone })

/-- One unit more of an instruction begins: nothing where it is to stop before it (R258). -/
def State.take (s : State) : Option State :=
  match s.budget with
  | none => some s
  | some 0 => none
  | some (n + 1) => some { s with budget := some n }

/-- Element i begins, or the instruction stops before it at a restart point (R258). -/
def State.unit (s : State) (i : Nat) (k : State → Res Unit) : Res Unit :=
  match s.take with
  | none => s.waitAt i .pause
  | some s => k s

/-- How many of `n` units may still be done, taken from what is left (R258). -/
def State.takeUpTo (s : State) (n : Nat) : Nat × State :=
  match s.budget with
  | none => (n, s)
  | some b => (min n b, { s with budget := some (b - min n b) })

/-- The elements of a block that come before the instruction is to stop are done together; then it stops before the next of them, or
goes on (R258). -/
def State.upTo (s : State) (l : List Nat) (f : List Nat → State → Res Unit) (k : State → Res Unit) : Res Unit :=
  let (n, s) := s.takeUpTo l.length
  (if n = 0 then .ok () s else f (l.take n) s).bind fun _ s =>
    match l.drop n with
    | [] => k s
    | i :: _ => s.waitAt i .pause

/-- A fault of elements that share it, ascending, `va` being each one's address: each is pruned where it may be, and the first that may not traps (R164,
R172). -/
def State.elemFault (s : State) (prunes : Bool) (c : Cause) (va : Nat → Nat) : List Nat → Res Unit
  | [] => .ok () s
  | i :: r =>
    if prunes && s.mayPrune i c then (s.prune i).elemFault prunes c va r
    else .trap (Trap.posted c (BitVec.ofNat 64 (va i)) i) s

/-- Elements one after another, ascending, while none traps or waits and the instruction is not to stop (R258). -/
def eachElem (f : Nat → State → Res Unit) : List Nat → State → Res Unit
  | [], s => .ok () s
  | i :: r, s => (s.unit i (f i)).bind fun _ s => eachElem f r s

/-! Element results. -/

/-- Elements written with the results of a function of the element's number. -/
def fillLanes {n : Nat} (w : Nat) (f : Nat → FRes) (l : List Nat) (x : BitVec n) : BitVec n × FFlags :=
  l.foldl (fun acc i => let r := f i; (setLane acc.1 w i r.bits, acc.2 ||| r.flags)) (x, 0)

/-- vD's elements written, and their flags accumulated (R124). -/
def State.fill (s : State) (d : Reg) (w : Nat) (l : List Nat) (f : Nat → FRes) : State :=
  let r := fillLanes w f l (s.v d)
  (s.setV d r.1).raise r.2

/-- The block-validity bits whose bytes include any byte below `vl`·w/8 (R40). -/
def okMask (vl w : Nat) : BitVec 16 := BitVec.ofNat 16 (2 ^ ((vl * w + 1023) / 1024) - 1)

/-- R40: a result that is not NP. -/
def State.okSet (s : State) (d : Reg) (w : Nat) : State := s.setVok d (s.vok d ||| okMask s.vl w)

/-- R40: an NP result: the AND of its NP sources. -/
def State.okAnd (s : State) (d : Reg) (srcs : BitVec 16) : State :=
  let m := okMask s.vl 16
  s.setVok d ((s.vok d &&& ~~~m) ||| (srcs &&& m))

/-- R40 for an element-wise result in the format of `vtype`, `srcs` being its vector sources. -/
def State.okResult (s : State) (d : Reg) (srcs : List Reg) : State :=
  if s.fmt = .np then s.okAnd d (srcs.foldl (fun acc r => acc &&& s.vok r) (BitVec.allOnes 16)) else s.okSet d s.sew

/-! Operands. -/

/-- R81: a constant as an element: an integer cut to the width, or a float constant of the format. -/
def constElem (q : Fmt) (f32 : Nat) (int : Word) : Nat :=
  match floatOf q with
  | some ff => constFloat ff f32
  | none => bitsOf (fmtWidth q) int.toInt

/-- Element i of the last source (R79, R81). -/
def State.srcElem (s : State) (q : Fmt) (src : Src) (i : Nat) : Nat :=
  match src with
  | .reg r => lane (s.v r) (fmtWidth q) i
  | .imm v => constElem q (immFloat v) (v.signExtend 64)
  | .lit v => constElem q v.toNat (v.signExtend 64)
  | .cb k => constElem q (s.cb k).toNat ((s.cb k).signExtend 64)

/-- The vector register of a source, where it is one. -/
def srcRegs : Src → List Reg
  | .reg r => [r]
  | _ => []

/-- An integer, NP or UQ1.15 element as the value that an instruction computes on (R39, R43, R129). An NP element whose 16 bits
are no sign-extended integer of k bits is read by its low k bits (DEDUCED, log entry 50). -/
def elemInt (q : Fmt) (k b : Nat) : Int :=
  match q with
  | .np => signedOf k b
  | .uq15 => uqVal b
  | _ => intOf q b

/-- The last source as the value that an instruction computes on: under NP a constant is an integer of the 16-bit element width,
not of k bits (R81, R128). -/
def lastInt (q : Fmt) (k : Nat) (src : Src) (b : Nat) : Int :=
  match q, src with
  | .np, .reg _ => elemInt .np k b
  | .np, _ => signedOf 16 b
  | q, _ => elemInt q k b

/-- The width of the integers of a format: k for NP. -/
def intWidth (q : Fmt) (k : Nat) : Nat := if q = .np then k else fmtWidth q

/-- An integer result as element bits: modulo 2^w, for NP the low k bits sign-extended to 16 (R126, R128). -/
def elemBits (q : Fmt) (k : Nat) (x : Int) : Nat :=
  if q = .np then bitsOf 16 (signedOf k (bitsOf k x)) else bitsOf (fmtWidth q) x

/-- An exact result without flags. -/
def plainRes (b : Nat) : FRes := { bits := b, flags := 0 }

/-- The rounding of element i of vD (R124). -/
def State.rndV (s : State) (mode : RMode) (d : Reg) (i : Nat) : Rnd :=
  Rnd.at mode s.act.csr.seed (regKey 0 d.toNat i)

end Sys2Proof.Machine
end

