-- ==== Sys2Proof/Machine/Vmem.lean ====
section
/-!
DEFINITION. Memory as vector accesses reach it: one element's bytes (R171, R172, R180), the store windows of open arm
pairs (R156 to R159), tensors in plane layout (R36, R37, R177 to R179, R421, R422).
-/

namespace Sys2Proof.Machine

/-! Store windows. -/

/-- The byte at a location that the window entries visible to a load hold: of the arm that runs at each open level, the
innermost level and the latest entry last (R159). -/
def State.windowByte (s : State) (a : Nat) : Option Byte :=
  (s.act.arms.reverse.flatMap fun l => l.window.filter fun e => e.armB == l.armB).foldl
    (fun acc e => match (if e.loc ≤ a then e.data[a - e.loc]? else none) with | some b => some b | none => acc) none

/-- Bytes as a vector load inside the open pairs sees them. -/
def State.overlay (s : State) (a : Nat) (bs : List Byte) : List Byte :=
  if s.act.arms.isEmpty then bs else (List.range bs.length).map fun i => (s.windowByte (a + i)).getD (bs.getD i 0)

/-- R157: a windowed store is counted, once; nothing where it would be the 65th. -/
def State.countStore (s : State) : Option State :=
  match s.act.arms with
  | [] => some s
  | a :: r =>
    if a.counted == some s.act.pc then some s
    else if a.stores ≥ 64 then none
    else some { s with act := { s.act with arms := { a with stores := a.stores + 1, counted := some s.act.pc } :: r } }

/-- The windowed store has completed. -/
def State.storeDone (s : State) : State :=
  match s.act.arms with
  | [] => s
  | a :: r => { s with act := { s.act with arms := { a with counted := none } :: r } }

/-- An entry of the innermost level's window; `block` is the register block of an NP store. -/
def State.enter (s : State) (elems : List Nat) (block : Option Nat) (va loc : Nat) (data : List Byte) : State :=
  match s.act.arms with
  | [] => s
  | a :: r =>
    let (u, s) := if elems.isEmpty then s.draw 0x8001 else (0, s)
    let e : WinEnt :=
      { armB := a.armB, elems := elems, va := va, loc := loc, data := data, store := a.stores, block := block, weight := u }
    { s with act := { s.act with arms := { a with window := a.window ++ [e] } :: r } }

/-! Elements. -/

/-- The granule of a virtual address has moved in the instruction's step (R180). -/
def State.holds (s : State) (va : Nat) : Bool := NSet.has (va / 16) s.act.prog.held
/-- The granule has moved from now on. -/
def State.hold (s : State) (fq : Feq) (va : Nat) : State :=
  if fq = .plain then s
  else { s with act := { s.act with prog := { s.act.prog with held := NSet.add (va / 16) s.act.prog.held } } }

/-- Element i has moved with its granule from now on (R180). -/
def State.moved (s : State) (fq : Feq) (i : Nat) : State :=
  if fq = .plain then s
  else { s with act := { s.act with prog := { s.act.prog with moved := NSet.add i s.act.prog.moved } } }

/-- The elements of a list in the groups that move in one event (R180, R342, R358): those that follow one another in one granule, and
where full-empty bits take part all of one granule; an element off its boundary stands alone. A granule moves when its lowest element
does, also where an element between them traps or waits (DESIGN CHOICE, log entry 68). `fuel` bounds the groups. -/
def granuleRuns (fq : Feq) (addr : Nat → Nat) (n : Nat) : Nat → List Nat → List (List Nat)
  | 0, _ => []
  | _, [] => []
  | fuel + 1, i :: r =>
    let same (j : Nat) : Bool := addr i % n == 0 && addr j % n == 0 && addr j / 16 == addr i / 16
    if fq = .plain then (i :: r.takeWhile same) :: granuleRuns fq addr n fuel (r.dropWhile same)
    else (i :: r.filter same) :: granuleRuns fq addr n fuel (r.filter fun j => !same j)

/-- The runs of an access that have still to move. -/
def State.runs (s : State) (fq : Feq) (addr : Nat → Nat) (n : Nat) (l : List Nat) : List (List Nat) :=
  granuleRuns fq addr n l.length (l.filter fun i => !NSet.has i s.act.prog.moved)

/-- Runs one after another, while none traps or waits and the instruction is not to stop (R258). -/
def eachRun (f : List Nat → State → Res Unit) : List (List Nat) → State → Res Unit
  | [], s => .ok () s
  | l :: r, s => (s.unit (l.headD 0) (f l)).bind fun _ s => eachRun f r s

/-- What is done for each element of a run. -/
def inRun (f : Nat → State → Res Unit) : List Nat → State → Res Unit
  | [], s => .ok () s
  | i :: r, s => (f i s).bind fun _ s => inRun f r s

/-- Bytes at a location, as a vector load inside the open pairs sees them; the windows hold no byte of the partition record. -/
def State.seen (s : State) (l : Loc) (bs : List Byte) : List Byte :=
  match l with
  | .at_ a _ => s.overlay a bs
  | .record _ => bs

/-- R174, R354: what a vector access has written to a host-shared page is at its home before the next element's write. -/
def State.hostOrder (s : State) (l : Loc) : State :=
  match l with
  | .at_ a (some t) => if t.hostShared then s.reach (s.coreDie s.act.core) (homeDie a) else s
  | _ => s

/-- The bytes of an element at `va`, as a vector access of a kind reads them; `see` where it sees store windows. -/
def State.elemRead (s : State) (k : Kind) (va n algn : Nat) (fq : Feq) (see : Bool) : Get (List Byte) × State :=
  let c := s.act.core
  match s.access va n algn k (fq != .plain) false with
  | (.bad e, s) => (.bad e va, s)
  | (.stall w, s) => (.stall w, s)
  | (.ok l, s) =>
    match s.feLoad fq l.addr (s.holds va) with
    | (some w, s) => (.stall w, s)
    | (none, s) =>
      let s := (s.hold fq va).locSync c l
      let bs := s.locBytes c s.act.part l n
      (.ok (if see then s.seen l bs else bs), s)

/-- An element's bytes put into the window at `va`, for the elements and the register block named. -/
def State.elemEnter (s : State) (va algn : Nat) (bs : List Byte) (elems : List Nat) (block : Option Nat) : Get Unit × State :=
  match s.access va bs.length algn .write false false with
  | (.bad e, s) => (.bad e va, s)
  | (.stall w, s) => (.stall w, s)
  | (.ok l, s) => (.ok (), s.enter elems block va l.addr bs)

/-- The bytes of a run's elements, the first of which lies at `va`, in their granule; a later element prevails. -/
def runBytes (addr : Nat → Nat) (data : Nat → List Byte) (l : List Nat) : List (Option Byte) :=
  l.foldl (fun g i => g.zipIdx.map fun x =>
    let o := addr i % 16
    if o ≤ x.2 ∧ x.2 < o + (data i).length then (data i)[x.2 - o]? else x.1) (List.replicate 16 none)

/-- A run of elements of n bytes written in one event (R342, R358): they lie in one granule, whose checks the first one passes for
all. -/
def State.runWrite (s : State) (fq : Feq) (addr : Nat → Nat) (n : Nat) (data : Nat → List Byte) (l : List Nat) : Res Unit :=
  let c := s.act.core
  let i := l.headD 0
  match s.access (addr i) n n .write (fq != .plain) false with
  | (.bad e, s) => s.elemFault false e addr [i]
  | (.stall w, s) => s.waitAt i w
  | (.ok x, s) =>
    match s.feStore fq x.addr false with
    | (some w, s) => s.waitAt i w
    | (none, s) =>
      .ok () (((l.foldl (fun s i => s.moved fq i) (s.hold fq (addr i))).writeSome (s.coreDie c) (quadOf c) (x.addr / 16 * 16) (runBytes addr data l)).hostOrder x)

/-- Elements of n bytes written run by run, outside every window. -/
def State.writeRuns (s : State) (fq : Feq) (addr : Nat → Nat) (n : Nat) (data : Nat → List Byte) (l : List Nat) : Res Unit :=
  eachRun (fun r s => s.runWrite fq addr n data r) (s.runs fq addr n l) s

/-- How an element's access ends the instruction or lets it go on: `va` is the address of an element that fails. -/
def Get.fin {α : Type} (r : Get α × State) (prunes : Bool) (i : Nat) (k : α → State → Res Unit) : Res Unit :=
  match r with
  | (.ok x, s) => k x s
  | (.bad c va, s) => s.elemFault prunes c (fun _ => va) [i]
  | (.stall w, s) => s.waitAt i w

/-! Tensors in plane layout. -/

/-- A tensor as an access sees it (R177): the stored plane count, its bases and strips, the PL and TIX of its pages, the
strip, counted from the tensor's first, and the strip element of element 0. -/
structure NpT where
  n : Nat
  pbase : Nat
  sbase : Nat
  strips : Nat
  pl : Nat
  tix : Nat
  first : Int
  x0 : Nat
deriving DecidableEq, Repr

/-- The leaf of an address outside the region, with the check 2 of R330. -/
def State.mapped (s : State) (core part : Nat) (va : Nat) : Except Stop TlbEntry × State :=
  if 2 ^ 57 ≤ va then (.error (.bad .dataXlt), s)
  else if inRegion va then
    let off := va - 0x01FFFFF000000000
    (.error (.bad (if off < 2 ^ 21 ∨ (0x800000000 ≤ off ∧ off < 0x800000080) then .perm else .dataXlt)), s)
  else
    match s.lookup core part va with
    | (.error e, s) => (.error (e.stop .dataXlt), s)
    | (.ok t, s) => (.ok t, s)

/-- The leaf of an address outside the region, with the checks 2 to 4 of R330. -/
def State.leafOf (s : State) (core part : Nat) (k : Kind) (va : Nat) : Except Stop TlbEntry × State :=
  match s.mapped core part va with
  | (.error e, s) => (.error e, s)
  | (.ok t, s) =>
    if !s.permits part t k then (.error (.bad .perm), s) else if t.poisoned then (.error (.bad .poison), s) else (.ok t, s)

/-- Why an access has no tensor: why it does not go on, whether it is taken at element 0 (R177) or at the first active element (R421), and the
planes that the leaf of ea gives its elements, 1 where there is none (log entry 40). -/
structure NpFail where
  stop : Stop
  first : Bool
  n : Nat
deriving DecidableEq, Repr

/-- The address of element i of an access at ea that has no tensor: its plane-0 byte (R36, R172, R177). -/
def NpFail.va (f : NpFail) (ea i : Nat) : Nat :=
  let x := 8 * (ea % 128) + i
  (ea / 128 + x / 1024 * f.n) * 128 + x % 1024 / 8

/-- R177: the tensor behind ea. The parameters come from the page of ea; its permissions are those of the elements that lie in
it, and `npStrip` and the accesses check them. -/
def State.npOpen (s : State) (core part : Nat) (ea : Nat) : Except NpFail NpT × State :=
  if ea % 8 ≠ 0 then (.error { stop := .bad .align, first := true, n := 1 }, s)
  else
    match s.mapped core part ea with
    | (.error c, s) => (.error { stop := c, first := false, n := 1 }, s)
    | (.ok t, s) =>
      let n := t.pl + 1
      if t.pl = 0 then (.error { stop := .bad .perm, first := true, n := 1 }, s)
      else
        match s.tensorFor core t with
        | (.error c, s) => (.error { stop := c, first := false, n := n }, s)
        | (.ok none, s) => (.error { stop := .bad .perm, first := false, n := n }, s)
        | (.ok (some (p, q, strips)), s) =>
          let b := ea / 128 * 128
          if ((b : Int) - p) % ((n * 128 : Nat) : Int) ≠ 0 then (.error { stop := .bad .perm, first := false, n := n }, s)
          else
            (.ok { n := n, pbase := p, sbase := q, strips := strips, pl := t.pl, tix := t.tix
                   first := ((b : Int) - p) / ((n * 128 : Nat) : Int), x0 := 8 * (ea % 128) }, s)

/-- What leaves an NP access without its tensor: a fault of element 0 and those that follow, whether they are active or not, or of
the active elements `l` (R177, R421); or the wait for a table of another package. -/
def State.npFault (s : State) (prunes : Bool) (f : NpFail) (ea : Nat) (l : List Nat) : Res Unit :=
  match f.stop with
  | .bad c => s.elemFault prunes c (f.va ea) (if f.first then 0 :: l.filter (· != 0) else l)
  | .stall w => if l.isEmpty then .ok () s else s.waitAt (l.headD 0) w

/-- The line of a plane of a strip (R37). -/
def NpT.line (t : NpT) (strip : Int) (plane : Nat) : Nat := (t.pbase + (strip * t.n + plane) * 128).toNat
/-- The exponent byte of a block of a strip (R37). -/
def NpT.expAt (t : NpT) (strip : Int) (b : Nat) : Nat := (t.sbase + 16 * strip + b).toNat

/-- A block of an access: its strip and its place in the strip, `j` being the register block (R177). -/
def NpT.block (t : NpT) (j : Nat) : Int × Nat :=
  let g := t.x0 / 64 + j
  (t.first + (g / 16 : Nat), g % 16)

/-- A piece of a block that was read or is to be written: plane bytes and exponent. -/
structure NpBytes where
  planes : List (List Byte)
  exp : Byte
deriving DecidableEq, Repr

/-- R177: the strip lies in the tensor, and its plane-0 line on a page of the same PL and TIX. -/
def State.npStrip (s : State) (core part : Nat) (k : Kind) (t : NpT) (strip : Int) : Except Stop Unit × State :=
  if strip < 0 ∨ (t.strips : Int) ≤ strip then (.error (.bad .perm), s)
  else
    match s.leafOf core part k (t.line strip 0) with
    | (.error c, s) => (.error c, s)
    | (.ok f, s) => if f.pl = t.pl ∧ f.tix = t.tix then (.ok (), s) else (.error (.bad .perm), s)

/-- An access to bytes of the acting strand's tensor, for reading. -/
abbrev ByteGet := State → Nat → Nat → Get (List Byte) × State

/-- The 8 bytes of a block in planes `q` on, `m` planes being left. -/
def readPlanes (get : ByteGet) (t : NpT) (strip : Int) (b : Nat) : Nat → Nat → State → Get (List (List Byte)) × State
  | 0, _, s => (.ok [], s)
  | m + 1, q, s =>
    match get s (t.line strip q + 8 * b) 8 with
    | (.bad c va, s) => (.bad c va, s)
    | (.stall w, s) => (.stall w, s)
    | (.ok bs, s) =>
      match readPlanes get t strip b m (q + 1) s with
      | (.ok r, s) => (.ok (bs :: r), s)
      | r => r

/-- A block's leading `m` planes and its exponent, one after another. -/
def readBlock (get : ByteGet) (t : NpT) (strip : Int) (b m : Nat) (s : State) : Get NpBytes × State :=
  match readPlanes get t strip b m 0 s with
  | (.bad c va, s) => (.bad c va, s)
  | (.stall w, s) => (.stall w, s)
  | (.ok ps, s) =>
    match get s (t.expAt strip b) 1 with
    | (.bad c va, s) => (.bad c va, s)
    | (.stall w, s) => (.stall w, s)
    | (.ok e, s) => (.ok { planes := ps, exp := e.getD 0 0 }, s)

/-- A block's leading `m` planes and its exponent, of one version (R42): a first pass brings the newest version that any home
of its bytes has to the reader's die, and the second pass reads that version from all of them. -/
def State.npFetch (s : State) (k : Kind) (get : ByteGet) (t : NpT) (j m : Nat) : Get NpBytes × State :=
  let (strip, b) := t.block j
  match s.npStrip s.act.core s.act.part k t strip with
  | (.error (.bad c), s) => (.bad c (t.line strip 0 + 8 * b), s)
  | (.error (.stall w), s) => (.stall w, s)
  | (.ok _, s) =>
    match readBlock get t strip b m s with
    | (.ok _, s) => readBlock get t strip b m s
    | r => r

/-- The address of element i of register block j that fails: its byte in the plane line that fails, or the exponent byte. -/
def NpT.faultVa (t : NpT) (j va i : Nat) : Nat :=
  if va = t.expAt (t.block j).1 (t.block j).2 then va else va + i % 64 / 8

/-- The integer of element e of a block whose leading planes were read, as all n planes give it, lower planes 0. -/
def NpBytes.int (x : NpBytes) (n e : Nat) : Int :=
  let m := x.planes.length
  let v := x.planes.foldl (fun acc p => 2 * acc + (if (p.getD (e / 8) 0).getLsbD (e % 8) then 1 else 0)) 0
  signedOf m v * (2 ^ (n - m) : Nat)

/-- R38, R178: what a read of k planes gives of an n-plane integer. -/
def npRead (n k : Nat) (rhu : Bool) (i : Int) : Int := if k ≤ n then npLead n k rhu i else i * (2 ^ (k - n) : Nat)

/-- How many planes a read of k needs. -/
def npNeed (n k : Nat) (rhu : Bool) : Nat := min (if rhu then k + 1 else k) n

/-- The 8 bytes that integers of a block have in one plane. -/
def planeBytes (ints : List Int) (n q : Nat) : List Byte :=
  (List.range 8).map fun o =>
    BitVec.ofNat 8 ((List.range 8).foldl (fun acc x =>
      acc + (if (bitsOf n (ints.getD (8 * o + x) 0)).testBit (n - 1 - q) then 2 ^ x else 0)) 0)

/-- The elements of register block j among those of a list. -/
def inBlock (l : List Nat) (j : Nat) : List Nat := l.filter fun i => i / 64 == j
/-- The register blocks that hold an element of a list. -/
def blocksOf (vl : Nat) (l : List Nat) : List Nat :=
  (List.range ((vl + 63) / 64)).filter fun j => l.any fun i => i / 64 == j

end Sys2Proof.Machine
end

