-- ==== Sys2Proof/Machine/Streams.lean ====
section
/-!
DEFINITION. Bound stream registers (R191, R192), and the frame that every instruction of the vector queue with elements
shares: its legality and element format, the delivery of its streams, its elements, its completion (R89, R123, R125).
-/

namespace Sys2Proof.Machine

/-- A refill's fault, at the element that a reader consumes. -/
structure SFault where
  elem : Nat
  cause : Cause
  va : Nat
deriving DecidableEq, Repr

/-- A vector source that an instruction reads: how many elements of what width, the plane count of an NP reader, which element of the
instruction its element 0 is, and those of the instruction's elements that it does not read from it (R165). -/
structure SReq where
  r : Reg
  count : Nat
  w : Nat
  k : Option Nat
  first : Nat := 0
  unread : List Nat := []
deriving DecidableEq, Repr

/-- Bytes of a stream: what the copy unit has read ahead, and memory as it stands. -/
def aheadGet (ah : NMap Byte) : ByteGet := fun s va n =>
  if (List.range n).all fun i => (ah.get? (va + i)).isSome then
    (.ok ((List.range n).map fun i => ah.getD (va + i) 0), s)
  else
    match s.elemRead .read va n 1 .plain false with
    | (.ok bs, s) => (.ok ((List.range n).map fun i => ah.getD (va + i) (bs.getD i 0)), s)
    | r => r

/-- Bytes of a stream that may cross a granule. -/
def aheadGet2 (ah : NMap Byte) (s : State) (va n : Nat) : Get (List Byte) × State :=
  let n1 := min n (16 - va % 16)
  match aheadGet ah s va n1 with
  | (.ok x, s) =>
    if n1 = n then (.ok x, s)
    else
      match aheadGet ah s (va + n1) (n - n1) with
      | (.ok y, s) => (.ok (x ++ y), s)
      | r => r
  | r => r

/-- Elements of a byte stream delivered into a register, up to the first that faults and that the reader needs. -/
def State.deliver (s : State) (need : Nat → Bool) (q : Stream) (r : Reg) (w : Nat) : List Nat → Res (Option SFault)
  | [] => .ok none s
  | i :: l =>
    let off := q.pos + i * (w / 8)
    let n := min (w / 8) (q.len - off)
    match if n = 0 then (.ok [], s) else aheadGet2 q.ahead s ((q.base + off) % 2 ^ 64) n with
    | (.ok bs, s) => (s.setV r (setLane (s.v r) w i (leNat bs))).deliver need q r w l
    | (.bad c va, s) => if need i then .ok (some { elem := i, cause := c, va := va }) s else s.deliver need q r w l
    | (.stall w, s) => .wait w s

/-- An exponent into an exponent register, whose elements are no NP result: the validity bit that covers them is set (R39, R40;
DEDUCED, log entry 50). -/
def State.putExp (s : State) (r : Reg) (j e : Nat) : State :=
  (s.setV r (setLane (s.v r) 8 j e)).setVok r (s.vok r ||| 1#16)

/-- R192: how many elements of an NP stream lie within it. -/
def npCount (t : NpT) (q : Stream) : Nat :=
  let l := q.base % 128 + q.len
  l / (t.n * 128) * 1024 + min (8 * (l % (t.n * 128))) 1024 - t.x0

/-- The bytes of a tensor block: its planes and its exponent (R37). -/
def NpT.blockBytes (t : NpT) (strip : Int) (b : Nat) : List Nat :=
  ((List.range t.n).flatMap fun q => (List.range 8).map fun o => t.line strip q + 8 * b + o) ++ [t.expAt strip b]

/-- What the copy unit has read ahead of a block, if it has read all of it: it reads a block in one version (R42). -/
def aheadBlock (ah : NMap Byte) (t : NpT) (j : Nat) : NMap Byte :=
  let (strip, b) := t.block j
  if (t.blockBytes strip b).all fun a => (ah.get? a).isSome then ah else []

/-- The exponent and the validity bit of the register blocks that hold elements of a list; an NP stream bound to `v31` has no
register for the exponents, and its reader none (DESIGN CHOICE, log entry 16). -/
def State.putBlocks (s : State) (r : Reg) (idx : List Nat) (e : Nat) : State :=
  (idx.map (· / 64)).eraseDups.foldl (fun s j =>
    let bit := 1#16 <<< j
    let s := s.setVok r (if e = 0xFF then s.vok r &&& ~~~bit else s.vok r ||| bit)
    if r < 31 then s.putExp (r + 1) j e else s) s

/-- The tensor blocks of an NP stream delivered into a register, up to the first that faults and that the reader needs; `total` are the
elements within the stream. A register block that holds no element within it has exponent 0x7F. The exponents of a stream in `v31`, which no
register follows, are dropped (DESIGN CHOICE, log entry 16). -/
def State.deliverNp (s : State) (need : Nat → Bool) (q : Stream) (t : NpT) (r : Reg) (k total vl : Nat) : List Nat → Res (Option SFault)
  | [] => .ok none s
  | b :: l =>
    let e0 := t.x0 + q.pos
    let idx := (List.range vl).filter fun i => (e0 + i) / 64 == b
    let within (i : Nat) : Bool := decide (q.pos + i < total)
    if !within (idx.headD 0) then
      let x := idx.foldl (fun x i => setLane x 16 i 0) (s.v r)
      ((s.setV r x).putBlocks r (idx.filter fun i => !within (i / 64 * 64)) 0x7F).deliverNp need q t r k total vl l
    else
      match s.npFetch .read (aheadGet (aheadBlock q.ahead { t with x0 := 0 } b)) { t with x0 := 0 } b (npNeed t.n k false) with
      | (.bad c va, s) =>
        match idx.find? need with
        | some i => .ok (some { elem := i, cause := c, va := { t with x0 := 0 : NpT }.faultVa b va (e0 + i) }) s
        | none => s.deliverNp need q t r k total vl l
      | (.stall w, s) => .wait w s
      | (.ok x, s) =>
        let y := idx.foldl (fun y i =>
          let v := if within i then npRead t.n k false (x.int t.n ((e0 + i) % 64)) else 0
          setLane y 16 i (bitsOf 16 v)) (s.v r)
        ((s.setV r y).putBlocks r (idx.filter within) x.exp.toNat).deliverNp need q t r k total vl l

/-- The register blocks that hold elements of two tensor blocks, `e0` being the strip element of element 0 and `n` the elements
within the stream that are delivered. -/
def splitBlocks (e0 n : Nat) : List Nat :=
  (List.range ((n + 63) / 64)).filter fun j => (e0 + 64 * j) / 64 != (e0 + min (64 * j + 63) (n - 1)) / 64

/-- No rule says which exponent and validity such a register block takes: they are free (log entry 16). -/
def State.freeBlocks (s : State) (r : Reg) : List Nat → State
  | [] => s
  | j :: l =>
    let (e, s) := s.draw 256
    let (ok, s) := s.draw 2
    let s := if r < 31 then s.putExp (r + 1) j e else s
    let bit := 1#16 <<< j
    (s.setVok r (if ok = 1 then s.vok r ||| bit else s.vok r &&& ~~~bit)).freeBlocks r l

/-- STREAM at the element that the instruction begins with (R191). -/
def State.streamTrap (s : State) (tval : Nat) : Trap :=
  Trap.posted .stream (BitVec.ofNat 64 tval) s.act.csr.vstart.toNat

/-- R192: one bound source is delivered: the fault its refill met, and the advance of its position. -/
def State.deliverSrc (s : State) (need : Nat → Bool) (req : SReq) (q : Stream) : Res (Option SFault × Nat) :=
  let np : Option (Except NpFail NpT) × State :=
    match req.k with
    | none => (none, s)
    | some _ =>
      match s.mapped s.act.core s.act.part q.base with
      | (.ok f, s) => if f.pl = 0 then (none, s) else
          let (t, s) := s.npOpen s.act.core s.act.part q.base
          (some t, s)
      | (.error (.bad _), s) => (none, s)
      | (.error (.stall w), s) => (some (.error { stop := .stall w, first := false, n := 1 }), s)
  match np with
  | (none, s) =>
    if q.pos ≥ q.len then .trap (s.streamTrap 1) s
    else (s.deliver need q req.r req.w (List.range req.count)).map fun f => (f, req.count * req.w / 8)
  | (some (.error f), s) =>
    match f.stop with
    | .bad c => .ok (((List.range req.count).find? need).map fun i => { elem := i, cause := c, va := f.va q.base (q.pos + i) }, req.count) s
    | .stall w => .wait w s
  | (some (.ok t), s) =>
    let total := npCount t q
    if q.pos ≥ total then .trap (s.streamTrap 1) s
    else
      let e0 := t.x0 + q.pos
      let blocks := if req.count = 0 then [] else
        (List.range ((e0 + req.count - 1) / 64 - e0 / 64 + 1)).map (e0 / 64 + ·)
      (s.deliverNp need q t req.r (req.k.getD 0) total req.count blocks).bind fun f s =>
        .ok (f, req.count) (s.freeBlocks req.r (splitBlocks e0 (min req.count (total - q.pos))))

/-- The earlier of two faults. -/
def SFault.first (a b : Option SFault) : Option SFault :=
  match a, b with
  | none, b => b
  | a, none => a
  | some x, some y => if y.elem < x.elem then some y else some x

/-- An element of the register of a source is read, by it or by a later one that names the register; `need` are the elements that the
instruction reads. -/
def SReq.reads (q : SReq) (need : Nat → Bool) (later : List SReq) (i : Nat) : Bool :=
  (q :: later).any fun x => x.r == q.r && need (x.first + i) && !x.unread.contains (x.first + i)

/-- Every bound source is delivered once; `need` are the elements that the instruction reads, `seen` the sources that have
been delivered. A fault is one of the instruction's element. -/
def State.deliverAll (need : Nat → Bool) (seen : List Reg) : List SReq → State → Res (Option SFault × List (Reg × Nat))
  | [], s => .ok (none, []) s
  | req :: l, s =>
    match s.act.streams.get? req.r.toNat with
    | none => State.deliverAll need seen l s
    | some q =>
      if seen.contains req.r then State.deliverAll need seen l s
      else
        (s.deliverSrc (req.reads need l) req q).bind fun p s =>
          (State.deliverAll need (req.r :: seen) l s).bind fun y s =>
            .ok (SFault.first (p.1.map fun f => { f with elem := req.first + f.elem }) y.1, (req.r, p.2) :: y.2) s

/-- The positions advance. -/
def State.advance (s : State) (adv : List (Reg × Nat)) : State :=
  adv.foldl (fun s p =>
    match s.act.streams.get? p.1.toNat with
    | some q => { s with act := { s.act with streams := NMap.set p.1.toNat { q with pos := q.pos + p.2 } s.act.streams } }
    | none => s) s

/-- What an instruction reads of its sources (R57): each active element as it comes, the active elements before it
executes, or every element below `vl`. -/
inductive Reads where
  | elems | guarded | every
deriving DecidableEq, Repr

/-- What an instruction with elements is: legal where the operands are in range, of a format that it has, the sources it
reads, the registers it writes, which elements of its sources it reads. -/
structure VecForm where
  legal : Bool
  typeOk : Bool
  srcs : List SReq
  dsts : List Reg
  reads : Reads
deriving DecidableEq, Repr

/-- R157: a windowed store that has counted since `s0` and stops at a fault stays counted. -/
def State.stillCounted (s0 s : State) : State :=
  match s0.act.arms, s.act.arms with
  | a :: _, b :: r =>
    if b.stores ≠ a.stores ∨ a.counted = some s.act.pc then
      { s with act := { s.act with arms := { b with counted := some s.act.pc } :: r } }
    else s
  | _, _ => s

/-- R89, R191, R192: the frame of an instruction with elements; `t` names its guards, and the body executes the elements it
is given, ascending. A refill's fault traps at its element: it is no fault of the address of an element, and pruning does not
absorb it (R161, R192; DEDUCED, log entry 52). -/
def State.vecRes (s : State) (t : Ctl) (F : VecForm) (body : List Nat → State → Res Unit) : Res Unit :=
    if !F.legal then .trap s.illegal s
    else if !F.typeOk then .trap s.typeCombo s
    else if F.dsts.any fun d => (s.act.streams.get? d.toNat).isSome then .trap (s.streamTrap 2) s
    else
      let act := s.actives t
      ((State.deliverAll (fun i => F.reads == .every || act.contains i) [] F.srcs s).waits fun t => { t with act := s.act }).bind fun p s =>
        match p.1 with
        | none => (body act s).bind fun _ s => .ok () (s.advance p.2).queueDone
        | some f =>
          if F.reads = .elems then
            (body (act.filter fun k => decide (k < f.elem)) s).bind fun _ s1 =>
              .trap (Trap.posted f.cause (BitVec.ofNat 64 f.va) f.elem) (s.stillCounted s1)
          else .trap (Trap.posted f.cause (BitVec.ofNat 64 f.va) s.act.csr.vstart.toNat) s

/-- The frame with the end of the instruction, the word after it lying at `nx`. -/
def State.vecOp (s : State) (t : Ctl) (F : VecForm) (nx : Word) (body : List Nat → State → Res Unit) : Out :=
  (s.vecRes t F body).fin s nx

/-- A source that is read as elements of `vtype`. -/
def State.req (s : State) (r : Reg) : SReq :=
  { r := r, count := s.vl, w := s.sew, k := if s.fmt = .np then some s.npk else none }

end Sys2Proof.Machine
end

