-- ==== Sys2Proof/Machine/Arms.lean ====
section
/-!
DEFINITION. Weights, arm pairs, their store windows at `armend`, joins and soft loops of OP 0x68 to 0x6B (07_arms.md).
-/

namespace Sys2Proof.Machine

/-! Weight instructions (R166). -/

/-- wD's entries written with codes, and their flags accumulated. -/
def State.fillW (s : State) (d : WReg) (l : List Nat) (f : Nat → FRes) : State :=
  let r := fillLanes 16 f l (s.w d)
  (s.setW d r.1).raise r.2

/-- The frame of a weight instruction that writes wD. -/
def State.weightOp (s : State) (t : Ctl) (legal ok : Bool) (d : WReg) (srcs : List Reg) (nx : Word) (f : State → Nat → FRes) : Out :=
  s.vecOp t { legal := legal, typeOk := ok, srcs := srcs.map s.req, dsts := [], reads := .elems } nx fun l s =>
    .ok () (s.fillW d l (f s))

/-- The code that `wset` writes: bits 15:0 of gA unsigned, or a constant as a signed integer, saturated. -/
def State.wsetCode (s : State) (src : Src) : Nat :=
  match src with
  | .reg r => uqVal (s.g r).toNat
  | c => (sat (s.srcInt c).toInt 0 0x8000).toNat

def execWset (d : WReg) (src : Src) (t : Ctl) (s : State) : Out :=
  s.weightOp t (s.srcOk src) true d [] (s.act.pc + src.bytes) fun s _ => plainRes (s.wsetCode src)

/-- `wsig.h`: 0.5 + 0.25·z in units of 2^-15, rounded once and saturated. -/
def sigHard (rd : Rnd) (z : FVal) : FRes :=
  match z with
  | .nan _ => { bits := 0, flags := flagNV }
  | .inf n => plainRes (if n then 0 else 0x8000)
  | v =>
    let r := roundInt rd (({ m := 16384, e := 0 } : Dy).add (v.dy.mul { m := 8192, e := 0 })) 0
    { bits := (sat r.1 0 0x8000).toNat, flags := flagIf r.2 flagNX }

/-- `wsig.s`: 1 / (1 + e^−z) in units of 2^-15, rounded RNE; only z = 0 is exact. -/
def sigSoft (z : FVal) : FRes :=
  match z with
  | .nan _ => { bits := 0, flags := flagNV }
  | .inf n => plainRes (if n then 0 else 0x8000)
  | .fin n m e =>
    if m = 0 then plainRes 0x4000
    else { bits := (roundAt Rnd.rne false (sfuReal .sig n m e).2.1 (-15)).1, flags := flagNX }

/-- A sigmoid form. -/
def State.weightSig (s : State) (t : Ctl) (d : WReg) (a : Reg) (f : Rnd → FVal → FRes) : Out :=
  s.weightOp t true (fmtFloat s.fmt) d [a] s.after fun s i =>
    match floatOf s.fmt with
    | some q => f (Rnd.at s.rmode s.act.csr.seed (regKey 3 d.toNat i)) (FVal.ofBits q (lane (s.v a) s.sew i))
    | none => plainRes 0

def execWsigH (d : WReg) (a : Reg) (t : Ctl) (s : State) : Out := s.weightSig t d a sigHard
def execWsigS (d : WReg) (a : Reg) (t : Ctl) (s : State) : Out := s.weightSig t d a fun _ => sigSoft

/-- R166: the result goes to a `v` register, so that the rounding takes the key that R47 gives such a result (DEDUCED, log entry 54). -/
def execWget (d : Reg) (a : WReg) (t : Ctl) (s : State) : Out :=
  s.vecOp t { legal := true, typeOk := fmtFloat s.fmt || s.fmt == .uq15, srcs := [], dsts := [d], reads := .elems } s.after
    fun l s =>
      .ok () ((s.fill d s.sew l fun i =>
        match floatOf s.fmt with
        | some q => roundDy q (s.rndV s.rmode d i) false { m := s.code a i, e := -15 }
        | none => plainRes (s.code a i)).okSet d s.sew)

def execWmul (d a b : WReg) (t : Ctl) (s : State) : Out :=
  s.weightOp t true true d [] s.after fun s i =>
    let r := roundInt (Rnd.at s.rmode s.act.csr.seed (regKey 3 d.toNat i)) { m := s.code a i * s.code b i, e := -15 } 0
    { bits := (sat r.1 0 0x8000).toNat, flags := flagIf r.2 flagNX }

/-- The bits of a mask register set or cleared by a condition. -/
def State.putMask (s : State) (d : MReg) (l : List Nat) (f : Nat → Bool) : State :=
  s.setM d (l.foldl (fun acc i => if f i then acc ||| (1#2048 <<< i) else acc &&& ~~~(1#2048 <<< i)) (s.m d))

def execWcmp (d : MReg) (a : WReg) (t : Ctl) (s : State) : Out :=
  s.vecOp t { legal := true, typeOk := true, srcs := [], dsts := [], reads := .elems } s.after fun l s =>
    .ok () (s.putMask d l fun i => decide (s.act.csr.wth.toNat < s.code a i))

/-! Arm pairs (R150 to R155). -/

/-- R151, R168: E(i) at the current depth. -/
def State.enabled (s : State) : BitVec 2048 :=
  match s.act.arms with
  | [] => BitVec.ofNat 2048 (2 ^ s.vl - 1)
  | a :: _ => a.run

/-- The elements of a set that meet an arm's condition on a register's codes. -/
def State.selectArm (s : State) (r : WReg) (armB : Bool) (e : BitVec 2048) (wth : BitVec 16) : BitVec 2048 :=
  (List.range 2048).foldl (fun acc i =>
    if e.getLsbD i && armCond armB (s.code r i) wth.toNat then acc ||| (1#2048 <<< i) else acc) 0

/-- Arm and loop misuse: a trap of posted work (R155). -/
def armTrap (code : Nat) : Trap := Trap.queue .armDepth code

/-- The scalar part, which waits for the outcome of a posted instruction, goes on at an address (R155). -/
def State.redirect (s : State) (pc : Word) : State :=
  { s with act := { s.act with resume := s.act.resume.map fun r => { r with spc := pc } } }

/-- Completes in the vector queue and continues at the label where `skip`. -/
def State.skipTo (s0 s : State) (skip : Bool) (off : BitVec 15) : Out :=
  (Res.ok () (if skip then s.queueDone.redirect (s0.target off) else s.queueDone)).fin s0 (if skip then s0.target off else s0.after)

def execArm (a : WReg) (off : BitVec 15) (_ : Ctl) (s : State) : Out :=
  if s.act.arms.length ≥ 4 then (Res.trap (armTrap 1) s : Res Unit).fin s s.after
  else
    let e := s.enabled
    let run := s.selectArm a false e s.act.csr.wth
    let lv : Arm := { wreg := a, wth := s.act.csr.wth, armB := false, outer := e, run := run, pruned := 0, window := []
                      stores := 0, counted := none }
    s.skipTo { s with act := { s.act with arms := lv :: s.act.arms } } (run == 0) off

/-- R152, R167: why a word that closes or turns the innermost pair may not, in the order of the table: at DEPTH 0 there is no pair
that could enclose a loop; at the loop's opening depth 5 comes before 3 and 4 (DEDUCED, log entry 42). -/
def State.armBlocked (s : State) : Option Nat :=
  match s.act.arms with
  | [] => some 2
  | _ :: _ =>
    match s.act.loop with
    | some l => if l.depth = s.act.arms.length then some 5 else none
    | none => none

def execArmb (a : WReg) (off : BitVec 15) (_ : Ctl) (s : State) : Out :=
  match s.armBlocked, s.act.arms with
  | some c, _ => (Res.trap (armTrap c) s : Res Unit).fin s s.after
  | none, [] => (Res.trap (armTrap 2) s : Res Unit).fin s s.after
  | none, lv :: r =>
    if lv.armB then (Res.trap (armTrap 4) s : Res Unit).fin s s.after
    else if a ≠ lv.wreg then (Res.trap (armTrap 3) s : Res Unit).fin s s.after
    else
      let run := s.selectArm a true lv.outer lv.wth
      s.skipTo { s with act := { s.act with arms := { lv with armB := true, run := run } :: r } } (run == 0) off

/-! The window at `armend` (R158, R160). -/

/-- The entry holds a byte of a location. -/
def WinEnt.covers (e : WinEnt) (a : Nat) : Bool := decide (e.loc ≤ a) && decide (a < e.loc + e.data.length)

/-- The place of the last entry of an arm that covers a byte, with the entry. -/
def lastEntry (win : List WinEnt) (armB : Bool) (a : Nat) : Option (WinEnt × Nat) :=
  win.zipIdx.foldl (fun acc e => if e.1.armB == armB && e.1.covers a then some e else acc) none

/-- The local weight of an entry: that of its highest element; a free one where it belongs to none (log entry 51). -/
def State.entryWeight (s : State) (r : WReg) (e : WinEnt) : Nat :=
  let u := s.code r (e.elems.foldl max 0)
  if e.elems.isEmpty then e.weight else if e.armB then 0x8000 - u else u

/-- The place of the entry whose byte survives at a location. -/
def State.survivor (s : State) (r : WReg) (win : List WinEnt) (a : Nat) : Option Nat :=
  match lastEntry win false a, lastEntry win true a with
  | some x, some y => some (if s.entryWeight r x.1 < s.entryWeight r y.1 then y.2 else x.2)
  | some x, none => some x.2
  | none, some y => some y.2
  | none, none => none

/-- The surviving bytes of each entry. -/
def State.survivors (s : State) (lv : Arm) : List (WinEnt × List (Option Byte)) :=
  (lv.window.zipIdx.map fun e => (e.1, e.1.data.zipIdx.map fun b =>
    if s.survivor lv.wreg lv.window (e.1.loc + b.2) == some e.2 then some b.1 else none)).filter
      fun p => p.2.any Option.isSome

/-- R160: each entry's address translated again: its location. -/
def State.retranslate (s : State) : List (WinEnt × List (Option Byte)) → Res (List (WinEnt × Loc × List (Option Byte)))
  | [] => .ok [] s
  | (e, bs) :: r =>
    match s.access e.va e.data.length 1 .write false false with
    | (.bad c, s) => .trap (Trap.queue c e.va) s
    | (.stall w, s) => .wait w s
    | (.ok l, s) => (s.retranslate r).map fun rest => (e, l, bs) :: rest

/-- Two entries are of one block of one NP store. -/
def WinEnt.sameBlock (x y : WinEnt) : Bool :=
  x.block.isSome && x.block == y.block && x.armB == y.armB && x.store == y.store

/-- Two entries are of one event: of one block of an NP store (R42), or of one granule of a store (R342, R358). -/
def WinEnt.sameEvent (x y : WinEnt) : Bool :=
  x.sameBlock y || (x.block.isNone && y.block.isNone && x.armB == y.armB && x.store == y.store && x.loc / 16 == y.loc / 16)

/-- Entries of one event written into one batch, and to their homes where the host sees their order (R174). -/
def State.putGroup (s : State) (l : List (WinEnt × Loc × List (Option Byte))) : State :=
  let d := s.coreDie s.act.core
  let q := quadOf s.act.core
  (l.map (·.2.1)).foldl State.hostOrder (l.foldl (fun s e => s.writeSome d q e.2.1.addr e.2.2) (s.room d l.length))

/-- The innermost level goes. -/
def State.closeArm (s : State) : State := { s with act := { s.act with arms := s.act.arms.drop 1 } }

/-- R158 at level 1: the surviving bytes are written, arm A's entries first, each arm's in program order. -/
def State.commitWindow (s : State) (l : List (WinEnt × List (Option Byte))) : Res Unit :=
  (s.retranslate ((l.filter fun p => !p.1.armB) ++ l.filter fun p => p.1.armB)).bind fun ws s =>
    .ok () ((ws.splitBy fun x y => x.1.sameEvent y.1).foldl State.putGroup s).closeArm

/-- R158 at an inner level: the surviving bytes become entries of the enclosing level's running arm. -/
def State.handOver (s : State) (outer : Arm) (r : List Arm) (l : List (WinEnt × List (Option Byte))) : Res Unit :=
  let stores := (l.map fun p => p.1.store).eraseDups
  if 64 < outer.stores + stores.length then .trap (Trap.queue .armWin 64) s
  else
    let entries : List WinEnt := l.flatMap fun p => (p.2.zipIdx.filterMap fun b => b.1.map fun x =>
      { p.1 with armB := outer.armB, va := p.1.va + b.2, loc := p.1.loc + b.2, data := [x]
                 store := outer.stores + 1 + stores.idxOf p.1.store })
    .ok () { s with act := { s.act with
      arms := { outer with window := outer.window ++ entries, stores := outer.stores + stores.length } :: r } }

def execArmend (_ : Ctl) (s : State) : Out :=
  (match s.armBlocked, s.act.arms with
   | some c, _ => Res.trap (Trap.queue .armDepth c) s
   | none, [] => .trap (Trap.queue .armDepth 2) s
   | none, lv :: r =>
     if !lv.armB then .trap (Trap.queue .armDepth 4) s
     else
       match r with
       | [] => s.commitWindow (s.survivors lv)
       | outer :: r => s.handOver outer r (s.survivors lv)).finQ s

/-! Joins (R165). -/

/-- A value that is read and copied: a NaN becomes canonical. -/
def fCopy (q : FloatFmt) (b : Nat) : FRes :=
  match FVal.ofBits q b with
  | .nan sn => FRes.nan q sn
  | _ => plainRes b

/-- A value times c / 32768, c > 0, not rounded. -/
def FVal.scale (x : FVal) (c : Nat) : FVal :=
  match x with
  | .fin n m e => .fin n (m * c) (e - 15)
  | x => x

/-- A value times c / 32768, rounded once. -/
def fScale (q : FloatFmt) (rd : Rnd) (x : FVal) (c : Nat) : FRes :=
  match x.scale c with
  | .nan sn => FRes.nan q sn
  | .inf n => plainRes (q.signed n q.infBits)
  | .fin n m e => roundDy q rd n (FVal.fin n m e).dy

/-- The sign of the IEEE difference of two finite values. -/
def diffNeg (rd : Rnd) (a b : FVal) : Bool :=
  let x := a.dy.add b.dy.neg
  if x.m ≠ 0 then decide (x.m < 0)
  else if a.isZero && b.isZero && a.isNeg != b.isNeg then a.isNeg
  else rd.zeroNeg

/-- g·(a − b), rounded once. -/
def fGradDiff (q : FloatFmt) (rd : Rnd) (g a b : FVal) : FRes :=
  let inf2 := a.isInf && b.isInf && a.isNeg == b.isNeg
  if g.isNaN || a.isNaN || b.isNaN || inf2 then FRes.nan q (g.isSNaN || a.isSNaN || b.isSNaN || inf2)
  else
    let dInf := a.isInf || b.isInf
    let dNeg := if a.isInf then a.isNeg else if b.isInf then !b.isNeg else diffNeg rd a b
    let d := a.dy.add b.dy.neg
    let neg := g.isNeg != dNeg
    if dInf then (if g.isZero then FRes.nan q true else plainRes (q.signed neg q.infBits))
    else if g.isInf then (if d.m = 0 then FRes.nan q true else plainRes (q.signed neg q.infBits))
    else roundDy q rd neg (g.dy.mul d)

/-- Whether arm A and arm B ran element i, and u (R165). -/
def State.ran (s : State) (r : WReg) (i : Nat) : Bool × Bool × Nat :=
  let u := s.code r i
  let t := s.act.csr.wth.toNat
  (armCond false u t, armCond true u t, u)

/-- R165: the elements of a source that the case of each element does not read are none of its own. -/
def State.reqBy (s : State) (r : Reg) (reads : Nat → Bool) : SReq :=
  { s.req r with unread := (List.range s.vl).filter fun i => !reads i }

/-- R165 `join` for element i. -/
def State.joinElem (s : State) (q : FloatFmt) (d a b : Reg) (c : WReg) (i : Nat) : FRes :=
  let x := lane (s.v a) s.sew i
  let y := lane (s.v b) s.sew i
  match s.ran c i with
  | (true, true, u) => fAddV q (s.rndV s.rmode d i) ((FVal.ofBits q x).scale u) ((FVal.ofBits q y).scale (0x8000 - u))
  | (true, false, _) => fCopy q x
  | (false, true, _) => fCopy q y
  | (false, false, _) => plainRes 0

def execJoin (d a b : Reg) (c : WReg) (t : Ctl) (s : State) : Out :=
  s.vecOp t { legal := true, typeOk := fmtFloat s.fmt, srcs := [s.reqBy a fun i => (s.ran c i).1, s.reqBy b fun i => (s.ran c i).2.1]
              dsts := [d], reads := .elems } s.after
    fun l s =>
      match floatOf s.fmt with
      | some q => .ok () ((s.fill d s.sew l (s.joinElem q d a b c)).okSet d s.sew)
      | none => .ok () s

/-- R165 `joinb` for element i: the three gradients. -/
def State.joinbElem (s : State) (q : FloatFmt) (d a b c : Reg) (e : WReg) (k i : Nat) : FRes :=
  let x := FVal.ofBits q (lane (s.v a) s.sew i)
  let y := FVal.ofBits q (lane (s.v b) s.sew i)
  let gb := lane (s.v c) s.sew i
  let g := FVal.ofBits q gb
  let rd := s.rndV s.rmode (d + BitVec.ofNat 5 k) i
  match s.ran e i, k with
  | (true, true, u), 0 => fScale q rd g u
  | (true, true, u), 1 => fScale q rd g (0x8000 - u)
  | (true, true, _), _ => fGradDiff q rd g x y
  | (true, false, _), 0 => fCopy q gb
  | (false, true, _), 1 => fCopy q gb
  | _, _ => plainRes 0

def execJoinb (d a b c : Reg) (e : WReg) (t : Ctl) (s : State) : Out :=
  let both (i : Nat) : Bool := (s.ran e i).1 && (s.ran e i).2.1
  s.vecOp t { legal := true, typeOk := fmtFloat s.fmt
              srcs := [s.reqBy a both, s.reqBy b both, s.reqBy c fun i => (s.ran e i).1 || (s.ran e i).2.1]
              dsts := [d, d + 1, d + 2], reads := .elems } s.after fun l s0 =>
    match floatOf s0.fmt with
    | none => .ok () s0
    | some q =>
      .ok () ([0, 1, 2].foldl (fun s k =>
        let r := d + BitVec.ofNat 5 k
        (s.fill r s0.sew l (s0.joinbElem q d a b c e k)).okSet r s0.sew) s0)

/-! Soft loops (R167, R168). -/

/-- The soft-loop record replaced. -/
def State.setLoop (s : State) (l : Option SoftLoop) : State := { s with act := { s.act with loop := l } }

def execWloop (d : WReg) (a : Reg) (off : BitVec 15) (_ : Ctl) (s : State) : Out :=
  match s.act.loop with
  | none =>
    let bound := s.g a
    let live := s.selectArm d false s.enabled s.act.csr.wth
    if (0 : Word).slt bound && live != 0 then
      s.skipTo (s.setLoop (some { addr := s.act.pc, wreg := d, bound := bound, pass := 1, wth := s.act.csr.wth, live := live
                                  depth := s.act.arms.length })) false off
    else s.skipTo s true off
  | some l =>
    if l.addr ≠ s.act.pc then (Res.trap (armTrap 5) s : Res Unit).fin s s.after
    else
      let live := s.selectArm l.wreg false l.live l.wth
      if l.pass.slt l.bound && live != 0 then s.skipTo (s.setLoop (some { l with live := live, pass := l.pass + 1 })) false off
      else s.skipTo (s.setLoop none) true off

def execWlend (off : BitVec 15) (_ : Ctl) (s : State) : Out :=
  match s.act.loop with
  | none => (Res.trap (armTrap 5) s : Res Unit).fin s s.after
  | some l =>
    if l.addr = s.target off ∧ l.depth = s.act.arms.length then s.skipTo s true off
    else (Res.trap (armTrap 5) s : Res Unit).fin s s.after

end Sys2Proof.Machine
end

