-- ==== Sys2Proof/Machine/Atomics.lean ====
section
/-!
DEFINITION. Atomics (R349): what each does to the bytes at its home, and how an agent here reaches a home on this package, in its
step, or on another, by a message and its reply.
-/

namespace Sys2Proof.Machine

/-! Integers (R185). -/

/-- The new value of w bits; `.cas` compares with b and writes c. -/
def Amo.value (op : Amo) (w old b c : Nat) : Nat :=
  let b := b % 2 ^ w
  match op with
  | .add => (old + b) % 2 ^ w
  | .and => old &&& b
  | .or => old ||| b
  | .xor => old ^^^ b
  | .min => if signedOf w old ≤ signedOf w b then old else b
  | .max => if signedOf w old ≤ signedOf w b then b else old
  | .minu => Nat.min old b
  | .maxu => Nat.max old b
  | .swap => b
  | .cas => if old = b then c % 2 ^ w else old

/-! BFA24 blocks (R44, R45, R187, R188). -/

/-- Mantissa e of a block's bytes. -/
def bfaM (bs : List Byte) (e : Nat) : Int := signedOf 24 (leNat ((bs.drop (3 * e)).take 3))

/-- R187: mantissas rounded at an exponent, and again at the next while one does not fit: mantissas, exponent, flags. -/
def bfaRound (rnd : Nat → Rnd) : Nat → List Dy → Nat → FFlags → List Int × Nat × FFlags
  | 0, xs, e, fl => (xs.map fun _ => 0, e, fl)
  | fuel + 1, xs, e, fl =>
    let rs := (List.range xs.length).map fun i => roundInt (rnd i) (xs.getD i Dy.zero) ((e : Int) - 150)
    let fl := fl ||| flagIf (rs.any (·.2)) flagNX
    if rs.all fun r => decide (-(2 ^ 23 : Nat) ≤ r.1) && decide (r.1 < (2 ^ 23 : Nat)) then (rs.map (·.1), e, fl)
    else if e = 0xFE then (xs.map fun _ => 0, 0xFF, fl ||| flagOF)
    else bfaRound rnd fuel xs (e + 1) fl

/-- The bytes of a block (R44, R45). -/
def bfaBytes (ms : List Int) (e seq : Nat) : List Byte :=
  (ms.flatMap fun m => leBytes 3 (bitsOf 24 m)) ++ leBytes 8 e ++ leBytes 8 seq ++ leBytes 48 0

/-- R187: the block after the addition of 64 values, and the flags. -/
def bfaAdd (rnd : Nat → Rnd) (bs : List Byte) (xs : List FVal) : List Byte × FFlags :=
  let e := (bs.getD 192 0).toNat
  let seq := leNat ((bs.drop 200).take 8) + 1
  let zeros : List Int := List.replicate 64 0
  if e = 0xFF || xs.any fun x => x.isNaN || x.isInf then
    (bfaBytes zeros 0xFF seq, flagIf (xs.any FVal.isNaN) flagNV)
  else
    let sums := (List.range 64).map fun i => ({ m := bfaM bs i, e := (e : Int) - 150 } : Dy).add (xs.getD i (.fin false 0 0)).dy
    let r := bfaRound rnd 256 sums e 0
    (bfaBytes r.1 r.2.1 seq, r.2.2)

/-! Store records (R218). -/

/-- A store record (R218), the sizes as counts. -/
structure StoreRec where
  stride : Int
  fmt : Fmt
  mode : RMode
  rows : Nat
  cols : Nat
  next : Nat
  limit : Nat
  tcnt : Nat
  fail : Nat
deriving DecidableEq, Repr

/-- The number in bytes `lo` to `lo + n - 1` of a record. -/
def recNat (bs : List Byte) (lo n : Nat) : Nat := leNat ((bs.drop lo).take n)

/-- R218: the record, `m` being MVL; nothing where it is malformed. -/
def storeRec (m : Nat) (dyn : RMode) (bs : List Byte) : Option StoreRec :=
  let rows := recNat bs 10 1 + 1
  let cols := recNat bs 11 1 + 1
  match Fmt.ofCode (BitVec.ofNat 5 (recNat bs 8 1)), Mode.ofCode (BitVec.ofNat 3 (recNat bs 9 1)) with
  | some f, some md =>
    if recNat bs 8 1 < 32 ∧ recNat bs 9 1 < 8 ∧ (f = .fp32 ∨ f = .bf16 ∨ f = .fp16 ∨ f = .i32) ∧ rows ≤ m ∧ cols ≤ m ∧
        recNat bs 12 4 = 0 ∧ recNat bs 48 16 = 0 then
      some { stride := signedOf 64 (recNat bs 0 8), fmt := f, mode := RMode.ofMode dyn md, rows := rows, cols := cols
             next := recNat bs 16 8, limit := recNat bs 24 8, tcnt := recNat bs 32 8, fail := recNat bs 40 8 }
    else none
  | _, _ => none

/-- The place of a format and a mode that a store record names among the 64 of a list. -/
def storeKind (f : Fmt) (mode : RMode) : Nat :=
  8 * (match f with | .fp32 => 0 | .bf16 => 1 | .fp16 => 2 | _ => 3) +
  (match mode with | .rne => 0 | .rtz => 1 | .rdn => 2 | .rup => 3 | .sr => 4)

/-- R220: there is no room in the buffer for an image of n bytes, or a tile was left out before. -/
def StoreRec.full (x : StoreRec) (n : Nat) : Bool := x.fail.testBit 63 || decide (x.limit < x.next + n)

/-- R220: the bytes 16 to 47 of the record after a tile of n bytes; nothing where the record stays. -/
def StoreRec.update (x : StoreRec) (n : Nat) (traps : Bool) : Option (List Byte) :=
  let put (next fail : Nat) : List Byte := leBytes 8 next ++ leBytes 8 x.limit ++ leBytes 8 (x.tcnt + 1) ++ leBytes 8 fail
  if !x.full n then some (put (x.next + n) x.fail)
  else if traps then none
  else some (put x.next (if x.fail.testBit 63 then x.fail else 2 ^ 63 + n % 2 ^ 31 * 2 ^ 32 + x.tcnt % 2 ^ 32))

/-! What an atomic does at its home. -/

/-- Append areas (R202): NEXT as it was, or why nothing is reserved. -/
inductive Reserve where
  | got (base : Nat)
  | misaligned (next : Nat)
  | full
deriving DecidableEq, Repr

/-- The reservation of b bytes, in units, in the append area whose record holds these bytes. -/
def reserveIn (b unit : Nat) (bs : List Byte) : Reserve :=
  let next := leNat (bs.take 8)
  if next % unit ≠ 0 then .misaligned next else if leNat (bs.drop 8) < next + b then .full else .got next

/-- `amoacc` at a block of these bytes (R187). -/
def accAt (va : Nat) (mode : RMode) (seed : BitVec 64) (xs : List Nat) (bs : List Byte) : List Byte × FFlags :=
  bfaAdd (fun e => Rnd.at mode seed (BitVec.ofNat 64 (va + 3 * e))) bs (xs.map (FVal.ofBits fp32))

/-- The bytes that an atomic writes at its home, and their place among those that it reads there (R185, R187, R188, R202, R220). -/
def RemoteOp.writes (op : RemoteOp) (bs : List Byte) : Option (Nat × List Byte) :=
  match op with
  | .amo op b c => some (0, leBytes bs.length (op.value (8 * bs.length) (leNat bs) b c))
  | .acc va mode seed xs => some (0, (accAt va mode seed xs bs).1)
  | .look => none
  | .reserve b unit => match reserveIn b unit bs with | .got next => some (0, leBytes 8 (next + b)) | _ => none
  | .record m dyn sizes traps =>
    ((storeRec m dyn bs).bind fun x => x.update (sizes.getD (storeKind x.fmt x.mode) 0) traps).map fun y => (16, y)

/-- One atomic of n bytes at a home on this package: what it found there (R349). -/
def State.atomicNear (s : State) (d quad a n : Nat) (op : RemoteOp) : List Byte × State :=
  let s := s.atomicSync d a
  let bs := s.bytesAt (homeDie a) a n
  (bs, match op.writes bs with
    | some (off, x) => s.atomicWrite d quad (a + off) x
    | none => s)

/-- One atomic at a home on another package: what has come of it, or the number under which it is on its way; `e` is the atomic that the
agent has sent already. The die's batch is closed, and its vector goes along (R345, R349). -/
def State.atomicFar (s : State) (d a n : Nat) (op : RemoteOp) (e : Option Errand) : Except Nat (List Byte × Option Denial) × State :=
  match e with
  | some e => (match e.answer with | some x => .ok x | none => .error e.tag, s)
  | none =>
    let s := s.closeBatch d
    let tag := s.links.nextMsg
    (.error tag, s.sendMsg d (homeDie a) (.atomic (homeDie a) d a n op (s.dieAt d).vec tag))

/-- The cause of a denial. -/
def Denial.cause : Denial → Cause
  | .poison => .poison
  | .peer => .peer

/-- The acting strand's instruction with the atomic that it has sent. -/
def State.onErrand (s : State) (e : Option Errand) : State :=
  { s with act := { s.act with prog := { s.act.prog with errand := e } } }

/-- One atomic of the acting strand, whose checks it has passed, at a location, `va` being its virtual address: what it found there. -/
def State.atomicAt (s : State) (va a n : Nat) (op : RemoteOp) : Get (List Byte) × State :=
  let d := s.coreDie s.act.core
  if s.far a then
    match s.atomicFar d a n op s.act.prog.errand with
    | (.ok (bs, denied), s) => ((match denied with | none => .ok bs | some x => .bad x.cause va), s.onErrand none)
    | (.error tag, s) => (.stall (.home (homeDie a) tag), s.onErrand (some { tag := tag, home := homeDie a, answer := none }))
  else
    let r := s.atomicNear d (quadOf s.act.core) a n op
    (.ok r.1, r.2)

end Sys2Proof.Machine
end

