-- ==== Sys2Proof/Machine/Control.lean ====
section
/-!
DEFINITION. Control transfer, the control and status registers, `setvl` (05_scalar.md).
-/

namespace Sys2Proof.Machine

/-! Control transfer (R103 to R107). -/

/-- Completes and continues at an address. -/
def State.jump (s : State) (s' : State) (pc : Word) : Out := (Res.ok () s').fin s pc

/-- R103: the link is PC + 8. -/
def execJal (d : Reg) (off : BitVec 20) (_ : Ctl) (s : State) : Out := s.jump (s.setG d s.after) (s.target off)

/-- R104: the target is read before the link is written. -/
def execJr (d a : Reg) (_ : Ctl) (s : State) : Out := s.jump (s.setG d s.after) (s.g a)

/-- R105: a branch on a condition. -/
def State.branch (s : State) (c : Cond) (a b : Reg) (off : BitVec 15) : Out :=
  s.jump s (if c.holds (s.g a) (s.g b) then s.target off else s.after)

def execBEq (a b : Reg) (off : BitVec 15) (_ : Ctl) (s : State) : Out := s.branch .eq a b off
def execBNe (a b : Reg) (off : BitVec 15) (_ : Ctl) (s : State) : Out := s.branch .ne a b off
def execBLt (a b : Reg) (off : BitVec 15) (_ : Ctl) (s : State) : Out := s.branch .lt a b off
def execBGe (a b : Reg) (off : BitVec 15) (_ : Ctl) (s : State) : Out := s.branch .ge a b off
def execBLtu (a b : Reg) (off : BitVec 15) (_ : Ctl) (s : State) : Out := s.branch .ltu a b off
def execBGeu (a b : Reg) (off : BitVec 15) (_ : Ctl) (s : State) : Out := s.branch .geu a b off

/-- R106: decrements and branches while the result is above 0, signed. -/
def execSubbr (d a : Reg) (off : BitVec 15) (_ : Ctl) (s : State) : Out :=
  let n := s.g d - s.g a
  s.jump (s.setG d n) (if (0 : Word).slt n then s.target off else s.after)

/-! CSRs (R115 to R119). -/

/-- SEW of a format (R117). -/
def sewOf (q : Fmt) : BitVec 2 :=
  match fmtWidth q with | 8 => 0 | 16 => 1 | 32 => 2 | _ => 3

/-- `vtype` as it reads (R117). -/
def VType.bits (t : VType) : Word :=
  (0#50 ++ t.np ++ (if t.fmt = .np then 6#3 else 0#3) ++ sewOf t.fmt ++ t.fmt.code.extractLsb' 0 4 : BitVec 64)

/-- The fidelity level in effect: 0 under reproducible mode (R54, R117). -/
def Csrs.fidEff (c : Csrs) : BitVec 3 := if c.reproEn then 0 else c.fidHdr

/-- `armst`.ARMS: bit i is the arm that runs at depth i + 1 (R117); the list holds the innermost pair first. -/
def Strand.armBits (a : Strand) : BitVec 4 :=
  let l := a.arms.reverse
  let b (i : Nat) : BitVec 1 := bit ((l[i]?.map (·.armB)).getD false)
  b 3 ++ b 2 ++ b 1 ++ b 0

/-- The value that `csrr` returns, zero-extended (R115, R117). -/
def State.csrRead (s : State) (r : Csr) : Word :=
  let a := s.act
  let c := a.csr
  match r with
  | .vl => c.vl.setWidth 64
  | .vtype => c.vt.bits
  | .vstart => c.vstart.setWidth 64
  | .grant => (0#40 ++ BitVec.ofNat 12 (64 * a.clusters) ++ BitVec.ofNat 4 a.clusters ++ a.clMap : BitVec 64)
  | .rmode => c.rmode.setWidth 64
  | .fflags => c.fflags.setWidth 64
  | .repro => (0#62 ++ bit c.reproLock ++ bit c.reproEn : BitVec 64)
  | .seed => c.seed
  | .fid => (0#57 ++ c.fidEff ++ 0#1 ++ c.fidHdr : BitVec 64)
  | .wth => c.wth.setWidth 64
  | .wprune => c.wprune.setWidth 64
  | .armst => (0#55 ++ bit c.pbf ++ 0#1 ++ a.armBits ++ BitVec.ofNat 3 a.arms.length : BitVec 64)
  | .mstart => c.mstart.setWidth 64
  | .mvl => BitVec.ofNat 64 a.mat.mvl
  | .mmode => (0#61 ++ BitVec.ofNat 2 (a.mat.mvl.log2 - 3) ++ bit a.mat.op : BitVec 64)
  | .skew => c.skew.setWidth 64
  | .ecnt0 => ((s.core a.core).ecnt[0]).setWidth 64
  | .ecnt1 => ((s.core a.core).ecnt[1]).setWidth 64
  | .ecnt2 => ((s.core a.core).ecnt[2]).setWidth 64
  | .ecnt3 => ((s.core a.core).ecnt[3]).setWidth 64
  | .cyc => (s.core a.core).cyc
  | .epc => c.epc
  | .cause => (0#55 ++ bit c.slot1 ++ c.code : BitVec 64)
  | .tval => c.tval
  | .status => (0#60 ++ bit c.mpend ++ bit c.vpend ++ c.pprv : BitVec 64)

/-- The write forms (R115). -/
inductive CsrOp where
  | write | set | clear
deriving DecidableEq, Repr

/-- An RW field after a write form (R115). -/
def CsrOp.rw {n : Nat} (op : CsrOp) (old x : BitVec n) : BitVec n :=
  match op with
  | .write => x
  | .set => old ||| x
  | .clear => old &&& ~~~x

/-- R43: a weight code saturates at 0x8000. -/
def satWeight (x : BitVec 16) : BitVec 16 := if 0x8000 < x then 0x8000 else x

/-- A core's `ecnt` counter written. -/
def State.setEcnt (s : State) (i : Fin 4) (op : CsrOp) (x : Word) : State :=
  s.onCore s.act.core fun c => { c with ecnt := c.ecnt.set i (op.rw c.ecnt[i] (x.setWidth 32)) }

/-- The state after a write form (R115, R117): only writable fields change. -/
def State.csrWrite (s : State) (r : Csr) (op : CsrOp) (x : Word) : State :=
  let c := s.act.csr
  let put (c : Csrs) : State := { s with act := { s.act with csr := c } }
  match r with
  | .vstart => put { c with vstart := op.rw c.vstart (x.setWidth 12) }
  | .rmode =>
    let m := op.rw c.rmode (x.setWidth 3)
    put { c with rmode := if m.toNat ≤ 4 then m else c.rmode }
  | .fflags => put { c with fflags := op.rw c.fflags (x.setWidth 5) }
  | .repro =>
    let e := op.rw (bit c.reproEn) (x.setWidth 1)
    put { c with reproEn := if c.reproLock then c.reproEn else e == 1 }
  | .seed => put { c with seed := op.rw c.seed x }
  | .wth => put { c with wth := satWeight (op.rw c.wth (x.setWidth 16)) }
  | .wprune => put { c with wprune := satWeight (op.rw c.wprune (x.setWidth 16)) }
  | .armst => put { c with pbf := c.pbf && !(op != .clear && x.getLsbD 8) }
  | .mstart => put { c with mstart := op.rw c.mstart (x.setWidth 32) }
  | .skew => put { c with skew := op.rw c.skew (x.setWidth 4) }
  | .ecnt0 => s.setEcnt 0 op x
  | .ecnt1 => s.setEcnt 1 op x
  | .ecnt2 => s.setEcnt 2 op x
  | .ecnt3 => s.setEcnt 3 op x
  | .epc => put { c with epc := op.rw c.epc x }
  | .cause =>
    put { c with code := op.rw c.code (x.setWidth 8), slot1 := op.rw (bit c.slot1) (x.extractLsb' 8 1) == 1 }
  | .tval => put { c with tval := op.rw c.tval x }
  | .status =>
    let p := op.rw c.pprv (x.setWidth 2)
    put { c with
      pprv := if p = 3 then c.pprv else p
      vpend := op.rw (bit c.vpend) (x.extractLsb' 2 1) == 1
      mpend := op.rw (bit c.mpend) (x.extractLsb' 3 1) == 1 }
  | .vl | .vtype | .grant | .fid | .mvl | .mmode | .cyc => s

/-- R116: a CSR that only a control strand or firmware accesses. -/
def csrControl : Csr → Bool
  | .epc | .cause | .tval | .status => true
  | _ => false

/-- R116: a CSR that a user strand reads and does not write. -/
def csrUserRead : Csr → Bool
  | .vstart | .mstart | .ecnt0 | .ecnt1 | .ecnt2 | .ecnt3 => true
  | _ => false

/-- R115: a read. -/
def execCsrr (d : Reg) (r : Csr) (_ : Ctl) (s : State) : Out :=
  (if csrControl r ∧ s.act.priv = .user then Res.trap s.privTrap s else .ok () (s.setG d (s.csrRead r))).fin s s.after

/-- R115: a write form. -/
def State.csrForm (s : State) (r : Csr) (op : CsrOp) (a : Reg) : Out :=
  (if (csrControl r ∨ csrUserRead r) ∧ s.act.priv = .user then Res.trap s.privTrap s
   else .ok () (s.csrWrite r op (s.g a))).fin s s.after

def execCsrw (r : Csr) (a : Reg) (_ : Ctl) (s : State) : Out := s.csrForm r .write a
def execCsrs (r : Csr) (a : Reg) (_ : Ctl) (s : State) : Out := s.csrForm r .set a
def execCsrc (r : Csr) (a : Reg) (_ : Ctl) (s : State) : Out := s.csrForm r .clear a

/-! The vector length (R112). -/

/-- The new `vl` (R112). -/
def newVl (max : Nat) (repro : Bool) (n : Int) : Nat :=
  if n ≤ 0 then 0
  else if (max : Int) ≤ n then max
  else if repro ∧ 32 ≤ n then n.toNat / 32 * 32
  else n.toNat

/-- R112: sets `vl`, `vtype` and `vstart` for the instructions that follow, and returns the new `vl`; an older posted instruction
keeps its restart point. -/
def execSetvl (d a : Reg) (f : Fmt) (k : BitVec 4) (_ : Ctl) (s : State) : Out :=
  let t := newVl (vlmax s.act.clusters (fmtWidth f)) s.act.csr.reproEn (sval (s.g a))
  let vt : VType := { fmt := f, np := if f = .np then k.setWidth 5 + 1 else 0 }
  (if f = .bfa24 then Res.trap s.typeCombo s
   else
     .ok () ((s.onCsr fun c => { c with vl := BitVec.ofNat 12 t, vt := vt, vstart := if s.act.vstartHeld then c.vstart else 0 }).setG d
       (BitVec.ofNat 64 t))).fin s s.after

end Sys2Proof.Machine
end

