-- ==== Sys2Proof/Machine/Reel.lean ====
section
/-!
DEFINITION. The reel of a saved strand in memory (R268): its header, its scalar section, which software reads and writes while the
strand is SAVED or TRAPPED-SAVED, and its device section with the tag over it. Where a reel lies, how long its sections are
and what the device section holds are free values (log entry 25).
-/

namespace Sys2Proof.Machine

/-! The Millrace at physical addresses. -/

/-- The site of the Millrace and of the management controller (R8). -/
def State.millDie (s : State) : Nat := s.die 0 0
/-- No quad's L2 slice. -/
def noQuad : Nat := 64
/-- Bytes written by the Millrace at a physical address and performed at the domain tier (R263). -/
def State.physWrite (s : State) (a : Nat) (bs : List Byte) : State :=
  (s.write s.millDie noQuad a bs).performAt s.millDie .domain
/-- Bytes read by the Millrace at a physical address. -/
def State.physRead (s : State) (a n : Nat) : List Byte × State :=
  let s := (linesOf a n).foldl (fun s l => s.readSync s.millDie (128 * l)) s
  (s.bytesAt s.millDie a n, s)

/-! The layout. -/

/-- The physical address of a strand's reel. -/
def reelBase (sid : Nat) : Nat := 128 * Config.reelLine sid
/-- The CSRs of the scalar section, in the order of their numbers (R116, R255). -/
def reelCsrs : List Csr :=
  [.vl, .vtype, .vstart, .grant, .rmode, .fflags, .repro, .seed, .fid, .wth, .wprune, .armst, .mstart, .mvl, .mmode, .skew, .epc,
   .cause, .tval, .status]
/-- The words of the scalar section: SPC, `g1` to `g31`, the CSRs. -/
def reelWords : Nat := 32 + reelCsrs.length
/-- The offset of the scalar section. -/
def reelScalar (sid : Nat) : Nat := 64 + 8 * Config.reelPad sid 0
/-- The offset of the device section. -/
def reelDevice (sid : Nat) : Nat := reelScalar sid + 8 * reelWords + 8 * Config.reelPad sid 1
/-- The bytes of the device section. -/
def reelDeviceLen (sid : Nat) : Nat := 8 * Config.reelPad sid 2
/-- The length of the reel, a multiple of 128. -/
def reelLen (sid : Nat) : Nat := (reelDevice sid + reelDeviceLen sid + 127) / 128 * 128

/-- A byte at a physical address is none of a strand's reel. -/
def outsideReel (sid a : Nat) : Prop := a < reelBase sid ∨ reelBase sid + reelLen sid ≤ a

/-! Writing. -/

/-- The scalar section of a strand. -/
def State.reelScalars (s : State) (a : Strand) : List Word :=
  a.pc :: (a.g.toList.drop 1 ++ reelCsrs.map fun r => ({ s with act := a } : State).csrRead r)

/-- The scalar section written. -/
def State.writeScalars (s : State) (a : Strand) : State :=
  s.physWrite (reelBase a.sid + reelScalar a.sid) ((s.reelScalars a).flatMap fun x => leBytes 8 x.toNat)

/-- The header: version, length, offsets, tag; no rule gives what follows them. -/
def reelHeader (sid tag : Nat) (rest : List Byte) : List Byte :=
  leBytes 4 1 ++ leBytes 4 (reelLen sid) ++ leBytes 8 (reelScalar sid) ++ leBytes 8 (reelDevice sid) ++ leBytes 8 tag ++ rest

/-- The reel of a strand written. -/
def State.writeReel (s : State) (a : Strand) : State :=
  let (k, s) := s.draw (2 ^ 64)
  let dev := (List.range (reelDeviceLen a.sid)).map fun i => Config.reelByte k (32 + i)
  let s := s.physWrite (reelBase a.sid)
    (reelHeader a.sid (Config.reelTag dev).toNat ((List.range 32).map fun i => Config.reelByte k i))
  (s.physWrite (reelBase a.sid + reelDevice a.sid) dev).writeScalars a

/-! Reading. -/

/-- The CSRs of the scalar section with a field that a write form writes. -/
def reelWritten (r : Csr) : Bool :=
  match r with
  | .vstart | .rmode | .fflags | .repro | .seed | .wth | .wprune | .mstart | .skew | .epc | .cause | .tval | .status => true
  | _ => false

/-- R206: another mode; another MVL clears the accumulators. -/
def Matrix.setMode (x : Matrix) (op : Bool) (m : Nat) : Matrix :=
  let x := { x with op := op, latch := none }
  if m = x.mvl then x
  else { x with mvl := m, z := Vector.replicate 4 0, tail := Vector.replicate 4 0, isInt := Vector.replicate 4 0, row := Vector.replicate 4 0 }

/-- A strand with the `vl` and the `vtype` of a scalar section, where they are legal for the clusters that its grant or its data has. -/
def Strand.takeLength (a : Strand) (vl vtype : Word) : Strand :=
  let n := vl.toNat % 4096
  let k := (vtype.extractLsb' 9 5)
  let room := max (max 1 a.clusters) ((a.csr.vl.toNat * fmtWidth a.csr.vt.fmt + 2047) / 2048)
  match Fmt.ofCode ((vtype.extractLsb' 0 4).setWidth 5) with
  | some f =>
    if f = .bfa24 ∨ 2048 * room < n * fmtWidth f ∨ (f = .np ∧ (k = 0 ∨ 16 < k)) then a
    else { a with csr := { a.csr with vl := BitVec.ofNat 12 n, vt := { fmt := f, np := if f = .np then k else 0 } } }
  | none => a

/-- A strand with the `mvl` and the `mmode` of a scalar section, where they agree and its core has that MVL. -/
def Strand.takeMode (a : Strand) (mvl mmode : Word) : Strand :=
  let m := 8 * 2 ^ (mmode.toNat / 2 % 4)
  if mvl.toNat % 128 ≠ m ∨ (m = 64 ∧ !isMill a.core) ∨ (m = a.mat.mvl ∧ mmode.getLsbD 0 = a.mat.op) then a
  else { a with mat := a.mat.setMode (mmode.getLsbD 0) m }

/-- A strand with the read-only CSRs of a scalar section, and `armst`.PBF; the rest of `armst` goes with the arm stack, and `repro`.LOCK with
the kernel (DEDUCED, log entry 25). -/
def Strand.takeFixed (a : Strand) (word : Csr → Word) : Strand :=
  let a : Strand := { a with
    clMap := (word .grant).setWidth 8
    csr := { a.csr with
      fidHdr := (word .fid).setWidth 3, pbf := (word .armst).getLsbD 8 } }
  (a.takeLength (word .vl) (word .vtype)).takeMode (word .mvl) (word .mmode)

/-- A strand with what its scalar section holds. -/
def State.withScalars (s : State) (a : Strand) (l : List Word) : Strand :=
  let a1 : Strand := { a with
    pc := l.getD 0 0, g := Vector.ofFn fun i => if i.val = 0 then a.g[i] else l.getD i.val 0 }
  let a2 := (reelCsrs.zipIdx.filter fun r => reelWritten r.1).foldl (fun a r =>
    (({ s with act := a } : State).csrWrite r.1 .write (l.getD (32 + r.2) 0)).act) a1
  a2.takeFixed fun r => l.getD (32 + reelCsrs.idxOf r) 0

/-- The scalar section read. -/
def State.readScalars (s : State) (a : Strand) : Strand × State :=
  let (bs, s) := s.physRead (reelBase a.sid + reelScalar a.sid) (8 * reelWords)
  (s.withScalars a ((List.range reelWords).map fun i => BitVec.ofNat 64 (leNat ((bs.drop (8 * i)).take 8))), s)

/-- The device section of a reel and the tag of its header. -/
def State.readDevice (s : State) (sid : Nat) : List Byte × Nat × State :=
  let (tag, s) := s.physRead (reelBase sid + 24) 8
  let (dev, s) := s.physRead (reelBase sid + reelDevice sid) (reelDeviceLen sid)
  (dev, leNat tag, s)

/-- The tag of the reel's header is that of its device section, and no byte of the reel is marked (R268, R420). -/
def State.reelSound (s : State) (sid : Nat) : Bool × State :=
  let (dev, tag, s) := s.readDevice sid
  ((Config.reelTag dev).toNat == tag && !s.poisonHit (reelBase sid) (reelLen sid) false, s)

end Sys2Proof.Machine
end

