-- ==== Sys2Proof/Machine/Strands.lean ====
section
/-!
DEFINITION. Strands other than the one that acts: finding and changing them, waking and stopping them, the clusters they
hold, halting one (R256, R257, R270, R302, R114).
-/

namespace Sys2Proof.Machine

/-! Finding and changing. -/

/-- Every strand. -/
def State.strands (s : State) : List Strand := s.act :: s.parked
/-- The strand with a number. -/
def State.strand? (s : State) (sid : Nat) : Option Strand := s.strands.find? fun a => a.sid == sid
/-- Changes the strand with a number. -/
def State.onStrand (s : State) (sid : Nat) (f : Strand → Strand) : State :=
  if s.act.sid = sid then s.onAct f
  else { s with parked := s.parked.map fun a => if a.sid == sid then f a else a }
/-- Changes every strand that a test selects. -/
def State.onStrands (s : State) (p : Strand → Bool) (f : Strand → Strand) : State :=
  { s with act := if p s.act then f s.act else s.act, parked := s.parked.map fun a => if p a then f a else a }

/-- The strand occupies its core (R256). -/
def Strand.onCore (a : Strand) : Bool := a.life == .running || a.life == .stopping || a.life == .trapped

/-- What a strand waits for: its oldest posted instruction, its scalar part, and posted instructions behind a waiting `barw` (R321). -/
def Strand.waits (a : Strand) : List Wait := a.wait.toList ++ a.hold.toList ++ a.posted.filterMap (·.wait)

/-- Every wait of a strand changed. -/
def Strand.onWaits (a : Strand) (f : Wait → Wait) : Strand := { a with wait := a.wait.map f, hold := a.hold.map f }

/-- A posted instruction behind a waiting `barw` whose wait a test selects waits no longer, and receives a value. -/
def Posted.wake (x : Word) (p : Wait → Bool) (q : Posted) : Posted := if q.wait.any p then { q with wait := none, woke := some x } else q

/-- The waits of a strand that a test selects end; a posted instruction receives a value, and the scalar part waits no longer
for it (R58). -/
def Strand.wake (a : Strand) (x : Word) (p : Wait → Bool) : Strand :=
  let a := { a with posted := a.posted.map (Posted.wake x p) }
  let a := if a.hold.any p then { a with hold := none } else a
  if a.wait.any p then { a.unhold with wait := none, woke := some x } else a

/-- A wait of a running strand ends, with the value that its instruction receives, where a test says so. -/
def State.wakeIf (s : State) (sid : Nat) (x : Word) (p : Strand → Wait → Bool) : State :=
  s.onStrand sid fun a => if a.life == .running then a.wake x (p a) else a

/-- R189: a `fence.eng` of a strand looks again at what it waits for. -/
def State.pokeFence (s : State) (sid : Nat) : State := s.wakeIf sid 0 fun _ w => w == .fenceEng

/-- The tier's unit that a core lies in (R19). -/
def unitOf (tier : Tier) (core : Nat) : Nat :=
  match tier with
  | .core => core
  | .pair => pairOf core
  | .quad => quadOf core
  | .stack => stackOf core
  | .domain => 0

/-! Clusters (R13, R114). -/

/-- Clusters of a core that no strand on it holds and that are not lost. -/
def State.freeClusters (s : State) (core : Nat) : List Nat :=
  (List.range 8).filter fun i =>
    !NSet.has i (s.core core).lostClusters &&
    !(s.strands.any fun a => a.onCore && a.core == core && a.clMap.getLsbD i)

/-- A map of clusters. -/
def clusterMap (l : List Nat) : BitVec 8 := BitVec.ofNat 8 (l.foldl (fun acc i => acc + 2 ^ i) 0)
/-- The clusters of a map, ascending. -/
def clusterList (m : BitVec 8) : List Nat := (List.range 8).filter fun i => m.getLsbD i

/-- The low n bits of a register, and zeros above. -/
def lowBits {w : Nat} (x : BitVec w) (n : Nat) : BitVec w := BitVec.ofNat w (x.toNat % 2 ^ n)

/-- Every vector register cut to its first n bytes. -/
def Strand.cutV (a : Strand) (n : Nat) : Strand := { a with v := Vector.ofFn fun i => lowBits a.v[i] (8 * n) }

/-- R114, R40: what survives in the reel: bytes below `vl`·w/8, elements below `vl`; validity bits wholly above are set. -/
def Strand.trim (a : Strand) : Strand :=
  let vl := a.csr.vl.toNat
  let w := fmtWidth a.csr.vt.fmt
  let hi := ~~~(BitVec.ofNat 16 (2 ^ ((vl * w + 1023) / 1024) - 1))
  { a.cutV (vl * w / 8) with
    vok := Vector.ofFn fun i => a.vok[i] ||| hi
    m := Vector.ofFn fun i => lowBits a.m[i] vl
    w := Vector.ofFn fun i => lowBits a.w[i] (16 * vl) }

/-- R260: the fewest clusters that hold the strand's data. -/
def Strand.needClusters (a : Strand) : Nat := (a.csr.vl.toNat * fmtWidth a.csr.vt.fmt + 2047) / 2048

/-- What a `waitt` watches: a location, or a byte of the partition record. -/
def Loc.watch (part : Nat) : Loc → Nat
  | .at_ a _ => a
  | .record off => 2 ^ 60 + 128 * part + off

/-- The n bytes at such a place, as the agents of a die read them. -/
def State.placeBytes (s : State) (d w n : Nat) : List Byte :=
  if 2 ^ 60 ≤ w then ((((s.part ((w - 2 ^ 60) / 128)).bytes ((w - 2 ^ 60) / 128)).drop (w % 128)).take n)
  else s.bytesAt d w n

/-- The 64-bit word that is watched, as a core reads it. -/
def State.watched (s : State) (core w : Nat) : Word := BitVec.ofNat 64 (leNat (s.placeBytes (s.coreDie core) w 8))

/-! Atomics under way to other packages (R349). -/

/-- A piece of an instruction that has sent an atomic takes its answer. -/
def Progress.answer (tag : Nat) (x : List Byte × Option Denial) (p : Progress) : Progress := { p with errand := p.errand.map (Errand.take tag x) }
/-- The atomic that an instruction has sent has not been answered. -/
def Progress.asks (p : Progress) : Bool := p.errand.any fun e => e.answer.isNone

/-- The progress of every instruction of a strand that has begun changed. -/
def Strand.onProgs (a : Strand) (f : Progress → Progress) : Strand :=
  let g (p : Posted) : Posted := { p with prog := f p.prog }
  { a with prog := f a.prog, posted := a.posted.map g, frame := a.frame.map fun x => { x with posted := x.posted.map g } }

/-- An atomic of the strand has not been answered. -/
def Strand.asks (a : Strand) : Bool :=
  a.prog.asks || a.posted.any (·.prog.asks) || a.frame.any fun x => x.posted.any (·.prog.asks)

/-! Stopping (R257, R302). -/

/-- A running strand begins to stop; what it had reserved of the Leat is released (R312). -/
def Strand.stop (a : Strand) : Strand :=
  if a.life == .running then { a with life := .stopping, wait := a.wait.filter Wait.travels, hold := none, posted := a.posted.map Posted.release } else a

/-- Every running strand of a node begins to stop. -/
def State.stopNode (s : State) (node : Nat) : State := s.onStrands (fun a => a.node == node) Strand.stop

/-- The clock of a core in MHz (R383). -/
def State.mhz (s : State) (core : Nat) : Nat := 1200 + 100 * (s.quads.getD (quadOf core) Quad.reset).point

/-- R274: cycles for nanoseconds. -/
def cyclesOf (mhz ns : Nat) : Nat := (ns * mhz + 999) / 1000
/-- R274: nanoseconds for cycles. -/
def nanosOf (mhz c : Nat) : Nat := c * 1000 / mhz

/-- What is left of a timed wait, changed. -/
def Wait.onLeft (f : Nat → Nat) : Wait → Wait
  | .sleep n => .sleep (f n)
  | .waitt a o n => .waitt a o (f n)
  | w => w

/-- Cycles pass on a core: `cyc` counts them, and the timed waits of the strands that run there have less left (R118, R274). -/
def State.pass (s : State) (core k : Nat) : State :=
  (s.onCore core fun c => { c with cyc := c.cyc + BitVec.ofNat 64 k }).onStrands (fun a => a.core == core && a.life == .running)
    fun a => a.onWaits (Wait.onLeft (· - k))

/-- A strand leaves its core for a reel (R255, R256): its clusters return, its timed wait is kept in nanoseconds,
what its streams have read ahead is dropped (R191). -/
def State.leaveCore (s : State) (a : Strand) (life : Life) : Strand :=
  { a.trim with life := life, clMap := 0, wait := a.wait.map (Wait.onLeft (nanosOf (s.mhz a.core)))
                streams := a.streams.map fun q => (q.1, { q.2 with ahead := [] }) }

/-- STOPPING or TRAPPED to a saved state: the strand has left its core, and its reel is written (R256, R268). -/
def State.save (s : State) (sid : Nat) (life : Life) : State :=
  match s.strand? sid with
  | none => s
  | some a => let b := s.leaveCore a life; (s.onStrand sid fun _ => b).writeReel { b with clMap := a.clMap }

/-- Every trapped strand on a core is TRAPPED-SAVED. -/
def State.saveTrapped (s : State) (core : Nat) : State :=
  ((s.strands.filter fun a => a.core == core && a.life == .trapped).map (·.sid)).foldl (fun s k => s.save k .trappedSaved) s

/-! Halting (R270, R318). -/

/-- A strand ends: its clusters return, its pending arrivals, its posted work and its open levels go with it. -/
def Strand.halted (a : Strand) : Strand :=
  { a with life := .halted, clMap := 0, arrivals := [], posted := [], resume := none, arms := [], loop := none, wait := none
           hold := none, prog := Progress.none, woke := none, late := none, frame := none }

/-- R248: the contexts of a strand in BUILDING, DONE or FAILED are freed. -/
def State.freeQueries (s : State) (sid : Nat) : State :=
  { s with queries := s.queries.filter fun q =>
      !(q.2.sid == sid && (q.2.st == .building || q.2.st == .done || q.2.st == .failed)) }

/-- Engine operations of a strand that have ended are gone with it; those that run go on (R270). -/
def State.freeOps (s : State) (sid : Nat) : State :=
  { s with engines := s.engines.filter fun o => !(o.2.sid == sid && (o.2.st == .done || o.2.st == .failed)) }

/-! Gating (R388). -/

/-- The sail core of a pair. -/
def sailOf (pair : Nat) : Nat := 2 * pair + 1

/-- R388, R389: a request reaches a sail core. DRAINING stops the core's strands, each with its group (R257, R302): the requests that
stop those that run follow (PREEMPTION_REQUEST, R408). -/
def State.gateRequest (s : State) (pair : Nat) (gate : Bool) : State :=
  let p := s.pair pair
  if (s.core (sailOf pair)).lost then s
  else
    match p.gate, gate with
    | .on, true =>
      (s.onPair pair fun p => { p with gate := .draining }).saveTrapped (sailOf pair)
    | .draining, false => s.onPair pair fun p => { p with gate := .on }
    | .gated, false => s.onPair pair fun p => { p with gate := .waking }
    | .waking, g => s.onPair pair fun p => { p with request := g }
    | _, _ => s

/-- The sail core has reached what a request asked for. -/
def State.gateReached (s : State) (pair : Nat) (gate : Bool) : Bool :=
  let p := s.pair pair
  (s.core (sailOf pair)).lost || (if gate then p.gate == .gated else p.gate == .on)

end Sys2Proof.Machine
end

