-- ==== Sys2Proof/Machine/Agents.lean ====
section
/-!
DEFINITION. Memory as agents without a core reach it: the Millrace, the engines, the management controller. Each granule is
checked in the order of R330 with the partition's table; nothing is cached. Dependence counters and how they fire (R288),
the ready pool (R293), fault records that wait (R262).
-/

namespace Sys2Proof.Machine

/-! Accesses. -/

/-- An access of the Millrace, or of another agent that asks before it begins again (`State.missing`), lacks a line. -/
def State.miss (s : State) : Stop → State
  | .stall (.far l) => s.onLinks fun x => { x with missed := l :: x.missed }
  | _ => s

/-- The location of n bytes within a granule, after the checks of R330 in their order, or why there is none. -/
def State.agentCheck (s : State) (d part va n : Nat) (k : Kind) : Except Stop Nat × State :=
  if 2 ^ 57 ≤ va ∨ inRegion va then (.error (.bad .dataXlt), s)
  else
    match s.walk d va 5 (s.part part).record.ptroot 0 with
    | (.error e, s) => (.error (e.stop .dataXlt), s)
    | (.ok (leaf, level), s) =>
      let t := leafEntry part va leaf level
      let a := s.physOf t va
      if !s.filledAt a n then (.error (.bad .dataXlt), s)
      else if !s.permits part t k then (.error (.bad .perm), s)
      else if t.poisoned then (.error (.bad .poison), s)
      else if k.writes && t.migrating then (.error (.stall (.migr va)), s)
      else if s.poisonHit a n false then (.error (.bad .poison), s)
      else if s.unreachable a then (.error (.bad .peer), s)
      else if k.writes && NSet.has (a / 128) s.dom.hostLines then (.error (.stall (.snoop (a / 128))), s)
      else if k.reads && s.lacks d a then (.error (s.lackStop d a), s.ask d a)
      else (.ok a, s)

/-- The location of n bytes within a granule, as an agent without a core reaches it. -/
def State.agentLoc (s : State) (d part va n : Nat) (k : Kind) : Except Stop Nat × State :=
  match s.agentCheck d part va n k with
  | (.error x, s) => (.error x, s.miss x)
  | r => r

/-- What `t`, which follows from `s`, has lacked: the lines are asked for, nothing else has happened, and one of them is named; nothing
where it has lacked none. -/
def State.missing (s t : State) : Option (Nat × State) :=
  let new := t.links.missed.take (t.links.missed.length - s.links.missed.length)
  new.head?.map fun l => (l, new.foldl (fun s l => s.ask s.millDie (128 * l)) s)

/-- What the Millrace does, once every line that it reads for it is there (R346). -/
def State.onceThere (s t : State) : State :=
  match s.missing t with
  | some x => x.2
  | none => t

/-- Why an agent's access does not go on, and the address. -/
abbrev AgentFail := Stop × Nat

/-- Bytes read granule by granule, `fuel` bounding the granules. -/
def State.agentReadF (d part : Nat) : Nat → Nat → Nat → State → Except AgentFail (List Byte) × State
  | 0, _, _, s => (.ok [], s)
  | fuel + 1, va, n, s =>
    if n = 0 then (.ok [], s)
    else
      let m := min n (16 - va % 16)
      match s.agentLoc d part va m .read with
      | (.error c, s) => (.error (c, va), s)
      | (.ok a, s) =>
        let s := s.readSync d a
        let bs := s.bytesAt d a m
        match State.agentReadF d part fuel (va + m) (n - m) s with
        | (.ok r, s) => (.ok (bs ++ r), s)
        | r => r

/-- n bytes at a virtual address. -/
def State.agentRead (s : State) (d part va n : Nat) : Except AgentFail (List Byte) × State := State.agentReadF d part n va n s

/-- R420: a write of a whole granule by an engine or a host clears its poison. -/
def State.clearPoison (s : State) (a : Nat) (bs : List Byte) : State :=
  if a % 16 = 0 ∧ bs.length = 16 then { s with poison := NSet.del (a / 16) s.poison } else s

/-- Bytes written granule by granule; nothing is undone where a later granule fails. -/
def State.agentWriteF (d part quad : Nat) : Nat → Nat → List Byte → State → Except AgentFail Unit × State
  | 0, _, _, s => (.ok (), s)
  | fuel + 1, va, bs, s =>
    if bs.isEmpty then (.ok (), s)
    else
      let m := min bs.length (16 - va % 16)
      match s.agentLoc d part va m .write with
      | (.error c, s) => (.error (c, va), s)
      | (.ok a, s) => State.agentWriteF d part quad fuel (va + m) (bs.drop m) (s.write d quad a (bs.take m))

/-- Bytes written at a virtual address. -/
def State.agentWrite (s : State) (d part quad va : Nat) (bs : List Byte) : Except AgentFail Unit × State :=
  State.agentWriteF d part quad bs.length va bs s

/-- 8 bytes at their home swapped for `x` (R349): what they held; `e` is the atomic that has gone to another package for it already. -/
def State.agentSwap (s : State) (d part va x : Nat) (e : Option Errand) : Except AgentFail Nat × State :=
  match s.agentLoc d part va 8 .atomic with
  | (.error c, s) => (.error (c, va), s)
  | (.ok a, s) =>
    if s.far a then
      match s.atomicFar d a 8 (.amo .swap x 0) e with
      | (.ok (bs, none), s) => (.ok (leNat bs), s)
      | (.ok (_, some c), s) => (.error (.bad c.cause, va), s)
      | (.error tag, s) => (.error (.stall (.home (homeDie a) tag), va), s)
    else
      let r := s.atomicNear d noQuad a 8 (.amo .swap x 0)
      (.ok (leNat r.1), r.2)

/-- A physical number of n bytes, read by the Millrace. -/
def State.physNat (s : State) (a n : Nat) : Nat := leNat (s.bytesAt s.millDie a n)

/-! The ready pool (R293). -/

/-- Changes the Millrace. -/
def State.onMill (s : State) (f : Millrace → Millrace) : State := { s with mill := f s.mill }
/-- A node run. -/
def State.node? (s : State) (n : Nat) : Option NodeRun := s.mill.nodes.get? n
/-- Changes a node run that exists. -/
def State.onNode (s : State) (n : Nat) (f : NodeRun → NodeRun) : State :=
  match s.node? n with
  | some x => s.onMill fun m => { m with nodes := NMap.set n (f x) m.nodes }
  | none => s

/-- Nodes of a partition in the pool. -/
def State.poolOf (s : State) (part : Nat) : Nat :=
  (s.mill.pool.filter fun n => match s.node? n with | some x => x.part == part | none => false).length

/-- The record of a partition as the Millrace goes by it in this period (R394). -/
def State.millRec (s : State) (part : Nat) : PartRec := (s.mill.inForce.get? part).getD (s.part part).record

/-- The partition's own share of the pool has room. -/
def State.shareRoom (s : State) (part : Nat) : Bool := decide (s.poolOf part < (s.millRec part).pool)

/-- The pool has room for a node of a partition: its own share, or what no other partition's share takes. -/
def State.poolRoom (s : State) (part : Nat) : Bool :=
  let others := (s.parts.filter fun p => p.1 != part && p.2.st != .absent).map fun p => (s.millRec p.1).pool - s.poolOf p.1
  s.shareRoom part || decide (s.mill.pool.length + others.foldl (· + ·) 0 < 16384)

/-- A node that fires now passes no node that waits outside the pool: none of its partition where it takes a place of the
partition's share, none at all where it takes another place. -/
def State.poolTurn (s : State) (part : Nat) : Bool :=
  s.mill.outside.all fun k => s.shareRoom part && match s.node? k with | some y => y.part != part | none => true

/-- A node enters the ready pool, or waits outside it. -/
def State.nodeReady (s : State) (n : Nat) : State :=
  match s.node? n with
  | none => s
  | some x =>
    if x.st != .waiting then s
    else if s.poolRoom x.part && s.poolTurn x.part then
      (s.onNode n fun x => { x with st := .ready }).onMill fun m => { m with pool := m.pool ++ [n] }
    else (s.onNode n fun x => { x with st := .outside }).onMill fun m => { m with outside := m.outside ++ [n] }

/-! Dependence counters (R288). -/

/-- A counter. -/
def State.ctr (s : State) (c : Nat) : Ctr := s.mill.ctrs.getD c Ctr.reset
/-- A counter replaced; one at its reset value has no entry. -/
def State.setCtr (s : State) (c : Nat) (x : Ctr) : State :=
  s.onMill fun m => { m with ctrs := if x = Ctr.reset then NMap.del c m.ctrs else NMap.set c x m.ctrs }

/-- The counter returns to IDLE with count 0. -/
def State.idleCtr (s : State) (c : Nat) : State := s.setCtr c Ctr.reset

/-- The partition whose range holds a counter. -/
def State.ctrPart (s : State) (c : Nat) : Option Nat :=
  (s.parts.find? fun p => p.2.st != .absent && decide (p.2.record.ctrBase ≤ c) && decide (c ≤ p.2.record.ctrLast)).map (·.1)

/-- COUNTER_UNDERFLOW: an update meets a FIRED counter. -/
def State.underflow (s : State) (c : Nat) : State :=
  match s.ctrPart c with
  | some p => s.onMill fun m => { m with underflow := m.underflow.upd p 0 (· + 1) }
  | none => s

/-- The counter takes a new count, and COUNTER_FIRE where it is bound and the count is 0. -/
def State.ctrTo (s : State) (c n : Nat) : State :=
  let x := s.ctr c
  match x.st with
  | .idle => s.setCtr c { x with count := n }
  | .fired => s.underflow c
  | .armed =>
    if n ≠ 0 then s.setCtr c { x with count := n }
    else
      let s := s.setCtr c { x with count := 0, st := .fired }
      match x.bound with
      | some (.node k) => s.nodeReady k
      | _ => s

/-- `dcset` and what has its effect. -/
def State.ctrSet (s : State) (c n : Nat) : State := s.ctrTo c n
/-- A decrement by n > 0. -/
def State.ctrDec (s : State) (c n : Nat) : State := s.ctrTo c ((s.ctr c).count - n)

/-- A counter that is IDLE is bound: ARMED, or FIRED where its count is 0. No other state lists the event, so one that is bound already
stays as it is (R3). -/
def State.bindCtr (s : State) (c count : Nat) (b : CtrBind) : State :=
  if (s.ctr c).st ≠ .idle then s else (s.setCtr c { count := count + 1, st := .armed, bound := some b }).ctrDec c 1

/-! The Millrace's budgets (R297, R393). -/

/-- The partition has Millrace operations left in the period. -/
def State.budgetLeft (s : State) (part : Nat) : Bool :=
  decide (s.mill.used.getD part 0 < 4 * (s.millRec part).schedBud)

/-- One Millrace operation counted. -/
def State.spend (s : State) (part : Nat) : State := s.onMill fun m => { m with used := m.used.upd part 0 (· + 1) }

/-- A decrement that is one of a partition's operations: it waits, behind those that wait already, where the partition has used its
budget. -/
def State.update (s : State) (part c n : Nat) : State :=
  if s.budgetLeft part ∧ s.mill.updates.all (fun u => u.1 != part) then (s.spend part).ctrDec c n
  else s.onMill fun m => { m with updates := m.updates ++ [(part, c, n)] }

/-- The decrements that wait, in their order, as far as the budgets go. -/
def State.serveUpdates (s : State) : State :=
  s.mill.updates.foldl (fun s u => s.update u.1 u.2.1 u.2.2) (s.onMill fun m => { m with updates := [] })

/-- A counter word (R194): the counter where CV is set. -/
def wordCtr (x : Word) : Option Nat := if x.getLsbD 16 then some (x.toNat % 2 ^ 16) else none

/-- The counter lies in the partition's range. -/
def State.ownCtr (s : State) (part c : Nat) : Bool :=
  let r := (s.part part).record
  decide (r.ctrBase ≤ c) && decide (c ≤ r.ctrLast)

/-- The counter is the fault counter or a reply counter of the partition (R265). -/
def State.faultCtr (s : State) (part c : Nat) : Bool :=
  let b := (s.part part).record.ctrBase
  decide (b ≤ c) && decide (c ≤ b + 256)
/-- The counter is a reply counter of the partition. -/
def State.replyCtr (s : State) (part c : Nat) : Bool := s.faultCtr part c && c != (s.part part).record.ctrBase

/-- The decrement of a completion (R21, R194). -/
def State.ctrDone (s : State) (part : Nat) (c : Option Nat) : State :=
  match c with
  | some c => s.update part c 1
  | none => s

/-- A counter named at issue lies outside the partition's range (R194, R298). -/
def State.ctrTrap (s : State) (c : Nat) (tval : Word) : Option Trap :=
  if s.ownCtr s.act.part c then none else some (Trap.posted .perm tval 0)

/-! Fault records with ENG (R262, R263). -/

/-- A record for an engine operation, a query or a launch; SPC, VSTART and MSTART are free (log entry 18). -/
def State.engReport (s : State) (part : Nat) (owner : FaultOf) (epc tval : Word) (cause : BitVec 8) (core strand : Nat) : State :=
  let (a, s) := s.draw (2 ^ 64)
  let (b, s) := s.draw (2 ^ 32)
  let (c, s) := s.draw (2 ^ 32)
  s.report { part := part, owner := owner, epc := epc, tval := tval, spc := BitVec.ofNat 64 a, cause := cause
             flags := recFlags false false false true false, core := core, strand := strand, vstart := b, mstart := c }

/-- The cause of an error code of R253. -/
def qCause (err : Nat) : BitVec 8 :=
  (match err with | 3 => Cause.dataXlt | 4 => .perm | 5 => .poison | 6 => .peer | _ => .query).code

/-- The hardware slot of a strand. -/
def State.slotOf (s : State) (sid : Nat) : Nat := ((s.strand? sid).map (·.hwSlot)).getD 0

/-- The strand with a number ends; a FAILED query that it has not observed gets a record (R248, R270). -/
def State.haltStrand (s : State) (sid : Nat) : State :=
  let slot := s.slotOf sid
  let failed := s.queries.filter fun q => q.2.sid == sid && q.2.st == .failed
  let s := failed.foldl (fun s q => s.engReport q.2.part .none q.2.epc q.2.errAddr (qCause q.2.err) q.2.core slot) s
  ((s.onStrand sid Strand.halted).freeQueries sid).freeOps sid

end Sys2Proof.Machine
end

