-- ==== Sys2Proof/Machine/Sha512.lean ====
section
/-!
DEFINITION. SHA-512, which the manual names (R280, R399, R400) and does not define: it is that of FIPS 180-4 (PRESUMED, log
entry 9).
-/

namespace Sys2Proof.Machine

/-- The first primes below a bound, ascending. -/
def primesBelow (n : Nat) : List Nat :=
  (List.range n).filter fun p => decide (2 ≤ p) && (List.range p).all fun d => decide (d < 2) || p % d != 0

/-- The greatest root of exponent e that agrees with r above bit i, bit by bit from bit i down. -/
def rootBits (e n : Nat) : Nat → Nat → Nat
  | 0, r => r
  | i + 1, r => rootBits e n i (if (r + 2 ^ i) ^ e ≤ n then r + 2 ^ i else r)

/-- The first 64 bits of the fraction of a square root. -/
def sqrtFrac (p : Nat) : Word := BitVec.ofNat 64 (rootBits 2 (p * 2 ^ 128) 70 0)
/-- The first 64 bits of the fraction of a cube root. -/
def cbrtFrac (p : Nat) : Word := BitVec.ofNat 64 (rootBits 3 (p * 2 ^ 192) 70 0)

/-- The initial hash value: from the first 8 primes. -/
def shaInit : List Word := (primesBelow 20).map sqrtFrac
/-- The 80 constants: from the first 80 primes. -/
def shaK : List Word := (primesBelow 410).map cbrtFrac

/-- The 80 words of a block's schedule, the latest first, `n` of them being left to form. -/
def shaSchedule : Nat → List Word → List Word
  | 0, l => l
  | n + 1, l =>
    let x := l.getD 1 0
    let y := l.getD 14 0
    let s1 := x.rotateRight 19 ^^^ x.rotateRight 61 ^^^ (x >>> 6)
    let s0 := y.rotateRight 1 ^^^ y.rotateRight 8 ^^^ (y >>> 7)
    shaSchedule n ((s1 + l.getD 6 0 + s0 + l.getD 15 0) :: l)

/-- One round: the eight working variables after it. -/
def shaRound (v : List Word) (kw : Word) : List Word :=
  match v with
  | [a, b, c, d, e, f, g, h] =>
    let s1 := e.rotateRight 14 ^^^ e.rotateRight 18 ^^^ e.rotateRight 41
    let t1 := h + s1 + ((e &&& f) ^^^ (~~~e &&& g)) + kw
    let s0 := a.rotateRight 28 ^^^ a.rotateRight 34 ^^^ a.rotateRight 39
    let t2 := s0 + ((a &&& b) ^^^ (a &&& c) ^^^ (b &&& c))
    [t1 + t2, a, b, c, d + t1, e, f, g]
  | v => v

/-- A big-endian word of eight bytes. -/
def beWord (b : List Byte) : Word := BitVec.ofNat 64 (b.foldl (fun acc x => 256 * acc + x.toNat) 0)
/-- The bytes of a number, the highest first. -/
def beBytes (n x : Nat) : List Byte := (leBytes n x).reverse

/-- The hash value after a block of 128 bytes. -/
def shaBlock (h : List Word) (b : List Byte) : List Word :=
  let w := (shaSchedule 64 ((List.range 16).map fun i => beWord ((b.drop (8 * i)).take 8)).reverse).reverse
  ((shaK.zip w).foldl (fun v p => shaRound v (p.1 + p.2)) h).zipWith (· + ·) h

/-- The hash value after all blocks, of which there are n. -/
def shaBlocks : Nat → List Byte → List Word → List Word
  | 0, _, h => h
  | n + 1, b, h => shaBlocks n (b.drop 128) (shaBlock h (b.take 128))

/-- The digest of a string of bytes: byte i of the digest stands at bits 8·i. -/
def sha512 (m : List Byte) : BitVec 512 :=
  let blocks := (m.length + 17 + 127) / 128
  let pad := m ++ [0x80] ++ List.replicate (128 * blocks - m.length - 17) 0 ++ beBytes 16 (8 * m.length)
  BitVec.ofNat 512 (leNat ((shaBlocks blocks pad shaInit).flatMap fun x => beBytes 8 x.toNat))

end Sys2Proof.Machine
end

