-- ==== Sys2Proof/Machine/Mill.lean ====
section
/-!
DEFINITION. The Millrace: kernels (R276 to R281), graphs and replays (R283 to R291), the completion of nodes (R286, R287),
records and replies (R262 to R266).
-/

namespace Sys2Proof.Machine

/-! Kernels. -/

/-- A little-endian field of n bytes at an offset. -/
def field (bs : List Byte) (off n : Nat) : Nat := leNat ((bs.drop off).take n)
/-- Bytes from an offset are all zero. -/
def zeros (bs : List Byte) (off n : Nat) : Bool := ((bs.drop off).take n).all (· == 0)

/-- A header as its bytes give it (R277). -/
def headerOf (b : List Byte) : Header :=
  { cls := field b 4 1 % 4, clMin := field b 5 1, clMax := field b 6 1, slots := field b 7 1, spOff := field b 8 2
    spLen := field b 10 2, fid := BitVec.ofNat 3 (field b 12 1), repro := field b 13 1 % 2 == 1
    ctrl := field b 13 1 / 2 % 2 == 1, ebud := field b 14 2, nconst := field b 16 2, entry := field b 24 8
    codeEnd := field b 32 8, handler := field b 40 8, data := field b 56 8 }

/-- An offset of a word of the code. -/
def inCode (x codeEnd : Nat) : Bool := x % 8 == 0 && decide (128 ≤ x) && decide (x + 8 ≤ codeEnd)

/-- R279: the checks 1 to 4 on the header, in their order. They read no byte from 32 to 63. -/
def headerFault (base : Nat) (b : List Byte) : Option Nat :=
  let h := headerOf b
  if base % 2 ^ 16 ≠ 0 ∨ field b 0 4 ≠ 1 ∨ field b 4 1 / 4 ≠ 0 ∨ field b 12 1 / 8 ≠ 0 ∨ field b 13 1 / 4 ≠ 0 ∨
      !zeros b 18 6 ∨ !zeros b 72 56 then some 1
  else if h.cls = 3 ∨ h.clMin = 0 ∨ 8 < h.clMin ∨ h.clMax < h.clMin ∨ 8 < h.clMax then some 2
  else if 32 < h.slots ∨ (16 < h.slots ∧ h.cls ≠ 1) then some 3
  else if h.spOff % 4 ≠ 0 ∨ h.spLen % 4 ≠ 0 ∨ 2048 < h.spOff + h.spLen then some 4
  else none

/-- R279: the checks 5 to 7. -/
def layoutFault (b : List Byte) : Option Nat :=
  let h := headerOf b
  if 256 < h.nconst ∨ field b 48 8 ≠ h.codeEnd then some 5
  else if h.codeEnd % 8 ≠ 0 ∨ h.codeEnd ≤ 128 ∨ !inCode h.entry h.codeEnd ∨
      (h.handler ≠ 0 ∧ !inCode h.handler h.codeEnd) ∨ (h.ctrl ∧ h.handler = 0) then some 6
  else if h.data % 2 ^ 16 ≠ 0 ∨ h.data < h.codeEnd + 4 * h.nconst ∨ field b 64 8 < h.data then some 7
  else none

/-- A full word with OP 0xB8 to 0xBB. -/
def isQueryWord (w : Nat) : Bool := w / 2 ^ 62 == 0 && decide (0xB8 ≤ w / 2 ^ 54 % 256) && decide (w / 2 ^ 54 % 256 ≤ 0xBB)

/-- Check 8: whether the n words of code from an address hold a query opcode; nothing where one cannot be read. -/
def State.scanCode (d part : Nat) : Nat → Nat → Bool → State → Option Bool × State
  | 0, _, q, s => (some q, s)
  | n + 1, va, q, s =>
    match s.agentRead d part va 8 with
    | (.ok b, s) => State.scanCode d part n (va + 8) (q || isQueryWord (leNat b)) s
    | (.error _, s) => (none, s)

/-- Check 9: every page from an address up to the end of the code image is executable and ends there; the region that is not translated and
addresses above it never are (R325). -/
def State.codePages (s : State) (d part stop : Nat) : Nat → Nat → Bool × State
  | 0, _ => (true, s)
  | n + 1, va =>
    if stop ≤ va then (true, s)
    else if 2 ^ 57 ≤ va ∨ inRegion va then (false, s)
    else
      match s.walk d va 5 (s.part part).record.ptroot 0 with
      | (.error e, s) => (false, s.miss (e.stop .fetchXlt))
      | (.ok (leaf, level), s) =>
        let e := va / leafSize level * leafSize level + leafSize level
        if leaf.getLsbD 4 && decide (e ≤ stop) then s.codePages d part stop n e else (false, s)

/-- R280: the digest of an image is logged; its range is locked by the kernel's entry. -/
def State.measure (s : State) (part base : Nat) (image : List Byte) : State :=
  let p := s.part part
  let entry := leBytes 64 (sha512 image).toNat ++ leBytes 8 base
  let at_ := 72 * p.logLen
  let s := if at_ + 72 ≤ 2 ^ 18 then s.physWrite (p.record.mlog + at_) entry else s
  let dig := sha512 (leBytes 64 p.digest.toNat ++ entry)
  { s with parts := s.parts.upd part Part.absent fun p => { p with logLen := p.logLen + 1, digest := dig } }

/-- The resident kernel of a partition at a base. -/
def State.kernel? (s : State) (part base : Nat) : Option Kernel :=
  s.mill.kernels.find? fun k => k.part == part && k.base == base

/-- R279: the header at a base, read as the checks 1 to 7 need it, or the reason of the first that fails. -/
def State.header (s : State) (d part base : Nat) : Except Nat Header × State :=
  match s.agentRead d part base 32 with
  | (.error _, s) => (.error 13, s)
  | (.ok lo, s) =>
    match s.agentRead d part (base + 64) 64 with
    | (.error _, s) => (.error 13, s)
    | (.ok hi, s) =>
      match headerFault base (lo ++ List.replicate 32 0 ++ hi) with
      | some r => (.error r, s)
      | none =>
        match s.agentRead d part (base + 32) 32 with
        | (.error _, s) => (.error 13, s)
        | (.ok mid, s) =>
          match layoutFault (lo ++ mid ++ hi) with
          | some r => (.error r, s)
          | none => (.ok (headerOf (lo ++ mid ++ hi)), s)

/-- KERNEL_VERIFY (R279, R281): the kernel, or the reason of its rejection; `user` where a user strand launches it. -/
def State.verify (s : State) (part base : Nat) (user : Bool) : Except Nat Kernel × State :=
  let ten (k : Kernel) : Except Nat Kernel := if k.hdr.ctrl && user then .error 10 else .ok k
  match s.kernel? part base with
  | some k => (ten k, s)
  | none =>
    let d := s.millDie
    if base % 2 ^ 16 ≠ 0 then (.error 1, s)
    else
      match s.header d part base with
      | (.error r, s) => (.error r, s)
      | (.ok h, s) =>
          match State.scanCode d part ((h.codeEnd - 128) / 8) (base + 128) false s with
          | (none, s) => (.error 13, s)
          | (some q, s) =>
            let pages := s.codePages d part (base + h.data) (h.data / 2 ^ 16) base
            let s := pages.2
            if h.cls = 1 ∧ q then (.error 8, s)
            else if !pages.1 then (.error 9, s)
            else if h.ctrl && user then (.error 10, s)
            else if 256 ≤ (s.mill.kernels.filter fun k => k.part == part).length then (.error 11, s)
            else
              match s.agentRead d part base h.data with
              | (.error _, s) => (.error 13, s)
              | (.ok image, s) =>
                let k : Kernel := { base := base, part := part, ref := 0, hdr := h, query := q }
                (.ok k, (s.measure part base image).onMill fun m => { m with kernels := m.kernels ++ [k] })

/-- REF of a kernel changed. -/
def State.kref (s : State) (part base : Nat) (f : Nat → Nat) : State :=
  s.onMill fun m => { m with kernels := m.kernels.map fun k => if k.part == part && k.base == base then { k with ref := f k.ref } else k }

/-- R281: the graph of a replay that has been launched names one kernel more: REF counts it until the graph retires. -/
def State.nameKernel (s : State) (replay : Option Nat) (part base : Nat) : State :=
  match replay.bind fun id => (s.mill.replays.get? id).map fun r => (id, r) with
  | none => s
  | some (id, r) =>
    if r.kernels.contains base then s
    else (s.kref part base (· + 1)).onMill fun m => { m with replays := NMap.set id { r with kernels := r.kernels ++ [base] } m.replays }

/-! Graph and node records (R283, R284). -/

/-- A node record as its bytes give it. -/
def nodeOf (part recAddr : Nat) (b : List Byte) : NodeRun :=
  { part := part, recAddr := recAddr, replay := none, gate := none, kernel := field b 0 8, hdr := Header.zero
    nstr := field b 8 2
    tier := match field b 10 1 with | 0 => .core | 1 => .pair | 2 => .quad | 3 => .stack | _ => .domain
    queue := field b 11 1, succ := (List.range (field b 14 1)).map fun j => field b (16 + 2 * j) 2, param := recAddr, slot := 0
    boot := false, st := .waiting, age := 0, members := [], due := [], errs := 0, epc := 0, core := 0, user := true, verified := false
    sailOnly := false, killed := false }

/-- Most strands of a tier (R301). -/
def tierCap : Tier → Nat
  | .core => 8 | .pair => 16 | .quad => 64 | .stack => 1024 | .domain => 1024

/-- A node record is malformed (R284, R289, R301). -/
def nodeBad (b : List Byte) : Bool :=
  let n := nodeOf 0 0 b
  decide (4 < field b 10 1) || decide (15 < n.queue) || decide (4 < field b 14 1) || !zeros b 15 1 || !zeros b 28 4 ||
  n.nstr == 0 || decide (tierCap n.tier < n.nstr) ||
  (List.range 6).any fun t => decide (3 < field b (44 + 16 * t) 1) || !zeros b (45 + 16 * t) 3

/-- A graph record as its bytes give it. -/
structure Graph where
  nn : Nat
  nrep : Nat
  dirty : Nat
  nodes : Nat
  stage : Nat
  plen : Nat
  cbase : Nat
  genBase : Nat
  gen : Nat
deriving DecidableEq, Repr

/-- The fields of R283. -/
def graphOf (b : List Byte) : Graph :=
  { nn := field b 4 2, nrep := field b 6 1, dirty := field b 8 8, nodes := field b 16 8, stage := field b 24 8
    plen := field b 32 4, cbase := field b 36 2, genBase := field b 40 8, gen := field b 48 8 }

/-- A graph record is malformed (R283, R289). -/
def graphBad (b : List Byte) : Bool :=
  let g := graphOf b
  field b 0 4 != 1 || !zeros b 7 1 || !zeros b 38 2 || !zeros b 56 8 || g.nn == 0 || decide (1024 < g.nn) ||
  g.nrep == 0 || decide (4 < g.nrep) || g.plen % 64 != 0 || g.plen == 0 || decide (4096 < g.plen)

/-! Replays (R289, R290). -/

/-- The node records of a graph, in order, up to the first that is malformed or cannot be read. -/
def State.readNodes (s : State) (part base : Nat) : Nat → Nat → Except Nat (List NodeRun) × State
  | 0, _ => (.ok [], s)
  | n + 1, i =>
    let va := base + 128 * i
    match s.agentRead s.millDie part va 128 with
    | (.error _, s) => (.error va, s)
    | (.ok b, s) =>
      if nodeBad b then (.error va, s)
      else
        match s.readNodes part base n (i + 1) with
        | (.ok r, s) => (.ok ({ nodeOf part va b with age := field b 12 2 } :: r), s)
        | e => e

/-- A launch which is still PENDING names a kernel, by its graph's records as they stand (R281), or may name it while a record on another
package is not there. -/
def State.names (s : State) (r : Replay) (base : Nat) : Bool :=
  match s.agentRead s.millDie r.part r.graph 64 with
  | (.ok b, u) =>
    (match u.readNodes r.part (graphOf b).nodes (graphOf b).nn 0 with
     | (.ok ns, _) => ns.any fun n => n.kernel == base
     | (.error _, u) => (s.missing u).isSome)
  | (.error _, u) => (s.missing u).isSome

/-- KERNEL_RELEASE (R281): a kernel with REF 0, which no launch in PENDING names, with no strand but halted ones and no node to
run, is ABSENT. -/
def State.releaseKernels (s : State) : State :=
  s.onMill fun m => { m with kernels := m.kernels.filter fun k =>
    k.ref != 0 ||
    (s.strands.any fun a => a.part == k.part && a.base.toNat == k.base && a.life != .halted) ||
    (m.nodes.any fun n => n.2.part == k.part && n.2.kernel == k.base && n.2.st != .complete && n.2.st != .discarded) ||
    (m.replays.any fun r => r.2.st == .pending && r.2.part == k.part && s.names r.2 k.base) }

/-- A replay is gone with a fault record (FAILED). -/
def State.replayFails (s : State) (id : Nat) (r : Replay) (tval : Nat) (c : Cause) : State :=
  ((s.engReport r.part .none r.epc (BitVec.ofNat 64 tval) c.code r.core 0).onMill fun m =>
    { m with replays := NMap.del id m.replays }).releaseKernels

/-- The kernels of nodes verified, in order, up to the first that is rejected: each node with its header. -/
def State.readKernels (s : State) (user : Bool) : List NodeRun → Except Nat (List NodeRun) × State
  | [] => (.ok [], s)
  | n :: r =>
    match s.verify n.part n.kernel user with
    | (.error reason, s) => (.error (n.kernel + reason), s)
    | (.ok k, s) =>
      match s.readKernels user r with
      | (.ok l, s) =>
        (.ok ({ n with hdr := k.hdr, verified := true, sailOnly := k.hdr.cls == 2 || (k.hdr.cls == 0 && k.query) } :: l), s)
      | e => e

/-- A generation slot of a graph is held by another replay. -/
def State.genHeld (s : State) (id : Nat) (r : Replay) (q : Nat) : Bool :=
  s.mill.replays.any fun x => x.1 != id && x.2.part == r.part && x.2.graph == r.graph && x.2.st != .pending && x.2.gen % 4 == q

/-- The lowest replay slot that is free. -/
def State.freeSlot (s : State) (id : Nat) (r : Replay) (nrep : Nat) : Option Nat :=
  (List.range nrep).find? fun i =>
    !(s.mill.replays.any fun x => x.1 != id && x.2.part == r.part && x.2.graph == r.graph && x.2.st != .pending && x.2.slot == i)

/-- R290: DIRTY is swapped with 0 at its home; where it was not 0 the parameters are copied and GEN counts. The generation. -/
def State.snapshot (s : State) (r : Replay) (g : Graph) : Except AgentFail Nat × State :=
  let d := s.millDie
  let n := g.nn * g.plen
  match s.agentSwap d r.part (r.graph + 8) 0 r.errand with
  | (.error e, s) => (.error e, s)
  | (.ok 0, s) => (.ok g.gen, s)
  | (.ok _, s) =>
    match s.agentRead d r.part g.stage n with
    | (.error e, s) => (.error e, s)
    | (.ok bs, s) =>
      match s.agentWrite d r.part noQuad (g.genBase + (g.gen + 1) % 4 * n) bs with
      | (.error e, s) => (.error e, s)
      | (.ok _, s) =>
        match s.agentWrite d r.part noQuad (r.graph + 48) (leBytes 8 (g.gen + 1)) with
        | (.error e, s) => (.error e, s)
        | (.ok _, s) => (.ok ((g.gen + 1) % 2 ^ 64), s.performAt d .domain)

/-- A replay goes LIVE: its nodes run under new numbers, their counters loaded with INIT and bound. -/
def State.goLive (s : State) (id : Nat) (r : Replay) (g : Graph) (slot gen : Nat) (ns : List NodeRun) : State :=
  let first := s.mill.nextId
  let c0 := g.cbase + slot * g.nn
  let runs := ns.zipIdx.map fun x => (first + x.2, { x.1 with
    replay := some id, gate := some (c0 + x.2), succ := x.1.succ.map (c0 + ·), slot := slot, epc := r.epc, core := r.core
    param := g.genBase + gen % 4 * (g.nn * g.plen) + x.2 * g.plen, age := 0 })
  let kernels := (ns.map (·.kernel)).eraseDups
  let mine := ((List.range g.nn).map (c0 + ·)).filter fun c => (s.ctr c).st == .idle
  let s := s.onMill fun m => { m with
    nextId := first + ns.length
    nodes := m.nodes ++ runs
    replays := NMap.set id { r with
      st := .live, slot := slot, gen := gen, kernels := kernels, ctrs := mine, errand := none } m.replays }
  let s := kernels.foldl (fun s k => s.kref r.part k (· + 1)) s
  ns.zipIdx.foldl (fun s x => s.bindCtr (c0 + x.2) x.1.age (.node (first + x.2))) s

/-- DIRTY as the Millrace finds it at its home, or at its die where the home is on another package. -/
def State.dirty (s : State) (r : Replay) : Nat :=
  match s.agentLoc s.millDie r.part (r.graph + 8) 8 .read with
  | (.ok a, s) =>
    if s.far a then leNat (s.bytesAt s.millDie a 8)
    else let s := s.exchange s.millDie (homeDie a); leNat (s.bytesAt (homeDie a) a 8)
  | (.error _, _) => 0

/-- REPLAY_VERIFY (R289): a replay in VERIFYING, bound to a slot and a generation, fails or goes LIVE. -/
def State.verifyReplay (s : State) (id : Nat) (r : Replay) (b : List Byte) (slot gen : Nat) : State :=
  let g := graphOf b
  if graphBad b then s.replayFails id r r.graph .illegal
  else
    match s.readNodes r.part g.nodes g.nn 0 with
    | (.error va, s) => s.replayFails id r va .illegal
    | (.ok ns, s) =>
      match s.readKernels r.user ns with
      | (.error tv, s) => s.replayFails id r tv .illegal
      | (.ok ns, s) =>
        let c0 := g.cbase + slot * g.nn
        match (List.range g.nn).find? fun i => !s.ownCtr r.part (c0 + i) || s.faultCtr r.part (c0 + i) with
        | some i => s.replayFails id r (c0 + i) .perm
        | none => s.goLive id r g slot gen ns

/-- The swap of a replay's DIRTY is on its way to another package's home. -/
def State.sent (s : State) (id : Nat) (r : Replay) (home tag : Nat) : State :=
  s.onMill fun m => { m with replays := NMap.set id { r with errand := some { tag := tag, home := home, answer := none } } m.replays }

/-- REPLAY_BIND (R289, R290): a replay leaves PENDING where a slot is free, and a generation where DIRTY is not 0; one whose
access to its record waits stays (R370). NREP outside its range counts as the nearest number in it (log entry 37). -/
def State.bindReplay (s0 : State) (id : Nat) : State :=
  match s0.mill.replays.get? id with
  | none => s0
  | some r =>
    let earlier := s0.mill.replays.any fun x => decide (x.1 < id) && x.2.st == .pending && x.2.part == r.part && x.2.graph == r.graph
    if r.st != .pending ∨ earlier then s0
    else
      match s0.agentRead s0.millDie r.part r.graph 64 with
      | (.error _, s) => s.replayFails id r r.graph .illegal
      | (.ok b, s) =>
        let g := graphOf b
        match s.freeSlot id r (max 1 (min 4 g.nrep)) with
        | none => s0
        | some slot =>
          if r.errand = none ∧ s.dirty r ≠ 0 ∧ s.genHeld id r ((g.gen + 1) % 4) then s0
          else
            match s.snapshot r g with
            | (.error (.stall (.home home tag), _), s) => if r.errand = none then s.sent id r home tag else s0
            | (.error (.stall _, _), _) => s0
            | (.error (.bad _, _), s) => s.replayFails id r r.graph .illegal
            | (.ok gen, s) => s.verifyReplay id r b slot gen

/-- A strand of a node has not halted. -/
def State.nodeLive (s : State) (n : Nat) : Bool := s.strands.any fun a => a.node == n && a.life != .halted

/-- Strands that have halted and whose node is over leave the machine; the acting one stays as it is. -/
def State.forget (s : State) (n : Nat) : State :=
  { (s.onMill fun m => { m with splits := m.splits.filter fun x => x.node != n }) with
    parked := s.parked.filter fun a => !(a.node == n && a.life == .halted) }

/-- The counters that a replay has bound: those that it names, and the fault counter where it gates one of its nodes. -/
def State.replayCtrs (s : State) (id : Nat) (r : Replay) : List Nat :=
  r.ctrs ++ s.mill.nodes.filterMap fun n =>
    if n.2.replay == some id then n.2.gate.filter fun c => (s.ctr c).bound == some (.node n.1) else none

/-- A replay is over: its counters are IDLE, and a decrement of one that waits for its partition's budget is of no effect any more (R288);
its nodes, its generation and its kernels are released. -/
def State.endReplay (s : State) (id : Nat) (r : Replay) : State :=
  let ctrs := s.replayCtrs id r
  let nodes := s.mill.nodes.filter fun n => n.2.replay == some id
  let s := ctrs.foldl State.idleCtr s
  let s := r.kernels.foldl (fun s k => s.kref r.part k (· - 1)) s
  let s := nodes.foldl (fun s n => s.forget n.1) s
  (s.onMill fun m => { m with
    updates := m.updates.filter fun u => !ctrs.contains u.2.1
    replays := NMap.del id m.replays
    nodes := m.nodes.filter fun n => n.2.replay != some id }).releaseKernels

/-- Every strand of a node has come, and has halted. -/
def State.nodeEnded (s : State) (n : Nat) (x : NodeRun) : Bool := !x.members.isEmpty && x.due.isEmpty && !s.nodeLive n

/-- REPLAY_RETIRE and REPLAY_FAIL_END (R289). -/
def State.settleReplay (s : State) (id : Nat) : State :=
  match s.mill.replays.get? id with
  | none => s
  | some r =>
    let ns := s.mill.nodes.filter fun n => n.2.replay == some id
    match r.st with
    | .pending => s
    | .live => if ns.all fun n => n.2.st == .complete then (s.endReplay id r).ctrDone r.part (wordCtr (BitVec.ofNat 64 r.launch)) else s
    | .draining => if ns.all fun n => n.2.st == .complete || n.2.st == .discarded || s.nodeEnded n.1 n.2 then s.endReplay id r else s

/-- REPLAY_DRAINING (R289): nodes that have not started are discarded. -/
def State.drainReplay (s : State) (id : Nat) : State :=
  match s.mill.replays.get? id with
  | none => s
  | some r =>
    if r.st != .live then s.settleReplay id
    else
      let gone (n : NodeRun) : Bool := n.replay == some id && n.members.isEmpty && n.st != .complete
      let dead := (s.mill.nodes.filter fun n => gone n.2).map (·.1)
      (s.onMill fun m => { m with
        replays := NMap.set id { r with st := .draining } m.replays
        nodes := m.nodes.map fun n => if gone n.2 then (n.1, { n.2 with st := .discarded }) else n
        pool := m.pool.filter fun n => !dead.contains n
        outside := m.outside.filter fun n => !dead.contains n }).settleReplay id

/-! Completion (R286, R287, R303). -/

/-- The cores of a node's strands: those they started on and those they are on. -/
def State.nodeCores (s : State) (x : NodeRun) : List Nat :=
  x.members.map (·.2) ++ x.members.filterMap fun m => (s.strand? m.1).map (·.core)

/-- The stores of a node's strands are performed at the domain tier. -/
def State.performNode (s : State) (x : NodeRun) : State :=
  (((s.nodeCores x).map s.coreDie).eraseDups).foldl (fun s d => s.performAt d .domain) s

/-- ERRCNT of the node record (R284): the node's errors added when it completes (DESIGN CHOICE, log entry 26), saturating; nothing where
the write has to wait (R336, R370). -/
def State.addErrs (s : State) (x : NodeRun) : Option State :=
  if x.errs = 0 ∨ x.boot then some s
  else
    match s.agentRead s.millDie x.part (x.recAddr + 24) 4 with
    | (.error _, s) => some s
    | (.ok b, s) =>
      match s.agentWrite s.millDie x.part noQuad (x.recAddr + 24) (leBytes 4 (min (leNat b + x.errs) (2 ^ 32 - 1))) with
      | (.error (.stall _, _), _) => none
      | (_, s) => some (s.performAt s.millDie .domain)

/-- A node is over: its successors' counters are decremented (R286), its strands leave, the fault counter that gated it is IDLE (R265);
another gate's counter is IDLE only when a replay retires (R288); its replay may be over. -/
def State.nodeOver (s : State) (n : Nat) (x : NodeRun) : State :=
  let s := s.onNode n fun x => { x with st := .complete }
  let s := (x.succ.foldl (fun s c => s.update x.part c 1) s).forget n
  let s := match x.gate with
    | some c => if s.faultCtr x.part c then s.idleCtr c else s
    | none => s
  match x.replay with
  | some id => s.settleReplay id
  | none => (s.onMill fun m => { m with nodes := NMap.del n m.nodes }).releaseKernels

/-- A node never completes: one of its strands was KILLed (R413), or its replay is DRAINING, in which its strands only run to their end
(R293). -/
def State.noComplete (s : State) (x : NodeRun) : Bool :=
  x.killed || match x.replay.bind fun id => s.mill.replays.get? id with | some r => r.st == .draining | none => false

/-- A node that does not complete is gone with its last strand: no counter is decremented (R293). -/
def State.nodeGone (s : State) (n : Nat) (x : NodeRun) : State :=
  match x.replay with
  | some id => s.settleReplay id
  | none => ((s.forget n).onMill fun m => { m with nodes := NMap.del n m.nodes }).releaseKernels

/-- NODE_COMPLETE: every strand of the node is HALTED (R256, R293). -/
def State.nodeComplete (s : State) (n : Nat) : State :=
  match s.node? n with
  | none => s
  | some x =>
    if x.st != .running ∨ !s.nodeEnded n x then s
    else if s.noComplete x then s.nodeGone n x
    else
      match (s.performNode x).addErrs x with
      | none => s
      | some s => s.nodeOver n x

/-- What follows when a strand has ended: its replay may have failed (R289), its kernel may be released (R281). -/
def State.afterHalt (s : State) (node : Nat) : State :=
  match s.node? node with
  | some x =>
    match x.replay with
    | some id =>
      match s.mill.replays.get? id with
      | some r => if r.st == .draining then s.settleReplay id else s
      | none => s
    | none => s
  | none => s.releaseKernels

/-! Records and replies (R262 to R266). -/

/-- The record of R263, RCTR being the reply counter. -/
def FaultRec.bytes (f : FaultRec) (rctr : Nat) : List Byte :=
  leBytes 8 f.epc.toNat ++ leBytes 8 f.tval.toNat ++ leBytes 8 f.spc.toNat ++ leBytes 1 f.cause.toNat ++
  leBytes 1 f.flags.toNat ++ leBytes 2 f.core ++ leBytes 1 f.strand ++ leBytes 3 0 ++ leBytes 4 f.vstart ++
  leBytes 4 f.mstart ++ leBytes 2 rctr ++ leBytes 14 0 ++ leBytes 8 0

/-- The record goes to firmware (R267). -/
def FaultRec.toFirmware (f : FaultRec) : Bool := f.flags.getLsbD 4

/-- REPLY of a slot of the fault area (R263). -/
def State.reply (s : State) (part slot : Nat) : Nat := s.physNat ((s.part part).record.faultArea + 64 * slot + 56) 8

/-- The REPLY of the slot that is next in a partition's fault area lies on another package, and the Millrace's die has no copy of it: its
address. -/
def State.replyFar (s : State) (part : Nat) : Option Nat :=
  let i := s.mill.nextSlot.getD part 0
  let a := (s.part part).record.faultArea + 64 * i + 56
  if NSet.has (256 * part + i) s.mill.unreplied && s.lacks s.millDie a then some a else none

/-- The slot of the fault area that the partition's next record takes, where it is free: its last record has been read, and its
REPLY is not 0 (R262). The slots are taken in turn: the record waits for the one in turn also where another is free (DESIGN CHOICE, log
entry 69). -/
def State.faultSlot (s : State) (part : Nat) : Option Nat :=
  let i := s.mill.nextSlot.getD part 0
  let k := 256 * part + i
  if (s.mill.slots.get? k).isSome ∨ (s.replyFar part).isSome ∨ (NSet.has k s.mill.unreplied ∧ s.reply part i = 0) then none else some i

/-- The record can be written now: a slot is free (R262), and the partition has an operation left for the fault counter's decrement
(R297). -/
def State.writable (s : State) (f : FaultRec) : Bool := f.toFirmware || ((s.faultSlot f.part).isSome && s.budgetLeft f.part)

/-- One record written, performed and counted (R263, R265). -/
def State.writeRecord (s : State) (f : FaultRec) : State :=
  if f.toFirmware then { s with mgmt := { s.mgmt with records := s.mgmt.records ++ [f] } }
  else
    match s.faultSlot f.part with
    | none => s
    | some i =>
      let r := (s.part f.part).record
      let rctr := r.ctrBase + 1 + i
      let s := s.physWrite (r.faultArea + 64 * i) (f.bytes rctr)
      let s := s.setCtr rctr { count := 1, st := .armed, bound := some (.reply f.part i) }
      let s := s.onMill fun m => { m with
        slots := NMap.set (256 * f.part + i) f m.slots, unreplied := NSet.del (256 * f.part + i) m.unreplied, nextSlot := NMap.set f.part ((i + 1) % 256) m.nextSlot }
      let s := (s.spend f.part).ctrDec r.ctrBase 1
      { s with parts := s.parts.upd f.part Part.absent fun p => { p with record := { p.record with fcount := p.record.fcount + 1 } } }

/-- FAULT_RECORD_WRITE: the first record that can be written; where there is none, the Millrace asks for a REPLY on another package that it
has to look at. -/
def State.recordStep (s : State) : State :=
  match s.mill.faults.find? s.writable with
  | none => ((s.mill.faults.findSome? fun f => if f.toFirmware then none else s.replyFar f.part).map fun a => s.ask s.millDie a).getD s
  | some f => (s.onMill fun m => { m with faults := m.faults.erase f }).writeRecord f

/-- The rest of a strand's group waits to be resumed together (R302). -/
def State.groupAway (s : State) (sid : Nat) : Bool :=
  match s.strand? sid with
  | none => false
  | some a =>
    let rest := s.strands.filter fun b => b.node == a.node && b.sid != sid
    !(rest.any fun b => b.life == .running) &&
      rest.any fun b => b.life == .stopping || b.life == .saved || b.life == .ready || b.life == .migrating

/-- R264, R266: RESUME of a strand, with the fields of the record as it stands; those of a strand in a reel go into its scalar
section (R268). One that is still on its core while its group is
not stops at once, and members that run stop where it comes from a reel, so that all are resumed together (R302). -/
def State.resumeStrand (s : State) (sid : Nat) (b : List Byte) : State :=
  match s.strand? sid with
  | none => s
  | some a =>
    let stays := s.groupAway sid
    let inReel := a.life == .trappedSaved
    let (a, s) := if inReel then s.readScalars a else (a, s)
    let c := { a.csr with epc := BitVec.ofNat 64 (field b 0 8), vstart := BitVec.ofNat 12 (min (field b 32 4) 0xFFF)
                          mstart := BitVec.ofNat 32 (field b 36 4) }
    let r : Strand := { a with
      csr := c.resumed (!a.posted.isEmpty), pc := BitVec.ofNat 64 (field b 16 8), woke := none
      posted := restartHead (c.vpend || c.mpend) a.posted, life := if a.life == .trapped then .running else .ready }
    let s := s.onStrand sid fun _ => if stays then r.stop else r
    if inReel then (s.writeScalars r).stopNode a.node else s

/-- R264, R289, R318: KILL of a strand. -/
def State.killStrand (s : State) (sid : Nat) : State :=
  match s.strand? sid with
  | none => s
  | some a =>
    let s := s.haltStrand sid
    match s.node? a.node with
    | none => s.afterHalt a.node
    | some x =>
      let s := s.onNode a.node fun x => { x with killed := true }
      match x.replay with
      | some id => (s.drainReplay id).afterHalt a.node
      | none => s

end Sys2Proof.Machine
end

