-- ==== Sys2Proof/Machine/Context.lean ====
section
/-!
DEFINITION. `halt`, `yield`, `trap`, `eret`, `sleep`, `waitt`, `grant` (12_context.md) and `pgate` (20_power.md).
-/

namespace Sys2Proof.Machine

/-- R270, R168: the strand ends, unless an arm pair or a soft loop is open. -/
def execHalt (_ : Ctl) (s : State) : Out :=
  if !s.act.arms.isEmpty ∨ s.act.loop.isSome then (Res.trap (Trap.queue .armDepth 6) s : Res Unit).fin s s.after
  else .next ((s.haltStrand s.act.sid).afterHalt s.act.node)

/-- R271: the strand, with the rest of its group (R302), begins to stop. -/
def execYield (_ : Ctl) (s : State) : Out :=
  (Res.ok () (s.queueDone.stopNode s.act.node)).fin s s.after

/-- R272. -/
def execTrap (imm : BitVec 20) (_ : Ctl) (s : State) : Out :=
  (Res.trap { cause := .trapI, tval := imm.setWidth 64, at_ := .after, slot1 := false } s : Res Unit).fin s s.after

/-- R273. -/
def execEret (_ : Ctl) (s : State) : Out :=
  if s.act.priv = .user then (Res.trap s.privTrap s : Res Unit).fin s s.after else .next s.trapReturn

/-- R274: a count of nanoseconds, at most 2^40. -/
def waitCount (x : Word) : Nat := min x.toNat (2 ^ 40)

/-- R274: waits, in cycles of the core's clock. -/
def execSleep (a : Reg) (_ : Ctl) (s : State) : Out :=
  (if s.act.woke.isSome ∨ !(0 : Word).slt (s.g a) then Res.ok () s
   else .wait (.sleep (cyclesOf (s.mhz s.act.core) (waitCount (s.g a)))) s).finQ s

/-- R274: waits until the word at gA changes. -/
def execWaitt (a b : Reg) (_ : Ctl) (s : State) : Out :=
  let va := (s.g a).toNat
  (if s.act.woke.isSome then Res.ok () s
   else
     match s.access va 8 8 .read false false with
     | (.bad c, s) => .trap (Trap.queue c va) s
     | (.stall w, s) => .wait w s
     | (.ok l, s) =>
       let s := s.locSync s.act.core l
       let old : Word := BitVec.ofNat 64 (leNat (s.locBytes s.act.core s.act.part l 8))
       if (0 : Word).slt (s.g b) then
         .wait (.waitt (l.watch s.act.part) old (cyclesOf (s.mhz s.act.core) (waitCount (s.g b)))) s
       else .ok () s).finQ s

/-- R275: the new cluster count that gA asks for. -/
def State.grantAsk (s : State) (x : Word) : Nat :=
  let a := s.act
  let r := (sat x.toInt 1 8).toNat
  max (max a.hdr.clMin (min r a.hdr.clMax)) a.needClusters

/-- R275: clusters after a grant of at most r: the lowest-numbered that are kept, and the lowest-numbered free ones added. -/
def State.regrant (s : State) (r : Nat) : List Nat :=
  let have_ := clusterList s.act.clMap
  if r ≤ have_.length then have_.take r else have_ ++ (s.freeClusters s.act.core).take (r - have_.length)

/-- R275: bytes in clusters that leave or come read as zero. -/
def execGrant (d a : Reg) (_ : Ctl) (s : State) : Out :=
  let l := s.regrant (s.grantAsk (s.g a))
  let old := s.act.clusters
  let s1 := s.onAct fun a => { a.cutV (256 * min old l.length) with clMap := clusterMap l }
  (Res.ok () (s1.setG d (BitVec.ofNat 64 l.length))).finQ s

/-- R389: a request to a sail core, and the wait for it. -/
def execPgate (a b : Reg) (_ : Ctl) (s : State) : Out :=
  let pair := (s.g a).toNat % 256
  let gate := (s.g b).getLsbD 0
  let wait := (s.g b).getLsbD 1 && s.act.core != sailOf pair
  (s.privileged
    (if s.act.priv = .control ∧ !(s.part s.act.part).record.quads.getLsbD (pair / 4) then
       .trap (Trap.queue .perm (s.g a).toNat) s
     else if s.act.woke.isSome then .ok () s
     else
       let s := s.gateRequest pair gate
       if wait && !s.gateReached pair gate then .wait (.pgate pair gate) s else .ok () s)).finQ s

end Sys2Proof.Machine
end

