-- ==== Sys2Proof/Machine/Engines.lean ====
section
/-!
DEFINITION. Engine operations: how they issue, move and end (R193 to R200, R376 to R378). Each granule or element that an
operation moves is a unit; units move one at a time, in the order that the agenda gives.
-/

namespace Sys2Proof.Machine

/-! Accesses of the engines of a core, with the issuing strand's translation (R196, R330). -/

/-- An access that does not go on, as a piece of a unit says it. -/
def Stop.get {α : Type} (va : Nat) : Stop → Get α
  | .bad c => .bad c va
  | .stall w => .stall w

/-- Bytes of a granule as agents of a die read them; a line of another package's home is asked for first (R346). -/
def State.engBytes (s : State) (d core part va : Nat) (l : Loc) (m : Nat) : Get (List Byte) × State :=
  match l with
  | .at_ a _ =>
    if s.lacks d a then ((s.lackStop d a).get va, s.ask d a)
    else let s := s.readSync d a; (.ok (s.bytesAt d a m), s)
  | .record _ => (.ok (s.locBytes core part l m), s)

/-- Bytes read by agents of a die granule by granule, `fuel` bounding the granules. -/
def State.engReadF (d core part : Nat) : Nat → Nat → Nat → State → Get (List Byte) × State
  | 0, _, _, s => (.ok [], s)
  | fuel + 1, va, n, s =>
    if n = 0 then (.ok [], s)
    else
      let m := min n (16 - va % 16)
      match s.check core part va m 1 .read false false with
      | (.bad c, s) => (.bad c va, s)
      | (.stall w, s) => (.stall w, s)
      | (.ok l, s) =>
        match s.engBytes d core part va l m with
        | (.ok bs, s) =>
          match State.engReadF d core part fuel ((va + m) % 2 ^ 64) (n - m) s with
          | (.ok r, s) => (.ok (bs ++ r), s)
          | r => r
        | r => r

/-- n bytes at a virtual address. -/
def State.engRead (s : State) (core part va n : Nat) : Get (List Byte) × State :=
  State.engReadF (s.coreDie core) core part n (va % 2 ^ 64) n s

/-- Every granule of n bytes at a location set full, where it lies in a scratchpad (R180). -/
def State.fillPad (s : State) (a n : Nat) : State :=
  if isPad a then (List.range ((a + n + 15) / 16 - a / 16)).foldl (fun s i => s.setFull (a + 16 * i)) s else s

/-- The bytes of an element written at a location: each granule is a write event (R342), and a whole one loses its poison (R420). -/
def State.writeGranules (s : State) (d quad a : Nat) (bs : List Byte) : State :=
  (List.range ((bs.length + 15) / 16)).foldl (fun s i =>
    let g := (bs.drop (16 * i)).take 16
    (s.clearPoison (a + 16 * i) g).write d quad (a + 16 * i) g) s

/-- Bytes of a unit written at a location by an engine of a core. -/
def State.engPut (s : State) (core a : Nat) (bs : List Byte) (fill : Bool) : State :=
  let s := s.writeGranules (s.coreDie core) (quadOf core) a bs
  if fill then s.fillPad a bs.length else s

/-- The place of a unit of n bytes: a location, or bytes of the partition record; `whole` where its granules are written whole. -/
def State.engLoc (s : State) (core part va n : Nat) (k : Kind) (whole : Bool) : Get Nat × State :=
  match s.check core part (va % 2 ^ 64) n n k false whole with
  | (.bad c, s) => (.bad c (va % 2 ^ 64), s)
  | (.stall w, s) => (.stall w, s)
  | (.ok l, s) => (.ok (l.watch part), s)

/-! Shape records (R197, R198). -/

/-- The fields of a shape record. -/
def shapeOf (b : List Byte) : Shape :=
  { esz := field b 0 1 % 8, rank := field b 0 1 / 8 % 8, ext := (List.range 4).map fun i => field b (8 + 4 * i) 4
    sstr := (List.range 3).map fun i => signedOf 32 (field b (24 + 4 * i) 4)
    dstr := (List.range 3).map fun i => signedOf 32 (field b (36 + 4 * i) 4) }

/-- A shape record is malformed. -/
def shapeBad (b : List Byte) : Bool :=
  let h := shapeOf b
  decide (64 ≤ field b 0 1) || h.rank == 0 || decide (4 < h.rank) || decide (4 < h.esz) || !zeros b 1 7 || !zeros b 48 16 ||
  (h.ext.drop h.rank).any (· != 1)

/-- The record at an address, through the record cache of a core. A full cache loses the record that it has held longest
(DESIGN CHOICE, log entry 11). -/
def State.readShape (s : State) (core part va : Nat) : Get Shape × State :=
  let use (b : List Byte) : Get Shape := if shapeBad b then .bad .illegal va else .ok (shapeOf b)
  match (s.core core).records.find? fun r => r.1 == va with
  | some r => (use r.2, s)
  | none =>
    match s.engRead core part va 64 with
    | (.bad c a, s) => (.bad c (if c = .dataXlt then a else va), s)
    | (.stall w, s) => (.stall w, s)
    | (.ok b, s) => (use b, s.onCore core fun c => { c with records := ((va, b) :: c.records).take 16 })

/-- The index vector of element j. -/
def shapeIdx : List Nat → Nat → List Nat
  | [], _ => []
  | e :: r, j => (if e = 0 then 0 else j % e) :: shapeIdx r (if e = 0 then 0 else j / e)

/-- The address of element j from a base with strides. -/
def Shape.addr (h : Shape) (base : Nat) (str : List Int) (j : Nat) : Nat :=
  let i := shapeIdx h.ext j
  let d : Int := (i.getD 0 0 : Int) * (2 ^ h.esz : Nat) +
    (List.range 3).foldl (fun acc k => acc + (i.getD (k + 1) 0 : Int) * str.getD k 0) 0
  (BitVec.ofNat 64 base + BitVec.ofInt 64 d).toNat

/-! Units. -/

/-- The class bit of a job (R201). -/
def EngJob.cls : EngJob → Nat
  | .cpy _ _ _ => 0
  | .gath _ _ _ _ _ => 1
  | .scat _ _ _ _ _ => 1
  | .coll _ _ _ _ _ _ _ _ _ _ => 2

/-- A copy that a shape record governs. -/
def byShape (len : Word) : Bool := len.getLsbD 63

/-- How many units an operation moves once its shape record is read. -/
def EngOp.units (e : EngOp) : Nat :=
  match e.job with
  | .cpy _ _ len =>
    if byShape len then
      match e.shape with
      | some h => h.ext.foldl (· * ·) 1
      | none => 0
    else len.toNat % 2 ^ 40 / 16
  | .gath _ _ _ _ _ => 0
  | .scat _ _ _ _ _ => 0
  | .coll kind _ _ _ len _ p _ _ _ => (if kind = .ag then p * len else len) / 16

/-- Source, destination and bytes of a unit of a copy. -/
def EngOp.copyUnit (e : EngOp) (dst src u : Nat) : Nat × Nat × Nat :=
  match e.shape with
  | some h => (h.addr src h.sstr u, h.addr dst h.dstr u, 2 ^ h.esz)
  | none => ((src + 16 * u) % 2 ^ 64, (dst + 16 * u) % 2 ^ 64, 16)

/-- The units that move together with a unit: those of its destination granule, which is written whole (R171, R196); the unit
itself comes last, so that the agenda says which of two elements with one destination prevails. -/
def EngOp.together (e : EngOp) (dst src u : Nat) : List Nat :=
  match e.shape with
  | none => [u]
  | some _ =>
    let g (j : Nat) : Nat := (e.copyUnit dst src j).2.1 / 16
    ((List.range e.units).filter fun j => j != u && g j == g u && !NSet.has j e.moved) ++ [u]

/-- The bytes of a granule that units bring, each read from its source and laid over those before. -/
def State.gather (e : EngOp) (dst src : Nat) : List Nat → List (Option Byte) → State → Get (List (Option Byte)) × State
  | [], g, s => (.ok g, s)
  | u :: r, g, s =>
    let x := e.copyUnit dst src u
    if x.1 % x.2.2 ≠ 0 then (.bad .align x.1, s)
    else if x.2.1 % x.2.2 ≠ 0 then (.bad .align x.2.1, s)
    else
      match s.engRead e.core e.part x.1 x.2.2 with
      | (.bad c va, s) => (.bad c va, s)
      | (.stall w, s) => (.stall w, s)
      | (.ok bs, s) =>
        State.gather e dst src r (g.zipIdx.map fun y =>
          if x.2.1 % 16 ≤ y.2 ∧ y.2 < x.2.1 % 16 + x.2.2 then bs[y.2 - x.2.1 % 16]? else y.1) s

/-- The units of one destination granule copied, in one write. -/
def State.copyGranule (s : State) (e : EngOp) (dst src u : Nat) : Get (List Nat) × State :=
  let us := e.together dst src u
  match State.gather e dst src us (List.replicate 16 none) s with
  | (.bad c va, s) => (.bad c va, s)
  | (.stall w, s) => (.stall w, s)
  | (.ok g, s) =>
    let at_ := (e.copyUnit dst src u).2.1
    let whole := g.all (·.isSome)
    match s.engLoc e.core e.part (if whole then at_ / 16 * 16 else at_) (if whole then 16 else (e.copyUnit dst src u).2.2) .write whole with
    | (.bad c va, s) => (.bad c va, s)
    | (.stall w, s) => (.stall w, s)
    | (.ok a, s) =>
      let a := a / 16 * 16
      let s := if whole then s.clearPoison a (g.map fun b => b.getD 0) else s
      (.ok us, ((s.writeSome (s.coreDie e.core) (quadOf e.core) a g).fillPad a 16))

/-! Collectives (R200, R378). -/

/-- The bytes of element i of a block. -/
def blockElem (b : List Byte) (w i : Nat) : Nat := leNat ((b.drop (i * w)).take w)

/-- The sum of float elements in rank order, each partial sum rounded, NaNs canonical. -/
def sumFloats (q : FloatFmt) : List Nat → Nat
  | [] => 0
  | x :: r =>
    let up (b : Nat) : FVal := FVal.ofBits fp32 (convFF q fp32 Rnd.rne false b).bits
    let first := (convFF q fp32 Rnd.rne false x).bits
    let t := r.foldl (fun acc b => (fAddV fp32 Rnd.rne (FVal.ofBits fp32 acc) (up b)).bits) first
    let t := if (FVal.ofBits fp32 t).isNaN then fp32.nanBits else t
    if q = fp32 then t else (convFF fp32 q Rnd.rne false t).bits

/-- The reduction of equal blocks, by format. -/
def reduceBlocks (f : Fmt) (len : Nat) (bs : List (List Byte)) : List Byte :=
  let w := fmtWidth f / 8
  (List.range (len / w)).flatMap fun i =>
    let xs := bs.map fun b => blockElem b w i
    leBytes w (match floatOf f with
      | some q => sumFloats q xs
      | none => xs.foldl (· + ·) 0 % 2 ^ (8 * w))

/-- The bytes of a rank's whole source. -/
def collNeed (kind : CollKind) (len p : Nat) : Nat := if kind = .rs then p * len else len

/-- R378: the bytes of part q of a block that is divided into p parts of whole granules, the lower ones taking the remainder. -/
def partLen (len p q : Nat) : Nat := 16 * (len / 16 / p + if q < len / 16 % p then 1 else 0)
/-- Where part q begins. -/
def partAt (len p q : Nat) : Nat := 16 * (q * (len / 16 / p) + min q (len / 16 % p))

/-- R378: what rank q receives of a source: the block, block q, or part q of the block. -/
def collShare (kind : CollKind) (len p q : Nat) (src : List Byte) : List Byte :=
  match kind with
  | .ag => src
  | .rs => (src.drop (q * len)).take len
  | .ar => (src.drop (partAt len p q)).take (partLen len p q)

/-- The part that a participant of an all-reduce has reduced, in ascending rank order. -/
def EngOp.reduced (e : EngOp) : List Byte :=
  match e.job with
  | .coll _ f _ _ len rank p _ _ _ => reduceBlocks f (partLen len p rank) ((List.range p).map fun q => e.got.getD q [])
  | _ => []

/-- What a participant receives in the end. -/
def EngOp.result (e : EngOp) : List Byte :=
  match e.job with
  | .coll kind f _ _ len _ p _ _ _ =>
    match kind with
    | .ag => (List.range p).flatMap fun q => e.got.getD q []
    | .rs => reduceBlocks f len ((List.range p).map fun q => e.got.getD q [])
    | .ar => (List.range p).flatMap fun q => e.parts.getD q []
  | _ => []

/-- A participant has everything that its result is made of. -/
def EngOp.gathered (e : EngOp) : Bool :=
  match e.job with
  | .coll kind _ _ _ _ _ p _ _ closed => closed && e.got.length == p && (kind != .ar || e.parts.length == p)
  | _ => false

/-- The participants of a group on this package that have issued and have not ended. -/
def State.groupOps (s : State) (g : Nat) : NMap EngOp :=
  s.engines.filter fun o => (o.2.st == .running || o.2.st == .suspended) &&
    match o.2.job with | .coll _ _ _ _ _ _ _ _ h _ => h == g | _ => false

/-- Every participant here has this one's contribution, and its reduced part. -/
def State.collSent (s : State) (kind : CollKind) (g rank : Nat) : Bool :=
  (s.groupOps g).all fun o => (o.2.got.get? rank).isSome && (kind != .ar || (o.2.parts.get? rank).isSome)

/-! Moving. -/

/-- What becomes of an operation's next move. -/
inductive Move where
  | nothing
  | ask (s : State)
  | put (e : EngOp) (s : State)
  | finish
  | bad (c : Cause) (va : Nat)

/-- A move that waits: for a line of another package's home, which has been asked for (R346), or as one that has not begun. -/
def Move.ofWait (w : Wait) (s : State) : Move := match w with | .far _ => .ask s | _ => .nothing

/-- The granules or elements of an operation have moved; `go` moves more, and says which. -/
def EngOp.moveOn (e : EngOp) (u : Nat) (go : Get (List Nat) × State) : Move :=
  if e.moved.length = e.units then .finish
  else if e.units ≤ u ∨ NSet.has u e.moved then .nothing
  else
    match go with
    | (.ok us, s) => .put { e with moved := us.foldl (fun m u => NSet.add u m) e.moved } s
    | (.bad c va, _) => .bad c va
    | (.stall w, s) => .ofWait w s

/-- List element j of a gather or a scatter, translated; a scatter's bytes are read. A gather writes whole granules (R171, R377). -/
def State.listElem (s : State) (e : EngOp) (gather : Bool) (dst src idx esz j : Nat) : Get ReqElem × State :=
  match s.engRead e.core e.part (idx + 8 * j) 8 with
  | (.bad c va, s) => (.bad c va, s)
  | (.stall w, s) => (.stall w, s)
  | (.ok b, s) =>
    let n : Nat := 2 ^ esz
    let far (base : Nat) : Nat := (BitVec.ofNat 64 base + BitVec.ofInt 64 (signedOf 64 (leNat b) * (n : Int))).toNat
    let near (base : Nat) : Nat := (base + j * n) % 2 ^ 64
    let sv := (if gather then far src else near src) % 2 ^ 64
    let dv := (if gather then near dst else far dst) % 2 ^ 64
    match s.engLoc e.core e.part sv n .read false with
    | (.bad c va, s) => (.bad c va, s)
    | (.stall w, s) => (.stall w, s)
    | (.ok x, s) =>
      match s.engLoc e.core e.part dv n .write (gather || n % 16 == 0) with
      | (.bad c va, s) => (.bad c va, s)
      | (.stall w, s) => (.stall w, s)
      | (.ok y, s) =>
        let d := s.coreDie e.core
        if !gather && s.lacks d x then ((s.lackStop d x).get sv, s.ask d x)
        else
        let s := if gather then s else s.readSync d x
        (.ok { idx := j, srcVa := sv, dstVa := dv, src := x, dst := y, data := if gather then [] else s.placeBytes d x n }, s)

/-- R376, R377: a list goes on with its next element, which ENGINE_SUSPEND and ENGINE_FAIL look at. -/
def State.listMove (s : State) (e : EngOp) (gather : Bool) (dst src idx esz n : Nat) : Move :=
  if e.sent = n then (if e.out.isEmpty then .finish else .nothing)
  else
    match s.listElem e gather dst src idx esz e.sent with
    | (.bad c va, _) => .bad c va
    | (.stall w, s) => .ofWait w s
    | (.ok _, _) => .nothing

/-- The next move of a RUNNING operation at a unit. -/
def State.opMove (s : State) (e : EngOp) (u : Nat) : Move :=
  match e.job with
  | .cpy dst src len =>
    if byShape len && e.shape.isNone then
      match s.readShape e.core e.part (len.toNat % 2 ^ 57) with
      | (.ok h, s) => .put { e with shape := some h } s
      | (.bad c va, _) => .bad c va
      | (.stall w, s) => .ofWait w s
    else
      e.moveOn u (s.copyGranule e dst src u)
  | .gath dst src idx esz n => s.listMove e true dst src idx esz n
  | .scat dst src idx esz n => s.listMove e false dst src idx esz n
  | .coll kind _ dst src len rank p _ g _ =>
    if e.own.isNone then
      match s.engRead e.core e.part src (collNeed kind len p) with
      | (.bad c va, _) => .bad c va
      | (.stall w, s) => .ofWait w s
      | (.ok _, _) => .nothing
    else if !e.gathered then .nothing
    else if e.moved.length = e.units then (if s.collSent kind g rank then .finish else .nothing)
    else
      e.moveOn u (
        match s.engLoc e.core e.part (dst + 16 * u) 16 .write true with
        | (.bad c va, s) => (.bad c va, s)
        | (.stall w, s) => (.stall w, s)
        | (.ok a, s) => (.ok [u], s.engPut e.core a ((e.result.drop (16 * u)).take 16) true))

/-- An operation. -/
def State.op? (s : State) (k : Nat) : Option EngOp := s.engines.get? k
/-- An operation replaced. -/
def State.setOp (s : State) (k : Nat) (e : EngOp) : State := { s with engines := NMap.set k e s.engines }
/-- An operation that is RUNNING. -/
def State.running? (s : State) (k : Nat) : Option EngOp := (s.op? k).filter fun e => e.st == .running

/-- The strand has gone: nothing will observe its operations. -/
def State.gone (s : State) (sid : Nat) : Bool :=
  match s.strand? sid with
  | some a => a.life == .halted
  | none => true

/-- An operation ends: it stays for `ewait` while its strand lives. -/
def State.endOp (s : State) (k : Nat) (e : EngOp) (st : EngSt) : State :=
  if s.gone e.sid then { s with engines := NMap.del k s.engines } else (s.setOp k { e with st := st }).pokeFence e.sid

/-- The writes of an operation, those through the dies of other owners too, are performed at the domain tier (R353). -/
def State.performOp (s : State) (e : EngOp) : State :=
  e.dies.foldl (fun s d => s.performAt d .domain) (s.performAt (s.coreDie e.core) .domain)

/-- DONE (R195, R353): its writes are performed, then its counter is decremented. -/
def State.finishOp (s : State) (k : Nat) (e : EngOp) : State := ((s.performOp e).endOp k e .done).ctrDone e.part e.ctr

/-- FAILED or SUSPENDED, with a fault record (R195, R262); what one that FAILED has written is performed before its end can be observed
(R350). -/
def State.stopOp (s : State) (k : Nat) (e : EngOp) (st : EngSt) (c : Cause) (tval : Nat) : State :=
  let e := { e with cause := c.code, tval := BitVec.ofNat 64 tval }
  let s := s.engReport e.part (if st == .suspended then .engine k else .none) e.epc e.tval c.code e.core (s.slotOf e.sid)
  if st == .suspended then s.setOp k { e with st := st } else (s.performOp e).endOp k e st

/-- The address, or a table on the walk to it, lies in memory that is not reachable. -/
def State.cutOff (s : State) (core part va : Nat) : Bool :=
  match (s.lookup core part va).1 with
  | .ok t => s.unreachable (s.physOf t va)
  | .error e => e.cause == some (.bad .peer)

/-- A die asks again for what other packages' homes could not reach (R371). -/
def State.probe (s : State) (d : Nat) : State := (s.dieAt d).refused.foldl (fun s l => s.ask d (128 * l)) s

/-- R371: an access of an engine of a core took PEER because the host port is not UP: a management event. -/
def State.hostEvent (s : State) (core part : Nat) (c : Cause) (va : Nat) : State :=
  let s := if c = .peer then (s.probe (s.coreDie core)).probe (s.quernDie core) else s
  if c = .peer ∧ !s.dom.hostUp ∧ s.cutOff core part va ∧ !({ s with dom := { s.dom with hostUp := true } } : State).cutOff core part va then
    s.event .hostPort
  else s

/-- An operation FAILS at an address. -/
def State.failOp (s : State) (k : Nat) (e : EngOp) (c : Cause) (va : Nat) : State :=
  (s.stopOp k e .failed c va).hostEvent e.core e.part c va

/-! Issue. -/

/-- The participants that a collective is to have, its rank among them. -/
def EngOp.ranks (e : EngOp) : Nat × Nat := match e.job with | .coll _ _ _ _ _ r p _ _ _ => (r, p) | _ => (0, 0)

/-- R378: what a participant has for each rank that is not here goes to the package that the rank is known to be on, and else to every
other one. A mismatch is told with a P of 0 (log entry 21). -/
def State.sendBlocks (s : State) (e : EngOp) (here : List Nat) (reduced told : Bool) (data : Nat → List Byte) : State :=
  match e.job with
  | .coll kind f _ _ len rank p tag _ _ =>
    ((List.range p).filter fun q => !here.contains q).foldl (fun s q =>
      let to_ := match e.senders.get? q with | some k => [k] | none => s.peers
      to_.foldl (fun s k =>
        s.sendMsg (s.coreDie e.core) (8 * k) (.block s.dom.pkg kind f (if told then 0 else p) len tag rank q reduced (data q))) s) s
  | _ => s

/-- Operations fail with PEER, `tval` holding the tag. -/
def State.failColls (s : State) (l : NMap EngOp) (tag : Nat) : State :=
  l.foldl (fun s o => s.stopOp o.1 o.2 .failed .peer tag) s

/-- COLL_MISMATCH (R200): the collective fails at every participant: at those that have issued here, at those of other packages,
which a block with a P of 0 tells so, and at those that have still to issue (log entry 21). -/
def State.mismatch (s : State) (l : NMap EngOp) (tag : Nat) : State :=
  let most := l.foldl (fun m o => max m o.2.ranks.2) 0
  let known := l.foldl (fun n o => max n (o.2.got.length + (if (o.2.got.get? o.2.ranks.1).isSome then 0 else 1))) l.length
  let here := l.map fun o => o.2.ranks.1
  let s := l.foldl (fun s o => s.sendBlocks o.2 here false true fun _ => []) s
  let s := s.onLinks fun x => { x with
    badTags := if known < most then NMap.set tag (most - known) x.badTags else NMap.del tag x.badTags
    inbox := x.inbox.filter fun m => match m with | .block _ _ _ _ _ t r _ _ _ => !(t == tag && here.contains r) | _ => true }
  s.failColls l tag

/-- One more participant of a collective that has failed has issued. -/
def State.lateColl (s : State) (k : Nat) (e : EngOp) (tag left : Nat) : State :=
  (s.onLinks fun x => { x with badTags := if left ≤ 1 then NMap.del tag x.badTags else NMap.set tag (left - 1) x.badTags }).failColls [(k, e)] tag

/-- The collectives in progress of a core's stack, by number (R378). -/
def State.collsOf (s : State) (core : Nat) : List Nat :=
  (s.engines.filterMap fun o =>
    match o.2.job with
    | .coll _ _ _ _ _ _ _ _ g _ =>
      if stackOf o.2.core == stackOf core && (o.2.st == .running || o.2.st == .suspended) then some g else none
    | _ => none).eraseDups

/-- The number of a collective. -/
def EngOp.group? (e : EngOp) : Option Nat := match e.job with | .coll _ _ _ _ _ _ _ _ g _ => some g | _ => none

/-- The operation takes part in a collective of a tag that has not ended. -/
def EngOp.under (e : EngOp) (tag : Nat) : Bool :=
  (e.st == .running || e.st == .suspended) && match e.job with | .coll _ _ _ _ _ _ _ t _ _ => t == tag | _ => false

/-- A participant that still lacks others, or that another package has sent the blocks of a rank. -/
def EngOp.opens (e : EngOp) (rank : Nat) : Bool :=
  (e.senders.get? rank).isSome || match e.job with | .coll _ _ _ _ _ _ _ _ _ closed => !closed | _ => false

/-- The participants here of the collective of a tag that one of a rank joins: one that lacks participants, or that has such a rank on
another package (R200; log entry 21). -/
def State.openColl (s : State) (tag rank : Nat) : NMap EngOp :=
  let l := s.engines.filter fun o => o.2.under tag
  l.filter fun o => l.any fun x => x.2.group? == o.2.group? && x.2.opens rank

/-- R378: the stack of a core has room for a collective, or holds it already. -/
def State.collRoom (s : State) (core tag rank : Nat) : Bool :=
  let l := s.collsOf core
  decide (l.length < 64) || (s.openColl tag rank).any fun o => o.2.group?.any l.contains

/-- A collective joins those of its tag that still lack participants. Participants with another element format disagree on the kind (log
entry 21). -/
def State.joinColl (s : State) (k : Nat) (e : EngOp) (kind : CollKind) (f : Fmt) (dst src len rank p tag : Nat) : State :=
  let waiting := s.openColl tag rank
  let bad := decide (p ≤ rank) || waiting.any fun o =>
    (o.2.senders.get? rank).isSome ||
    match o.2.job with
    | .coll kind' f' _ _ len' rank' p' _ _ _ => kind' != kind || f' != f || len' != len || p' != p || rank' == rank
    | _ => false
  let g := (waiting.head?.bind fun o => o.2.group?).getD k
  let full := waiting.length + 1 == p
  let close (o : EngOp) : EngOp :=
    match o.job with
    | .coll a b c d x r y t h z => { o with job := .coll a b c d x r y t h (z || full) }
    | _ => o
  let e := { e with st := .running, job := .coll kind f dst src len rank p tag g full }
  let left := s.links.badTags.getD tag 0
  if 0 < left ∧ waiting.isEmpty then (s.setOp k e).lateColl k e tag left
  else if bad then (s.setOp k e).mismatch (waiting ++ [(k, e)]) tag
  else (waiting.foldl (fun s o => s.setOp o.1 (close o.2)) s).setOp k e

/-- A POSTED operation issues (R193, R195): a copy that a shape record governs reads it, a collective joins its group, where
its stack has room. -/
def State.issueOp (s : State) (k : Nat) (e : EngOp) : State :=
  match e.job with
  | .coll kind f dst src len rank p tag _ _ =>
    if s.collRoom e.core tag rank then s.joinColl k e kind f dst src len rank p tag else s.setOp k e
  | .cpy _ _ len =>
    let e := { e with st := .running }
    if byShape len then
      match s.readShape e.core e.part (len.toNat % 2 ^ 57) with
      | (.ok h, s) => s.setOp k { e with shape := some h }
      | (.bad c va, s) => if c = .dataXlt then (s.setOp k e).stopOp k e .suspended c va else (s.setOp k e).failOp k e c va
      | (.stall _, s) => s.setOp k e
    else s.setOp k e
  | _ => s.setOp k { e with st := .running }

/-- A new operation of the acting strand, POSTED. -/
def State.newOp (s : State) (job : EngJob) (ctr : Option Nat) : EngOp :=
  { sid := s.act.sid, part := s.act.part, core := s.act.core, epc := s.act.pc, st := .posted, job := job, shape := none, ctr := ctr
    moved := [], sent := 0, out := [], dies := [], own := none, got := [], senders := [], parts := [], cause := 0, tval := 0 }

/-- The operations of a core that `ewait` has not retired. -/
def State.outstanding (s : State) (core : Nat) : Nat := (s.engines.filter fun o => o.2.core == core).length

/-- R193: at most 16 of a core are outstanding. -/
def State.engineRoom (s : State) (core : Nat) : Bool := decide (s.outstanding core < 16)

/-- The address of the shape record of a copy where it is malformed (R197), or what a look at it waits for. -/
def State.badShape (s : State) : EngJob → Except Wait (Option Nat) × State
  | .cpy _ _ len =>
    if byShape len then
      match s.readShape s.act.core s.act.part (len.toNat % 2 ^ 57) with
      | (.bad .illegal va, _) => (.ok (some va), s)
      | (.stall w, t) => (.error w, t)
      | _ => (.ok none, s)
    else (.ok none, s)
  | _ => (.ok none, s)

/-- An engine instruction whose posting checks have passed: without room it holds the scalar part that would post it (R193), its counter is checked, the operation
issues. `word` is the counter word. -/
def State.issue (s : State) (job : EngJob) (word : Word) : Res Unit :=
  let hold (w : Wait) : Wait := if s.act.resume.isNone then .own w else w
  if !s.engineRoom s.act.core then .wait (hold .engine) s
  else
    match (wordCtr word).bind fun c => if s.ownCtr s.act.part c then none else some c, s.badShape job with
    | some _, _ => .trap (Trap.queue .perm word.toNat) s
    | none, (.error w, t) => .wait (hold w) t
    | none, (.ok (some va), _) => .trap (Trap.queue .illegal va) s
    | none, (.ok none, _) =>
      .ok () ({ s with nextOp := s.nextOp + 1 }.issueOp s.nextOp (s.newOp job (wordCtr word)))

end Sys2Proof.Machine
end

