-- ==== Sys2Proof/Machine/Requests.lean ====
section
/-!
DEFINITION. Gathers and scatters: the sub-requests that the interface of the issuing die sends to the owners of the elements, and how
the owners answer them (R376, R377).
-/

namespace Sys2Proof.Machine

/-! Sub-requests. -/

/-- Whether an operation gathers, its elements' bytes and their number. -/
def EngJob.list? : EngJob → Option (Bool × Nat × Nat)
  | .gath _ _ _ esz n => some (true, 2 ^ esz, n)
  | .scat _ _ _ esz n => some (false, 2 ^ esz, n)
  | _ => none

/-- A scatter of elements under 16 bytes that has not looked at all of them: nothing is sent before, so that it never ends with a granule of
its destination partly written (R377; log entry 70). -/
def EngOp.held (e : EngOp) : Bool :=
  match e.job.list? with
  | some (false, n, count) => decide (n < 16) && decide (e.sent < count)
  | _ => false

/-- Sub-requests take more elements of an owner, 64 at most in each. -/
def addReq (owner : Nat) (xs : List ReqElem) (l : List SubReq) : List SubReq :=
  match l.reverse.find? fun r => r.owner == owner with
  | some r =>
    if r.elems.length + xs.length ≤ 64 then l.map fun y => if y == r then { y with elems := y.elems ++ xs } else y
    else l ++ [{ owner := owner, elems := xs }]
  | none => l ++ [{ owner := owner, elems := xs }]

/-- The owner of an element's place in other memory. -/
def State.ownerOf (s : State) (e : EngOp) (a : Nat) : Nat := if isPad a then s.coreDie e.core else homeDie a

/-- Up to `fuel` list elements translated, and sub-requests of them by owner. -/
def State.sendList (gather : Bool) (dst src idx esz n : Nat) : Nat → State → EngOp → List SubReq → EngOp × List SubReq × State
  | 0, s, e, l => (e, l, s)
  | fuel + 1, s, e, l =>
    if n ≤ e.sent then (e, l, s)
    else
      match s.listElem e gather dst src idx esz e.sent with
      | (.ok x, s) =>
        State.sendList gather dst src idx esz n fuel s { e with sent := e.sent + 1 }
          (addReq (s.ownerOf e (if gather then x.src else x.dst)) [x] l)
      | (.stall _, s) => (e, l, s)
      | (.bad _ _, _) => (e, l, s)

/-- Elements of a scatter without those that a later one replaces (R199). -/
def lastOnes : List ReqElem → List ReqElem
  | [] => []
  | x :: r => if r.any fun y => y.dst == x.dst then lastOnes r else x :: lastOnes r

/-- Elements under 16 bytes, `fuel` bounding their granules: those of one granule go in one sub-request, where they are written together. -/
def State.packReqs (s : State) (e : EngOp) : Nat → List ReqElem → List SubReq → List SubReq
  | fuel + 1, x :: r, l =>
    let same := r.filter fun y => y.dst / 16 == x.dst / 16
    s.packReqs e fuel (r.filter fun y => y.dst / 16 != x.dst / 16) (addReq (s.ownerOf e x.dst) (x :: same) l)
  | _, _, l => l

/-- A sub-request to an owner on another package goes on VC 6 with the vector of the issuing die, whose batch is closed for it. -/
def State.sendReq (s : State) (op : Nat) (e : EngOp) (r : SubReq) : State :=
  match e.job.list? with
  | some (gather, n, _) =>
    let d := s.coreDie e.core
    let s := s.closeBatch d
    s.sendMsg d r.owner (.listReq d op r.owner gather n (r.elems.map fun x => (if gather then x.src else x.dst, x.data)) (s.dieAt d).vec)
  | none => s

/-- The sub-request is the one that its owner on another package has: of an operation an owner has one at a time, so that its reply names
no other (log entry 70). -/
def State.underWay (s : State) (e : EngOp) (r : SubReq) : Bool :=
  !s.ownDie r.owner && (e.out.find? fun q => q.owner == r.owner) == some r

/-- The interface of the issuing die sends the next elements of a list. -/
def State.askOwners (s : State) (op : Nat) (e : EngOp) : State :=
  let go (gather : Bool) (dst src idx esz n : Nat) : State :=
    let (t, l, s) := State.sendList gather dst src idx esz n 64 s e (if e.held then e.out else [])
    let all := lastOnes (l.flatMap (·.elems))
    let new := if t.held then [] else if e.held then s.packReqs e all.length all [] else l
    let t := { t with out := if t.held then l else if e.held then new else e.out ++ new }
    (new.filter (s.underWay t)).foldl (fun s r => s.sendReq op t r) (s.setOp op t)
  match e.job with
  | .gath dst src idx esz n => go true dst src idx esz n
  | .scat dst src idx esz n => go false dst src idx esz n
  | _ => s

/-! Owners here, for other packages. -/

/-- The elements of a sub-request of another package served at their home in ascending order: the bytes read, and the place of one that
meets a mark (R420) or memory that is not reachable (R371). -/
def State.serveFar (owner : Nat) (gather : Bool) (n : Nat) :
    Nat → List (Nat × List Byte) → State → List (List Byte) × Option (Nat × Denial) × State
  | _, [], s => ([], none, s)
  | i, (a, bs) :: r, s =>
    if s.unreachable a then ([], some (i, .peer), s)
    else if s.poisonHit a n (!gather && n % 16 == 0) then ([], some (i, .poison), s)
    else if gather then
      let t := State.serveFar owner gather n (i + 1) r s
      (s.bytesAt owner a n :: t.1, t.2)
    else State.serveFar owner gather n (i + 1) r (s.writeGranules owner noQuad a bs)

/-- R376: an owner here serves a sub-request of another package once it has applied what the request's vector covers, and the host has given
up the lines that it writes (R370); the reply carries the owner's vector. -/
def State.serveList (s : State) : Msg → State
  | .listReq src op owner gather n elems vec =>
    if !s.ownDie owner || !s.reaches owner vec || (!gather && elems.any fun x => s.lent x.1 n) then s
    else
      let s := ((s.consume (.listReq src op owner gather n elems vec)).catchUp owner vec).closeBatch owner
      let t := State.serveFar owner gather n 0 elems s
      let s := t.2.2.closeBatch owner
      s.sendMsg owner src (.listReply src op owner t.2.1 t.1 (s.dieAt owner).vec)
  | _ => s

/-- GATHER_SUBREQUEST: the first sub-request of another package's operation of that number is served; else an operation of this package
sends its next ones. -/
def execGatherSubrequest (op : Nat) (s : State) : Out :=
  .next (match s.links.inbox.find? fun m => match m with | .listReq _ k _ _ _ _ _ => k == op | _ => false with
    | some m => s.serveList m
    | none =>
      match s.running? op with
      | some e => s.askOwners op e
      | none => s)

/-- How an element fares: it is done, it fails at an address, or it has to wait for the host to give a line up (R370). -/
inductive Served where
  | ok (e : EngOp) (s : State)
  | bad (c : Cause) (va : Nat) (s : State)
  | wait

/-- A location of physical memory that is not there any more (R371, R380). -/
def State.away (s : State) (a : Nat) : Bool := !isPad a && s.unreachable a

/-- An element's bytes put at its destination; those of an element under 16 bytes together with the others of the list in their
granule, once all of them have come, so that no granule is seen half new (R171, R377). -/
def State.listPut (s : State) (e : EngOp) (n count : Nat) (x : ReqElem) (bs : List Byte) : Served :=
  if 16 ≤ n then (if s.lent x.dst n then .wait else .ok e (s.engPut e.core x.dst bs true))
  else
    let got := NMap.set x.idx bs e.got
    let off := x.dst % 16 / n
    let first := x.idx - min x.idx off
    let js := (List.range (min (count - 1) (x.idx + (16 / n - 1 - off)) + 1 - first)).map (first + ·)
    let data := js.flatMap fun j => got.getD j []
    let at_ := x.dst - n * (x.idx - first)
    if js.any fun j => (got.get? j).isNone then .ok { e with got := got } s
    else if s.poisonHit at_ data.length (data.length == 16) then .bad .poison x.dstVa s
    else if s.lent at_ data.length then .wait
    else .ok { e with got := js.foldl (fun m j => NMap.del j m) got } (s.engPut e.core at_ data true)

/-- An element at its owner here (R376): the owner has applied what the issuing die's vector covers, so that the element follows the
strand's accesses (R350); a marked granule fails the operation (R420). -/
def State.serveHere (s : State) (e : EngOp) (gather : Bool) (owner n count : Nat) (x : ReqElem) : Served :=
  let d := s.coreDie e.core
  if s.away x.src then .bad .peer x.srcVa s
  else if s.away x.dst then .bad .peer x.dstVa s
  else if gather && s.poisonHit x.src n false then .bad .poison x.srcVa s
  else if !gather && s.poisonHit x.dst n (n % 16 == 0) then .bad .poison x.dstVa s
  else
    let s := if owner = d then s else (s.closeBatch d).exchange d owner
    if gather then
      let s := s.readSync owner x.src
      s.listPut e n count x (s.placeBytes owner x.src n)
    else if s.lent x.dst n then .wait
    else .ok { e with dies := NSet.add owner e.dies } (s.writeGranules owner (quadOf e.core) x.dst x.data)

/-- An element that is answered: at its owner here, or by the reply of one on another package, which brings what it has read. -/
def State.serveElem (s : State) (e : EngOp) (gather : Bool) (owner n count : Nat) (x : ReqElem) (reply : Option (List Byte)) : Served :=
  match reply with
  | none => s.serveHere e gather owner n count x
  | some bs => if !gather then .ok e s else if s.away x.dst then .bad .peer x.dstVa s else s.listPut e n count x bs

/-- Elements served in ascending order, up to one that fails or waits; `reply` has the bytes that came for each. -/
def State.serveElems (gather : Bool) (owner n count : Nat) (reply : Option (List (List Byte))) : List ReqElem → EngOp → State → Served
  | [], e, s => .ok e s
  | x :: r, e, s =>
    match s.serveElem e gather owner n count x (reply.map fun l => l.headD []) with
    | .ok e s => State.serveElems gather owner n count (reply.map List.tail) r e s
    | f => f

/-- An operation whose sub-requests change: one that a reply has ended FAILS with the last of those it has sent (R377). -/
def State.settleOp (s : State) (k : Nat) (e : EngOp) : State :=
  if e.st == .failing && e.out.isEmpty then (s.performOp e).endOp k e .failed else s.setOp k e

/-- An element of an operation meets a fault: the operation FAILS, or goes on to its end where a reply has ended it. -/
def State.elemFails (s : State) (k : Nat) (e : EngOp) (r : SubReq) (c : Cause) (va : Nat) : State :=
  if e.st == .failing then s.settleOp k { e with out := e.out.erase r } else s.failOp k { e with out := [] } c va

/-- A sub-request of an operation is answered, by its owner here or with what a reply brought; one that has to wait stays. -/
def State.serveReq (s : State) (op : Nat) (e : EngOp) (r : SubReq) (reply : Option (List (List Byte))) : State :=
  match e.job.list? with
  | none => s
  | some (gather, n, count) =>
    match State.serveElems gather r.owner n count reply r.elems { e with out := e.out.erase r } s with
    | .ok e s => s.settleOp op e
    | .bad c va s => s.elemFails op e r c va
    | .wait => s

/-- The operation still has its sub-requests answered: it runs, is suspended, or ends with them (R377). -/
def EngOp.listening (e : EngOp) : Bool := e.st == .running || e.st == .suspended || e.st == .failing

/-- An owner on another package has answered, and has the next sub-request of the operation. -/
def State.sendNext (s : State) (op owner : Nat) : State :=
  match s.op? op with
  | some e => (match e.out.find? fun r => r.owner == owner with | some r => s.sendReq op e r | none => s)
  | none => s

/-- An owner on another package has answered a sub-request: the issuing die applies what the owner's vector covers (R346); an element that met
a mark fails the operation. -/
def State.takeReply (s : State) (op : Nat) (e : EngOp) (r : SubReq) : Msg → State
  | .listReply die op' owner failed data vec =>
    let d := s.coreDie e.core
    if !s.reaches d vec then s
    else
      let t := s.catchUp d vec
      let u := match failed.bind fun f => (r.elems[f.1]?).map fun x => (x, f.2) with
        | some x => t.elemFails op e r x.2.cause (match e.job with | .gath _ _ _ _ _ => x.1.srcVa | _ => x.1.dstVa)
        | none => t.serveReq op e r (some data)
      if u = t then s else (u.consume (.listReply die op' owner failed data vec)).sendNext op owner
  | _ => s

/-- GATHER_REPLY: an owner here answers the first sub-request for it, or the reply of an owner on another package is taken; those of an
operation that is suspended complete too. The reply to an operation that has ended is dropped. -/
def execGatherReply (op owner : Nat) (s : State) : Out :=
  .next (match (s.op? op).filter EngOp.listening with
    | none => s.onLinks fun l => { l with inbox := l.inbox.filter fun m => match m with | .listReply _ k _ _ _ _ => k != op | _ => true }
    | some e =>
      match (e.out.find? fun r => r.owner == owner).filter fun _ => !e.held with
      | none => s
      | some r =>
        if s.ownDie owner then s.serveReq op e r none
        else
          match s.links.inbox.find? fun m => match m with | .listReply _ k o _ _ _ => k == op && o == owner | _ => false with
          | some m => s.takeReply op e r m
          | none => s)

/-- The sub-requests of the operations of the partitions that `part` selects are answered as far as owners here can: the accesses that use
a translation are performed (R338). -/
def State.flushReqs (s : State) (part : Nat → Bool) : State :=
  s.engines.foldl (fun s o =>
    if part o.2.part then
      o.2.out.foldl (fun s r =>
        match (s.op? o.1).filter EngOp.listening with
        | some e => if s.ownDie r.owner && !e.held then s.serveReq o.1 e r none else s
        | none => s) s
    else s) s

/-- Sub-requests of such operations are still to be answered. -/
def State.asksOwners (s : State) (part : Nat → Bool) : Bool :=
  s.engines.any fun o => part o.2.part && o.2.listening && !o.2.out.isEmpty && !o.2.held

/-- Elements that wait for the rest of their granule, or of their list, are read and translated again (R338). -/
def EngOp.reread (e : EngOp) : EngOp :=
  if e.held then { e with sent := 0, out := [] }
  else match e.job with
  | .gath _ _ _ _ _ => { e with sent := e.sent - e.got.length, got := [] }
  | _ => e

/-- R377: a reply ends a suspended operation: nothing more of its list is sent, and it FAILS once what it has sent is answered, by owners
here at once. -/
def State.abandonOp (s : State) (k : Nat) (e : EngOp) : State :=
  let e : EngOp := { e with st := .failing, out := if e.held then [] else e.out.filter fun r => s.ownDie r.owner || s.underWay e r }
  e.out.foldl (fun s r =>
    match s.op? k with
    | some e => if s.ownDie r.owner && e.out.contains r then s.serveReq k e r none else s
    | none => s) (s.settleOp k e)

end Sys2Proof.Machine
end

