-- ==== Sys2Proof/Machine/Queries.lean ====
section
/-!
DEFINITION. Queries and the Quern engine (R238 to R254): what a query computes, its contexts, the four instructions of OP
0xB8 to 0xBB and the engine's events.
-/

namespace Sys2Proof.Machine

/-! Reading and writing as the engine of a quad (R239). -/

/-- Why a query stops: a translation fault, a failure with its code and address, a write that stalls, a line of another package's home that
it has asked for (R346). -/
inductive QStop where
  | suspend (va : Nat)
  | fail (err va : Nat)
  | stall
  | ask (line : Nat)
deriving DecidableEq, Repr

/-- R253: the stop of an access that fails. -/
def qStop (c : Cause) (va : Nat) : QStop :=
  match c with
  | .dataXlt => .suspend va
  | .poison => .fail 5 va
  | .peer => .fail 6 va
  | _ => .fail 4 va

/-- The stop of an access that waits. -/
def qWait (w : Wait) : QStop := match w with | .far l => .ask l | _ => .stall

/-- What a piece of a query gives. -/
abbrev QRes (α : Type) := Except QStop α × State

/-! The contexts. -/

/-- A context by its key. -/
def State.ctx? (s : State) (k : Nat) : Option QCtx := s.queries.get? k
/-- A context replaced. -/
def State.setCtx (s : State) (k : Nat) (x : QCtx) : State := { s with queries := NMap.set k x s.queries }
/-- A context FREE. -/
def State.freeCtx (s : State) (k : Nat) : State := { s with queries := NMap.del k s.queries }

/-- The context keeps what it has read, and one restart point more has been passed (R254). -/
def State.qKeep (s : State) (k key : Nat) (b : List Byte) : State :=
  { s with
    queries := match s.queries.get? k with | some y => NMap.set k { y with lines := NMap.set key b y.lines } s.queries | none => s.queries
    budget := s.budget.map (· - 1) }

/-- Bytes that the query of context k reads: what it has read once it does not read again (R248). -/
def State.qRead (s : State) (k : Nat) (x : QCtx) (va n : Nat) : QRes (List Byte) :=
  let key := va % 2 ^ 64 * 2 ^ 20 + n
  match (s.ctx? k).bind fun y => y.lines.get? key with
  | some b => (.ok b, s)
  | none =>
    if s.budget = some 0 then (.error .stall, s)
    else
      match State.engReadF (s.quernDie x.core) x.core x.part n (va % 2 ^ 64) n s with
      | (.ok b, s) => (.ok b, s.qKeep k key b)
      | (.bad c a, s) => (.error (qStop c a), s)
      | (.stall w, s) => (.error (qWait w), s)

/-- Bytes that a query writes, granule by granule; a write that would fail writes nothing of its granule. -/
def State.qWriteF (x : QCtx) : Nat → Nat → List Byte → State → QRes Unit
  | 0, _, _, s => (.ok (), s)
  | fuel + 1, va, bs, s =>
    if bs.isEmpty then (.ok (), s)
    else
      let m := min bs.length (16 - va % 16)
      match s.check x.core x.part va m 1 .write false false with
      | (.bad c, s) => (.error (qStop c va), s)
      | (.stall w, s) => (.error (qWait w), s)
      | (.ok l, s) =>
        State.qWriteF x fuel ((va + m) % 2 ^ 64) (bs.drop m) (s.write (s.quernDie x.core) (quadOf x.core) l.addr (bs.take m))

/-- Bytes written at an address. -/
def State.qWrite (s : State) (x : QCtx) (va : Nat) (bs : List Byte) : QRes Unit := State.qWriteF x bs.length (va % 2 ^ 64) bs s

/-- A write that stops has written nothing; what it lacked on the walk has been asked for. -/
def State.qUndone (s : State) (x : QCtx) : QStop → State
  | .ask l => s.ask (s.coreDie x.core) (128 * l)
  | _ => s

/-! Posting lists (R240 to R242). -/

/-- Postings after the one of an identifier: identifiers and impacts, `pos` being the next payload bit. -/
def postings (dw iw pay : Nat) : Nat → Nat → Nat → List (Nat × Nat)
  | 0, _, _ => []
  | n + 1, doc, pos =>
    let d := doc + (pay >>> pos) % 2 ^ dw + 1
    (d, (pay >>> (pos + dw)) % 2 ^ iw) :: postings dw iw pay n d (pos + dw + iw)

/-- A decoded block: its postings, LASTDOC, LAST, NEXT. -/
structure PBlock where
  posts : List (Nat × Nat)
  lastDoc : Nat
  last : Bool
  next : Nat
deriving DecidableEq, Repr

/-- A block after one whose last identifier is given; nothing where it is malformed. -/
def pblock (b : List Byte) (prev : Option Nat) : Option PBlock :=
  let first := field b 0 4
  let n := field b 4 1
  let dw := field b 5 1
  let iw := field b 6 1
  let fl := field b 7 1
  let lastDoc := field b 8 4
  let next := field b 12 4
  let pay := leNat (b.drop 16)
  let posts := (first, pay % 2 ^ iw) :: postings dw iw pay (n - 1) first iw
  let low := match prev with | some p => decide (p < first) | none => true
  if 32 < dw ∨ iw = 0 ∨ 16 < iw ∨ 1 < fl ∨ n = 0 ∨ 896 < iw + (n - 1) * (dw + iw) ∨ (posts.any fun p => decide (2 ^ 32 ≤ p.1)) ∨
      (posts.getLastD (0, 0)).1 ≠ lastDoc ∨ (fl = 0 ∧ next = 0) ∨ (fl = 1 ∧ next ≠ 0) ∨ !low then none
  else some { posts := posts, lastDoc := lastDoc, last := fl == 1, next := next }

/-- A list from a block on; identifiers rise, so that `fuel` = 2^32 blocks are never exceeded. -/
def State.plist (k : Nat) (x : QCtx) : Nat → Nat → Option Nat → State → QRes (List (Nat × Nat))
  | 0, va, _, s => (.error (.fail 1 va), s)
  | fuel + 1, va, prev, s =>
    match s.qRead k x va 128 with
    | (.error e, s) => (.error e, s)
    | (.ok b, s) =>
      match pblock b prev with
      | none => (.error (.fail 1 va), s)
      | some e =>
        if e.last then (.ok e.posts, s)
        else
          match State.plist k x fuel ((va + 128 * e.next) % 2 ^ 64) (some e.lastDoc) s with
          | (.ok r, s) => (.ok (e.posts ++ r), s)
          | r => r

/-- Every term's list. -/
def State.plists (k : Nat) (x : QCtx) : List QTerm → State → QRes (List (QTerm × List (Nat × Nat)))
  | [], s => (.ok [], s)
  | t :: r, s =>
    match State.plist k x (2 ^ 32) t.list none s with
    | (.error e, s) => (.error e, s)
    | (.ok l, s) =>
      match State.plists k x r s with
      | (.ok m, s) => (.ok ((t, l) :: m), s)
      | m => m

/-! The vector part (R243). -/

/-- A vector record is malformed. -/
def vecRecBad (b : List Byte) : Bool :=
  let dim := field b 16 4
  let stride := field b 20 4
  let nvc := field b 32 4
  field b 0 8 % 16 != 0 || field b 8 8 % 16 != 0 || dim % 16 != 0 || decide (dim < 16) || decide (4096 < dim) ||
  stride % 16 != 0 || decide (stride < dim) || decide (65535 < nvc) || (nvc != 0 && field b 24 8 % 4 != 0) || !zeros b 36 28

/-- The record and the query vector. -/
def State.qVector (s : State) (k : Nat) (x : QCtx) (v : QVec) : QRes (List Byte × List Byte) :=
  match s.qRead k x v.recAddr 64 with
  | (.error e, s) => (.error e, s)
  | (.ok b, s) =>
    if vecRecBad b then (.error (.fail 2 v.recAddr), s)
    else
      match s.qRead k x (field b 0 8) (field b 16 4) with
      | (.error e, s) => (.error e, s)
      | (.ok q, s) => (.ok (b, q), s)

/-- The vector candidates of a record; the address of the first one that does not rise. -/
def State.qCands (s : State) (k : Nat) (x : QCtx) (b : List Byte) : QRes (List Nat) :=
  let n := field b 32 4
  match s.qRead k x (field b 24 8) (4 * n) with
  | (.error e, s) => (.error e, s)
  | (.ok c, s) =>
    let l := (List.range n).map fun i => field c (4 * i) 4
    match (List.range n).find? fun i => i != 0 && decide (l.getD i 0 ≤ l.getD (i - 1) 0) with
    | some i => (.error (.fail 2 ((field b 24 8 + 4 * i) % 2 ^ 64)), s)
    | none => (.ok l, s)

/-! What a query computes (R244 to R246). -/

/-- Identifiers of a list. -/
def docsOf (l : List (Nat × Nat)) : NSet := l.foldl (fun acc p => NSet.add p.1 acc) []

/-- The candidate set C. -/
def candidates (ts : List (QTerm × List (Nat × Nat))) (v : List Nat) : NSet :=
  let of_ (r : Role) : List NSet := (ts.filter fun t => t.1.role == r).map fun t => docsOf t.2
  let union (l : List NSet) : NSet := l.foldl (fun acc x => x.foldl (fun acc d => NSet.add d acc) acc) []
  let lex := match of_ .must with
    | [] => union (of_ .should)
    | m :: r => m.filter fun d => r.all fun x => NSet.has d x
  let none_ := union (of_ .not)
  (v.foldl (fun acc d => NSet.add d acc) lex).filter fun d => !NSet.has d none_

/-- lex(d). -/
def lexOf (ts : List (QTerm × List (Nat × Nat))) (d : Nat) : Nat :=
  ts.foldl (fun acc t => if t.1.role = .not then acc else acc + t.1.weight * NMap.getD t.2 d 0) 0

/-- The inner product of signed bytes. -/
def dotI8 : List Byte → List Byte → Int
  | a :: x, b :: y => a.toInt * b.toInt + dotI8 x y
  | _, _ => 0

/-- An entry of the result. -/
structure QEntry where
  f : Int
  doc : Nat
  vsim : Int
deriving DecidableEq, Repr

/-- Entry a comes before entry b. -/
def QEntry.before (a b : QEntry) : Bool := decide (b.f < a.f) || (a.f == b.f && decide (a.doc < b.doc))

/-- An entry put in its place. -/
def rankIn (e : QEntry) : List QEntry → List QEntry
  | [] => [e]
  | x :: r => if e.before x then e :: x :: r else x :: rankIn e r

/-- The entries of candidates, each with its embedding row where there is a vector part. -/
def State.scores (k : Nat) (x : QCtx) (ts : List (QTerm × List (Nat × Nat))) : List Nat → State → QRes (List QEntry)
  | [], s => (.ok [], s)
  | d :: r, s =>
    let row : QRes Int :=
      match x.vec.bind (·.read) with
      | some (b, q) =>
        match s.qRead k x (field b 8 8 + d * field b 20 4) (field b 16 4) with
        | (.ok e, s) => (.ok (dotI8 q e), s)
        | (.error e, s) => (.error e, s)
      | none => (.ok 0, s)
    match row with
    | (.error e, s) => (.error e, s)
    | (.ok vs, s) =>
      match State.scores k x ts r s with
      | (.ok l, s) =>
        let ab := match x.vec with | some v => (v.alpha, v.beta) | none => (1, 0)
        (.ok (rankIn { f := ab.1 * lexOf ts d + ab.2 * vs, doc := d, vsim := vs } l), s)
      | e => e

/-- A query with its vector part read, its lists and its candidate set. -/
def State.qSet (s : State) (k : Nat) (x : QCtx) : QRes (QCtx × List (QTerm × List (Nat × Nat)) × NSet) :=
  let vec : QRes (QCtx × List Nat) :=
    match x.vec with
    | none => (.ok (x, []), s)
    | some v =>
      let rd : QRes (List Byte × List Byte) := match v.read with | some r => (.ok r, s) | none => s.qVector k x v
      match rd with
      | (.error e, s) => (.error e, s)
      | (.ok r, s) =>
        match s.qCands k x r.1 with
        | (.error e, s) => (.error e, s)
        | (.ok c, s) => (.ok ({ x with vec := some { v with read := some r } }, c), s)
  match vec with
  | (.error e, s) => (.error e, s)
  | (.ok (x, v), s) =>
    match State.plists k x x.terms s with
    | (.error e, s) => (.error e, s)
    | (.ok ts, s) => (.ok (x, ts, candidates ts v), s)

/-- Where the save region of a query begins (R247). -/
def QCtx.saveAt (x : QCtx) : Nat := (x.area + 64 + 16 * x.k) % 2 ^ 64

/-- A query that was saved takes its cursors from its save region, which holds what was saved there (R247, R254). -/
def State.qRestore (s : State) (x : QCtx) : QRes Unit :=
  if x.saved.isEmpty then (.ok (), s)
  else
    match State.engReadF (s.quernDie x.core) x.core x.part x.saved.length x.saveAt x.saved.length s with
    | (.ok b, s) => (if b = x.saved then .ok () else .error (.fail 7 x.saveAt), s)
    | (.bad c a, s) => (.error (qStop c a), s)
    | (.stall w, s) => (.error (qWait w), s)

/-- A query evaluated: its entries, best first, and |C|; one that has an error already fails with it. -/
def State.qEval (s : State) (k : Nat) (x : QCtx) : QRes (List QEntry × Nat) :=
  if x.err ≠ 0 then (.error (.fail x.err x.errAddr.toNat), s)
  else
    match s.qRestore x with
    | (.error e, s) => (.error e, s)
    | (.ok _, s) =>
      match s.qSet k x with
      | (.error e, s) => (.error e, s)
      | (.ok (x, ts, c), s) =>
        match State.scores k x ts c s with
        | (.error e, s) => (.error e, s)
        | (.ok l, s) => (.ok (l.take x.k, c.length), s)

/-! Status and results (R247, R252). -/

/-- STATE of R252. -/
def QSt.code : QSt → Nat
  | .building => 1 | .queued => 2 | .running => 3 | .suspended => 4 | .saved => 5 | .done => 6 | .failed => 7

/-- The status word. -/
def QCtx.status (x : QCtx) (own : Bool) : Word :=
  BitVec.ofNat 64 (x.st.code + 16 * x.terms.length + 512 * x.vec.isSome.toNat + 1024 * own.toNat +
    2 ^ 16 * (if x.st = .failed then x.err else 0) + 2 ^ 32 * (if x.st = .done then x.count else 0))

/-- The header. -/
def QCtx.header (x : QCtx) (ncand : Nat) : List Byte :=
  leBytes 8 (x.status true).toNat ++ leBytes 8 ncand ++ leBytes 8 (if x.st = .failed then x.errAddr.toNat else 0) ++ leBytes 40 0

/-- An entry's bytes. -/
def QEntry.bytes (e : QEntry) : List Byte := leBytes 8 (bitsOf 64 e.f) ++ leBytes 4 e.doc ++ leBytes 4 (bitsOf 32 e.vsim)

/-- The step of a RUNNING query to its end: the state with the result written, or why it stops. -/
def State.qFinish (s : State) (k : Nat) (x : QCtx) : QRes QCtx :=
  match s.qEval k x with
  | (.error e, s) => (.error e, s)
  | (.ok (es, n), s) =>
    let y : QCtx := { x with st := .done, count := es.length, lines := [] }
    let bs := es.flatMap QEntry.bytes
    match s.qWrite x (x.area + 64) bs with
    | (.error e, _) => (.error e, s.qUndone x e)
    | (.ok _, s1) =>
      match s1.qWrite x x.area (y.header n) with
      | (.error e, _) => (.error e, s.qUndone x e)
      | (.ok _, s) => (.ok y, s.performAt (s.quernDie x.core) .domain)

/-- A query ends: a context whose owner has halted is FREE, with a record where it FAILED (R248). -/
def State.qEnd (s : State) (k : Nat) (x : QCtx) : State :=
  if s.gone x.sid then
    let s := s.freeCtx k
    if x.st = .failed then s.engReport x.part .none x.epc x.errAddr (qCause x.err) x.core (s.slotOf x.sid) else s
  else (s.setCtx k x).pokeFence x.sid

/-- |C| of a query that fails: what it has read gives it, or it is free where C is not complete (log entry 20). -/
def State.qCount (s : State) (k : Nat) (x : QCtx) : Nat × State :=
  match (({ s with budget := some 0 } : State).qSet k x).1 with
  | .ok (_, _, c) => (c.length, s)
  | .error _ => s.draw (2 ^ 64)

/-- FAILED: the header is written, unless translation, permission or poison forbids it; where the write has to wait, the query has not
failed yet (R247). -/
def State.qFail? (s : State) (k : Nat) (x : QCtx) (err : Nat) (va : Word) : Except State State :=
  let (n, t) := s.qCount k x
  let x := { x with st := .failed, err := err, errAddr := va, count := 0, lines := [] }
  match t.qWrite x x.area (x.header n) with
  | (.ok _, t) => .ok ((t.performAt (t.quernDie x.core) .domain).qEnd k x)
  | (.error .stall, _) => .error s
  | (.error (.ask l), _) => .error (s.qUndone x (.ask l))
  | (.error _, _) => .ok (t.qEnd k x)

/-- A SUSPENDED query fails; where its header cannot be written yet it keeps its error until QUERY_FAIL writes it. -/
def State.qFail (s : State) (k : Nat) (x : QCtx) (err : Nat) (va : Word) : State :=
  match s.qFail? k x err va with
  | .ok t => t
  | .error t => t.setCtx k { x with err := err, errAddr := va }

/-- The fault of a SUSPENDED context is dropped: its record, and what a reply to it would do (R254). -/
def State.dropFault (s : State) (k : Nat) : State :=
  let o : FaultOf := .query (k / 16) (k % 16)
  s.onMill fun m => { m with
    faults := m.faults.filter fun f => f.owner != o
    slots := m.slots.map fun p => if p.2.owner == o then (p.1, { p.2 with owner := .none }) else p }

/-- A query goes on as far as its next restart point, which is a free number of lines away (R254). -/
def State.qToRestart (s : State) (k : Nat) (x : QCtx) : State :=
  if x.st != .running then s
  else
    let (n, s) := s.draw (2 ^ 16)
    let t := (({ s with budget := some n } : State).qEval k x).2
    { t with budget := s.budget }

/-- The save region of a SAVED query written. A write that stalls is made again by QUERY_START (R336); one that fails makes the query fail
when it goes on (log entry 20). -/
def State.qStore (s : State) (k : Nat) (x : QCtx) : State :=
  let fails (err va : Nat) : State := s.setCtx k { x with unsaved := false, saved := [], err := err, errAddr := BitVec.ofNat 64 va }
  match s.qWrite x x.saveAt x.saved with
  | (.ok _, s) => s.setCtx k { x with unsaved := false }
  | (.error .stall, _) => s.setCtx k { x with unsaved := true }
  | (.error (.ask l), _) => (s.qUndone x (.ask l)).setCtx k { x with unsaved := true }
  | (.error (.suspend va), _) => fails 3 va
  | (.error (.fail err va), _) => fails err va

/-- QUERY_SAVE (R254): the save region is written in the engine's own format, which is free (log entry 20). -/
def State.qSave (s : State) (k : Nat) (x : QCtx) : State :=
  let s := (s.dropFault k).qToRestart k x
  let x : QCtx := { x with st := .saved, lines := ((s.ctx? k).getD x).lines }
  if x.err ≠ 0 then s.setCtx k x
  else
    let n := 512 + 16 * x.k
    let (v, s) := s.draw (2 ^ (8 * n))
    s.qStore k { x with saved := leBytes n v }

/-- A SAVED query goes on at a core, in QUEUED as a new one of number `order` (R248, R249); where its save region was altered it
will fail with ERR 7 (R247), and where the region cannot be read now it is read when the query takes an execution slot. -/
def State.qResume (s : State) (k core order : Nat) (x : QCtx) : State :=
  let x : QCtx := { x with st := .queued, core := core, order := order }
  match s.qRestore x with
  | (.ok _, s) => s.setCtx k { x with saved := [] }
  | (.error (.fail 7 va), s) => s.setCtx k { x with saved := [], err := 7, errAddr := BitVec.ofNat 64 va }
  | (.error _, s) => s.setCtx k x

/-! The engine's events (R248, R249). -/

/-- Contexts of a quad in a state. -/
def State.quadCtxs (s : State) (quad : Nat) (st : QSt) : NMap QCtx := s.queries.filter fun q => q.1 / 16 == quad && q.2.st == st

/-- The QUEUED context of a quad whose `qexec` arrived first. -/
def State.firstQueued (s : State) (quad : Nat) : Option (Nat × QCtx) :=
  (s.quadCtxs quad .queued).foldl (fun (best : Option (Nat × QCtx)) q =>
    match best with
    | some b => if q.2.order < b.2.order then some q else best
    | none => some q) none

/-- A context takes an execution slot: what was saved is taken up, the record and the query vector are read. -/
def State.qBegin (s : State) (k : Nat) (x : QCtx) : State :=
  let (x, s) := match s.qRestore x with | (.ok _, s) => ({ x with saved := [] }, s) | (.error _, s) => (x, s)
  let s := s.setCtx k { x with st := .running }
  match x.vec with
  | some v =>
    match v.read with
    | some _ => s
    | none =>
      match s.qVector k x v with
      | (.ok r, s) => s.setCtx k { (s.ctx? k).getD x with vec := some { v with read := some r } }
      | (.error _, s) => s
  | none => s

/-- The free execution slots are filled, `n` at most. -/
def State.qFill (quad : Nat) : Nat → State → State
  | 0, s => s
  | n + 1, s =>
    if 4 ≤ (s.quadCtxs quad .running).length then s
    else
      match s.firstQueued quad with
      | some (k, x) => State.qFill quad n (s.qBegin k x)
      | none => s

/-- QUERY_START: save regions that have still to be written are, and the free execution slots are filled. -/
def execQueryStart (quad : Nat) (s : State) : Out :=
  .next (State.qFill quad 4 (((s.quadCtxs quad .saved).filter fun q => q.2.unsaved).foldl (fun s q => s.qStore q.1 q.2) s))

/-- The RUNNING context of an event. -/
def State.runningCtx (s : State) (quad ctx : Nat) : Option QCtx := (s.ctx? (16 * quad + ctx)).filter fun x => x.st == .running

def execQueryDone (quad ctx : Nat) (s : State) : Out :=
  match s.runningCtx quad ctx with
  | none => .next s
  | some x =>
    match s.qFinish (16 * quad + ctx) x with
    | (.ok y, s) => .next ((s.qEnd (16 * quad + ctx) y).ctrDone y.part y.ctr)
    | (.error (.ask _), s) => .next s
    | (.error _, _) => .next s

def execQuerySuspend (quad ctx : Nat) (s : State) : Out :=
  match s.runningCtx quad ctx with
  | none => .next s
  | some x =>
    match s.qFinish (16 * quad + ctx) x with
    | (.error (.suspend va), s) =>
      let va : Word := BitVec.ofNat 64 va
      let x := (s.ctx? (16 * quad + ctx)).getD x
      .next ((s.setCtx (16 * quad + ctx) { x with st := .suspended, errAddr := va }).engReport x.part (.query quad ctx) x.epc va
        Cause.dataXlt.code x.core (s.slotOf x.sid))
    | _ => .next s

/-- The RUNNING query that fails, with its error and address, and the state that it has come to; or a SUSPENDED one that has failed but for
its header. -/
def State.failing (s : State) (quad ctx : Nat) : Option (QCtx × Nat × Nat × State) :=
  match s.ctx? (16 * quad + ctx) with
  | some x =>
    if x.st = .suspended ∧ x.err ≠ 0 then some (x, x.err, x.errAddr.toNat, s)
    else if x.st = .running then
      match s.qFinish (16 * quad + ctx) x with
      | (.error (.fail err va), t) => some (x, err, va, t)
      | _ => none
    else none
  | none => none

/-- QUERY_FAIL; memory of a host port that is not UP gives a management event (R371). -/
def execQueryFail (quad ctx : Nat) (s : State) : Out :=
  match s.failing quad ctx with
  | none => .next s
  | some (x, err, va, t) =>
    match t.qFail? (16 * quad + ctx) x err (BitVec.ofNat 64 va) with
    | .ok u => .next (if err = 6 then u.hostEvent x.core x.part .peer va else u)
    | .error u => .next u

/-! The instructions (R250 to R252). -/

/-- QUERY. -/
def queryTrap (code : Nat) : Trap := Trap.queue .query code

/-- The key of a context that the acting strand names (R238). -/
def State.ctxKey (s : State) (c : Nat) : Nat := 16 * quadOf s.act.core + 4 * (pairOf s.act.core % 4) + c % 4

/-- A query instruction, which a mill core does not have. -/
def State.queryOp (s : State) (r : Res Unit) : Out := (if isMill s.act.core then .trap s.illegal s else r).finQ s

/-- A context in BUILDING: the acting strand's own, or a new one; the code of the trap where it is neither. -/
def State.building (s : State) (k : Nat) : Except Nat QCtx :=
  match s.ctx? k with
  | none =>
    .ok { st := .building, sid := s.act.sid, part := s.act.part, core := s.act.core, terms := [], vec := none, area := 0, k := 0
          ctr := none, epc := 0, order := 0, err := 0, errAddr := 0, count := 0, lines := [], saved := [], unsaved := false }
  | some x => if x.sid ≠ s.act.sid then .error 1 else if x.st ≠ .building then .error 3 else .ok x

/-- The role of a term word. -/
def roleOf : Nat → Option Role
  | 0 => some .should | 1 => some .must | 2 => some .not | _ => none

def execQterm (a b c : Reg) (_ : Ctl) (s : State) : Out :=
  let w := (s.g a).toNat
  let list := (s.g b).toNat
  let term := (s.g c).toNat
  s.queryOp (
    match roleOf (term / 2 ^ 16) with
    | none => .trap (queryTrap 5) s
    | some role =>
      if 4 ≤ w then .trap (queryTrap 5) s
      else if list % 128 ≠ 0 then .trap (Trap.queue .align list) s
      else
        match s.building (s.ctxKey w) with
        | .error code => .trap (queryTrap code) s
        | .ok x =>
          if 16 ≤ x.terms.length then .trap (queryTrap 2) s
          else .ok () (s.setCtx (s.ctxKey w) { x with terms := x.terms ++ [{ list := list, weight := term % 2 ^ 16, role := role }] }))

def execQvec (a b c : Reg) (_ : Ctl) (s : State) : Out :=
  let w := (s.g a).toNat
  let at_ := (s.g b).toNat
  let f := (s.g c).toNat
  s.queryOp (
    if 4 ≤ w ∨ 2 ^ 32 ≤ f then .trap (queryTrap 5) s
    else if at_ % 64 ≠ 0 then .trap (Trap.queue .align at_) s
    else
      match s.building (s.ctxKey w) with
      | .error code => .trap (queryTrap code) s
      | .ok x =>
        .ok () (s.setCtx (s.ctxKey w) { x with
          vec := some { recAddr := at_, alpha := f % 2 ^ 16, beta := f / 2 ^ 16, read := none } }))

/-- R251: it issues once every older engine issue of the strand has completed. Its traps come in the order QUERY 5, ALIGN, QUERY 1 to 4, PERM
(DESIGN CHOICE, log entry 20). -/
def execQexec (a b : Reg) (_ : Ctl) (s : State) : Out :=
  let area := (s.g a).toNat
  let w := (s.g b).toNat
  let k := s.ctxKey (w / 2 ^ 18)
  s.queryOp (
    if 2 ^ 28 ≤ w ∨ (s.g b).getLsbD 17 then .trap (queryTrap 5) s
    else if area % 128 ≠ 0 then .trap (Trap.queue .align area) s
    else
      match s.ctx? k, s.building k with
      | none, _ => .trap (queryTrap 4) s
      | some _, .error code => .trap (queryTrap code) s
      | some _, .ok x =>
        if x.terms.isEmpty ∧ x.vec.isNone then .trap (queryTrap 4) s
        else if s.engines.any fun o => o.2.sid == s.act.sid && o.2.st == .posted then .wait .issue s
        else
          match (wordCtr (s.g b)).bind fun c => s.ctrTrap c (BitVec.ofNat 64 (w % 2 ^ 17)) with
          | some t => .trap t s
          | none =>
            let s := s.bringAlong (s.coreDie s.act.core) (s.quernDie s.act.core)
            .ok () ({ s with nextOp := s.nextOp + 1 }.setCtx k { x with
              st := .queued, area := area, k := w / 2 ^ 20 % 2 ^ 8 + 1, ctr := wordCtr (s.g b), epc := s.act.pc, order := s.nextOp }))

def execQstat (d a : Reg) (_ : Ctl) (s : State) : Out :=
  let w := (s.g a).toNat
  let k := s.ctxKey w
  s.queryOp (
    if w % 256 ≥ 4 ∨ 512 ≤ w then .trap (queryTrap 5) s
    else
      match s.ctx? k with
      | none => .ok () (s.setG d 0)
      | some x =>
        let own := x.sid == s.act.sid
        let rel := (s.g a).getLsbD 8 && own && (x.st == .done || x.st == .failed)
        .ok () ((if rel then s.freeCtx k else s).setG d (x.status own)))

/-! Replies (R195, R248, R264). -/

/-- The reply to a record of an engine operation or a query that is SUSPENDED. -/
def State.engineReply (s : State) (o : FaultOf) (resume : Bool) : State :=
  match o with
  | .engine k =>
    match s.op? k with
    | some e =>
      if e.st != .suspended then s
      else if resume then s.setOp k { e with st := .running } else s.abandonOp k e
    | none => s
  | .query q c =>
    match s.ctx? (16 * q + c) with
    | some x =>
      if x.st != .suspended then s
      else if resume then s.setCtx (16 * q + c) { x with st := .queued } else s.qFail (16 * q + c) x 3 x.errAddr
    | none => s
  | _ => s

/-- FAULT_REPLY: the reply counter of a slot has fired. A slot whose REPLY is still 0 is not used again until it is not (R262). -/
def State.faultReply (s : State) (part slot : Nat) : State :=
  let r := (s.part part).record
  let rctr := r.ctrBase + 1 + slot
  match s.mill.slots.get? (256 * part + slot) with
  | none => s
  | some f =>
    if (s.ctr rctr).st != .fired then s
    else
      let a := r.faultArea + 64 * slot
      if s.lacks s.millDie a then s.ask s.millDie a
      else
      let s := s.readSync s.millDie a
      let b := s.bytesAt s.millDie a 64
      let resume := field b 56 8 == 1
      let s := s.idleCtr rctr
      let s := s.onMill fun m => { m with
        slots := NMap.del (256 * part + slot) m.slots
        unreplied := if field b 56 8 = 0 then NSet.add (256 * part + slot) m.unreplied else m.unreplied }
      match f.owner with
      | .strand sid =>
        match s.strand? sid with
        | some x =>
          if x.life != .trapped ∧ x.life != .trappedSaved then s
          else if resume then s.resumeStrand sid b else s.killStrand sid
        | none => s
      | o => s.engineReply o resume

end Sys2Proof.Machine
end

