-- ==== Sys2Proof/Machine/Place.lean ====
section
/-!
DEFINITION. Queues, placement, grants and dispatch (R292 to R296, R301, R302, R306, R278).
-/

namespace Sys2Proof.Machine

/-! Queues (R292, R294, R295). -/

/-- A queue of a partition. -/
def State.queueWord (s : State) (part q : Nat) : BitVec 16 := (s.millRec part).queues.toList.getD q 0
/-- The queue that a node uses: queue 0 where its own is disabled. -/
def State.queueOf (s : State) (x : NodeRun) : Nat := if (s.queueWord x.part x.queue).getLsbD 3 then x.queue else 0
/-- The priority of a queue, aged. -/
def State.queuePrio (s : State) (part q : Nat) : Nat :=
  min 7 (((s.queueWord part q).extractLsb' 0 3).toNat + s.mill.boost.getD (16 * part + q) 0)
/-- The weight of a queue. -/
def State.queueWeight (s : State) (part q : Nat) : Nat := ((s.queueWord part q).extractLsb' 4 8).toNat

/-- The head of a queue: the first node of the pool that is in it. -/
def State.queueHead (s : State) (part q : Nat) : Option Nat :=
  s.mill.pool.find? fun n => match s.node? n with | some x => x.part == part && s.queueOf x == q | none => false

/-! Where a strand fits (R278, R294). -/

/-- What a strand asks of a core: its fewest clusters, its most. -/
structure Want where
  idx : Nat
  least : Nat
  most : Nat
deriving DecidableEq, Repr

/-- A strand of a plan: the core that it gets. -/
structure Seat where
  want : Want
  core : Nat
deriving DecidableEq, Repr

/-- Scratchpad ranges overlap. -/
def padOverlap (a b : Header) : Bool :=
  a.spLen != 0 && b.spLen != 0 && decide (a.spOff < b.spOff + b.spLen) && decide (b.spOff < a.spOff + a.spLen)

/-- The class of a node's kernel matches a core (R278). -/
def classFits (x : NodeRun) (core : Nat) : Bool :=
  if x.hdr.cls = 1 then isMill core else if x.sailOnly then !isMill core else true

/-- The core can be used: it is there and is not lost, and no retrim waits for it (R310, R382); a sail core is ON (R388). -/
def State.coreUsable (s : State) (core : Nat) : Bool :=
  decide (core < 512) && !(s.core core).lost && !(s.core core).trimDue && (isMill core || (s.pair (pairOf core)).gate == .on)

/-- The context of a strand's query at a sail core that matches one at another (R238, R254). -/
def ctxAt (core k : Nat) : Nat := 16 * quadOf core + 4 * (pairOf core % 4) + k % 4

/-- A query that QUEUED, RUNNING or SUSPENDED says has an engine's slot or will have (R248). -/
def QSt.live (x : QSt) : Bool := x == .queued || x == .running || x == .suspended

/-- R254: a strand with query contexts goes to a sail core whose matching contexts are FREE, once those that are not SAVED are. -/
def State.queriesFit (s : State) (sid core : Nat) : Bool :=
  s.queries.all fun q => q.2.sid != sid ||
    (!isMill core && !q.2.unsaved && (q.2.core == core || !q.2.st.live) && (ctxAt core q.1 == q.1 || (s.queries.get? (ctxAt core q.1)).isNone))

/-- R255: the query contexts of a strand, in whatever state, go with it to another sail core. -/
def State.moveCtxs (s : State) (sid core : Nat) : State :=
  let moved := s.queries.filter fun q => q.2.sid == sid && q.2.core != core
  { s with queries := moved.foldl (fun m q => NMap.set (ctxAt core q.1) { q.2 with core := core } (NMap.del q.1 m)) s.queries }

/-- The core that a member of a node was launched on. -/
def NodeRun.launchCore (x : NodeRun) (sid : Nat) : Option Nat := (x.members.find? fun m => m.1 == sid).map (·.2)

/-- R301, R304: the placement of a group stays the same: at each tier, two members lie in one unit exactly where they did at
launch, and all lie in one unit of the node's tier. -/
def NodeRun.keepsShape (x : NodeRun) (sid core : Nat) (others : List (Nat × Nat)) : Bool :=
  match x.launchCore sid with
  | none => true
  | some l => others.all fun o =>
      match x.launchCore o.1 with
      | none => true
      | some k => [Tier.core, .pair, .quad, .stack].all fun t => (unitOf t core == unitOf t o.2) == (unitOf t l == unitOf t k)

/-- Members of a node that keep the cores they are on while others are placed. -/
def State.settled (s : State) (n : Nat) : List (Nat × Nat) :=
  (s.strands.filter fun a => a.node == n && (a.life == .running || a.life == .trapped)).map fun a => (a.sid, a.core)

/-- A core can take one more strand of a node beside those that a plan has put on it. -/
def State.coreFits (s : State) (n : Nat) (x : NodeRun) (core : Nat) (plan : List Seat) (w : Want) : Bool :=
  let on := s.strands.filter fun a => a.onCore && a.core == core
  let here := plan.filter fun p => p.core == core
  let used := here.foldl (fun acc p => acc + p.want.least) 0
  s.coreUsable core && classFits x core && (x.members.isEmpty || (s.queriesFit w.idx core && x.keepsShape w.idx core (s.settled n ++ plan.map fun p => (p.want.idx, p.core)))) && (s.part x.part).record.quads.getLsbD (quadOf core) &&
  decide (on.length + here.length < 8) && decide (used + w.least ≤ (s.freeClusters core).length) &&
  (x.hdr.slots == 0 || (here.isEmpty && !(on.any fun a => a.hdr.slots != 0))) &&
  !(s.strands.any fun a => a.onCore && pairOf a.core == pairOf core && a.node != n && padOverlap a.hdr x.hdr)

/-- Strands seated, each on the first core of a list that takes it. -/
def State.seat (s : State) (n : Nat) (x : NodeRun) (cores : List Nat) : List Want → List Seat → Option (List Seat)
  | [], plan => some plan
  | w :: r, plan =>
    match cores.find? fun c => s.coreFits n x c plan w with
    | some c => s.seat n x cores r (plan ++ [{ want := w, core := c }])
    | none => none

/-- The cores of a tier's unit around a core, that core first. -/
def unitCores (tier : Tier) (core : Nat) : List Nat :=
  let l := (List.range 512).filter fun c => sameTier tier core c
  core :: l.filter (· != core)
where
  /-- Two cores lie in one unit. -/
  sameTier (tier : Tier) (a b : Nat) : Bool := unitOf tier a == unitOf tier b

/-- A strand put into a list that ascends by strand index. -/
def insertMember (a : Strand) : List Strand → List Strand
  | [] => [a]
  | b :: r => if a.index < b.index then a :: b :: r else b :: insertMember a r

/-- The members of a node that a dispatch places, in ascending strand index (R306). -/
def State.toPlace (s : State) (n : Nat) : List Strand :=
  (s.strands.filter fun a => a.node == n && (a.life == .saved || a.life == .ready)).foldl (fun l a => insertMember a l) []

/-- R302: no member of the group is dispatched while another is still stopping or on its way to another place. -/
def State.groupHeld (s : State) (n : Nat) (x : NodeRun) : Bool :=
  !x.due.isEmpty || s.strands.any fun a => a.node == n && (a.life == .stopping || a.life == .migrating)

/-- What a saved strand asks: clusters for the data of the `vl` and the `vtype` that its reel holds (R260, R268). -/
def State.wantOf (s : State) (x : NodeRun) (a : Strand) : Want :=
  let k := (s.readScalars a).1.needClusters
  { idx := a.sid, least := max x.hdr.clMin k, most := max x.hdr.clMax k }

/-- What the strands of a node ask, in ascending strand index (R306): at launch by their index, at resumption by their number. -/
def State.wants (s : State) (n : Nat) (x : NodeRun) : List Want :=
  if x.members.isEmpty then
    (List.range x.nstr).map fun i => { idx := i, least := x.hdr.clMin, most := x.hdr.clMax }
  else (s.toPlace n).map (s.wantOf x)

/-- A core can take again, now or later, saved strands that ask it for so many clusters: it is not lost, the partition holds its quad, and
its clusters that are not lost are enough. -/
def State.coreStays (s : State) (x : NodeRun) (core least : Nat) : Bool :=
  !(s.core core).lost && (s.part x.part).record.quads.getLsbD (quadOf core) &&
  decide (least ≤ ((List.range 8).filter fun i => !NSet.has i (s.core core).lostClusters).length)

/-- The saved strands of a node can all go on where they were. -/
def State.stays (s : State) (n : Nat) (x : NodeRun) : Bool :=
  let l := s.toPlace n
  l.all fun a => s.coreStays x a.core ((l.filter fun b => b.core == a.core).foldl (fun k b => k + (s.wantOf x b).least) 0)

/-- A plan for all of a node's strands that uses a core (R301, R302). The placement of a group stays the same across
pre-emption and resumption (R304): each strand waits for its own core, unless one of them is gone for good (DEDUCED, log entry 27). -/
def State.plan (s : State) (n : Nat) (x : NodeRun) (core : Nat) : Option (List Seat) :=
  let ws := s.wants n x
  let own := (s.toPlace n).foldl (fun acc a => acc.bind fun (plan : List Seat) =>
    let w := s.wantOf x a
    if s.coreFits n x a.core plan w then some (plan ++ [{ want := w, core := a.core }]) else none) (some [])
  let general := s.seat n x (unitCores x.tier core) ws []
  let p := if x.members.isEmpty then general else if s.stays n x then own else general
  p.filter fun l => l.any fun q => q.core == core

/-! Grants (R306). -/

/-- One pass: every strand below its most gets one more cluster while any is left. -/
def grantPass : List (Want × Nat) → Nat → List (Want × Nat) × Nat
  | [], left => ([], left)
  | (w, k) :: r, left =>
    let give := decide (0 < left) && decide (k < w.most)
    let x := grantPass r (if give then left - 1 else left)
    ((w, if give then k + 1 else k) :: x.1, x.2)

/-- The clusters of each strand on a core that has some free ones. -/
def grants (free : List Nat) (ws : List Want) : List (Nat × BitVec 8) :=
  let start := ws.map fun w => (w, w.least)
  let left := free.length - start.foldl (fun acc p => acc + p.2) 0
  let counts := ((List.range 8).foldl (fun p _ => grantPass p.1 p.2) (start, left)).1
  (counts.foldl (fun (acc : List (Nat × BitVec 8) × List Nat) p =>
    (acc.1 ++ [(p.1.idx, clusterMap (acc.2.take p.2))], acc.2.drop p.2)) ([], free)).1

/-- The lowest hardware slot that is free on a core (R263). -/
def State.freeHwSlot (s : State) (core : Nat) : Nat :=
  ((List.range 8).find? fun i => !(s.strands.any fun a => a.onCore && a.core == core && a.hwSlot == i)).getD 0

/-! Launch and resumption (R296, R278, R256). -/

/-- The constants of a kernel (R82, R278). Where their table cannot be read at dispatch, which the spec does not provide for, the
bank is empty, so that every `cb` index takes ILLEGAL (DESIGN CHOICE, log entry 55). -/
def State.constants (s : State) (x : NodeRun) : List (BitVec 32) × State :=
  match s.agentRead s.millDie x.part (x.kernel + x.hdr.codeEnd) (4 * x.hdr.nconst) with
  | (.ok b, s) => ((List.range x.hdr.nconst).map fun i => BitVec.ofNat 32 (field b (4 * i) 4), s)
  | (.error _, s) => ([], s)

/-- R296, R396: the `g` registers at launch. -/
def launchRegs (x : NodeRun) (i : Nat) : Vector Word 32 :=
  let g1 : Word := if x.boot then 0x01FFFFF800000000 else BitVec.ofNat 64 x.param
  Vector.ofFn fun r =>
    if r = 1 then g1 else if r = 2 then BitVec.ofNat 64 i else if r = 3 then BitVec.ofNat 64 x.nstr
    else if r = 4 then BitVec.ofNat 64 x.slot else 0

/-- R236: the engine of a core is handed to a strand whose kernel has another FID than the last holder's. -/
def State.handRail (s : State) (core : Nat) (h : Header) : State :=
  if h.slots = 0 ∨ (s.core core).railFid = h.fid then s
  else s.onCore core fun c => { c with railFid := h.fid, railNew := true, railCount := 0, fidSat := false }

/-- A strand of a node starts on a core. -/
def State.launchOne (s : State) (n : Nat) (x : NodeRun) (cb : List (BitVec 32)) (seat : Seat) (cl : BitVec 8) : State :=
  let sid := s.mill.nextId
  let a := Strand.launch sid seat.core (s.freeHwSlot seat.core) x.part n seat.want.idx (BitVec.ofNat 64 x.kernel) x.hdr cl cb
  let a := { a with life := .running, g := launchRegs x seat.want.idx }
  let s := s.onNode n fun x => { x with members := x.members ++ [(sid, seat.core)] }
  { (s.onMill fun m => { m with nextId := sid + 1 }) with parked := s.parked ++ [a] }

/-- CPY_RESUME and the resumption of queries (R195, R248): saved operations of a strand go on; a query waits in QUEUED like a new
one (R249), those of one strand in the order of their contexts (DESIGN CHOICE, log entry 20). -/
def State.resumeOps (s : State) (sid core : Nat) : State :=
  let s := s.moveCtxs sid core
  let ops := s.engines.map fun o => if o.2.sid == sid && o.2.st == .saved then (o.1, { o.2 with st := .running, core := core }) else o
  let mine := (s.queries.filter fun q => q.2.sid == sid && q.2.st == .saved).zipIdx.map fun x => (x.1, s.nextOp + x.2)
  mine.foldl (fun s x => s.qResume x.1.1 core x.2 x.1.2) { s with engines := ops, nextOp := s.nextOp + mine.length }

/-- CPY_SAVE and QUERY_SAVE: the copies and the queries of a strand stop, and their state goes with it. -/
def State.saveOps (s : State) (sid : Nat) : State :=
  let s : State := { s with engines := s.engines.map fun (o : Nat × EngOp) =>
    if o.2.sid == sid && o.2.job.cls == 0 && o.2.st == .running then (o.1, { o.2 with st := .saved }) else o }
  (s.queries.filter fun q => q.2.sid == sid && q.2.st.live).foldl (fun s q => s.qSave q.1 q.2) s

/-- R254, R382: the copies and the queries of strands that cannot go on where they were are saved before they are placed. -/
def State.saveAway (s : State) : State :=
  s.mill.pool.foldl (fun s n =>
    match s.node? n with
    | some x => if x.members.isEmpty || s.groupHeld n x || s.stays n x then s else (s.toPlace n).foldl (fun s a => s.saveOps a.sid) s
    | none => s) s

/-- R268: a strand whose reel does not hold stays where it is, and a record names the reel. -/
def State.reelFault (s : State) (a : Strand) : State :=
  (s.onStrand a.sid fun a => { a with life := .trappedSaved }).report
    { a.faultRec (a.priv != .user) with cause := Cause.poison.code, tval := BitVec.ofNat 64 (reelBase a.sid) }

/-- What a strand and the engine of its quad have written and read is there for the engine of another quad that takes its queries (R254,
R343, R350). -/
def State.bringQueries (s : State) (a : Strand) (core : Nat) : State :=
  if s.queries.any fun q => q.2.sid == a.sid then
    (s.bringAlong (s.quernDie a.core) (s.quernDie core)).bringAlong (s.coreDie core) (s.quernDie core)
  else s

/-- A saved strand goes on on a core, with what the scalar section of its reel holds (R268). -/
def State.resumeOne (s : State) (seat : Seat) (cl : BitVec 8) : State :=
  match s.strand? seat.want.idx with
  | none => s
  | some a =>
    match s.reelSound a.sid with
    | (false, s) => s.reelFault a
    | (true, s) =>
      let (b, s) := s.readScalars a
      let slot := s.freeHwSlot seat.core
      let f := s.mhz seat.core
      let s := s.bringAlong (s.coreDie a.core) (s.coreDie seat.core)
      let s := s.bringQueries a seat.core
      (s.onStrand a.sid fun _ =>
        { b with life := .running, core := seat.core, hwSlot := slot, clMap := cl, wait := b.wait.map (Wait.onLeft (cyclesOf f)) }).resumeOps
          a.sid seat.core

/-- STRAND_DISPATCH for a node with a plan. -/
def State.dispatchNode (s : State) (n : Nat) (x : NodeRun) (plan : List Seat) : State :=
  let cores := (plan.map (·.core)).eraseDups
  let cls := cores.flatMap fun c => (grants (s.freeClusters c) ((plan.filter fun p => p.core == c).map (·.want)))
  let (cb, s) := if x.members.isEmpty then s.constants x else ([], s)
  let s := cores.foldl (fun s c => s.onCore c fun k => { k with records := [] }) s
  let fresh := x.members.isEmpty
  let s := plan.foldl (fun s p =>
    let cl := ((cls.find? fun q => q.1 == p.want.idx).map (·.2)).getD 0
    let s := s.handRail p.core x.hdr
    if fresh then s.launchOne n x cb p cl else s.resumeOne p cl) s
  (s.onNode n fun x => { x with st := .running }).onMill fun m => { m with pool := m.pool.filter (· != n) }

/-! Selection (R294). -/

/-- The node that a queue offers to a core, with its plan. -/
def State.offer (s : State) (part core q : Nat) : Option (Nat × NodeRun × List Seat) :=
  (s.queueHead part q).bind fun n => (s.node? n).bind fun x =>
    if x.verified && !s.groupHeld n x then (s.plan n x core).map fun p => (n, x, p) else none

/-- Turns of deficit round-robin among queues that offer a node, from the queue `q` that has the turn; each is given with
its weight and the cost of its node. -/
def turns (weight cost : Nat → Nat) (l : List Nat) : Nat → Nat → NMap Nat → Option (Nat × NMap Nat)
  | 0, _, _ => none
  | fuel + 1, q, credit =>
    if l.contains q && decide (cost q ≤ credit.getD q 0) then some (q, credit)
    else
      let next := ((l.find? fun k => decide (q < k)).orElse fun _ => l.head?).getD q
      turns weight cost l fuel next (credit.upd next 0 (· + weight next))

/-- The queue of a priority level that is served, and the credits after its turn. -/
def State.serve (s : State) (part core prio : Nat) (qs : List Nat) : Option (Nat × NMap Nat) :=
  let l := qs.filter fun q => s.queuePrio part q == prio && (s.offer part core q).isSome
  let weight (q : Nat) : Nat := max 1 (s.queueWeight part (q % 16))
  let cost (q : Nat) : Nat :=
    match s.offer part core (q % 16) with
    | some (_, _, p) => p.length
    | none => 1
  if l.isEmpty then none
  else
    turns (fun k => weight k) (fun k => cost k) (l.map (16 * part + ·)) 16400 (s.mill.lastTurn.getD (8 * part + prio) (16 * part + 15))
      s.mill.credit

/-- The partition that holds a quad. -/
def State.quadPart (s : State) (quad : Nat) : Option Nat :=
  (s.parts.find? fun p => p.2.st != .absent && p.2.record.quads.getLsbD quad).map (·.1)

/-- STRAND_DISPATCH: the head node that R294 selects for a core, dispatched with the rest of its group, as one operation (R297; log
entry 36). -/
def State.dispatch (s : State) (core : Nat) : State :=
  match s.quadPart (quadOf core) with
  | none => s
  | some part =>
    if (s.part part).st != .running ∨ !s.budgetLeft part then s
    else
      let qs := List.range 16
      match (List.range 8).reverse.findSome? fun prio => (s.serve part core prio qs).map fun r => (prio, r) with
      | none => s
      | some (prio, q, credit) =>
        match s.offer part core (q % 16) with
        | none => s
        | some (n, x, p) =>
          let s := s.onMill fun m => { m with
            credit := credit.upd q 0 (· - p.length), lastTurn := NMap.set (8 * part + prio) q m.lastTurn
            boost := NMap.del q m.boost }
          (s.dispatchNode n x p).spend part

/-- The node goes back to the head of its queue: none of its members is stopping or on its way, and one is to be resumed (R294,
R302). -/
def State.requeue (s : State) (n : Nat) : State :=
  match s.node? n with
  | none => s
  | some x =>
    if s.groupHeld n x ∨ (s.toPlace n).isEmpty ∨ s.mill.pool.contains n ∨ x.st == .complete
    then s
    else (s.onNode n fun x => { x with st := .ready }).onMill fun m => { m with pool := n :: m.pool }

/-! Pre-emption for a node of higher priority (R295). -/

/-- The priority of a node. -/
def State.nodePrio (s : State) (x : NodeRun) : Nat := s.queuePrio x.part (s.queueOf x)

/-- The running node that gives way to a ready node that finds no core. -/
def State.victim (s : State) : Option Nat :=
  s.mill.pool.findSome? fun n =>
    match s.node? n with
    | none => none
    | some x =>
      if s.groupHeld n x || (List.range 512).any fun c => (s.plan n x c).isSome then none
      else
        let run := s.mill.nodes.filter fun y =>
          y.2.part == x.part && decide (s.nodePrio y.2 < s.nodePrio x) && s.strands.any fun a => a.node == y.1 && a.life == .running
        (run.foldl (fun (best : Option (Nat × NodeRun)) y =>
          match best with
          | some b => if s.nodePrio y.2 < s.nodePrio b.2 then some y else best
          | none => some y) none).map (·.1)

end Sys2Proof.Machine
end

