-- ==== Sys2Proof/Machine/EngineOps.lean ====
section
/-!
DEFINITION. `cpy`, `gath`, `scat`, `coll` and `ewait` of OP 0x88 to 0x8B (R193 to R201), and the events of the engines and of
stream refill.
-/

namespace Sys2Proof.Machine

/-! The instructions. -/

/-- R196: ALIGN at posting, for a copy by byte count of anything but whole granules, or a record off its boundary. -/
def execCpy (a b c e : Reg) (_ : Ctl) (s : State) : Out :=
  let dst := (s.g a).toNat
  let src := (s.g b).toNat
  let len := s.g c
  (if byShape len then
     if len.toNat % 64 ≠ 0 then Res.trap (Trap.scalar .align (len &&& (2 ^ 57 - 1))) s
     else s.issue (.cpy dst src len) (s.g e)
   else if dst % 16 ≠ 0 then .trap (Trap.scalar .align (s.g a)) s
   else if src % 16 ≠ 0 then .trap (Trap.scalar .align (s.g b)) s
   else if len.toNat % 16 ≠ 0 then .trap (Trap.scalar .align (s.g a)) s
   else s.issue (.cpy dst src len) (s.g e)).finQ s

/-- A counter word's own bits. -/
def lowWord (x : Word) : Word := x &&& 0x1FFFF

/-- R199: `gath` and `scat`. -/
def State.listOp (s : State) (a b c e : Reg) (job : Nat → Nat → Nat → Nat → Nat → EngJob) : Out :=
  let x := s.g e
  let esz := (x.extractLsb' 17 3).toNat
  (if (s.g c).toNat % 8 ≠ 0 then Res.trap (Trap.scalar .align (s.g c)) s
   else if (s.g a).toNat % 2 ^ esz ≠ 0 then .trap (Trap.scalar .align (s.g a)) s
   else if (s.g b).toNat % 2 ^ esz ≠ 0 then .trap (Trap.scalar .align (s.g b)) s
   else s.issue (job (s.g a).toNat (s.g b).toNat (s.g c).toNat esz (x.extractLsb' 24 32).toNat) (lowWord x)).finQ s

def execGath (a b c e : Reg) (_ : Ctl) (s : State) : Out := s.listOp a b c e .gath
def execScat (a b c e : Reg) (_ : Ctl) (s : State) : Out := s.listOp a b c e .scat

/-- R200: a collective; lengths and buffers that are not whole granules take ALIGN (log entry 21). -/
def State.collOp (s : State) (kind : CollKind) (f : Fmt) (a b c e : Reg) : Out :=
  let x := s.g e
  let ok := kind == .ag || f == .i32 || f == .i64 || f == .fp32 || f == .bf16
  (if !ok then Res.trap s.typeCombo s
   else if (s.g c).toNat % 16 ≠ 0 then .trap (Trap.scalar .align (s.g c)) s
   else if (s.g a).toNat % 16 ≠ 0 then .trap (Trap.scalar .align (s.g a)) s
   else if (s.g b).toNat % 16 ≠ 0 then .trap (Trap.scalar .align (s.g b)) s
   else s.issue (.coll kind f (s.g a).toNat (s.g b).toNat (s.g c).toNat (x.extractLsb' 24 8).toNat ((x.extractLsb' 32 8).toNat + 1)
     (x.extractLsb' 48 16).toNat 0 false) (lowWord x)).finQ s

def execCollAg (a b c e : Reg) (_ : Ctl) (s : State) : Out := s.collOp .ag .i32 a b c e
def execCollRs (f : Fmt) (a b c e : Reg) (_ : Ctl) (s : State) : Out := s.collOp .rs f a b c e
def execCollAr (f : Fmt) (a b c e : Reg) (_ : Ctl) (s : State) : Out := s.collOp .ar f a b c e

/-! `ewait` (R201). -/

/-- What `ewait` looks at: an operation or a query context by its number in issue order, whether it has ended, whether it
FAILED with which cause and `tval`. -/
structure Watch where
  order : Nat
  query : Bool
  key : Nat
  ended : Bool
  failed : Bool
  cause : BitVec 8
  tval : Word
deriving DecidableEq, Repr

/-- The operations and queries of a strand that a selection names, in issue order. -/
def State.watches (s : State) (sid sel : Nat) : List Watch :=
  let ops := (s.engines.filter fun o => o.2.sid == sid && sel.testBit o.2.job.cls).map fun o =>
    { order := o.1, query := false, key := o.1, ended := o.2.ended, failed := o.2.st == .failed, cause := o.2.cause, tval := o.2.tval : Watch }
  let qs := if sel.testBit 3 then
      (s.queries.filter fun q => q.2.sid == sid && q.2.st != .building).map fun q =>
        { order := q.2.order, query := true, key := q.1, ended := q.2.st == .done || q.2.st == .failed, failed := q.2.st == .failed
          cause := qCause q.2.err, tval := q.2.errAddr : Watch }
    else []
  (List.range s.nextOp).flatMap fun k => (ops ++ qs).filter fun w => w.order == k

/-- Retired. -/
def State.retire (s : State) (w : Watch) : State :=
  if w.query then s.freeCtx w.key else { s with engines := NMap.del w.key s.engines }

/-- The cause of a code. -/
def causeOf (b : BitVec 8) : Cause :=
  ([Cause.illegal, .dataXlt, .perm, .align, .poison, .peer, .query].find? fun c => c.code == b).getD .illegal

/-- Every selected operation has ended. -/
def State.ewaitReady (s : State) (sid sel : Nat) : Bool := (s.watches sid sel).all (·.ended)

def execEwait (a : Reg) (_ : Ctl) (s : State) : Out :=
  let sel := (s.g a).toNat % 16
  let l := s.watches s.act.sid sel
  (if !s.ewaitReady s.act.sid sel then Res.wait (.ewait sel) s
   else
     let s := (l.filter fun w => !w.failed).foldl State.retire s
     match l.find? (·.failed) with
     | some w => .trap (Trap.posted (causeOf w.cause) w.tval 0) (s.retire w)
     | none => .ok () s).finQ s

/-! Events. -/

def execEngineIssue (op : Nat) (s : State) : Out :=
  match s.op? op with
  | some e => .next (if e.st = .posted then s.issueOp op e else s)
  | none => .next s

/-- The last participant here of a collective has ended: the blocks for ranks of other packages, which their senders did not know to be
elsewhere, are dropped. -/
def State.dropStray (s : State) (e : EngOp) : State :=
  match e.group?, e.job with
  | some g, .coll _ _ _ _ _ _ _ tag _ _ =>
    if !(s.groupOps g).isEmpty then s
    else e.senders.foldl (fun s q => e.senders.foldl (fun s d => [false, true].foldl (fun s x =>
      s.onLinks fun l => { l with inbox := l.inbox.eraseP (fun m => match m with
        | .block src _ _ _ _ t r dest red _ => src == q.2 && t == tag && r == q.1 && dest == d.1 && red == x
        | _ => false) }) s) s) s
  | _, _ => s

/-- A RUNNING operation moves a unit, or ends where nothing is left to move. -/
def execEngineDone (op unit : Nat) (s : State) : Out :=
  match s.running? op with
  | none => .next s
  | some e =>
    match s.opMove e unit with
    | .put e s => .next (s.setOp op e)
    | .ask s => .next s
    | .finish => .next ((s.finishOp op e).dropStray e)
    | _ => .next s

/-- R195: a unit meets a translation fault. -/
def execEngineSuspend (op unit : Nat) (s : State) : Out :=
  match s.running? op with
  | none => .next s
  | some e =>
    match s.opMove e unit with
    | .bad .dataXlt va => .next (s.stopOp op e .suspended .dataXlt va)
    | _ => .next s

/-- R380: a rank of a collective that has not been heard of, where a package is lost. -/
def State.missingRank (s : State) (e : EngOp) (rank : Nat) : Option (NMap EngOp × Nat) :=
  match e.job with
  | .coll _ _ _ _ _ _ p tag g _ =>
    let here := s.groupOps g
    if rank < p ∧ !s.dom.lost.isEmpty ∧ here.all (fun o => o.2.ranks.1 != rank && (o.2.senders.get? rank).isNone) then some (here, tag) else none
  | _ => none

/-- R195, R197: a unit meets another fault. For a collective the unit names a rank of which nothing has been heard and which was on a lost
package (R380; log entry 32). -/
def execEngineFail (op unit : Nat) (s : State) : Out :=
  match s.running? op with
  | none => .next s
  | some e =>
    match s.opMove e unit with
    | .bad c va => .next (if c = .dataXlt then s else s.failOp op { e with out := [] } c va)
    | _ =>
      match s.missingRank e unit with
      | some x => .next (s.mismatch x.1 x.2)
      | none => .next s

/-- What an operation of a strand waits for: room among its core's operations (R193), the issue of the strand's older operations
(R251, R298), the Millrace's next period (R297). -/
def State.issueReady (s : State) (a : Strand) : Wait → Bool
  | .engine => s.engineRoom a.core
  | .issue => s.engines.all fun o => !(o.2.sid == a.sid && o.2.st == .posted)
  | .budget => s.budgetLeft a.part
  | _ => false

/-- R193: the strand stalled goes on. -/
def execPostStallResume (sid : Nat) (s : State) : Out := .next (s.wakeIf sid 0 s.issueReady)

def execEwaitRetire (sid : Nat) (s : State) : Out :=
  .next (s.wakeIf sid 0 fun a w => match w with | .ewait sel => s.ewaitReady a.sid sel | _ => false)

/-- Bytes that the copy unit has read at addresses. -/
def Stream.keep (q : Stream) (l : List (Nat × Byte)) : Stream := { q with ahead := l.foldl (fun m x => NMap.set x.1 x.2 m) q.ahead }

/-- R42, R192: the copy unit reads block j of an NP stream, all of it in one version; the bytes by address. -/
def State.refillBlock (s : State) (a : Strand) (q : Stream) (t : NpT) (j : Nat) : Option (List (Nat × Byte)) × State :=
  let (strip, b) := t.block j
  let get : ByteGet := fun s va n => s.engRead a.core a.part va n
  if t.x0 + npCount t q ≤ 64 * j ∨ (t.blockBytes strip b).all fun x => (q.ahead.get? x).isSome then (none, s)
  else
    match s.npStrip a.core a.part .read t strip with
    | (.error _, s) => (none, s)
    | (.ok _, s) =>
      match readBlock get t strip b t.n s with
      | (.ok _, s) =>
        (match readBlock get t strip b t.n s with
         | (.ok x, s) => (some ((t.blockBytes strip b).zip (x.planes.flatMap id ++ [x.exp])), s)
         | (_, s) => (none, s))
      | (_, s) => (none, s)

/-- R191, R192: the copy unit reads one granule of a stream, or one block of an NP stream, ahead of its readers; one that faults is
left to them. -/
def execStreamRefill (sid : Nat) (r : Reg) (granule : Nat) (s : State) : Out :=
  match s.strand? sid with
  | none => .next s
  | some a =>
    match a.streams.get? r.toNat with
    | none => .next s
    | some q =>
      let va := q.base / 128 * 128 + 16 * granule
      let put (l : List (Nat × Byte)) (s : State) : State :=
        s.onStrand sid fun a => { a with streams := NMap.set r.toNat (q.keep l) a.streams }
      if a.life != .running then .next s
      else
        match s.leafOf a.core a.part .read q.base with
        | (.error _, _) => .next s
        | (.ok f, s1) =>
          if f.pl = 0 then
            if q.base + q.len ≤ va ∨ (q.ahead.get? va).isSome then .next s
            else
              match s.engRead a.core a.part va 16 with
              | (.ok bs, s) => .next (put (bs.zipIdx.map fun x => (va + x.2, x.1)) s)
              | (.stall _, s) => .next s
              | _ => .next s
          else
            match s1.npOpen a.core a.part q.base with
            | (.error _, _) => .next s
            | (.ok t, s1) =>
              match s1.refillBlock a q { t with x0 := 0 } granule with
              | (some l, s) => .next (put l s)
              | (none, _) => .next s

/-! Collectives (R200, R378). -/

/-- A contribution recorded at a participant, with the package that it came from. -/
def EngOp.took (e : EngOp) (rank : Nat) (src : Option Nat) (bs : List Byte) : EngOp :=
  let got := NMap.set rank bs e.got
  let e := { e with got := got, senders := match src with | some k => NMap.set rank k e.senders | none => e.senders }
  match e.job with
  | .coll k f d x l r p t g c => { e with job := .coll k f d x l r p t g (c || got.length == p) }
  | _ => e

/-- The bytes of what rank r receives of a rank. -/
def shareLen (kind : CollKind) (len p r : Nat) : Nat := if kind = .ar then partLen len p r else len

/-- A block that ends a participant's collective (R200): it says so itself, with a P of 0; its rank is one of this package's, or another
package has sent for that rank; it differs on the kind, P or the length; or it is of a package that is lost (R380). -/
def EngOp.disagrees (e : EngOp) (here : List Nat) (lost : NSet) : Msg → Bool
  | .block src kind' f' p' len' tag' rank' dest reduced data =>
    match e.job with
    | .coll kind f _ _ len own p tag _ _ =>
      tag' == tag && (p' == 0 || NSet.has src lost || here.contains rank' ||
        match e.senders.get? rank' with
        | some k => k != src
        | none => kind' != kind || f' != f || p' != p || len' != len ||
            (dest == own && data.length != if reduced then partLen len p rank' else shareLen kind len p own))
    | _ => false
  | _ => false

/-- The block of a rank for another, of a tag. -/
def blockFor (tag rank dest : Nat) (reduced : Bool) : Msg → Bool
  | .block _ _ _ _ _ t r d x _ => t == tag && r == rank && d == dest && x == reduced
  | _ => false

/-- The bytes of a block and the package that it comes from. -/
def Msg.block? : Msg → Option (Nat × List Byte)
  | .block src _ _ _ _ _ _ _ _ data => some (src, data)
  | _ => none

/-- What a participant can take of another rank: its share of the source of a participant here, or that one's reduced part; or a block that
has arrived on VC 4. -/
def State.offered (s : State) (e : EngOp) (rank : Nat) (reduced : Bool) : Option (Option Nat × List Byte × State) :=
  match e.job with
  | .coll kind _ _ _ len own p tag g _ =>
    match (s.groupOps g).find? fun o => o.2.ranks.1 == rank with
    | some o => ((if reduced then o.2.parts.get? rank else o.2.own.map (collShare kind len p own))).map fun b => (none, b, s)
    | none => (s.links.inbox.find? (blockFor tag rank own reduced)).bind fun m => m.block?.map fun x => (some x.1, x.2, s.consume m)
  | _ => none

/-- A participant reads its source, and sends the shares of the ranks that are elsewhere; once it has every contribution to its part of an
all-reduce it reduces the part, and sends it. -/
def State.contribute (s : State) (op : Nat) (e : EngOp) (here : List Nat) : State :=
  match e.job, e.own with
  | .coll kind _ _ src len own p _ _ _, none =>
    match s.engRead e.core e.part src (collNeed kind len p) with
    | (.ok bs, s) =>
      let e := { e with own := some bs }.took own none (collShare kind len p own bs)
      (s.sendBlocks e here false false fun q => collShare kind len p q bs).setOp op e
    | (.stall _, s) => s
    | (.bad _ _, _) => s
  | .coll kind _ _ _ _ own p _ _ _, some _ =>
    if kind = .ar ∧ e.got.length = p ∧ (e.parts.get? own).isNone then
      let bs := e.reduced
      let e := { e with parts := NMap.set own bs e.parts }
      (s.sendBlocks e here true false fun _ => bs).setOp op e
    else s
  | _, _ => s

/-- COLL_BLOCK: the collective engine takes what a rank has for a participant; a block that disagrees fails the collective (R200). -/
def execCollBlock (op rank : Nat) (s : State) : Out :=
  .next (match s.running? op with
    | none => s
    | some e =>
      match e.job with
      | .coll kind _ _ _ _ own p tag g _ =>
        let here := s.groupOps g
        let ranks := here.map fun o => o.2.ranks.1
        let ends := e.disagrees ranks s.dom.lost
        if s.links.inbox.any ends then
          (s.mismatch here tag).onLinks fun x => { x with inbox := x.inbox.filter fun m => !ends m }
        else if p ≤ rank then s
        else if rank = own then s.contribute op e ranks
        else if (e.got.get? rank).isNone then
          match s.offered e rank false with
          | some (src, bs, s) => s.setOp op (e.took rank src bs)
          | none => s
        else if kind = .ar ∧ (e.parts.get? rank).isNone then
          match s.offered e rank true with
          | some (_, bs, s) => s.setOp op { e with parts := NMap.set rank bs e.parts }
          | none => s
        else s
      | _ => s)

end Sys2Proof.Machine
end

