-- ==== Sys2Proof/Machine/Ports.lean ====
section
/-!
DEFINITION. The states of a Sluice port (R375), replay (R372), and what becomes of the messages that a port had still to carry; the
reels among them (R379).
-/

namespace Sys2Proof.Machine

/-! Messages that a port cannot carry any more. -/

/-- R379: the transfer of a strand's reel is over without a confirmation; the strand is SAVED here. -/
def State.abandonReel (s : State) (sid : Nat) : State :=
  let s := s.onLinks fun l => { l with reels := NMap.del sid l.reels }
  match s.strand? sid with
  | some a => if a.life = .migrating then (s.onStrand sid fun a => { a with life := .saved }).requeue a.node else s
  | none => s

/-- The strand whose reel a message carries. -/
def Msg.reelOf : Msg → Option Nat
  | .reel _ a _ _ _ _ _ _ => some a.sid
  | _ => none

/-- R379: reels of this package among messages that have not gone wholly and find no usable route are not sent at all; one that has gone
waits for a route, because its target may have placed it. -/
def State.abandonHeld (s : State) (l : List Parcel) : State :=
  let mine := s.links.held.filter fun p => p.pkg == s.dom.pkg && p.msg.reelOf.isSome && l.contains p
  let s := s.onLinks fun l => { l with held := l.held.filter fun p => !mine.contains p }
  mine.foldl (fun s p => match p.msg.reelOf with | some sid => s.abandonReel sid | none => s) s

/-- A port that leaves the routes: its numbers, its credits and what it has received in part begin anew (log entry 31). -/
def Port.cleared (x : Port) : Port :=
  { Port.reset with st := x.st, lanes := x.lanes, attested := x.attested, sameDomain := x.sameDomain }

/-- R375: the messages that a port has not had acknowledged, each whole, go on other routes. -/
def State.resend (s : State) (p : Nat) : State :=
  let x := s.port p
  let part := (x.queue.map (·.1)).filter fun m => !(x.unacked.any fun u => u.2 == m)
  ((x.unacked.map (·.2) ++ part).eraseDups.foldl State.carry (s.setPort p x.cleared)).abandonHeld part

/-- A port leaves the routes to retrain. -/
def State.retrain (s : State) (p : Nat) : State := (s.setPort p { s.port p with st := .retrain }).resend p

/-- A replay request acknowledges the flits before its SEQ; the others are sent again in their order; the eighth replay of one
retrains. -/
def execFlitReplayRequest (port : Nat) (s : State) : Out :=
  .next (match s.headFlit port with
    | none => s
    | some f =>
      if flitGood f && flitType f == 3 then
        let s := s.dropFlit port
        let x := s.port port
        let again := x.sent.dropWhile fun g => decide (32768 ≤ (g.1 + 65536 - flitSeq f) % 65536)
        let replays := again.foldl (fun c g => c.upd g.1 0 (· + 1)) x.replays
        let s := s.setPort port { x with
          sent := again, out := x.out ++ again.map (·.2), replays := replays
          unacked := x.unacked.filter fun u => again.any fun g => g.1 == u.1 }
        if replays.any fun r => decide (8 ≤ r.2) then s.retrain port else s
      else s)

/-! States of a port (R375). -/

/-- Lanes, the peer's attestation and its domain, as training finds them: free values. -/
def State.trainPort (s : State) (p : Nat) : State :=
  let (l, s) := s.draw 256
  let (a, s) := s.draw 2
  let (d, s) := s.draw 2
  s.setPort p { s.port p with st := .training, lanes := (List.range 8).filter fun i => l.testBit i, attested := a == 1, sameDomain := d == 1 }

def execPortEnable (port : Nat) (s : State) : Out :=
  .next (if port < 12 ∧ (s.port port).st = .down then s.trainPort port else s)

/-- Training has found what a port needs. -/
def Port.ready (x : Port) : Bool := decide (4 ≤ x.lanes.length) && x.attested && x.sameDomain
/-- UP with eight lanes, else DEGRADED. -/
def Port.joined (x : Port) : Port := { x with st := if x.lanes.length = 8 then .up else .degraded }

/-- The port carries messages: it offers the room of its receive buffers, a free number of flits for each VC (log entry 30), and what
waited for a route goes on. -/
def State.joinPort (s : State) (p : Nat) (x : Port) : State :=
  let (n, s) := s.draw (16 ^ 8)
  let x := { x with owed := (List.range 8).foldl (fun m vc => m.upd vc 0 (· + 8 * (n / 16 ^ vc % 16))) x.owed }
  let s := s.setPort p x.joined.creditFlit
  s.links.held.foldl State.carry (s.onLinks fun l => { l with held := [] })

def execPortTrained (port : Nat) (s : State) : Out :=
  let x := s.port port
  .next (if x.st = .training ∧ x.ready then s.joinPort port x else s)

/-- A port goes DOWN with a management event. -/
def State.portDown (s : State) (p : Nat) : State := (s.setPort p { s.port p with st := .down }).event (.port p)

def execTrainingTimeout (port : Nat) (s : State) : Out :=
  let x := s.port port
  .next (if x.st = .training ∧ !x.ready then s.portDown port else s)

def execLaneFail (port lane : Nat) (s : State) : Out :=
  let x := s.port port
  let y : Port := { x with st := .degraded, lanes := NSet.del lane x.lanes }
  .next (if !x.usable ∨ !NSet.has lane x.lanes then s
    else if y.lanes.length < 4 then (s.setPort port y).retrain port else s.setPort port y)

/-- The lanes that work after retraining are a free value. -/
def execRetrainDone (port : Nat) (s : State) : Out :=
  let (l, t) := s.draw 256
  let x : Port := { t.port port with lanes := (List.range 8).filter fun i => l.testBit i }
  .next (if (s.port port).st = .retrain ∧ 4 ≤ x.lanes.length then t.joinPort port x else s)

def execRetrainFail (port : Nat) (s : State) : Out :=
  .next (if (s.port port).st = .retrain then s.portDown port else s)

def execPortDisable (port : Nat) (s : State) : Out :=
  .next (if (s.port port).st = .down then s else (s.setPort port { s.port port with st := .down }).resend port)

end Sys2Proof.Machine
end

