-- ==== Sys2Proof/Machine/Groups.lean ====
section
/-!
DEFINITION. `gid`, `gsplit`, the Leat (15_group.md), barriers (16_barrier.md).
-/

namespace Sys2Proof.Machine

/-! Identity (R304). -/

/-- Tiers in order (R84). -/
def tierRank : Tier → Nat
  | .core => 0 | .pair => 1 | .quad => 2 | .stack => 3 | .domain => 4

/-- A strand's place at a tier: the members of its unit in ascending strand index, the unit, its index among the units, and
how many there are. -/
structure Place where
  members : List Nat
  unit : Nat
  index : Nat
  units : Nat
deriving DecidableEq, Repr

/-- Numbers of a list in ascending order, each once. -/
def ascending (l : List Nat) : List Nat := l.foldl (fun acc x => NSet.add x acc) []

/-- The place of the acting strand; a strand of no node is its own group. -/
def State.place? (s : State) (tier : Tier) : Place :=
  match s.node? s.act.node with
  | none => { members := [s.act.sid], unit := 0, index := 0, units := 1 }
  | some x =>
    if tierRank x.tier ≤ tierRank tier then { members := x.members.map (·.1), unit := 0, index := 0, units := 1 }
    else
      let us := ascending (x.members.map fun m => unitOf tier m.2)
      let u := ((x.members.find? fun m => m.1 == s.act.sid).map fun m => unitOf tier m.2).getD 0
      { members := (x.members.filter fun m => unitOf tier m.2 == u).map (·.1), unit := u, index := us.idxOf u, units := us.length }

def execGid (tier : Tier) (d : Reg) (_ : Ctl) (s : State) : Out :=
  let p := s.place? tier
  let w : Word := BitVec.ofNat 16 p.units ++ BitVec.ofNat 16 p.index ++ BitVec.ofNat 16 p.members.length ++
    BitVec.ofNat 16 (p.members.idxOf s.act.sid)
  (Res.ok () (s.setG d w)).finQ s

/-! Regrouping (R305). -/

/-- The round of a record is complete: every member of the unit that has not halted has arrived. One that is
not here has halted, but for those that a migration has still to bring. -/
def State.roundComplete (s : State) (members : List Nat) (x : Split) : Bool :=
  !x.arrived.isEmpty &&
  members.all fun k =>
    (x.arrived.any fun a => a.1 == k) ||
    (match s.strand? k with
     | some a => a.life == .halted
     | none => !(((s.node? x.node).map (·.due)).getD []).contains k)

/-- What an arrival receives. -/
def splitResult (x : Split) (a : Nat × Nat × Nat) : Word :=
  if a.2.2 = 0xFFFF then BitVec.allOnes 64
  else
    let same := x.arrived.filter fun b => b.2.2 == a.2.2
    BitVec.ofNat 64 ((same.filter fun b => decide (b.2.1 < a.2.1)).length + 65536 * same.length)

/-- A complete round ends: every waiting arrival receives its result, and the record is empty. -/
def State.endRound (s : State) (x : Split) : State :=
  let s := x.arrived.foldl (fun s a =>
    s.onStrand a.1 fun b => b.wake (splitResult x a) fun w => match w with | .split t _ => t == x.tier | _ => false) s
  s.onMill fun m => { m with splits := m.splits.erase x }

/-- The record of a node's unit at a tier. -/
def State.split? (s : State) (node : Nat) (tier : Tier) (unit : Nat) : Split :=
  (s.mill.splits.find? fun x => x.node == node && x.tier == tier && x.unit == unit).getD
    { node := node, tier := tier, unit := unit, arrived := [] }

/-- The acting strand arrives: its result where it completes the round. -/
def State.arriveSplit (s : State) (tier : Tier) (colour : Nat) : Option Word × State :=
  let p := s.place? tier
  let x := s.split? s.act.node tier p.unit
  let me := (s.act.sid, s.act.index, colour)
  let y : Split := { x with arrived := x.arrived ++ [me] }
  let s := s.onMill fun m => { m with splits := m.splits.erase x ++ [y] }
  if s.roundComplete p.members y then (some (splitResult y me), s.endRound y) else (none, s)

def execGsplit (tier : Tier) (d a : Reg) (_ : Ctl) (s : State) : Out :=
  (match s.act.woke with
   | some r => Res.ok () (s.setG d r)
   | none =>
     match s.arriveSplit tier ((s.g a).toNat % 2 ^ 16) with
     | (some r, s) => .ok () (s.setG d r)
     | (none, s) => .wait (.split tier ((s.g a).toNat % 2 ^ 16)) s).finQ s

/-! The Leat (R307 to R311). -/

/-- LEAT. -/
def leatTrap (code : Nat) : Trap := Trap.queue .leat code

/-- The Leat of the acting strand's pair. -/
def State.leat (s : State) : List LeatEntry := (s.pair (pairOf s.act.core)).leat
/-- The Leat changed. -/
def State.setLeat (s : State) (l : List LeatEntry) : State := s.onPair (pairOf s.act.core) fun p => { p with leat := l }
/-- The other core of the pair. -/
def otherCore (core : Nat) : Nat := if isMill core then core + 1 else core - 1
/-- The pair's other core is lost (R310). -/
def State.pairLost (s : State) : Bool := (s.core (otherCore s.act.core)).lost

/-- Entries of the Leat that posted `lput`s hold reserved (R308): those of strands of the pair that run. -/
def State.leatReserved (s : State) (pair : Nat) : Nat :=
  s.strands.foldl (fun n a =>
    if a.life == .running && pairOf a.core == pair then n + (a.posted.filter fun p => p.prog.leat).length else n) 0
/-- The free-slot counter (R307). -/
def State.leatFree (s : State) (pair : Nat) : Nat := 16 - ((s.pair pair).leat.length + s.leatReserved pair)

/-- The posted `lput` behind the oldest posted instruction starts, chaining on it: it reserves an entry where one is free, no
`.w` holds it back until vA is whole, and the older one is no fence (R57, R308). -/
def State.reserveLeat (s : State) : State :=
  match s.act.posted with
  | p :: q :: r =>
    let op (w : Word) : Nat := (w.extractLsb' 54 8).toNat
    let lput := op q.word == 0x92 && q.word.extractLsb' 48 6 == 0#6
    if s.act.life == .running && lput && !q.word.getLsbD 8 && !q.prog.leat && !(op p.word == 0x7D) && decide (0 < s.leatFree (pairOf s.act.core)) then
      s.onAct fun a => { a with posted := p :: { q with prog := { q.prog with leat := true } } :: r }
    else s
  | _ => s

/-- `lput` (R308): it has its reserved entry, or takes one that is free. -/
def execLput (a : Reg) (t : Ctl) (s : State) : Out :=
  if s.pairLost then (Res.trap (leatTrap 2) s : Res Unit).fin s s.after
  else if !s.act.prog.leat && s.leatFree (pairOf s.act.core) == 0 then (Res.wait .lput s : Res Unit).fin s s.after
  else
    s.vecOp t { legal := true, typeOk := true, srcs := [s.req a], dsts := [], reads := .every } s.after fun _ s =>
      let n := s.vl * s.sew / 8
      .ok () (s.setLeat (s.leat ++ [{ data := lowBits (s.v a) (8 * n), len := n, fmt := s.fmt, ok := s.vok a, poison := false }]))

def execLget (d : Reg) (_ : Ctl) (s : State) : Out :=
  (if s.pairLost then Res.trap (leatTrap 2) s
   else
     match s.leat with
     | [] => .wait .lget s
     | e :: r =>
       if 256 * s.act.clusters < e.len then .trap (leatTrap 1) s
       else if (s.act.streams.get? d.toNat).isSome then .trap (Trap.queue .stream 2) s
       else if e.poison then
         let (x, s) := (s.setLeat r).draw (2 ^ 64)
         .trap (Trap.queue .poison x) s
       else .ok () (((s.setLeat r).setV d e.data).setVok d e.ok)).finQ s

def execLfree (d : Reg) (_ : Ctl) (s : State) : Out :=
  (if s.pairLost then Res.trap (leatTrap 2) s
   else .ok () (s.setG d (BitVec.ofNat 64 (s.leatFree (pairOf s.act.core))))).finQ s

/-! Barriers (R315 to R321). -/

/-- BARRIER. -/
def barrierTrap (code : Nat) : Trap := Trap.queue .barrier code

/-- Most participants of a tier (R315). -/
def barrierCap : Tier → Nat
  | .core => 8 | .pair => 16 | .quad => 64 | .stack => 1024 | .domain => 16384

/-- The object of a tier, unit and index. -/
def barrierKey (tier : Tier) (unit idx : Nat) : Nat := (tierRank tier * 1024 + unit) * 64 + idx
/-- An object. -/
def State.barrier (s : State) (k : Nat) : Barrier := s.barriers.getD k Barrier.free
/-- An object changed. -/
def State.setBarrier (s : State) (k : Nat) (b : Barrier) : State := { s with barriers := NMap.set k b s.barriers }

/-- The object that the acting strand names. -/
def State.barrierOf (s : State) (tier : Tier) (idx : Nat) : Nat := barrierKey tier (unitOf tier s.act.core) idx

/-- R316: the partition holds the object. -/
def State.ownsBarrier (s : State) (tier : Tier) (idx : Nat) : Bool :=
  let r := (s.part s.act.part).record
  match tier with
  | .stack => r.stackBar.getLsbD idx
  | .domain => r.domBar.getLsbD idx
  | _ => true

/-- The package that is home to the domain's objects, the lowest-numbered (R315). -/
def State.barrierPkg (s : State) : Nat := s.dom.members.headD s.dom.pkg
/-- This package is home to the domain's objects. -/
def State.barrierHome (s : State) : Bool := s.dom.members.head? == some s.dom.pkg
/-- R317: the home of the domain's objects is lost. -/
def State.homeLost (s : State) (tier : Tier) : Bool := tier == .domain && NSet.has s.barrierPkg s.dom.lost && !s.dom.members.isEmpty
/-- The object's home is another package. -/
def State.farBarrier (s : State) (tier : Tier) : Bool := tier == .domain && !s.dom.members.isEmpty && !s.barrierHome

/-- The checks that come before an object is reached. -/
def State.reachBarrier (s : State) (tier : Tier) (idx : Nat) : Option Nat :=
  if !s.ownsBarrier tier idx then some 4 else if s.homeLost tier then some 7 else none

/-- One arrival at an object that is OPEN. -/
def Barrier.arrive (b : Barrier) : Barrier :=
  if b.arr + 1 = b.n then { b with gen := b.gen + 1, arr := 0 } else { b with arr := b.arr + 1 }

/-- What a request does at an object (R317, R320): whether the object takes it, and the object after it. -/
def BarOp.at_ (b : Barrier) : BarOp → Bool × Barrier
  | .arrive => (b.isOpen, if b.isOpen then b.arrive else b)
  | .init n => if b.isOpen ∧ 0 < b.arr then (false, b) else (true, { b with isOpen := true, n := n, arr := 0 })
  | .look => (b.isOpen, b)

/-- The generation of a domain object of this package goes to every other one where it has moved on (R321). -/
def State.tellPhase (s : State) (idx : Nat) (old new : BitVec 32) : State :=
  if old = new then s else s.peers.foldl (fun s p => s.tell p (.barrierGen idx new)) s

/-- What the home of a domain object answers to a strand that asks: 2·GEN, one more where the object took the request, and a mark. -/
def barrierAnswer (ok : Bool) (gen : BitVec 32) : Word := BitVec.ofNat 64 (2 ^ 40 + 2 * gen.toNat + ok.toNat)

/-- A request to a domain object that is homed on another package is sent, and the strand waits for the answer (R315, R321). -/
def State.askFar {α : Type} (s : State) (idx : Nat) (op : BarOp) : Res α :=
  .wait (.barHome idx) (s.tell s.barrierPkg (.barrier s.dom.pkg s.act.sid idx op))

/-- A request of the acting strand to the object of a tier: whether the object takes it, with the generation that it met. An
object that is homed on another package answers by a message. -/
def State.askBarrier (s : State) (tier : Tier) (idx : Nat) (op : BarOp) : Res (Bool × BitVec 32) :=
  if s.farBarrier tier then
    let t := s.onAct fun a => { a with woke := none }
    match s.act.woke.filter fun w => w.getLsbD 40 with
    | some w => .ok (w.getLsbD 0, w.extractLsb' 1 32) t
    | none => t.askFar idx op
  else
    let k := s.barrierOf tier idx
    let x := s.barrier k
    let r := op.at_ x
    let s := if r.2 = x then s else s.setBarrier k r.2
    .ok (r.1, x.gen) (if tier = .domain then s.tellPhase idx x.gen r.2.gen else s)

def execBari (tier : Tier) (i : BitVec 6) (b : Reg) (_ : Ctl) (s : State) : Out :=
  let n := (s.g b).toNat
  (if !s.ownsBarrier tier i.toNat then Res.trap (barrierTrap 4) s
   else if n = 0 ∨ barrierCap tier < n then .trap (barrierTrap 2) s
   else if s.homeLost tier then .trap (barrierTrap 7) s
   else (s.askBarrier tier i.toNat (.init n)).bind fun r s => if r.1 then .ok () s else .trap (barrierTrap 2) s).finQ s

/-- The entry of the acting strand's table for an object. -/
def State.arrival? (s : State) (tier : Tier) (idx : Nat) : Option Arrival :=
  s.act.arrivals.find? fun e => e.tier == tier && e.unit == unitOf tier s.act.core && e.idx == idx

/-- `barr` (R320). -/
def State.barr (s : State) (tier : Tier) (idx : Nat) : Res Unit :=
  match s.reachBarrier tier idx with
  | some c => .trap (barrierTrap c) s
  | none =>
    if (s.arrival? tier idx).isSome then .trap (barrierTrap 5) s
    else if 4 ≤ s.act.arrivals.length then .trap (barrierTrap 6) s
    else
      ((s.performAt (s.coreDie s.act.core) tier).askBarrier tier idx .arrive).bind fun r s =>
        if !r.1 then .trap (barrierTrap 1) s
        else
          let e : Arrival := { tier := tier, unit := unitOf tier s.act.core, idx := idx, gen := r.2 }
          .ok () (s.onAct fun a => { a with arrivals := a.arrivals ++ [e] })

/-- `barw` (R320). It asks the object's home whether the object is OPEN, and for its generation. Where the home is another package, and this
package has been told of a generation since the home answered, it asks again (R321). -/
def State.barw (s : State) (tier : Tier) (idx : Nat) : Res Unit :=
  match s.reachBarrier tier idx with
  | some c => .trap (barrierTrap c) s
  | none =>
    (s.askBarrier tier idx .look).bind fun r s =>
      match s.arrival? tier idx with
      | none => .trap (barrierTrap (if r.1 then 3 else 1)) s
      | some e =>
        if !r.1 then .trap (barrierTrap 1) s
        else if r.2 ≠ e.gen then .ok () (s.onAct fun a => { a with arrivals := a.arrivals.erase e })
        else if (s.barrier (s.barrierOf tier idx)).gen = e.gen then .wait (.barrier tier e.unit idx e.gen) s
        else s.askFar idx .look

def execBarr (tier : Tier) (i : BitVec 6) (_ : Ctl) (s : State) : Out := (s.barr tier i.toNat).finQ s
def execBarw (tier : Tier) (i : BitVec 6) (_ : Ctl) (s : State) : Out := (s.barw tier i.toNat).finQ s
/-- `barr`, then `barw`; after the wait of its `barw` only the latter. -/
def execBarrw (tier : Tier) (i : BitVec 6) (_ : Ctl) (s : State) : Out :=
  (if s.act.woke.isSome && (s.arrival? tier i.toNat).isSome then s.barw tier i.toNat
   else (s.barr tier i.toNat).bind fun _ s => s.barw tier i.toNat).finQ s

end Sys2Proof.Machine
end

