-- ==== Sys2Proof/Machine/Page.lean ====
section
/-!
DEFINITION. `xlinv` and `pgq` (17_page.md).
-/

namespace Sys2Proof.Machine

/-- Every die closes its batch and every die applies every batch: the accesses that used a dropped entry are performed. -/
def State.flushAll (s : State) : State := s.allDies.foldl (fun s d => s.performAt d .domain) s

/-- Drops the cached translations that a test selects, in every TLB of the package. -/
def State.dropTlb (s : State) (p : TlbEntry → Bool) : State :=
  { s with
    cores := s.cores.map fun c => (c.1, { c.2 with tlb := c.2.tlb.filter fun t => !p t })
    l2tlb := s.l2tlb.map fun q => (q.1, q.2.filter fun t => !p t) }

/-- A write that is stalled on a migrating page. -/
def Wait.onPage : Wait → Bool
  | .migr _ => true
  | .own (.migr _) => true
  | _ => false

/-- A write that is stalled on a migrating page of a partition translates again (R336). -/
def State.remapWrites (s : State) (part : Nat → Bool) : State :=
  s.onStrands (fun a => part a.part && a.life == .running) fun a => a.wake 0 Wait.onPage

/-- R338: the translations that a test selects are dropped, in the partitions that `part` selects, once the accesses that use them
are performed: what the owners of gathers and scatters have still to serve among them (R336). -/
def State.invalidate (s : State) (part : Nat → Bool) (p : TlbEntry → Bool) : Res Unit :=
  let s := s.flushReqs part
  if s.asksOwners part then .wait .pause s
  else
    .ok () (((({ s with engines := s.engines.map fun o => if part o.2.part then (o.1, o.2.reread) else o } : State).flushAll).dropTlb
      p).remapWrites part)

/-- R338: drops every translation of the partition that covers gA; bits 15:0 and 63:57 are ignored. -/
def execXlinvAddr (a : Reg) (_ : Ctl) (s : State) : Out :=
  let va := (s.g a).toNat % 2 ^ 57 / 2 ^ 16 * 2 ^ 16
  (s.privileged (s.invalidate (· == s.act.part) fun t =>
    t.part == s.act.part && decide (t.va ≤ va) && decide (va < t.va + leafSize t.level))).finQ s

/-- R338: drops every translation of partition gA; a control strand names its own, firmware any of 0 to 31. -/
def execXlinvPart (a : Reg) (_ : Ctl) (s : State) : Out :=
  let p := (s.g a).toNat
  let allowed : Bool := match s.act.priv with | .firmware => p < 32 | _ => p == s.act.part
  (s.privileged (if allowed then s.invalidate (· == p) fun t => t.part == p
    else .trap (Trap.queue .perm p) s)).finQ s

/-- R338: drops every translation of the package; a control strand takes PRIV. -/
def execXlinvAll (_ : Ctl) (s : State) : Out :=
  (if s.act.priv = .firmware then s.invalidate (fun _ => true) fun _ => true else .trap s.privTrap s).finQ s

/-- SIZE of a leaf's level (R339). -/
def sizeCode (level : Nat) : BitVec 2 := match level with | 2 => 2 | 3 => 1 | _ => 0

/-- The word of R339 for a leaf: R, W and X stand from bit 5 down (log entry 53). -/
def State.pageWord (s : State) (t : TlbEntry) (va : Nat) (user : Bool) : Word :=
  let a := s.physOf t va
  let w := t.canWrite && !s.locked t.part t
  (0#12 ++ BitVec.ofNat 4 (a / 2 ^ 48) ++ (if user then 0#32 else BitVec.ofNat 32 (a / 2 ^ 16)) ++ 0#2 ++
    bit t.migrating ++ bit t.poisoned ++ BitVec.ofNat 4 t.pl ++ bit t.shard ++ bit t.hostShared ++
    bit t.canRead ++ bit w ++ bit t.canExec ++ sizeCode t.level ++ 1#1 : BitVec 64)

/-- FLEV with OK clear (R339). -/
def pageFail (level : Nat) : Word := BitVec.ofNat 64 (level * 2 ^ 52)

/-- R339 for one of the windows: OK, SIZE 3, R, W. -/
def State.windowWord (s : State) (writable : Bool) : Word :=
  (0#12 ++ BitVec.ofNat 4 s.dom.pkg ++ 0#42 ++ 1#1 ++ bit writable ++ 0#1 ++ 3#2 ++ 1#1 : BitVec 64)

/-- R339: translates gA as a load of its byte would; it never traps on its address. Where the load fails on a byte that is not filled
(R2), FLEV is the level of the leaf (log entry 66). -/
def State.pageQuery (s : State) (va : Nat) : Res Word :=
  if 2 ^ 57 ≤ va then .ok (pageFail 7) s
  else if inRegion va then
    let off := va - 0x01FFFFF000000000
    if off < 2 ^ 21 then .ok (s.windowWord true) s
    else if 0x800000000 ≤ off ∧ off < 0x800000080 then .ok (s.windowWord false) s
    else .ok (pageFail 7) s
  else
    match s.lookup s.act.core s.act.part va with
    | (.error e, s) =>
      match e.cause with
      | some (.stall w) => .wait w s
      | _ => .ok (pageFail e.level) s
    | (.ok t, s) =>
      .ok (if s.filledAt (s.physOf t va) 1 then s.pageWord t va (s.act.priv == .user) else pageFail t.level) s

def execPgq (d a : Reg) (_ : Ctl) (s : State) : Out :=
  ((s.pageQuery (s.g a).toNat).bind fun x s => .ok () (s.setG d x)).finQ s

end Sys2Proof.Machine
end

