-- ==== Sys2Proof/Machine/Reset.lean ====
section
/-!
DEFINITION. The reset of a partition (R395): what it discards, frees and zeroes.
-/

namespace Sys2Proof.Machine

/-- The partition of a record holds a barrier object, by the object's key. -/
def PartRec.holdsBarrier (r : PartRec) (k : Nat) : Bool :=
  let unit := k / 64 % 1024
  match k / 65536 with
  | 0 => r.quads.getLsbD (quadOf unit)
  | 1 => r.quads.getLsbD (unit / 4)
  | 2 => r.quads.getLsbD unit
  | 3 => r.stackBar.getLsbD (k % 64) && (List.range 16).any fun i => r.quads.getLsbD (16 * unit + i)
  | _ => r.domBar.getLsbD (k % 64)

/-- R317: objects FREE with ARR 0 and GEN 0; the other packages are told of the domain's own ones that are homed here (R321). -/
def State.freeBarriers (s : State) (p : Nat → Bool) : State :=
  let gone := if s.barrierHome then s.barriers.filter fun b => p b.1 && decide (4 ≤ b.1 / 65536) else []
  gone.foldl (fun s b => s.tellPhase (b.1 % 64) b.2.gen 0) { s with barriers := s.barriers.filter fun b => !p b.1 }

/-- The quad whose scratchpads hold a location. -/
def padQuad (a : Nat) : Nat := (a - 2 ^ 52) / 2 ^ 21 / 4

/-- R395, R420: the scratchpads of quads zeroed, no granule of them full or poisoned. -/
def State.zeroPads (s : State) (q : BitVec 64) : State :=
  let gone (a : Nat) : Bool := isPad a && q.getLsbD (padQuad a)
  { s with
    mem := s.mem.filter fun c => !gone c.1
    full := s.full.filter fun g => !gone (16 * g)
    poison := s.poison.filter fun g => !gone (16 * g) }

/-- R395: the L2s of quads zeroed: the dies of their stacks hold no copies but of lines that another partition has pinned. -/
def State.zeroL2 (s : State) (pid : Nat) (q : BitVec 64) : State :=
  let touched := (List.range 4).filter fun k => (List.range 16).any fun i => q.getLsbD (16 * k + i)
  touched.foldl (fun s k =>
    let held := (s.pins.filter fun p => p.1 / 16 == k).flatMap fun p => (p.2.filter fun x => x.2 != pid).map (·.1)
    let d := s.die k 0
    let gone := ((s.dieAt d).copies.map (·.1)).filter fun l => !held.contains l
    gone.foldl (fun s l => (s.onDie d fun x => { x with copies := NMap.del l x.copies }).rebuildOwn d l) s) s

/-- R388: the sail core of a pair after a reset of its quad. -/
def Pair.afterReset (p : Pair) : Pair :=
  { p with leat := [], request := false
           gate := match p.gate with | .on => .on | .draining => .on | .gated => .waking | .waking => .waking }

/-- The Millrace without what a partition had there. -/
def Millrace.without (m : Millrace) (pid : Nat) (r : PartRec) : Millrace :=
  let nodes := m.nodes.filter fun n => n.2.part != pid
  let keep (n : Nat) : Bool := (NMap.get? n nodes).isSome
  { m with
    ctrs := m.ctrs.filter fun c => !(decide (r.ctrBase ≤ c.1) && decide (c.1 ≤ r.ctrLast))
    replays := m.replays.filter fun x => x.2.part != pid
    nodes := nodes, pool := m.pool.filter keep, outside := m.outside.filter keep, splits := m.splits.filter fun x => keep x.node
    credit := m.credit.filter fun x => x.1 / 16 != pid, boost := m.boost.filter fun x => x.1 / 16 != pid
    lastTurn := m.lastTurn.filter fun x => x.1 / 8 != pid
    kernels := m.kernels.filter fun k => k.part != pid
    underflow := NMap.del pid m.underflow, faults := m.faults.filter fun f => f.part != pid
    slots := m.slots.filter fun x => x.1 / 256 != pid, unreplied := m.unreplied.filter fun x => x / 256 != pid
    nextSlot := NMap.del pid m.nextSlot, inForce := NMap.del pid m.inForce
    updates := m.updates.filter fun u => u.1 != pid }

/-- The links without the strands of a partition. -/
def State.cutLinks (s : State) (pid : Nat) : State :=
  let gone (k : Nat) : Bool := match s.strand? k with | some a => a.part == pid | none => false
  s.onLinks fun l => { l with
    reels := l.reels.filter fun x => !gone x.1, away := l.away.filter fun x => !gone x.1, guests := l.guests.filter fun x => !gone x.1 }

/-- R395: RESETTING. The strands go with their posted work, their operations and queries with no record. -/
def State.resetPart (s : State) (pid : Nat) : State :=
  let r := (s.part pid).record
  let s := (((s.flushReqs (· == pid)).flushAll).dropTlb fun t => t.part == pid).cutLinks pid
  let s : State := { s with
    act := if s.act.part = pid then s.act.halted else s.act
    parked := s.parked.filter fun a => a.part != pid
    engines := s.engines.filter fun o => o.2.part != pid
    queries := s.queries.filter fun q => q.2.part != pid
    pins := s.pins.map fun q => (q.1, q.2.filter fun x => x.2 != pid)
    pairs := s.pairs.map fun p => if r.quads.getLsbD (p.1 / 4) then (p.1, p.2.afterReset) else p
    cores := s.cores.map fun c => if r.quads.getLsbD (quadOf c.1) then (c.1, { c.2 with records := [] }) else c }
  let s := (s.onMill fun m => m.without pid r).freeBarriers r.holdsBarrier
  let s := (s.zeroPads r.quads).zeroL2 pid r.quads
  { s with parts := s.parts.upd pid Part.absent fun p => { p with st := .resetting, record := { p.record with fcount := 0 } } }

/-- RESET, or containment, of a partition that runs. -/
def State.contain (s : State) (pid : Nat) : State := if (s.part pid).st = .running then s.resetPart pid else s

end Sys2Proof.Machine
end

