-- ==== Sys2Proof/Machine/Sched.lean ====
section
/-!
DEFINITION. What the Millrace does beside serving instructions: dispatch, pre-emption, records, nodes, replays, migration
(R256, R262 to R266, R287 to R298, R312, R324, R379, R393). An event whose conditions do not hold changes nothing.
-/

namespace Sys2Proof.Machine

/-! Dispatch and pre-emption. -/

/-- STRAND_DISPATCH; the tables that name the constants of a kernel are read first (R278, R346). -/
def execStrandDispatch (core : Nat) (s : State) : Out := let s := s.saveAway; .next (s.onceThere (s.dispatch core))

def execPriorityPreemption (s : State) : Out :=
  .next (match s.victim with | some n => s.stopNode n | none => s)

def execQueueAging (part q : Nat) (s : State) : Out :=
  .next (if (s.queueHead part q).isSome ∧ s.queuePrio part q < 7 then
    s.onMill fun m => { m with boost := m.boost.upd (16 * part + q) 0 (· + 1) } else s)

/-- R257, R302: the request stops every running strand of the group. -/
def execPreemptionRequest (sid : Nat) (s : State) : Out :=
  .next (match s.strand? sid with | some a => if a.life = .running then s.stopNode a.node else s | none => s)

/-- R256: STOPPING to SAVED, once an atomic that the strand has sent to another package has been answered (R349); the node returns to the head
of its queue when its last strand has stopped. -/
def State.strandStopped (s : State) (sid : Nat) : State :=
  match s.strand? sid with
  | some a => if a.life = .stopping ∧ !a.asks then (s.save sid .saved).requeue a.node else s
  | none => s
def execStrandStopped (sid : Nat) (s : State) : Out := .next (s.strandStopped sid)

def execTrappedSave (sid : Nat) (s : State) : Out :=
  .next (match s.strand? sid with
    | some a => if a.life = .trapped then s.save sid .trappedSaved else s
    | none => s)

/-! Records and replies. -/

def execFaultRecordWrite (s : State) : Out := .next s.recordStep

/-- R264; a strand that is READY again waits for a dispatch. -/
def execFaultReply (part slot : Nat) (s : State) : Out :=
  let owner := match s.mill.slots.get? (256 * part + slot) with
    | some f => (match f.owner with | .strand sid => (s.strand? sid).map (·.node) | _ => none)
    | none => none
  let s := s.faultReply part slot
  .next (match owner with | some n => s.requeue n | none => s)

/-! Nodes and replays. -/

/-- The strands of a node that came from another package. -/
def State.guestsOf (s : State) (n : Nat) : NMap Guest := s.links.guests.filter fun g => g.2.node == n

/-- R287; the node of strands that came from another package is completed there. -/
def execNodeComplete (node : Nat) (s : State) : Out :=
  let killed := match s.node? node with | some x => x.killed | none => false
  let t := s.onceThere (s.nodeComplete node)
  .next (if (t.node? node).isSome then t
    else (s.guestsOf node).foldl (fun t g =>
      (t.tell g.2.src (.halted g.2.sid killed)).onLinks fun l => { l with guests := NMap.del g.1 l.guests }) t)

/-- R293: the first node outside whose partition has room: nodes enter in the order in which they fired. -/
def execReadyPoolEntry (s : State) : Out :=
  .next (match s.mill.outside.find? fun n => match s.node? n with | some x => s.poolRoom x.part | none => false with
    | some n => (s.onNode n fun x => { x with st := .ready }).onMill fun m =>
        { m with pool := m.pool ++ [n], outside := m.outside.filter (· != n) }
    | none => s)

def execReplayBind (id : Nat) (s : State) : Out := .next (s.onceThere (s.bindReplay id))

/-- A node that has not started is gone; its gate's counter stays as it is until its replay is over (R288). -/
def State.discard (s : State) (n : Nat) : State :=
  s.onMill fun m => { m with
    nodes := NMap.del n m.nodes, pool := m.pool.filter (· != n), outside := m.outside.filter (· != n) }

/-- R298: the kernel of a spawned node is rejected. -/
def execSpawnedKernelReject (node : Nat) (s : State) : Out :=
  match s.node? node with
  | none => .next s
  | some x =>
    if x.verified ∨ !x.members.isEmpty ∨ x.st = .complete ∨ x.st = .discarded then .next s
    else .next (s.onceThere (
      match s.verify x.part x.kernel x.user with
      | (.ok k, s) => (s.nameKernel x.replay x.part x.kernel).onNode node fun x =>
          { x with hdr := k.hdr, verified := true, sailOnly := k.hdr.cls == 2 || (k.hdr.cls == 0 && k.query) }
      | (.error r, s) =>
        let s := s.engReport x.part .none x.epc (BitVec.ofNat 64 (x.kernel + r)) Cause.illegal.code x.core 0
        match x.replay with
        | some id => (s.discard node).drainReplay id
        | none => (s.discard node).releaseKernels))

/-- R393: a period of an arbiter ends, on its own clock (R25). Which one it is, is a free value (log entry 36): a quad's or, from
64 on, a channel's count of corrections begins again (R397), or the Millrace's (128) budgets are renewed, from the records as
they stand (R394), and the updates that waited are served (R297). -/
def execArbiterPeriod (s : State) : Out :=
  let (arb, s) := s.draw 129
  .next (if arb = 128 then (s.onMill fun m => { m with used := [], inForce := [] }).serveUpdates
    else { s with mgmt := { s.mgmt with corrected := NMap.del arb s.mgmt.corrected } })

/-! Migration (R256, R312, R324, R379). -/

/-- The Leat of every pair that a node's strands are on is empty (R312). -/
def State.leatsEmpty (s : State) (n : Nat) : Bool :=
  (s.strands.filter fun a => a.node == n && a.life != .halted).all fun a => (s.pair (pairOf a.core)).leat.isEmpty

/-- The strands of a node that have not halted. -/
def State.members (s : State) (n : Nat) : List Strand := s.strands.filter fun a => a.node == n && a.life != .halted

/-- The strand can travel: it is SAVED, with no arrival pending at a barrier (R324). -/
def Strand.travels (a : Strand) : Bool := a.life == .saved && a.arrivals.isEmpty && !(a.wait.any fun w => match w with | .barHome _ => true | _ => false)

/-- A SAVED strand is selected, and with it its whole group, which stays in one place (R301, R302, R312). -/
def execMigrationSelect (sid : Nat) (s : State) : Out :=
  match s.strand? sid with
  | none => .next s
  | some a =>
    let l := if a.life = .saved then a :: (s.members a.node).filter (fun b => b.sid != sid) else []
    if l.isEmpty ∨ !l.all Strand.travels ∨ !s.leatsEmpty a.node then .next s
    else
      let s := l.foldl (fun s b => s.onStrand b.sid fun b => { b with life := .migrating }) s
      .next (l.foldl (fun s b => s.saveOps b.sid) (s.onMill fun m => { m with pool := m.pool.filter (· != a.node) }))

/-- The gathers, scatters and collectives of a strand have ended (R195), and the save regions of its queries are written (R254). -/
def State.opsEnded (s : State) (sid : Nat) : Bool :=
  (s.engines.all fun o => o.2.sid != sid || o.2.job.cls == 0 || o.2.ended) && s.queries.all fun q => q.2.sid != sid || !q.2.unsaved

/-- No other strand of the group goes to another package, or stays in this one (R301). -/
def State.sameWay (s : State) (node : Nat) (pkg : Option Nat) : Bool :=
  (s.members node).all fun b =>
    (match (s.links.reels.get? b.sid).or (s.links.away.get? b.sid) with | some p => some p == pkg | none => b.life == .migrating || pkg.isNone)

/-- What the dies of a core and of the engine of its quad have written and applied, their open batches closed (R343, R350). -/
def State.writtenBy (s : State) (core : Nat) : NMap Nat × State :=
  let s := (s.closeBatch (s.coreDie core)).closeBatch (s.quernDie core)
  ((s.dieAt (s.quernDie core)).vec.foldl (fun v p => v.upd p.1 0 (max p.2)) (s.dieAt (s.coreDie core)).vec, s)

/-- R379: the reel goes to another package; this one keeps its copy. It names the strands of the group that come as well. -/
def execReelTransfer (sid pkg : Nat) (s : State) : Out :=
  match s.strand? sid with
  | none => .next s
  | some a =>
    match s.node? a.node with
    | none => .next s
    | some n =>
      if a.life ≠ .migrating ∨ !s.opsEnded sid ∨ (s.links.reels.get? sid).isSome ∨ (s.links.away.get? sid).isSome ∨ pkg = s.dom.pkg ∨
          !NSet.has pkg s.dom.members ∨ NSet.has pkg s.dom.lost ∨ !s.sameWay a.node (some pkg) then .next s
      else
        let (a, s) := s.readScalars a
        let (dev, tag, s) := s.readDevice sid
        let (vec, s) := s.writtenBy a.core
        let s := s.onLinks fun l => { l with reels := NMap.set sid pkg l.reels }
        let n := { n with due := (s.members a.node).map (·.sid) }
        let t := s.tell pkg (.reel s.dom.pkg a n (s.engines.filter fun o => o.2.sid == sid) (s.queries.filter fun q => q.2.sid == sid)
          dev tag vec)
        .next (t.abandonHeld (t.links.held.filter fun p => !s.links.held.contains p))

/-- The target has confirmed the reel: the operations, the queries and the arrival at a `gsplit` of the strand have gone with it, and its
node runs there (R303). -/
def State.reelConfirmed (s : State) (sid pkg : Nat) : State :=
  let s := (s.onLinks fun l => { l with reels := NMap.del sid l.reels, away := NMap.set sid pkg l.away }).onMill fun m => { m with
    splits := (m.splits.map fun x => { x with arrived := x.arrived.filter fun a => a.1 != sid }).filter fun x => !x.arrived.isEmpty }
  let node := ((s.strand? sid).map (·.node)).getD 0
  { s.onNode node fun x => { x with st := .running } with
    engines := s.engines.filter fun o => o.2.sid != sid, queries := s.queries.filter fun q => q.2.sid != sid }

/-- The number here of a member of a group that comes from another package, until its reel is placed. -/
def farSid (k : Nat) : Nat := 2 ^ 40 + k

/-- A member has come: it has its number here, and is no longer due. -/
def NodeRun.arrive (x : NodeRun) (far sid : Nat) : NodeRun :=
  { x with members := x.members.map fun m => (if m.1 = far then sid else m.1, m.2), due := x.due.filter (· != far) }

/-- The node of a group that comes from another package: the one that an earlier member has come to, or a new one, which counts the errors
of its own engines (R235). -/
def State.guestNode (s : State) (src from_ : Nat) (n : NodeRun) : Nat × NodeRun :=
  match (s.links.guests.find? fun g => g.2.src == src && g.2.from_ == from_).bind fun g => (s.node? g.2.node).map fun x => (g.2.node, x) with
  | some p => p
  | none => (s.mill.nextId + 1, { n with
      replay := none, gate := none, succ := [], st := .waiting, errs := 0
      members := n.members.map fun m => (farSid m.1, m.2), due := n.due.map farSid })

/-- R305: a strand that waits for a round of `gsplit` brings its arrival. -/
def State.bringSplit (s : State) (a : Strand) (x : NodeRun) : State :=
  match a.waits.find? fun w => match w with | .split _ _ => true | _ => false with
  | some (.split tier colour) =>
    let unit := if tierRank x.tier ≤ tierRank tier then 0 else unitOf tier ((x.launchCore a.sid).getD a.core)
    let y := s.split? a.node tier unit
    s.onMill fun m => { m with splits := m.splits.erase y ++ [{ y with arrived := y.arrived ++ [(a.sid, a.index, colour)] }] }
  | _ => s

/-- A reel from another package is placed, where what its strand and its engine had written is there (R343, R350): the strand runs under a
new number, with its group's node; the sender is told. -/
def State.placeReel (s : State) (core src : Nat) (a : Strand) (n : NodeRun) (ops : NMap EngOp) (qs : NMap QCtx) (vec : NMap Nat) : State :=
  let sid := s.mill.nextId
  let (node, x) := s.guestNode src a.node n
  let x := x.arrive (farSid a.sid) sid
  let s := s.catchUp (s.coreDie core) vec
  let s := if qs.isEmpty then s else s.catchUp (s.quernDie core) vec
  let s := s.onMill fun m => { m with nextId := sid + 2, nodes := NMap.set node x m.nodes }
  let first := s.nextOp
  let s := ops.zipIdx.foldl (fun s o => s.setOp (first + o.2) { o.1.2 with sid := sid, core := core }) { s with nextOp := first + ops.length }
  let s := qs.zipIdx.foldl (fun s q => s.setCtx (ctxAt core q.1.1) { q.1.2 with sid := sid, core := core, order := first + ops.length + q.2 })
    { s with nextOp := first + ops.length + qs.length }
  let b : Strand := { a with sid := sid, node := node, core := core, life := .ready, clMap := 0 }
  let s := (({ s with parked := s.parked ++ [b] }).bringSplit b x).writeReel { b with clMap := a.clMap }
  let s := s.onLinks fun l => { l with guests := NMap.set sid { src := src, sid := a.sid, from_ := a.node, node := node } l.guests }
  (s.tell src (.reelPlaced a.sid true)).requeue node

/-- A core can hold a strand that comes to it (R301, R304, R278): it is there and not lost, in a quad of the partition, of the kernel's
class, and the group keeps its shape there. -/
def State.reelFits (s : State) (x : NodeRun) (node sid core : Nat) : Bool :=
  decide (core < 512) && !(s.core core).lost && (s.part x.part).record.quads.getLsbD (quadOf core) && classFits x core &&
  x.keepsShape sid core (((s.members node).filter fun b => b.sid != sid && b.life != .migrating).map fun b => (b.sid, b.core))

/-- R254: a reel's queries go to a sail core whose matching contexts are FREE. -/
def State.reelQueriesFit (s : State) (qs : NMap QCtx) (core : Nat) : Bool :=
  qs.all fun q => !isMill core && (s.queries.get? (ctxAt core q.1)).isNone

/-- What the target of a reel says is taken (R379): the strand runs there, or it stays SAVED here. -/
def State.reelAnswer (s : State) (sid pkg : Nat) : State :=
  if s.links.inbox.contains (.reelPlaced sid true) then (s.reelConfirmed sid pkg).consume (.reelPlaced sid true)
  else if s.links.inbox.contains (.reelPlaced sid false) then (s.abandonReel sid).consume (.reelPlaced sid false)
  else s

/-- REEL_ARRIVED: a reel of this package is placed at a core of it; or its target has confirmed it; or one has come from
another package, which confirms it where the tag is that of its device section (R379). -/
def execReelArrived (sid core : Nat) (s : State) : Out :=
  let isReel (m : Msg) : Bool := m.reelOf == some sid
  match s.links.reels.get? sid, s.links.inbox.find? isReel with
  | some pkg, _ => .next (s.reelAnswer sid pkg)
  | none, some (.reel src a n ops qs dev tag vec) =>
    let g := s.guestNode src a.node n
    if (Config.reelTag dev).toNat ≠ tag then
      .next ((s.tell src (.reelPlaced a.sid false)).consume (.reel src a n ops qs dev tag vec))
    else if s.reelQueriesFit qs core && s.reelFits g.2 g.1 (farSid a.sid) core && s.reaches (s.coreDie core) vec &&
        (qs.isEmpty || s.reaches (s.quernDie core) vec) then
      .next ((s.placeReel core src a n ops qs vec).consume (.reel src a n ops qs dev tag vec)) else .next s
  | none, _ =>
    match s.strand? sid with
    | some a =>
      match s.node? a.node with
      | none => .next s
      | some x =>
        if a.life ≠ .migrating ∨ !s.opsEnded sid ∨ (s.links.away.get? sid).isSome ∨ !s.reelFits x a.node sid core ∨ !s.queriesFit sid core ∨
            !s.sameWay a.node none then .next s
        else
          let s := ((s.bringAlong (s.coreDie a.core) (s.coreDie core)).bringQueries a core).moveCtxs sid core
          .next ((s.onStrand sid fun a => { a with life := .ready, core := core }).requeue a.node)
    | none => .next s

end Sys2Proof.Machine
end

