-- ==== Sys2Proof/Machine/Fabric.lean ====
section
/-!
DEFINITION. What the fabric, the host port and the memories' error correction do by themselves: batches (R345, R346), messages
from other packages (R346, R349, R21, R321), the loss of a package (R380), accesses of hosts (R354, R370, R371), errors
(R397, R420). An event whose conditions do not hold changes nothing.
-/

namespace Sys2Proof.Machine

/-! Batches. -/

def execBatchTimeout (die : Nat) (s : State) : Out := .next (if s.allDies.contains die then s.closeBatch die else s)

/-- A batch marked at a die. -/
def State.markBatch (s : State) (b : Batch) (f : Batch → Batch) : State :=
  { s with flight := s.flight.map fun c => if c.src = b.src ∧ c.seq = b.seq then f c else c }

/-- A batch under way to a die: its header or its data, whichever `data` says, has still to arrive there. -/
def Batch.lacks (b : Batch) (die : Nat) (data : Bool) : Bool := !NSet.has die (if data then b.arrived else b.headed)

/-- A piece of a batch arrives at a die. -/
def State.pieceArrives (s : State) (die : Nat) (b : Batch) (data : Bool) : State :=
  s.markBatch b fun c =>
    if data then { c with arrived := NSet.add die c.arrived } else { c with headed := NSet.add die c.headed }

/-- The header or the data of a batch of a die arrives; which of those that are under way is a free value (R373: the fabric keeps no
order). -/
def execBatchArrive (die src : Nat) (s : State) : Out :=
  let l := s.flight.flatMap fun b => if b.src = src then [false, true].filterMap fun x => if b.lacks die x then some (b, x) else none else []
  if l.isEmpty ∨ !s.allDies.contains die then .next s
  else
    let (n, s) := s.draw l.length
    .next (match l[n]? with
      | some p => s.pieceArrives die p.1 p.2
      | none => s)

/-- The dies of this package. -/
def State.myDies (s : State) : List Nat := (List.range 8).map fun i => 8 * s.dom.pkg + i

/-- The header of a batch of another package's die that has come for a die: its vector, and whether the data goes with it. -/
def State.headFor (s : State) (die src seq : Nat) : Option (NMap Nat × Bool) :=
  s.links.inbox.findSome? fun m =>
    match m with | .batchHead d e k vec data => if d = die ∧ e = src ∧ k = seq then some (vec, data) else none | _ => none

/-- The data of a batch of another package's die that has come for a die. -/
def State.dataOf (s : State) (die src seq : Nat) : Option (List Wr) :=
  s.links.inbox.findSome? fun m => match m with | .batchData d e k w => if d = die ∧ e = src ∧ k = seq then some w else none | _ => none

/-- The batches of a die of another package that have come as messages: for every die here its header, and its data where the header says
so (R345, R373; log entry 24). -/
def State.comeFrom (s : State) (src : Nat) : List (Nat × NMap Nat × List Wr) :=
  (s.links.inbox.filterMap fun m => match m with | .batchHead _ e k vec _ => if e = src then some (k, vec) else none | _ => none).eraseDups.filterMap
    fun h =>
      if s.myDies.all fun d => match s.headFor d src h.1 with | some x => !x.2 || (s.dataOf d src h.1).isSome | none => false then
        some (h.1, h.2, (s.myDies.findSome? fun d => s.dataOf d src h.1).getD [])
      else none

/-- The message is a piece of a batch of a die. -/
def Msg.pieceOf (src seq : Nat) : Msg → Bool
  | .batchHead _ e k _ _ => e == src && k == seq
  | .batchData _ e k _ => e == src && k == seq
  | _ => false

/-- A batch that has come as messages is under way to the dies that have not applied it, and has arrived at those here; one that the dies here
have applied is dropped. -/
def State.takeBatch (s : State) (src : Nat) (x : Nat × NMap Nat × List Wr) : State :=
  let s := s.onLinks fun l => { l with inbox := l.inbox.filter fun m => !m.pieceOf src x.1 }
  if s.myDies.all (fun d => decide (x.1 ≤ (s.dieAt d).vec.getD src 0)) || s.flight.any fun c => c.src == src && c.seq == x.1 then s
  else
    let done := src :: s.allDies.filter fun d => decide (x.1 ≤ (s.dieAt d).vec.getD src 0)
    let come := s.myDies.foldl (fun l d => NSet.add d l) done
    { s with flight := s.flight ++ [{ src := src, seq := x.1, vec := x.2.1, writes := x.2.2, headed := come, arrived := come, applied := done }] }

/-- What has come as messages from a die of another package is taken. -/
def State.takeBatches (s : State) (src : Nat) : State :=
  if s.ownDie src then s else (s.comeFrom src).foldl (fun s x => s.takeBatch src x) s

/-- A die applies the first batch of another that it may; those of a die of another package come as messages. -/
def execBatchApply (die src : Nat) (s : State) : Out :=
  if !s.allDies.contains die then .next s
  else
    let s := s.takeBatches src
    .next (match s.flight.find? fun b => b.src == src && b.here die && s.mayApply die b with
      | some b => s.applyBatch die b
      | none => s)

/-! Messages from other packages. -/

/-- The marks of the granules of n bytes (R420). -/
def State.marksOf (s : State) (a n : Nat) : NSet := s.poison.filter fun g => decide (a / 16 ≤ g) && decide (g ≤ (a + n - 1) / 16)

/-- A home die serves the first read request for it that it can: it has applied what the request's vector covers, as for an atomic (log
entry 24). The reply carries the home's vector, and the marks of its granules; memory that is not reachable is denied (R371). -/
def execRemoteReadRequest (die : Nat) (s : State) : Out :=
  .next (match s.links.inbox.find? fun m => match m with | .read d _ _ _ vec => d == die && s.ownDie d && s.reaches d vec | _ => false with
    | some (.read d src addr n vec) =>
      let s := ((s.consume (.read d src addr n vec)).catchUp d vec).closeBatch d
      if s.unreachable addr then s.sendMsg d src (.reply src addr [] (s.dieAt d).vec [] (some .peer) none)
      else
        let bs := s.bytesAt d addr n
        let s := s.onDie src fun x => { x with copies := NMap.set (addr / 128) bs x.copies }
        s.sendMsg d src (.reply src addr bs (s.dieAt d).vec (s.marksOf addr n) none none)
    | _ => s)

/-- The first reply that a die may take: of a read or an atomic one whose vector it covers, so that a copy holds nothing that the die has
still to apply (R346; log entry 24). -/
def State.answers (s : State) (die : Nat) : Msg → Bool
  | .reply d _ _ v _ _ _ => d == die && s.ownDie d && s.reaches d v
  | .counterDone d h v => d == die && s.covers d h v
  | _ => false

/-- Strands go on that wait for what a test selects. -/
def State.wakeAll (s : State) (p : Wait → Bool) : State := s.onStrands (fun a => a.life == .running) fun a => a.wake 0 p

/-- The answer to an atomic goes to the strand or the replay that has sent it (R349). -/
def State.answerErrand (s : State) (home tag : Nat) (x : List Byte × Option Denial) : State :=
  ((s.onStrands (fun _ => true) fun a => a.onProgs (Progress.answer tag x)).onMill fun m => { m with
    replays := m.replays.map fun r => (r.1, { r.2 with errand := r.2.errand.map (Errand.take tag x) }) }).wakeAll
      fun w => w == .home home tag

/-- The line that a copy begins with: the home's, under those of the die's own bytes that the home has still to apply, by the vector of its
reply (R347). -/
def Die.lineOver (x : Die) (d line : Nat) (bs : List Byte) (v : NMap Nat) : List Byte :=
  (List.range 128).map fun i =>
    match x.own.get? (128 * line + i) with
    | some b => if 0 < b.2 ∧ b.2 ≤ v.getD d 0 then bs.getD i 0 else b.1
    | none => bs.getD i 0

/-- A line that a die has asked for comes: the die holds a copy of it (R346), and its marks (R420); or the home could not reach it (R371). What
waits for it goes on. -/
def State.takeLine (s : State) (d line : Nat) (bs : List Byte) (v : NMap Nat) (marks : NSet) (denied : Option Denial) : State :=
  let x := s.dieAt d
  if !NSet.has line x.asked then s
  else
    let y : Die :=
      match denied with
      | some _ => { x with refused := NSet.add line x.refused }
      | none => { x with
          refused := NSet.del line x.refused, own := x.own.filter fun b => b.1 / 128 != line
          copies := NMap.set line ((x.copies.get? line).getD (x.lineOver d line bs v)) x.copies }
    let s := s.onDie d fun _ => { y with asked := NSet.del line x.asked }
    ({ s with poison := marks.foldl (fun p g => NSet.add g p) s.poison } : State).wakeAll fun w => w == .far line

/-- The first reply that a die may return to its reader is returned, or to what has updated a counter. -/
def execReadReply (die : Nat) (s : State) : Out :=
  .next (match s.links.inbox.find? (s.answers die) with
    | some (.reply d a bs v marks denied tag) =>
      let s := (s.consume (.reply d a bs v marks denied tag)).catchUp d v
      match tag with
      | some k => s.answerErrand (homeDie a) k (bs, denied)
      | none => s.takeLine d (a / 128) bs v marks denied
    | some m => s.consume m
    | none => s)

/-- A home die performs the first atomic for it that it can: it has applied what the atomic's vector covers, and the host has given the line
up (R370). One on a marked granule (R420) or on memory that is not reachable (R371) changes nothing. -/
def execRemoteAtomic (die : Nat) (s : State) : Out :=
  .next (match s.links.inbox.find? fun m =>
      match m with | .atomic d _ addr n _ vec _ => d == die && s.ownDie d && s.reaches d vec && !s.lent addr n | _ => false with
    | some (.atomic d src addr n op vec tag) =>
      let s := ((s.consume (.atomic d src addr n op vec tag)).catchUp d vec).closeBatch d
      let denied : Option Denial := if s.unreachable addr then some .peer else if s.poisonHit addr n false then some .poison else none
      let old := if denied.isSome then [] else s.bytesAt d addr n
      let s := match denied, op.writes old with
        | none, some (off, x) => (s.write d noQuad (addr + off) x).closeBatch d
        | _, _ => s
      s.sendMsg d src (.reply src addr old (s.dieAt d).vec [] denied (some tag))
    | _ => s)

/-- The wait is for an answer of a package. -/
def Wait.on (pkg : Nat) : Wait → Bool
  | .far line => 128 * line / 2 ^ 48 == pkg
  | .home die _ => die / 8 == pkg
  | _ => false

/-- R380: the accesses of a strand's next instruction to a package get no answer within 1.0 µs. -/
def execRemoteAccessTimeout (sid pkg : Nat) (s : State) : Out :=
  .next (match s.strand? sid with
    | some a => if a.life = .running ∧ pkg ≠ s.dom.pkg then s.onStrand sid fun a => { a.wake 0 (Wait.on pkg) with late := some pkg } else s
    | none => s)

/-- A message about domain barrier objects. -/
def Msg.ofBarrier : Msg → Bool
  | .barrier _ _ _ _ => true
  | .barrierReply _ _ _ => true
  | .barrierGen _ _ => true
  | _ => false

/-- A request at its object, the answer to its sender, and the new generation to every other package where the phase is complete
(R317, R321). -/
def State.serveBarrier (s : State) (src sid idx : Nat) (op : BarOp) : State :=
  let k := barrierKey .domain 0 idx
  let b := s.barrier k
  let r := op.at_ b
  let s := (if r.2 = b then s else s.setBarrier k r.2).tell src (.barrierReply sid r.1 b.gen)
  s.tellPhase idx b.gen r.2.gen

/-- The generation of an object that is homed elsewhere, as far as this package knows it: the newest it was told since the object was
reset, which a generation of 0 tells. -/
def State.tellGen (s : State) (idx : Nat) (gen : BitVec 32) : State :=
  let k := barrierKey .domain 0 idx
  if (s.barriers.get? k).isNone ∨ gen = 0 ∨ 0 < (gen - (s.barrier k).gen).toInt then s.setBarrier k { s.barrier k with gen := gen } else s

/-- The strand that waits for a home's answer, and the object that it named. -/
def Strand.asked (a : Strand) : Option Nat := a.wait.bind fun w => match w with | .barHome i => some i | _ => none

/-- R321: the first message about a domain object is taken: a request at its home, the home's answer, a release. -/
def execDomainBarrierArrival (s : State) : Out :=
  .next (match s.links.inbox.find? Msg.ofBarrier with
    | some (.barrier src sid idx op) =>
      if s.barrierHome then (s.consume (.barrier src sid idx op)).serveBarrier src sid idx op else s
    | some (.barrierReply sid ok gen) =>
      let s := s.consume (.barrierReply sid ok gen)
      match (s.strand? sid).bind Strand.asked with
      | some idx =>
        (s.tellGen idx gen).onStrand sid fun a =>
          a.wake (barrierAnswer ok gen) fun w => match w with | .barHome _ => true | _ => false
      | none => s
    | some (.barrierGen idx gen) => (s.consume (.barrierGen idx gen)).tellGen idx gen
    | _ => s)

/-- A strand of this package has ended on another. -/
def State.endedAway (s : State) (sid : Nat) (killed : Bool) : State :=
  let s := s.onLinks fun l => { l with away := NMap.del sid l.away }
  if killed then s.killStrand sid
  else
    match s.strand? sid with
    | some a => (s.haltStrand sid).afterHalt a.node
    | none => s

/-- An update that the Millrace can apply: its die has applied what the update's vector covers (R349), and the partition has an operation
left (R297); or the end of a strand. -/
def State.updates (s : State) : Msg → Bool
  | .counter _ part _ _ vec => s.reaches s.millDie vec && s.budgetLeft part
  | .halted _ _ => true
  | _ => false

/-- R21: the first update that can be is applied once, and answered with the home's vector (R349). -/
def execRemoteCounterUpdate (s : State) : Out :=
  .next (match s.links.inbox.find? s.updates with
    | some (.counter src part idx n vec) =>
      let s := (s.consume (.counter src part idx n vec)).catchUp s.millDie vec
      let s := if s.ownCtr part idx && decide (0 < n) then (s.spend part).ctrDec idx n else s
      let s := s.closeBatch s.millDie
      s.sendMsg s.millDie src (.counterDone src s.millDie (s.dieAt s.millDie).vec)
    | some (.halted sid killed) =>
      let s := s.consume (.halted sid killed)
      if (s.links.away.get? sid).isSome then s.endedAway sid killed else s
    | _ => s)

/-! The loss of a package (R380). -/

/-- The eight granules of a line poisoned. -/
def State.poisonLine (s : State) (line : Nat) : State :=
  (List.range 8).foldl (fun s i => { s with poison := NSet.add (8 * line + i) s.poison }) s

/-- The lines that writes lie in. -/
def writtenLines (l : List Wr) : List Nat :=
  (l.flatMap fun w => [w.addr / 128, (w.addr + w.data.length - 1) / 128]).foldl (fun acc x => NSet.add x acc) []

/-- A batch that has arrived at die e waits for a batch of the package that has not. -/
def State.waitsOn (s : State) (e pkg : Nat) (b : Batch) : Bool :=
  b.src / 8 != pkg && !NSet.has e b.applied && b.here e &&
  b.vec.any fun p => p.1 / 8 == pkg &&
    (let v := (s.dieAt e).vec.getD p.1 0
     (List.range (p.2 - v)).any fun i => !(s.flight.any fun c => c.src == p.1 && c.seq == v + 1 + i && c.here e))

/-- A batch is over at die e without its writes, and its lines are poisoned. -/
def State.discardBatch (s : State) (e : Nat) (b : Batch) : State :=
  let s := (writtenLines b.writes).foldl (fun s l => (s.poisonLine l).event (.poisonedLine l)) s
  s.applyBatch e { b with writes := [] }

/-- The batches of the lost package that have come whole, as messages, are under way here; a piece of one is nothing. -/
def State.takeWhole (s : State) (pkg : Nat) : State :=
  ((List.range 8).foldl (fun s i => s.takeBatches (8 * pkg + i)) s).onLinks fun l => { l with inbox := l.inbox.filter fun m =>
    match m with
    | .batchHead _ src _ _ _ => src / 8 != pkg
    | .batchData _ src _ _ => src / 8 != pkg
    | _ => true }

/-- Batches that wait for the lost package at die e are discarded, and so are the package's own that have not arrived. -/
def State.loseBatches (s : State) (pkg e : Nat) : State :=
  let waiting := s.flight.filter (s.waitsOn e pkg)
  let s := waiting.foldl (fun s b => s.discardBatch e b) s
  let late := s.flight.filter fun b => b.src / 8 == pkg && !b.here e
  late.foldl (fun s b => s.markBatch b fun c => { c with applied := NSet.add e c.applied }) s

/-- Batches that every die has applied are gone. -/
def State.sweep (s : State) : State := { s with flight := s.flight.filter fun c => !(s.allDies.all fun d => NSet.has d c.applied) }

/-- The virtual address in other memory of the first element that an operation has asked a package for. -/
def EngOp.asked? (e : EngOp) (pkg : Nat) : Option Nat :=
  (e.out.find? fun r => r.owner / 8 == pkg).bind fun r => r.elems.head?.map fun x =>
    match e.job with | .gath _ _ _ _ _ => x.srcVa | _ => x.dstVa

/-- The open collectives with a participant here: number, tag, and the packages that their other ranks have sent from. -/
def State.openColls (s : State) : List (Nat × Nat × NMap Nat) :=
  let l := (s.engines.filterMap fun o =>
    match o.2.job with
    | .coll _ _ _ _ _ _ _ tag g _ => if o.2.ended || o.2.st == .posted then none else some (g, tag)
    | _ => none).eraseDups
  l.map fun x => (x.1, x.2, (s.groupOps x.1).foldl (fun m o => o.2.senders.foldl (fun m q => NMap.set q.1 q.2 m) m) [])

/-- Collectives with a participant that is known to be on the lost package end; of a rank that nothing has been heard of, ENGINE_FAIL says
whether it was there. -/
def State.loseColls (s : State) (pkg : Nat) : State :=
  s.openColls.foldl (fun s x => if x.2.2.any fun q => q.2 == pkg then s.mismatch (s.groupOps x.1) x.2.1 else s) s

/-- What the dies here have asked the lost package for does not come, and its atomics are not answered: what waits for them goes on, and finds
it lost (R326). -/
def State.loseAsked (s : State) (pkg : Nat) : State :=
  let keep (l : NSet) : NSet := l.filter fun k => 128 * k / 2 ^ 48 != pkg
  let gone (e : Errand) : Errand := if e.home / 8 = pkg ∧ e.answer.isNone then { e with answer := some ([], some .peer) } else e
  let s := s.myDies.foldl (fun s d => s.onDie d fun x => { x with asked := keep x.asked, refused := keep x.refused }) s
  ((s.onStrands (fun _ => true) fun a => a.onProgs fun p => { p with errand := p.errand.map gone }).onMill fun m => { m with
    replays := m.replays.map fun r => (r.1, { r.2 with errand := r.2.errand.map gone }) }).wakeAll (Wait.on pkg)

/-- R379: reels on their way to or from the package stay where they came from, SAVED; one that the package has confirmed runs there. -/
def State.loseReels (s : State) (pkg : Nat) : State :=
  let gone := (s.links.reels.filter fun r => r.2 == pkg).map (·.1)
  let s := s.onLinks fun l => { l with
    inbox := l.inbox.filter fun m => match m with | .reel src _ _ _ _ _ _ _ => src != pkg | _ => true
    held := l.held.filter fun p => p.dst / 8 != pkg }
  let s := (s.links.guests.filter fun g => g.2.src == pkg).foldl (fun s g => s.onNode g.2.node fun x => { x with due := [] }) s
  gone.foldl (fun s sid =>
    let t := s.reelAnswer sid pkg
    if (t.links.reels.get? sid).isSome then t.abandonReel sid else t) s

def execPeerLoss (pkg : Nat) (s : State) : Out :=
  if pkg = s.dom.pkg ∨ !NSet.has pkg s.dom.members ∨ NSet.has pkg s.dom.lost then .next s
  else
    let s : State := { s with dom := { s.dom with lost := NSet.add pkg s.dom.lost } }
    let s := (s.takeWhole pkg).loseAsked pkg
    let s := s.allDies.foldl (fun s e => s.loseBatches pkg e) s
    let s := s.sweep
    let s := s.engines.foldl (fun s o =>
      match (if o.2.listening then o.2.asked? pkg else none) with
      | some va =>
        if o.2.st == .failing then s.settleOp o.1 { o.2 with out := o.2.out.filter fun r => r.owner / 8 != pkg }
        else s.stopOp o.1 { o.2 with out := [] } .failed .peer va
      | none => s) s
    .next ((s.loseColls pkg).loseReels pkg)

/-! The host port (R354, R370, R371). -/

def execHostPortDown (s : State) : Out :=
  .next (if s.dom.hostUp then ({ s with dom := { s.dom with hostUp := false } } : State).event .hostPort else s)
def execHostPortUp (s : State) : Out := .next { s with dom := { s.dom with hostUp := true } }

/-- The virtual bytes that an entry of a level stands for (R327). -/
def entrySpan (level : Nat) : Nat := match level with | 0 => 2 ^ 48 | 1 => 2 ^ 39 | k => leafSize k

/-- A table, at a level, from a virtual address on, maps a physical address, where a SHARD leaf gives its package (R331); `n` levels are
left. -/
def State.tableMaps (s : State) (pa : Nat) : Nat → Nat → Nat → Nat → Bool
  | 0, _, _, _ => false
  | n + 1, table, level, va =>
    (List.range (if level = 4 then 32 else 512)).any fun i =>
      let e : Word := BitVec.ofNat 64 (leNat (s.bytesAt s.millDie (table + 8 * i) 8))
      let va := va + i * entrySpan level
      if !e.getLsbD 0 then false
      else if e.getLsbD 1 then
        let t := leafEntry 0 va e level
        let b := (e.extractLsb' 16 36).toNat * 2 ^ 16
        let off := pa % 2 ^ 48 - b % 2 ^ 48
        decide (b % 2 ^ 48 ≤ pa % 2 ^ 48) && decide (off < leafSize level) && s.physOf t (va + off) == pa
      else s.tableMaps pa n ((e.extractLsb' 8 44).toNat * 256) (level + 1) va

/-- R371: a page of a range belongs to a partition that is being reset. -/
def State.inReset (s : State) (pa len : Nat) : Bool :=
  s.parts.any fun p => p.2.st == .resetting &&
    (List.range ((pa + len - 1) / 65536 - pa / 65536 + 1)).any fun i => s.tableMaps (max pa ((pa / 65536 + i) * 65536)) 5 p.2.record.ptroot 0 0

/-- Device memory that hosts reach through this package (R370). -/
def State.hostReach (s : State) (addr len : Nat) : Bool :=
  s.dom.hostUp && decide (0 < len) && decide (addr / 2 ^ 48 = s.dom.pkg) && decide (addr % 2 ^ 48 + len ≤ s.board.bytes)

/-- An answer to a host. -/
def State.answer (s : State) (host : Nat) (a : Answer) : State := { s with mgmt := { s.mgmt with answers := s.mgmt.answers ++ [(host, a)] } }

/-- The host may hold the lines of a range. -/
def State.lend (s : State) (addr len : Nat) : State :=
  { s with dom := { s.dom with hostLines :=
      (List.range ((addr + len - 1) / 128 - addr / 128 + 1)).foldl (fun l i => NSet.add (addr / 128 + i) l) s.dom.hostLines } }

/-- A host reads at the home; poison, and a page that is being reset, are reported. -/
def execHostMemRead (host addr len : Nat) (s : State) : Out :=
  .next (if !s.hostReach addr len then s
    else if s.poisonHit addr len false ∨ s.inReset addr len then s.answer host .poisoned
    else (s.answer host (.bytes (s.mem.readL addr len))).lend addr len)

/-- A whole line of a host's write loses its marks (R420). -/
def State.clearLine (s : State) (line : Nat) : State :=
  { s with poison := s.poison.filter fun g => g / 8 != line }

/-- A host's write leaves part of a marked granule as it was (R420). -/
def State.hostTears (s : State) (a n : Nat) : Bool :=
  (a % 16 != 0 && NSet.has (a / 16) s.poison) || ((a + n) % 16 != 0 && NSet.has ((a + n) / 16) s.poison)

/-- Bytes written at their home dies line by line, each write performed at the domain's scope, so that the Millrace sees it with what follows
it (R291, R354); a full line loses its marks (R420). -/
def State.homeWrite : Nat → Nat → List Byte → State → State
  | 0, _, _, s => s
  | n + 1, a, bs, s =>
    if bs.isEmpty then s
    else
      let m := min bs.length (128 - a % 128)
      let s := if m = 128 then s.clearLine (a / 128) else s
      State.homeWrite n (a + m) (bs.drop m) ((s.write (homeDie a) noQuad a (bs.take m)).performAt (homeDie a) .domain)

/-- A host's first write to an address is made at the home. -/
def execHostMemWrite (host addr : Nat) (s : State) : Out :=
  .next (match s.mgmt.mailbox.find? fun c => match c with | (h, .memWrite a _) => h == host && a == addr | _ => false with
    | some (h, .memWrite a data) =>
      if !s.hostReach a data.length then s
      else
        let s : State := { s with mgmt := { s.mgmt with mailbox := s.mgmt.mailbox.erase (h, .memWrite a data) } }
        if s.inReset a data.length ∨ s.hostTears a data.length then s.answer host .poisoned
        else ((State.homeWrite data.length a data s).lend a data.length).answer host .ok
    | _ => s)

/-- The host has given a line up: a write that waits for it is made again. -/
def execBisnpResponse (line : Nat) (s : State) : Out :=
  let s : State := { s with dom := { s.dom with hostLines := NSet.del line s.dom.hostLines } }
  .next (s.onStrands (fun a => a.life == .running) fun a => a.wake 0 fun w => w == .snoop line)

/-! Errors (R397, R420). -/

/-- A quad, or 64 + an LPDDR-6 channel that is filled. -/
def State.correctable (s : State) (chan : Nat) : Bool :=
  decide (chan < 64) || (decide (chan < 128) && (s.mgmt.remap.get? (chan - 64)).isNone)

/-- One more corrected error of a quad, or of 64 + channel; the count that passes 256 is reported. -/
def execEccCorrected (chan : Nat) (s : State) : Out :=
  let n := s.mgmt.corrected.getD chan 0 + 1
  let t : State := { s with mgmt := { s.mgmt with corrected := NMap.set chan n s.mgmt.corrected } }
  .next (if !s.correctable chan then s else if n = 257 then t.event (.corrected chan) else t)

/-- An entry of a Leat is marked (R310). -/
def State.poisonLeat (s : State) (pair i : Nat) : State :=
  s.onPair pair fun p => { p with leat := p.leat.zipIdx.map fun e => if e.2 = i then { e.1 with poison := true } else e.1 }

/-- The granules of a 128-byte line of an operand slot of the strand that holds a core's matrix engine are marked (R420). -/
def State.poisonSlot (s : State) (core slot g : Nat) : State :=
  s.onStrands (fun a => a.onCore && a.core == core) fun a =>
    { a with mat := { a.mat with slots := match a.mat.slots.get? slot with
        | some x => NMap.set slot { x with poison := (List.range 8).foldl (fun p i => NSet.add (g / 8 * 8 + i) p) x.poison } a.mat.slots
        | none => a.mat.slots } }

/-- The places that an error in data is found in, beside physical memory and the scratchpads: entry i of the Leat of a pair at
2^53 + 16·pair + i, granule g of an operand slot at 2^54 + 1024·(32·core + slot) + g. -/
def State.poisonAt (s : State) (a : Nat) : State :=
  if 2 ^ 54 ≤ a then let k := a - 2 ^ 54; s.poisonSlot (k / 32768) (k / 1024 % 32) (k % 1024)
  else if 2 ^ 53 ≤ a then let k := a - 2 ^ 53; s.poisonLeat (k / 16) (k % 16)
  else (s.poisonLine (a / 128)).event (.poisonedLine (a / 128))

/-- An error in data poisons its line; one in a structure with the state of partition `held` resets that one (32: data). -/
def execEccUncorrectable (addr held : Nat) (s : State) : Out :=
  .next (if held < 32 then (s.event (.stateLost held)).contain held else s.poisonAt addr)

end Sys2Proof.Machine
end

