-- ==== Sys2Proof/Machine/Matrix.lean ====
section
/-!
DEFINITION. The matrix engine: who holds it, its modes, operand slots, the latched tile, the accumulation of `mstrm` and
`mxprod` with the fidelity tails, the accumulator's reads and writes, tile predicates (R203 to R217, R224, R229 to R237).
-/

namespace Sys2Proof.Machine

/-! The frame of a matrix instruction. -/

/-- Changes the matrix state. -/
def State.onMat (s : State) (f : Matrix → Matrix) : State := { s with act := { s.act with mat := f s.act.mat } }

/-- The instruction goes on in the middle (R216): MPEND is set, or, in a handler, where MPEND belongs to the instruction in the trap
frame (R273), the instruction keeps its point itself. -/
def State.resumed (s : State) : Bool :=
  if s.act.frame.isNone then s.act.csr.mpend else decide (0 < s.act.prog.linePos)
/-- Where a matrix instruction begins. -/
def State.matStart (s : State) : Nat :=
  if !s.resumed then 0 else if s.act.frame.isNone then s.act.csr.mstart.toNat else s.act.prog.linePos - 1

/-- The point from which the instruction goes on when it is executed again. -/
def State.matAt (s : State) (k : Nat) : State :=
  if s.act.frame.isNone then s.onCsr fun c => { c with mstart := BitVec.ofNat 32 k, mpend := true }
  else { s with act := { s.act with prog := { s.act.prog with linePos := k + 1 } } }

/-- R216: the instruction has completed. -/
def State.matDone (s : State) : State :=
  if s.act.csr.mpend && s.act.frame.isNone then s.onCsr fun c => { c with mpend := false, mstart := 0 } else s

/-- A trap of an instruction of the matrix queue at a place (R260). -/
def matTrap (c : Cause) (tval k : Nat) : Trap := { cause := c, tval := BitVec.ofNat 64 tval, at_ := .mat k, slot1 := false }
/-- A trap where the instruction begins. -/
def State.matStop (s : State) (c : Cause) (tval : Nat) : Trap := matTrap c tval s.matStart
/-- SLOT. -/
def State.slotTrap (s : State) (code : Nat) : Trap := s.matStop .slot code

/-- The strand holds the engine (R203). -/
def State.holds? (s : State) : Bool := s.act.hdr.slots != 0

/-- R203, R223: what comes before every instruction of OP 0x98 to 0xA0. -/
def State.matRes (s : State) (r : Res Unit) : Res Unit :=
  if !s.holds? then .trap (s.slotTrap 8) s
  else if s.act.mat.seq = .suspended then .trap (s.matStop .seq 2) s
  else r.bind fun _ s => .ok () s.matDone

/-- The instruction with its end. -/
def State.matOp (s : State) (r : Res Unit) : Out := (s.matRes r).fin s s.after

/-- The instruction waits at a restart point, or only stops there (R181, R216, R257). -/
def State.matWait (s : State) (k : Nat) (w : Wait) : Res Unit := .wait w (s.matAt k)

/-! Cells. -/

/-- A cell's place in a tile. -/
def cellAt (r c : Nat) : Nat := 64 * r + c
/-- A tile. -/
def State.z (s : State) (d : ZReg) : BitVec 131072 := s.act.mat.z[d.toNat]
/-- A tile's tails. -/
def State.tails (s : State) (d : ZReg) : BitVec 131072 := s.act.mat.tail[d.toNat]
/-- Which cells an integer combination wrote last (R212). -/
def State.ints (s : State) (d : ZReg) : BitVec 4096 := s.act.mat.isInt[d.toNat]
/-- A tile with its tails replaced. -/
def State.setZ (s : State) (d : ZReg) (z tail : BitVec 131072) (ints : BitVec 4096) : State :=
  s.onMat fun m => { m with z := m.z.set d.toNat z, tail := m.tail.set d.toNat tail, isInt := m.isInt.set d.toNat ints }
/-- The row cursor of a tile. -/
def State.cursor (s : State) (d : ZReg) : Nat := s.act.mat.row[d.toNat]
/-- The row cursor replaced. -/
def State.setCursor (s : State) (d : ZReg) (n : Nat) : State := s.onMat fun m => { m with row := m.row.set d.toNat n }

/-- The rows and columns of the array. -/
def State.mvl (s : State) : Nat := s.act.mat.mvl

/-- R217, R233: a merged cell, and OF and NX of its rounding; a cell that is a NaN or -0 becomes what R217's round gives (DEDUCED, log entry
72). -/
def mergeCell (isInt : Bool) (cell tail : Nat) : FRes :=
  if isInt then plainRes ((cell + tail) % 2 ^ 32)
  else
    let r := fAddV fp32 Rnd.rne (FVal.ofBits fp32 cell) (FVal.ofBits fp32 tail)
    { r with flags := r.flags &&& (flagOF ||| flagNX) }

/-- The merged cell of a tile, read as I32 or as FP32. -/
def State.merged (s : State) (int : Bool) (d : ZReg) (r c : Nat) : FRes :=
  let i := cellAt r c
  mergeCell int (lane (s.z d) 32 i) (lane (s.tails d) 32 i)

/-! Modes and slots (R206 to R210). -/

def execMsmode (op : Bool) (code : BitVec 2) (_ : Ctl) (s : State) : Out :=
  let m := 8 * 2 ^ code.toNat
  if m = 64 ∧ !isMill s.act.core then (Res.trap s.illegal s : Res Unit).fin s s.after
  else
    s.matOp (.ok () (s.onMat fun x => x.setMode op m))

/-- The slots of a core (R207). -/
def slotsOf (core : Nat) : Nat := if isMill core then 32 else 16

/-- R208: the lowest run of n FREE slots. -/
def State.freeRun (s : State) (n : Nat) : Option Nat :=
  (List.range (slotsOf s.act.core + 1 - n)).find? fun f =>
    (List.range n).all fun i => (s.act.mat.slots.get? (f + i)).isNone

/-- A slot replaced. -/
def State.setSlot (s : State) (k : Nat) (x : OpSlot) : State := s.onMat fun m => { m with slots := NMap.set k x m.slots }

def execMclaim (d : Reg) (n : BitVec 6) (_ : Ctl) (s : State) : Out :=
  let n := n.toNat
  s.matOp (
    if slotsOf s.act.core < n then .trap (s.slotTrap 2) s
    else if s.act.hdr.slots < s.act.mat.slots.length + n then .trap (s.slotTrap 1) s
    else
      match s.freeRun n with
      | none => .trap (s.slotTrap 1) s
      | some f =>
        .ok () (((List.range n).foldl (fun s i => s.setSlot (f + i) { st := .empty, run := f, image := 0, poison := [] }) s).setG d
          (BitVec.ofNat 64 f)))

/-- A slot number of the class's count or above names no slot: it is taken as a FREE one (DESIGN CHOICE, log entry 56). -/
def execMrel (a : Reg) (_ : Ctl) (s : State) : Out :=
  let k := (s.g a).toNat
  s.matOp (
    match s.act.mat.slots.get? k with
    | none => .trap (s.slotTrap 4) s
    | some x =>
      if x.run ≠ k then .trap (s.slotTrap 3) s
      else .ok () (s.onMat fun m => { m with slots := m.slots.filter fun y => y.2.run != k }))

/-- The bytes of a line put into an image. -/
def putImage (x : BitVec 66048) (off : Nat) (bs : List Byte) : BitVec 66048 :=
  bs.zipIdx.foldl (fun x b => setLane x 8 (off + b.2) b.1.toNat) x

/-- A line copied into a slot: its bytes, and with them their granules, which hold no mark (R209, R420). -/
def OpSlot.put (x : OpSlot) (off : Nat) (bs : List Byte) : OpSlot :=
  { x with
    image := putImage x.image off bs
    poison := x.poison.filter fun g => decide (g < off / 16) || decide ((off + bs.length) / 16 ≤ g) }

/-- Lines of a slot image copied from byte `off` on, `n` lines being left (R209). -/
def State.fillSlot (k base : Nat) : Nat → Nat → OpSlot → State → Res Unit
  | 0, _, x, s => .ok () (s.setSlot k { x with st := .filled })
  | n + 1, off, x, s =>
    if 8256 ≤ off then .ok () (s.setSlot k { x with st := .filled })
    else
      let m := min (128 - off % 128) (8256 - off)
      let va := (base + off) % 2 ^ 64
      match s.take with
      | none => (s.setSlot k x).matWait off .pause
      | some s =>
        match s.elemRead .read va m 1 .plain false with
        | (.bad c _, s) => .trap (matTrap c va off) (s.setSlot k x)
        | (.stall w, s) => (s.setSlot k x).matWait off w
        | (.ok bs, s) => State.fillSlot k base n (off + m) (x.put off bs) s

/-- R207, R209: `mlds`. A slot number of the class's count or above is taken as a FREE slot's (log entry 56). -/
def State.mlds (s : State) (a b : Reg) : Res Unit :=
  let k := (s.g a).toNat
  let base := (s.g b).toNat
  match s.act.mat.slots.get? k with
  | none => .trap (s.slotTrap 4) s
  | some x =>
    if base % 128 ≠ 0 then .trap (s.matStop .align base) s
    else State.fillSlot k base 66 (if x.st = .loading then s.matStart else 0) { x with st := .loading } s

def execMlds (a b : Reg) (_ : Ctl) (s : State) : Out := s.matOp (s.mlds a b)

/-- R210: `mldw`. A slot number of the class's count or above is taken as a FREE slot's (log entry 56); a mark in the slot's
contents gives POISON, whose `tval` no rule gives (R420, log entry 61). -/
def State.mldw (s : State) (a : Reg) (fs : FmtSpec) : Res Unit :=
  if fs.fmt ≠ .np ∧ fs.fmt ≠ .bf16 ∧ fs.fmt ≠ .fp16 ∧ fs.fmt ≠ .i8 then .trap s.typeCombo s
  else if !s.holds? then .trap (s.slotTrap 8) s
  else if s.act.mat.op then .trap (s.slotTrap 6) s
  else
    match s.act.mat.slots.get? (s.g a).toNat with
    | none => .trap (s.slotTrap 4) s
    | some x =>
      if x.st ≠ .filled then .trap (s.slotTrap 5) s
      else if !x.poison.isEmpty then let (n, s) := s.draw (2 ^ 64); .trap (s.matStop .poison n) s
      else .ok () (s.onMat fun m => { m with latch := some { fs := fs, image := x.image }, row := Vector.replicate 4 0 })

/-- TYPECOMBO is found at decode, before the checks of the queue. -/
def Res.decodeFirst (r : Res Unit) (k : Res Unit) : Res Unit :=
  match r with
  | .trap t s => if t.cause = .typeCombo ∨ t.cause = .illegal then .trap t s else k
  | _ => k

def execMldw (a : Reg) (fs : FmtSpec) (_ : Ctl) (s : State) : Out :=
  ((s.mldw a fs).decodeFirst (s.matRes (s.mldw a fs))).fin s s.after

/-! Operands. -/

/-- An operand of a product: its value, and for an NP or integer element its integer and block exponent. -/
structure MElem where
  v : FVal
  i : Int
  e : Nat
deriving DecidableEq, Repr

/-- An NP element read with k planes; NaN where its block is. -/
def npElem (k : Nat) (i : Int) (e : Nat) (ok : Bool) : MElem :=
  let d := npVal k i e
  { v := if e = 0xFF ∨ !ok then .nan false else .fin (decide (d.m < 0)) d.m.natAbs d.e, i := i, e := e }

/-- An element of an integer or a float format. -/
def plainElem (f : Fmt) (b : Nat) : MElem :=
  match floatOf f with
  | some q => { v := FVal.ofBits q b, i := 0, e := 0 }
  | none => { v := .fin false 0 0, i := intOf f b, e := 0 }

/-- R210: T[k][n] of the latched tile. -/
def Latch.elem (t : Latch) (mvl k n : Nat) : MElem :=
  if t.fs.fmt = .np then
    let np := t.fs.nm1.toNat + 1
    let kp := t.fs.km1.toNat + 1
    let b := k / 8 * (mvl / 8) + n / 8
    let x := 64 * (b % 16) + 8 * (k % 8) + n % 8
    let strip := b / 16
    let bits := (List.range np).foldl (fun acc q =>
      2 * acc + (if t.image.getLsbD (8 * (128 * (strip * np + q)) + x) then 1 else 0)) 0
    npElem kp (npRead np kp t.fs.rhu (signedOf np bits)) (lane t.image 8 (8192 + 16 * strip + b % 16)) true
  else plainElem t.fs.fmt (lane t.image (fmtWidth t.fs.fmt) (k * mvl + n))

/-- Element i of a vector source (R39, R40). -/
def State.srcM (s : State) (r : Reg) (i : Nat) : MElem :=
  if s.fmt = .np then
    npElem s.npk (signedOf s.npk (lane (s.v r) 16 i)) (lane (s.v (r + 1)) 8 (i / 64)) ((s.vok r).getLsbD (i / 64))
  else plainElem s.fmt (lane (s.v r) s.sew i)

/-! One chunk of one cell (R212, R231). -/

/-- An exact product of finite values. -/
def prodDy (p : MElem × MElem) : Dy := p.1.v.dy.mul p.2.v.dy
/-- An exact sum. -/
def sumDy (l : List Dy) : Dy := l.foldl Dy.add Dy.zero

/-- 0 × ∞. -/
def invalidProd (p : MElem × MElem) : Bool := (p.1.v.isInf && p.2.v.isZero) || (p.1.v.isZero && p.2.v.isInf)

/-- R212: the cell after a chunk, `hi` being the part of its exact sum that goes to the cell. -/
def chunkCell (cell : Nat) (l : List (MElem × MElem)) (hi : Dy) : FRes :=
  let z := FVal.ofBits fp32 cell
  let inv := l.any invalidProd
  let nan := z.isNaN || inv || l.any fun p => p.1.v.isNaN || p.2.v.isNaN
  let infs := (if z.isInf then [z.isNeg] else []) ++
    (l.filter fun p => p.1.v.isInf || p.2.v.isInf).map fun p => p.1.v.isNeg != p.2.v.isNeg
  if nan then FRes.nan fp32 (inv || z.isSNaN || l.any fun p => p.1.v.isSNaN || p.2.v.isSNaN)
  else
    match infs with
    | [] => roundDy fp32 Rnd.rne false (z.dy.add hi)
    | n :: r => if r.all (· == n) then { bits := fp32.signed n fp32.infBits, flags := 0 } else FRes.nan fp32 true

/-- Bit i of a two's-complement integer. -/
def intBit (x : Int) (i : Nat) : Bool := x / (2 ^ i : Nat) % 2 = 1

/-- R229: the sum of the partial products of significance below s of I_k and I_j. -/
def lowPart (k j s : Nat) (a b : Int) : Int :=
  (List.range k).foldl (fun acc i =>
    (List.range j).foldl (fun acc i' =>
      if i + i' < s ∧ intBit a i ∧ intBit b i' then
        acc + (if (i = k - 1) != (i' = j - 1) then -(2 ^ (i + i') : Nat) else (2 ^ (i + i') : Nat) : Int)
      else acc) acc) 0

/-- The power of two of a product's units (R229). -/
def unitExp (k j : Nat) (p : MElem × MElem) : Int := (p.1.e : Int) + p.2.e - 254 - ((k : Int) - 1) - ((j : Int) - 1)

/-- Pairs of block exponents in a chunk. -/
def expPairs (l : List (MElem × MElem)) : List (Nat × Nat) := (l.map fun p => (p.1.e, p.2.e)).eraseDups

/-- R234: band b holds significances below the cut s. -/
def bandThere (s b : Nat) : Bool := decide ((match b with | 0 => 1 | 1 => 3 | 2 => 5 | _ => 9) ≤ s)

/-- A free integer. -/
def freeInt (n : Nat) : Int :=
  let x := Config.free n
  if x % 2 = 0 then (x / 2 : Nat) else -((x / 2 + 1 : Nat) : Int)

/-- What the low rail adds to a band's integer sums in a chunk, by exponent pair and band: free values from `base` on (log
entry 22). -/
def railErrors (s base : Nat) (l : List (MElem × MElem)) : List ((Nat × Nat) × Nat × Int) :=
  (expPairs l).zipIdx.flatMap fun p =>
    ((List.range 4).filter (bandThere s)).map fun b => (p.1, b, freeInt (base + 4 * p.2 + b))

/-- R231: the tail after a chunk. -/
def chunkTail (k j s : Nat) (tail : Nat) (l : List (MElem × MElem)) (errs : List ((Nat × Nat) × Nat × Int)) : Nat :=
  let lo := sumDy (l.map fun p => { m := lowPart k j s p.1.i p.2.i, e := unitExp k j p })
  let top := sumDy (l.map fun p => { m := ((s : Int) - 1) * (2 ^ s : Nat) + 1, e := unitExp k j p })
  let t := lo.add (sumDy (errs.map fun x =>
    { m := x.2.2, e := (x.1.1 : Int) + x.1.2 - 254 - ((k : Int) - 1) - ((j : Int) - 1) }))
  let t := if top.lt t then top else if t.lt top.neg then top.neg else t
  let r := roundDy fp32 Rnd.rne false ((FVal.ofBits fp32 tail).dy.add t)
  if (FVal.ofBits fp32 r.bits).isInf then fp32.signed (FVal.ofBits fp32 r.bits).isNeg fp32.maxBits else r.bits

/-! Accumulation. -/

/-- One chunk of one cell: the cell's place and its products. -/
structure MJob where
  cell : Nat
  prods : List (MElem × MElem)
deriving DecidableEq, Repr

/-- How products are formed: as integers; the planes of each side; the cut, 0 where no product lies in the tail; the draws
set apart for a chunk. -/
structure MKind where
  int : Bool
  np : Bool
  k : Nat
  j : Nat
  cut : Nat
  draws : Nat
deriving DecidableEq, Repr

/-- A tile while it accumulates: cells, tails, integer marks, flags, errors by band, chunks done. -/
structure MAcc where
  z : BitVec 131072
  tail : BitVec 131072
  ints : BitVec 4096
  flags : FFlags
  errs : List Nat
  n : Nat
deriving DecidableEq, Repr

/-- Errors added by band (R234). -/
def countErrs (errs : List Nat) (l : List ((Nat × Nat) × Nat × Int)) : List Nat :=
  errs.zipIdx.map fun x => x.1 + (l.filter fun y => y.2.1 == x.2 && y.2.2 % 4095 != 0).length

/-- One chunk of one cell added. -/
def MAcc.add (base : Nat) (q : MKind) (a : MAcc) (jb : MJob) : MAcc :=
  let cell := lane a.z 32 jb.cell
  if q.int then
    let sum := jb.prods.foldl (fun acc p => acc + p.1.i * p.2.i) (0 : Int)
    { a with z := setLane a.z 32 jb.cell (bitsOf 32 ((cell : Int) + sum)), ints := a.ints ||| (1#4096 <<< jb.cell), n := a.n + 1 }
  else
    let all := sumDy (jb.prods.map prodDy)
    let hi := if q.cut = 0 then all else
      all.add (sumDy (jb.prods.map fun p => { m := -(lowPart q.k q.j q.cut p.1.i p.2.i), e := unitExp q.k q.j p }))
    let r := chunkCell cell jb.prods hi
    let nan := (FVal.ofBits fp32 r.bits).isNaN
    let errs := if q.cut = 0 then [] else railErrors q.cut (base + q.draws * a.n) jb.prods
    let tail := lane a.tail 32 jb.cell
    { z := setLane a.z 32 jb.cell r.bits
      tail := if nan then setLane a.tail 32 jb.cell 0
        else if q.cut = 0 then a.tail else setLane a.tail 32 jb.cell (chunkTail q.k q.j q.cut tail jb.prods errs)
      ints := a.ints &&& ~~~(1#4096 <<< jb.cell), flags := a.flags ||| r.flags, errs := countErrs a.errs errs, n := a.n + 1 }

/-- R230: H(f). -/
def cutBelow (f : BitVec 3) : Nat := match f.toNat with | 1 => 12 | 2 => 10 | n => 12 - n
/-- The floor step of the low rail (R230). -/
def railFloor (f : BitVec 3) : Nat := match f.toNat with | 0 => 0 | 1 => 13 | n => 14 - n

/-- R230: the cut. -/
def State.cut (s : State) (np : Bool) (k j : Nat) : Nat :=
  let f := s.act.csr.fidHdr
  if !np ∨ s.act.csr.reproEn ∨ f = 0 then 0 else k + j - 2 - cutBelow f

/-- R212: positions of a chunk. -/
def State.chunk (s : State) : Nat := if s.act.csr.reproEn then 32 else if isMill s.act.core then 8 else 4

/-- EBUD of the kernel whose strand holds the engine of a core (R203, R236). -/
def State.ebud? (s : State) (core : Nat) : Option Nat :=
  (s.strands.find? fun a => a.onCore && a.core == core && a.hdr.slots != 0).map (·.hdr.ebud)

/-- R236 at a chunk boundary: where the window count has passed EBUD the step is raised and the count begins again; at step 15
FIDSAT is raised, once for a window (log entry 33). -/
def State.railCheck (s : State) (core : Nat) : State :=
  let c := s.core core
  match s.ebud? core with
  | none => s
  | some e =>
    if c.railCount ≤ e then s
    else if c.railStep < 15 then s.onCore core fun c => { c with railStep := c.railStep + 1, railCount := 0 }
    else if c.fidSat then s
    else (s.onCore core fun c => { c with fidSat := true }).event (.fidSat core)

/-- R235, R236: errors of a chunk counted in the core's counters, its rail window and the node. -/
def State.countRail (s : State) (errs : List Nat) : State :=
  let total := errs.foldl (· + ·) 0
  if total = 0 then s
  else
    let s := s.onCore s.act.core fun c => { c with
      ecnt := Vector.ofFn fun i => BitVec.ofNat 32 (min (c.ecnt[i].toNat + errs.getD i.val 0) (2 ^ 32 - 1))
      railCount := c.railCount + total }
    (s.onNode s.act.node fun x => { x with errs := x.errs + total }).railCheck s.act.core

/-- R236: the first NP × NP chunk under a kernel of another FID; FID 0 has no floor, and the step stays (log entry 33). -/
def State.railHand (s : State) (np : Bool) : State :=
  if np && (s.core s.act.core).railNew then
    s.onCore s.act.core fun c => { c with
      railNew := false, railStep := if c.railFid = 0 then c.railStep else railFloor c.railFid }
  else s

/-- A chunk's jobs added to a tile in order, with what else their errors touch. -/
def State.accumulate (s : State) (d : ZReg) (q : MKind) (jobs : List MJob) : State :=
  if jobs.isEmpty then s
  else
    let a := jobs.foldl (MAcc.add s.freeCount q)
      { z := s.z d, tail := s.tails d, ints := s.ints d, flags := 0, errs := [0, 0, 0, 0], n := 0 }
    let s := ((s.railHand q.np).setZ d a.z a.tail a.ints).raise a.flags
    if q.cut = 0 then s else ({ s with freeCount := s.freeCount + q.draws * jobs.length }).countRail a.errs

/-- Chunks added to a tile in order (R212, R231). -/
def State.accumulateAll (s : State) (d : ZReg) (q : MKind) (chunks : List (List MJob)) : State :=
  chunks.foldl (fun s jobs => s.accumulate d q jobs) s

/-- The starts of the chunks of n positions. -/
def chunksOf (n c : Nat) : List Nat := (List.range ((n + c - 1) / c)).map (· * c)

/-- The combinations of weight and stream of R211. -/
def wsCombo (w x : Fmt) : Bool :=
  match w with
  | .np => x == .np || x == .bf16 || x == .fp16
  | .bf16 => x == .bf16
  | .fp16 => x == .fp16
  | .i8 => x == .i8
  | _ => false

/-- A trap of a source of a matrix instruction is the instruction's, at a place (R260). -/
def Res.atMat {α : Type} (r : Res α) (k : Nat) : Res α :=
  match r with
  | .trap t s => .trap { t with at_ := .mat k } s
  | r => r

/-- The chunks of `n` positions in pieces of `c` each, the first position being `base`. -/
def segsOf (base n c : Nat) : List (Nat × Nat) := (chunksOf n c).map fun k => (base + k, min c (n - k))

/-- What is left of chunks, each a first position and a count, from a position on (R216). -/
def segsFrom (start : Nat) (l : List (Nat × Nat)) : List (Nat × Nat) :=
  l.filterMap fun x => if x.1 + x.2 ≤ start then none else some (max x.1 start, x.1 + x.2 - max x.1 start)

/-- As many of a list as the instruction may do before it stops (R216, R257). -/
def State.takes {α : Type} (s : State) : List α → List α × State
  | [] => ([], s)
  | x :: r =>
    match s.take with
    | none => ([], s)
    | some s => let y := s.takes r; (x :: y.1, y.2)

/-- A matrix instruction that reads vector sources: it reads them whole, does the chunks of `segs` in order, each `unit` source
elements to a position, and stops at the chunk that holds a fault, or where it is to stop (R215, R216). -/
def State.matStream (s : State) (reqs : List SReq) (unit : Nat) (segs : List (Nat × Nat)) (run : List (Nat × Nat) → State → State) :
    Res Unit :=
  let start := s.matStart
  ((State.deliverAll (fun _ => true) [] reqs s).atMat start).bind fun p s =>
    let left := segsFrom start segs
    let good := match p.1 with
      | none => left
      | some f => left.takeWhile fun x => decide ((x.1 + x.2) * unit ≤ f.elem)
    let (todo, s) := s.takes good
    let s := run todo s
    let point := ((left.drop todo.length).head?.map (·.1)).getD start
    if todo.length < good.length then s.matWait point .pause
    else
      match p.1 with
      | none => .ok () (s.advance p.2)
      | some f => .trap (matTrap f.cause f.va point) s

/-- R213: `mstrm`. -/
def State.mstrm (s : State) (d : ZReg) (a : Reg) (fs : FmtSpec) : Res Unit :=
  let m := s.mvl
  let combo := match s.act.mat.latch with
    | some t => wsCombo t.fs.fmt fs.fmt
    | none => wsCombo .np fs.fmt || fs.fmt == .i8
  if fs.fmt = .np ∧ s.fmt = .np ∧ 30 < a then .trap s.illegal s
  else if fs.fmt ≠ s.fmt ∨ (fs.fmt = .np ∧ fs.km1.toNat + 1 ≠ s.npk) ∨ !combo ∨ s.vl % m ≠ 0 then .trap s.typeCombo s
  else if !s.holds? then .trap (s.slotTrap 8) s
  else if s.vl = 0 then .ok () s
  else if s.act.mat.op then .trap (s.slotTrap 6) s
  else
    match s.act.mat.latch with
    | none => .trap (s.slotTrap 7) s
    | some t =>
      let rows := s.vl / m
      let rc := s.cursor d
      let np := t.fs.fmt == .np && fs.fmt == .np
      let q : MKind := { int := fs.fmt == .i8, np := np, k := t.fs.km1.toNat + 1, j := s.npk
                         cut := s.cut np (t.fs.km1.toNat + 1) s.npk, draws := 4 * s.chunk }
      (s.matStream [s.req a] 1 ((List.range rows).flatMap fun r => segsOf (r * m) m s.chunk) fun todo s =>
        s.accumulateAll d q (todo.map fun x => (List.range m).map fun n =>
          { cell := cellAt ((rc + x.1 / m) % m) n
            prods := (List.range x.2).map fun i => (t.elem m (x.1 % m + i) n, s.srcM a (x.1 + i)) : MJob })).bind fun _ s =>
        .ok () (s.setCursor d ((rc + rows) % m))

def execMstrm (d : ZReg) (a : Reg) (fs : FmtSpec) (_ : Ctl) (s : State) : Out :=
  ((s.mstrm d a fs).decodeFirst (s.matRes (s.mstrm d a fs))).fin s s.after

/-- R214: `mxprod`. -/
def State.mxprod (s : State) (d : ZReg) (a b : Reg) : Res Unit :=
  let m := s.mvl
  if s.fmt = .np ∧ (30 < a ∨ 30 < b) then .trap s.illegal s
  else if !fmtIn false true true false s.fmt && s.fmt != .i8 || s.vl % m != 0 then .trap s.typeCombo s
  else if !s.holds? then .trap (s.slotTrap 8) s
  else if s.vl = 0 then .ok () s
  else if !s.act.mat.op then .trap (s.slotTrap 6) s
  else
    let np := s.fmt == .np
    let q : MKind := { int := s.fmt == .i8, np := np, k := s.npk, j := s.npk, cut := s.cut np s.npk s.npk, draws := 4 * s.chunk }
    s.matStream [s.req a, s.req b] m (segsOf 0 (s.vl / m) s.chunk) fun todo s =>
      s.accumulateAll d q (todo.map fun x => (List.range m).flatMap fun i => (List.range m).map fun j =>
        { cell := cellAt i j
          prods := (List.range x.2).map fun r => (s.srcM a ((x.1 + r) * m + i), s.srcM b ((x.1 + r) * m + j)) : MJob })

def execMxprod (d : ZReg) (a b : Reg) (_ : Ctl) (s : State) : Out :=
  ((s.mxprod d a b).decodeFirst (s.matRes (s.mxprod d a b))).fin s s.after

/-! The accumulator (R217). -/

/-- `mzero`. -/
def State.mzero (s : State) (d : ZReg) : Res Unit := .ok () ((s.setZ d 0 0 0).setCursor d 0)
def execMzero (d : ZReg) (_ : Ctl) (s : State) : Out := s.matOp (s.mzero d)

/-- A form with a `v` register: FP32 or I32, and no destination bound to a stream. -/
def State.zvOp (s : State) (dsts : List Reg) (r : Res Unit) : Out :=
  (if s.fmt ≠ .fp32 ∧ s.fmt ≠ .i32 then .trap s.typeCombo s
   else s.matRes (if dsts.any fun d => (s.act.streams.get? d.toNat).isSome then .trap (s.matStop .stream 2) s else r)).fin s s.after

/-- Elements 0 to L − 1 of vD written from a function of the element. -/
def State.putRow (s : State) (d : Reg) (f : Nat → FRes) : State :=
  (s.fill d 32 (List.range (min s.vl s.mvl)) f).okSet d 32

def execMrdzSplit (d : Reg) (a : ZReg) (b : Reg) (_ : Ctl) (s : State) : Out :=
  let i := (s.g b).toNat
  let get (x : BitVec 131072) (n : Nat) : FRes := plainRes (if s.mvl ≤ i then 0 else lane x 32 (cellAt i n))
  if 30 < d then (Res.trap s.illegal s : Res Unit).fin s s.after
  else s.zvOp [d, d + 1] (.ok () ((s.putRow d (get (s.z a))).putRow (d + 1) (get (s.tails a))))

def execMrdzMerge (d : Reg) (a : ZReg) (b : Reg) (_ : Ctl) (s : State) : Out :=
  let i := (s.g b).toNat
  s.zvOp [d] (.ok () (s.putRow d fun n => if s.mvl ≤ i then plainRes 0 else s.merged (s.fmt == .i32) a i n))

def execMwrz (d : ZReg) (a b : Reg) (_ : Ctl) (s : State) : Out :=
  let i := (s.g b).toNat
  s.zvOp [] (((State.deliverAll (fun _ => true) [] [s.req a] s).atMat s.matStart).bind fun p s =>
    match p.1 with
    | some f => .trap (matTrap f.cause f.va 0) s
    | none =>
      if s.mvl ≤ i then .ok () (s.advance p.2)
      else
        let l := (List.range (min s.vl s.mvl)).map fun n => (cellAt i n, lane (s.v a) 32 n)
        let z := l.foldl (fun z x => setLane z 32 x.1 x.2) (s.z d)
        let t := l.foldl (fun z x => setLane z 32 x.1 0) (s.tails d)
        let k := l.foldl (fun (z : BitVec 4096) x => if s.fmt = .i32 then z ||| (1#4096 <<< x.1) else z &&& ~~~(1#4096 <<< x.1)) (s.ints d)
        .ok () ((s.setZ d z t k).advance p.2))

def execMcol (d : Reg) (a : ZReg) (b : Reg) (_ : Ctl) (s : State) : Out :=
  let i := (s.g b).toNat
  s.zvOp [d] (.ok () (s.putRow d fun r => if s.mvl ≤ i then plainRes 0 else s.merged (s.fmt == .i32) a r i))

/-- Cells of an m × m tile moved to their transposed places. -/
def transposed (m : Nat) (x : BitVec 131072) : BitVec 131072 :=
  (List.range (m * m)).foldl (fun z n => setLane z 32 (cellAt (n / m) (n % m)) (lane x 32 (cellAt (n % m) (n / m)))) 0

/-- Marks of an m × m tile moved to their transposed places. -/
def transposedMarks (m : Nat) (x : BitVec 4096) : BitVec 4096 :=
  (List.range (m * m)).foldl (fun z n => if x.getLsbD (cellAt (n % m) (n / m)) then z ||| (1#4096 <<< cellAt (n / m) (n % m)) else z) 0

/-- `mtrs`. -/
def State.mtrs (s : State) (d a : ZReg) : Res Unit :=
  let m := s.mvl
  .ok () ((s.setZ d (transposed m (s.z a)) (transposed m (s.tails a)) (transposedMarks m (s.ints a))).setCursor d 0)
def execMtrs (d a : ZReg) (_ : Ctl) (s : State) : Out := s.matOp (s.mtrs d a)

/-! Tile predicates (R224). -/

/-- A `k` register replaced. -/
def State.setK (s : State) (d : KReg) (x : BitVec 256) : State := s.onMat fun m => { m with k := m.k.set d.toNat x }
/-- A `k` register. -/
def State.kr (s : State) (d : KReg) : BitVec 256 := s.act.mat.k[d.toNat]

def execKset (d : KReg) (a : Reg) (_ : Ctl) (s : State) : Out :=
  s.matOp (.ok () (s.setK d (s.kr d ||| (1#256 <<< ((s.g a).toNat % 256)))))
def execKclr (d : KReg) (a : Reg) (_ : Ctl) (s : State) : Out :=
  s.matOp (.ok () (s.setK d (s.kr d &&& ~~~(1#256 <<< ((s.g a).toNat % 256)))))
def execKld (d : KReg) (a : Reg) (_ : Ctl) (s : State) : Out :=
  let va := (s.g a).toNat
  s.matOp (
    match s.elemRead .read va 32 32 .plain false with
    | (.bad c _, s) => .trap (s.matStop c va) s
    | (.stall w, s) => .wait w s
    | (.ok bs, s) => .ok () (s.setK d (BitVec.ofNat 256 (leNat bs))))
def execKtst (d : Reg) (a : KReg) (b : Reg) (_ : Ctl) (s : State) : Out :=
  s.matOp (.ok () (s.setG d (if (s.kr a).getLsbD ((s.g b).toNat % 256) then 1 else 0)))

end Sys2Proof.Machine
end

