-- ==== Sys2Proof/Machine/Memory.lean ====
section
/-!
DEFINITION. Loads, stores, full-empty bits, atomics, fences, stashes, streams and `vcapp` of OP 0x70 to 0x80
(08_memory_access.md).
-/

namespace Sys2Proof.Machine

/-! Scalar loads and stores (R175). -/

/-- gD ← the bytes at gA + offset, sign-extended where `signed`. -/
def State.loadTo (s : State) (d a : Reg) (off : BitVec 13) (fq : Feq) (n : Nat) (sgn : Bool) : Out :=
  ((s.load (s.ea a off) n fq).bind fun x s =>
    .ok () (s.setG d (if sgn then BitVec.ofInt 64 (signedOf (8 * n) x) else BitVec.ofNat 64 x))).fin s s.after

/-- The low bytes of gA written at gB + offset. -/
def State.storeFrom (s : State) (a b : Reg) (off : BitVec 13) (fq : Feq) (n : Nat) : Out :=
  (s.store (s.ea b off) n (s.g a).toNat fq).fin s s.after

def execLd8 (d a : Reg) (off : BitVec 13) (fq : Feq) (_ : Ctl) (s : State) : Out := s.loadTo d a off fq 1 true
def execLd16 (d a : Reg) (off : BitVec 13) (fq : Feq) (_ : Ctl) (s : State) : Out := s.loadTo d a off fq 2 true
def execLd32 (d a : Reg) (off : BitVec 13) (fq : Feq) (_ : Ctl) (s : State) : Out := s.loadTo d a off fq 4 true
def execLd64 (d a : Reg) (off : BitVec 13) (fq : Feq) (_ : Ctl) (s : State) : Out := s.loadTo d a off fq 8 true
def execLdz8 (d a : Reg) (off : BitVec 13) (fq : Feq) (_ : Ctl) (s : State) : Out := s.loadTo d a off fq 1 false
def execLdz16 (d a : Reg) (off : BitVec 13) (fq : Feq) (_ : Ctl) (s : State) : Out := s.loadTo d a off fq 2 false
def execLdz32 (d a : Reg) (off : BitVec 13) (fq : Feq) (_ : Ctl) (s : State) : Out := s.loadTo d a off fq 4 false
def execSt8 (a b : Reg) (off : BitVec 13) (fq : Feq) (_ : Ctl) (s : State) : Out := s.storeFrom a b off fq 1
def execSt16 (a b : Reg) (off : BitVec 13) (fq : Feq) (_ : Ctl) (s : State) : Out := s.storeFrom a b off fq 2
def execSt32 (a b : Reg) (off : BitVec 13) (fq : Feq) (_ : Ctl) (s : State) : Out := s.storeFrom a b off fq 4
def execSt64 (a b : Reg) (off : BitVec 13) (fq : Feq) (_ : Ctl) (s : State) : Out := s.storeFrom a b off fq 8

/-! Vector loads (R176, R178). -/

/-- Elements of `vtype` loaded from the addresses that a function gives. -/
def State.loadElems (s : State) (d : Reg) (fq : Feq) (addr : State → Nat → Word) (l : List Nat) : Res Unit :=
  let w := s.sew
  let va (i : Nat) : Nat := (addr s i).toNat
  (eachRun (inRun fun i s =>
    Get.fin (s.elemRead .read (va i) (w / 8) (w / 8) fq true) true i fun bs s =>
      .ok () ((s.moved fq i).setV d (setLane (s.v d) w i (leNat bs)))) (s.runs fq va (w / 8) l) s).bind fun _ s => .ok () (s.okSet d w)

/-- R178: one block's integers, exponent and validity put into vD and vD + 1. -/
def State.putNp (s : State) (d : Reg) (j : Nat) (l : List Nat) (x : NpBytes) (n k : Nat) (rhu : Bool) : State :=
  let v := l.foldl (fun v i => setLane v 16 i (bitsOf 16 (npRead n k rhu (x.int n (i % 64))))) (s.v d)
  let s := (s.setV d v).putExp (d + 1) j x.exp.toNat
  let bit := 1#16 <<< j
  s.setVok d (if x.exp = 0xFF then s.vok d &&& ~~~bit else s.vok d ||| bit)

/-- R178: the blocks of an NP load; it stops before an active element (R258). -/
def State.loadBlocks (t : NpT) (d : Reg) (fq : Feq) (k : Nat) (rhu : Bool) (act : List Nat) : List Nat → State → Res Unit
  | [], s => .ok () s
  | j :: r, s =>
    let get : ByteGet := fun s va n => s.elemRead .read va n n fq true
    s.upTo (inBlock act j) (fun l s =>
      match s.npFetch .read get t j (npNeed t.n k rhu) with
      | (.ok x, s) => .ok () (s.putNp d j l x t.n k rhu)
      | (.bad c va, s) => s.elemFault true c (t.faultVa j va) l
      | (.stall w, s) => s.waitAt (l.headD 0) w) fun s => State.loadBlocks t d fq k rhu act r s

/-- R177, R178: an NP load of its active elements. -/
def State.loadNp (s : State) (d : Reg) (ea : Nat) (fq : Feq) (k : Nat) (rhu : Bool) (l : List Nat) : Res Unit :=
  match s.npOpen s.act.core s.act.part ea with
  | (.error f, s) => if s.vl = 0 then .ok () s else s.npFault true f ea l
  | (.ok t, s) => State.loadBlocks t d fq k rhu l (blocksOf s.vl l) s

/-- The plane count of an NP access: K, or `vtype`.NP where K = 0. -/
def State.planes (s : State) (k : BitVec 5) : Nat := if k = 0 then s.npk else k.toNat

/-- R90: the format suits an access with these K and RHU fields; NP only where `np`. -/
def State.accessOk (s : State) (np : Bool) (k : BitVec 5) (rhu : Bool) : Bool :=
  if s.fmt = .np then np else k == 0 && !rhu

/-- The frame of a vector load. -/
def State.vload (s : State) (t : Ctl) (np : Bool) (d : Reg) (more : List Reg) (k : BitVec 5) (rhu : Bool)
    (body : List Nat → State → Res Unit) : Out :=
  let isNp := s.fmt == .np
  s.vecOp t { legal := !(np && isNp) || decide (d ≤ 30), typeOk := s.accessOk np k rhu, srcs := more.map s.req
              dsts := if isNp then [d, d + 1] else [d], reads := .elems } s.after body

/-- The address of element i in unit stride. -/
def unitAddr (base : Word) (w i : Nat) : Word := base + BitVec.ofNat 64 (i * (w / 8))
/-- The address of element i with a byte stride. -/
def strideAddr (base stride : Word) (i : Nat) : Word := base + BitVec.ofNat 64 i * stride
/-- The address of element i by an index sign-extended from w bits. -/
def indexAddr (base : Word) (w x : Nat) : Word := base + BitVec.ofInt 64 (signedOf w x)

def execVld (d a : Reg) (off : BitVec 13) (fq : Feq) (k : BitVec 5) (rhu : Bool) (t : Ctl) (s : State) : Out :=
  s.vload t true d [] k rhu fun l s =>
    let base := s.g a + off.signExtend 64
    if s.fmt = .np then s.loadNp d base.toNat fq (s.planes k) rhu l
    else s.loadElems d fq (fun s i => unitAddr base s.sew i) l

def execVlds (d a b : Reg) (fq : Feq) (k : BitVec 5) (rhu : Bool) (t : Ctl) (s : State) : Out :=
  s.vload t false d [] k rhu fun l s => s.loadElems d fq (fun s i => strideAddr (s.g a) (s.g b) i) l

def execVldx (d a b : Reg) (fq : Feq) (k : BitVec 5) (rhu : Bool) (t : Ctl) (s : State) : Out :=
  s.vload t false d [b] k rhu fun l s => s.loadElems d fq (fun s i => indexAddr (s.g a) s.sew (lane (s.v b) s.sew i)) l

/-! Vector stores (R156, R176, R179, R183, R184, R422). -/

/-- A store goes into the window of the innermost level (R156). -/
def State.windowed (s : State) (fq : Feq) : Bool := !s.act.arms.isEmpty && fq == .plain

/-- R157: a windowed store is counted before it executes. -/
def State.counting (s : State) (win : Bool) (k : State → Res Unit) : Res Unit :=
  if win then
    match s.countStore with
    | none => .trap (Trap.posted .armWin 64 s.act.csr.vstart.toNat) s
    | some s => (k s).bind fun _ s => .ok () s.storeDone
  else k s

/-- Elements of `vtype` stored to the addresses that a function gives. -/
def State.storeElems (s : State) (a : Reg) (fq : Feq) (addr : State → Nat → Word) (l : List Nat) : Res Unit :=
  let w := s.sew
  let va (i : Nat) : Nat := (addr s i).toNat
  let data (i : Nat) : List Byte := leBytes (w / 8) (lane (s.v a) w i)
  let win := s.windowed fq
  s.counting win fun s =>
    if win then
      eachRun (inRun fun i s => Get.fin (s.elemEnter (va i) (w / 8) (data i) [i] none) true i fun _ s => .ok () s)
        (s.runs fq va (w / 8) l) s
    else s.writeRuns fq va (w / 8) data l

/-- R41, R183: blocks are halved while an element lies outside n bits; `fuel` bounds the exponent's range. -/
def renorm (n : Nat) : Nat → List Int → Nat → List Int × Nat × FFlags
  | 0, is, e => (is, e, 0)
  | fuel + 1, is, e =>
    let top : Int := (2 ^ (n - 1) : Nat)
    if is.all fun i => decide (-top ≤ i) && decide (i < top) then (is, e, 0)
    else if e = 0xFE then (is.map fun _ => 0, 0xFF, flagOF)
    else renorm n fuel (is.map halfRne) (e + 1)

/-- R179: an element of k planes as an n-bit integer. -/
def State.npStoreVal (s : State) (n k b addr : Nat) : Int :=
  let i := signedOf k b
  if k ≤ n then i * (2 ^ (n - k) : Nat)
  else
    let top : Int := (2 ^ (n - 1) : Nat)
    sat (roundInt (Rnd.at s.rmode s.act.csr.seed (BitVec.ofNat 64 addr)) (Dy.ofInt i) ((k : Int) - n)).1 (-top) (top - 1)

/-- The new contents of a block (R179, R183): integers, exponent, the bytes of each plane that are written whether they
change or not, flags, and whether the block renormalised; nothing where it stays as it is. -/
structure NpNew where
  ints : List Int
  exp : Nat
  force : List Nat
  forceExp : Bool
  flags : FFlags
  renormed : Bool
deriving DecidableEq, Repr

/-- R179 and R183 for one block: `x` is what memory holds, `l` its active elements, ascending. -/
def State.npNew (s : State) (t : NpT) (a : Reg) (stp : Bool) (k j : Nat) (l : List Nat) (x : NpBytes) : Option NpNew :=
  let n := t.n
  let old := (List.range 64).map fun e => x.int n e
  let (strip, b) := t.block j
  if stp && x.exp == 0xFF then none
  else if !(s.vok a).getLsbD j then
    some { ints := old.map fun _ => 0, exp := 0xFF, force := if stp then [] else List.range 8, forceExp := !stp, flags := 0
           renormed := false }
  else if stp then
    let sum := (List.range 64).map fun e =>
      old.getD e 0 + (if l.contains (64 * j + e) then signedOf k (lane (s.v a) 16 (64 * j + e)) else 0)
    let r := renorm n 256 sum x.exp.toNat
    some { ints := r.1, exp := r.2.1, force := [], forceExp := false, flags := r.2.2, renormed := r.2.1 != x.exp.toNat }
  else
    let ints := (List.range 64).map fun e =>
      if l.contains (64 * j + e) then
        s.npStoreVal n k (lane (s.v a) 16 (64 * j + e)) (t.line strip 0 + 8 * b + e / 8)
      else old.getD e 0
    some { ints := ints, exp := lane (s.v (a + 1)) 8 j, force := (l.map fun i => i % 64 / 8).eraseDups, forceExp := true
           flags := 0, renormed := false }

/-- Bytes of a tensor that are to be written, by virtual address. -/
abbrev Pieces := List (Nat × List (Option Byte))

/-- The pieces of a block that its store writes: those that change, and those that it writes in any case. -/
def NpNew.pieces (x : NpNew) (t : NpT) (j : Nat) (old : NpBytes) : Pieces :=
  let (strip, b) := t.block j
  let planes := (List.range t.n).map fun q =>
    let new := planeBytes x.ints t.n q
    let was := old.planes.getD q []
    (t.line strip q + 8 * b, (List.range 8).map fun o =>
      if x.force.contains o || new.getD o 0 != was.getD o 0 then some (new.getD o 0) else none)
  if x.forceExp || x.exp != old.exp.toNat then planes ++ [(t.expAt strip b, [some (BitVec.ofNat 8 x.exp)])] else planes

/-- The line of 128 bytes that pieces write. -/
def lineOf (line : Nat) (p : Pieces) : List (Option Byte) :=
  (List.range 128).map fun o =>
    let a := line * 128 + o
    p.findSome? fun x => if x.1 ≤ a then (x.2[a - x.1]?).bind id else none

/-- The pieces written, line by line, into one batch (R42, R184), which host-shared pages then receive (R174); they have passed
their checks. -/
def State.putPieces (s : State) (p : Pieces) : State :=
  let c := s.act.core
  let d := s.coreDie c
  let lines := ((p.filter fun x => x.2.any Option.isSome).map fun x => x.1 / 128).eraseDups
  let put := lines.foldl (fun (x : State × List Loc) line =>
    match x.1.access (line * 128) 1 1 .write false true with
    | (.ok l, s) => (s.writeSome d (quadOf c) l.addr (lineOf line p), l :: x.2)
    | (_, s) => (s, x.2)) (s.room d lines.length, [])
  put.2.foldl State.hostOrder put.1

/-- R422: a windowed block: an entry for each byte that changes, of the active elements `all` of the whole store whose bits lie in it,
`l` being those that are stored now. A byte in which none of `all` has bits belongs to none; a fault on a byte in which none of `l` has
is one of the first of `l` (DESIGN CHOICE, log entry 51). -/
def State.enterPieces (s : State) (j : Nat) (l all : List Nat) (p : Pieces) : Res Unit :=
  let bytes := p.flatMap fun x => (List.range x.2.length).filterMap fun o =>
    ((x.2[o]?).bind id).map fun b => (x.1 + o, if x.2.length = 1 then all else all.filter fun i => i % 64 / 8 == o, b)
  bytes.foldl (fun r y => r.bind fun _ s =>
    Get.fin (s.elemEnter y.1 1 [y.2.2] y.2.1 (some j)) true ((y.2.1.filter fun i => l.contains i).headD (l.headD 0)) fun _ s =>
      .ok () s) (.ok () s)

/-- The way an NP store goes; `ctl` names its guards. -/
structure NpStore where
  ctl : Ctl
  t : NpT
  a : Reg
  stp : Bool
  pa : Bool
  win : Bool
  fq : Feq
  k : Nat
deriving DecidableEq, Repr

/-- The strip's step ends: its bytes are written; where it was atomic they are performed, and the batch is closed whether it
changed a byte or not (R184, R345). -/
def State.stripEnd (s : State) (p : Pieces) (atomic : Bool) : State :=
  let s := if p.isEmpty then s else s.putPieces p
  if atomic then s.performAt (s.coreDie s.act.core) .domain else s

/-- The first element of an access in a strip. -/
def NpT.stripStart (t : NpT) (strip : Int) : Nat := ((strip - t.first) * 1024 - t.x0).toNat

/-- The active elements of a block that are stored before the instruction is to stop, and the element at which it then stops: a strip
of `vstp.pa`, whose first element is `e`, is one step, every other store stops before an active element (R258). -/
def State.storeUnits (s : State) (pa same : Bool) (e : Nat) (l : List Nat) : List Nat × Option Nat × State :=
  if pa then
    if same then (l, none, s)
    else
      match s.take with
      | none => ([], some (max e s.act.csr.vstart.toNat), s)
      | some s => (l, none, s)
  else
    let (n, s) := s.takeUpTo l.length
    (l.take n, (l.drop n).head?, s)

/-- The blocks of an NP store; `strip`, `p` and `atomic` are the strip whose step is being formed. -/
def State.storeBlocks (c : NpStore) (act : List Nat) : List Nat → Option Int → Pieces → Bool → State → Res Unit
  | [], _, p, atomic, s => .ok () (s.stripEnd p atomic)
  | j :: r, strip, p, atomic, s0 =>
    let next := (c.t.block j).1
    let same := strip == some next
    let s := if same then s0 else s0.stripEnd p atomic
    let p := if same then p else []
    let atomic := if same then atomic else c.pa
    let kind : Kind := if c.stp || c.win then .update else .merge
    let get : ByteGet := fun s va n => s.elemRead kind va n n c.fq c.win
    let (l, stop, s) := s.storeUnits c.pa same (c.t.stripStart next) (inBlock act j)
    let go (p : Pieces) (atomic : Bool) (s : State) : Res Unit :=
      match stop with
      | some i => (s.stripEnd p atomic).waitAt i .pause
      | none => State.storeBlocks c act r (some next) p atomic s
    if l.isEmpty then go p (atomic && same) s
    else
    match s.npFetch kind get c.t j c.t.n with
    | (.bad e va, s) =>
      ((s.stripEnd p atomic).elemFault c.win e (c.t.faultVa j va) l).bind fun _ s => go [] false s
    | (.stall w, s) => (s.stripEnd p atomic).waitAt (l.headD 0) w
    | (.ok x, s) =>
      match s.npNew c.t c.a c.stp c.k j l x with
      | none => go p atomic s
      | some y =>
        let s := s.raise y.flags
        if c.win then
          (s.enterPieces j l (inBlock (s.allActives c.ctl) j) ({ y with force := [], forceExp := false }.pieces c.t j x)).bind fun _ s => go p atomic s
        else go (p ++ y.pieces c.t j x) (atomic || y.renormed) s

/-- An NP store of its active elements. -/
def State.storeNp (s : State) (t : Ctl) (a : Reg) (ea : Nat) (fq : Feq) (k : Nat) (stp pa : Bool) (l : List Nat) : Res Unit :=
  let win := s.windowed fq && !pa
  s.counting win fun s =>
    match s.npOpen s.act.core s.act.part ea with
    | (.error f, s) => if s.vl = 0 then .ok () s else s.npFault win f ea l
    | (.ok np, s) =>
      State.storeBlocks { ctl := t, t := np, a := a, stp := stp, pa := pa, win := win, fq := fq, k := k } l (blocksOf s.vl l)
        none [] false s

/-- The frame of a vector store. -/
def State.vstore (s : State) (t : Ctl) (np : Bool) (a : Reg) (more : List Reg) (k : BitVec 5)
    (body : List Nat → State → Res Unit) : Out :=
  s.vecOp t { legal := !(np && s.fmt == .np) || decide (a ≤ 30), typeOk := s.accessOk np k false
              srcs := (a :: more).map s.req, dsts := [], reads := .elems } s.after body

def execVst (a b : Reg) (off : BitVec 13) (fq : Feq) (k : BitVec 5) (t : Ctl) (s : State) : Out :=
  s.vstore t true a [] k fun l s =>
    let base := s.g b + off.signExtend 64
    if s.fmt = .np then s.storeNp t a base.toNat fq (s.planes k) false false l
    else s.storeElems a fq (fun s i => unitAddr base s.sew i) l

def execVsts (a b c : Reg) (fq : Feq) (k : BitVec 5) (t : Ctl) (s : State) : Out :=
  s.vstore t false a [] k fun l s => s.storeElems a fq (fun s i => strideAddr (s.g b) (s.g c) i) l

def execVstx (a b c : Reg) (fq : Feq) (k : BitVec 5) (t : Ctl) (s : State) : Out :=
  s.vstore t false a [c] k fun l s => s.storeElems a fq (fun s i => indexAddr (s.g b) s.sew (lane (s.v c) s.sew i)) l

/-- R183: `vstp` and `vstp.pa`, NP only. -/
def State.vecStp (s : State) (pa : Bool) (a b : Reg) (off : BitVec 13) (fq : Feq) (k : BitVec 5) (t : Ctl) : Out :=
  s.vecOp t { legal := true, typeOk := s.fmt == .np, srcs := [s.req a], dsts := [], reads := .elems } s.after fun l s =>
    s.storeNp t a (s.g b + off.signExtend 64).toNat fq (s.planes k) true pa l

def execVstp (a b : Reg) (off : BitVec 13) (fq : Feq) (k : BitVec 5) (t : Ctl) (s : State) : Out :=
  s.vecStp false a b off fq k t
def execVstpPa (a b : Reg) (off : BitVec 13) (fq : Feq) (k : BitVec 5) (t : Ctl) (s : State) : Out :=
  s.vecStp true a b off fq k t

/-! Full-empty bits (R182). -/

/-- Granules of the window set full or empty. -/
def State.feSet (s : State) (full : Bool) (loc n : Nat) : State :=
  (List.range (n / 16)).foldl (fun s i => if full then s.setFull (loc + 16 * i) else s.setEmpty (loc + 16 * i)) s

/-- Lines acted on one after another, ascending; the instruction stops before a line and goes on with that line (R258). -/
def eachLine (f : Nat → State → Res Unit) : List Nat → State → Res Unit
  | [], s => .ok () s
  | line :: r, s =>
    match s.take with
    | none => .wait .pause s
    | some s =>
      (f line s).bind fun _ s =>
        eachLine f r { s with act := { s.act with prog := { s.act.prog with linePos := s.act.prog.linePos + 1 } } }

/-- The lines of `n` bytes at an address that the instruction has not acted on (R258). -/
def State.onLines (s : State) (va n : Nat) (f : Nat → State → Res Unit) : Res Unit :=
  eachLine f ((linesOf va n).drop s.act.prog.linePos) s

/-- The first address and the count of those of `n` bytes at `va` that lie in a line. -/
def linePart (va n line : Nat) : Nat × Nat :=
  let lo := max va (128 * line)
  (lo, min (va + n) (128 * line + 128) - lo)

/-- R182: on the gB bytes from gA. -/
def State.feRange (s : State) (full : Bool) (a b : Reg) : Out :=
  let va := (s.g a).toNat
  let n := (s.g b).toNat
  let base := 0x01FFFFF000000000
  (if va % 16 ≠ 0 ∨ n % 16 ≠ 0 then Res.trap (Trap.queue .align va) s
   else if n = 0 then .ok () s
   else if base ≤ va ∧ va + n ≤ base + 2 ^ 21 then
     s.onLines va n fun line s =>
       let p := linePart va n line
       .ok () (s.feSet full (padBase (pairOf s.act.core) + (p.1 - base)) p.2)
   else .trap (Trap.queue .perm va) s).finQ s

def execFeset (a b : Reg) (_ : Ctl) (s : State) : Out := s.feRange true a b
def execFeclr (a b : Reg) (_ : Ctl) (s : State) : Out := s.feRange false a b

/-! Atomics (R185, R186, R349). -/

/-- One atomic of n bytes at `va`: the old value. -/
def State.amoAt (s : State) (va n : Nat) (op : Amo) (b c : Nat) : Get Nat × State :=
  match s.access va n n .atomic false false with
  | (.bad e, s) => (.bad e va, s)
  | (.stall w, s) => (.stall w, s)
  | (.ok l, s) =>
    match s.atomicAt va l.addr n (.amo op b c) with
    | (.ok bs, s) => (.ok (leNat bs), s)
    | (.bad e va, s) => (.bad e va, s)
    | (.stall w, s) => (.stall w, s)

/-- R185. -/
def State.amo (s : State) (op : Amo) (n32 : Bool) (d a b c : Reg) : Out :=
  let n := if n32 then 4 else 8
  let va := (s.g a).toNat
  (match s.amoAt va n op (s.g b).toNat (s.g c).toNat with
   | (.ok old, s) => Res.ok () (s.setG d (BitVec.ofNat 64 old))
   | (.bad e va, s) => .trap (Trap.scalar e (BitVec.ofNat 64 va)) s
   | (.stall w, s) => .wait (.own w) s).fin s s.after

def execAmoAdd (n32 : Bool) (d a b : Reg) (_ : Ctl) (s : State) : Out := s.amo .add n32 d a b 0
def execAmoAnd (n32 : Bool) (d a b : Reg) (_ : Ctl) (s : State) : Out := s.amo .and n32 d a b 0
def execAmoOr (n32 : Bool) (d a b : Reg) (_ : Ctl) (s : State) : Out := s.amo .or n32 d a b 0
def execAmoXor (n32 : Bool) (d a b : Reg) (_ : Ctl) (s : State) : Out := s.amo .xor n32 d a b 0
def execAmoMin (n32 : Bool) (d a b : Reg) (_ : Ctl) (s : State) : Out := s.amo .min n32 d a b 0
def execAmoMax (n32 : Bool) (d a b : Reg) (_ : Ctl) (s : State) : Out := s.amo .max n32 d a b 0
def execAmoMinu (n32 : Bool) (d a b : Reg) (_ : Ctl) (s : State) : Out := s.amo .minu n32 d a b 0
def execAmoMaxu (n32 : Bool) (d a b : Reg) (_ : Ctl) (s : State) : Out := s.amo .maxu n32 d a b 0
def execAmoSwap (n32 : Bool) (d a b : Reg) (_ : Ctl) (s : State) : Out := s.amo .swap n32 d a b 0
def execAmoCas (n32 : Bool) (d a b c : Reg) (_ : Ctl) (s : State) : Out := s.amo .cas n32 d a b c

/-- R186: one atomic for each active element, ascending; `.cas` compares with vD as it stood. -/
def State.vamo (s : State) (op : Amo) (n32 : Bool) (d a b c : Reg) (t : Ctl) : Out :=
  let ok := if n32 then s.fmt == .i32 || s.fmt == .u32 else s.fmt == .i64 || s.fmt == .u64
  let srcs := if op = .cas then [d, b, c] else [b, c]
  s.vecOp t { legal := true, typeOk := ok, srcs := srcs.map s.req, dsts := [d], reads := .elems } s.after fun l s =>
    let w := s.sew
    (eachElem (fun i s =>
      let va := (indexAddr (s.g a) w (lane (s.v b) w i)).toNat
      let x := lane (s.v c) w i
      Get.fin (s.amoAt va (w / 8) op (if op = .cas then lane (s.v d) w i else x) x) false i
        fun old s => .ok () (s.setV d (setLane (s.v d) w i old))) l s).bind fun _ s => .ok () (s.okSet d w)

def execVamoAdd (n32 : Bool) (d a b c : Reg) (t : Ctl) (s : State) : Out := s.vamo .add n32 d a b c t
def execVamoAnd (n32 : Bool) (d a b c : Reg) (t : Ctl) (s : State) : Out := s.vamo .and n32 d a b c t
def execVamoOr (n32 : Bool) (d a b c : Reg) (t : Ctl) (s : State) : Out := s.vamo .or n32 d a b c t
def execVamoXor (n32 : Bool) (d a b c : Reg) (t : Ctl) (s : State) : Out := s.vamo .xor n32 d a b c t
def execVamoMin (n32 : Bool) (d a b c : Reg) (t : Ctl) (s : State) : Out := s.vamo .min n32 d a b c t
def execVamoMax (n32 : Bool) (d a b c : Reg) (t : Ctl) (s : State) : Out := s.vamo .max n32 d a b c t
def execVamoMinu (n32 : Bool) (d a b c : Reg) (t : Ctl) (s : State) : Out := s.vamo .minu n32 d a b c t
def execVamoMaxu (n32 : Bool) (d a b c : Reg) (t : Ctl) (s : State) : Out := s.vamo .maxu n32 d a b c t
def execVamoSwap (n32 : Bool) (d a b c : Reg) (t : Ctl) (s : State) : Out := s.vamo .swap n32 d a b c t
def execVamoCas (n32 : Bool) (d a b c : Reg) (t : Ctl) (s : State) : Out := s.vamo .cas n32 d a b c t

/-! BFA24 blocks (R44, R45, R187, R188). -/

/-- Where a BFA24 block lies: 256-byte aligned and outside the scratchpad, which takes PERM whatever its granules hold (R187, R188,
R330). -/
def State.bfaLoc (s : State) (k : Kind) (va : Nat) : Get Nat × State :=
  if va % 256 ≠ 0 then (.bad .align va, s)
  else if va < 2 ^ 57 ∧ inRegion va ∧ va - 0x01FFFFF000000000 < 2 ^ 21 then (.bad .perm va, s)
  else
    match s.access va 256 256 k false false with
    | (.bad e, s) => (.bad e va, s)
    | (.stall w, s) => (.stall w, s)
    | (.ok (.record _), s) => (.bad .perm va, s)
    | (.ok (.at_ a _), s) => (.ok a, s)

/-- R187. -/
def execAmoacc (md : Mode) (a b : Reg) (t : Ctl) (s : State) : Out :=
  let mode := RMode.ofMode s.rmode md
  s.vecOp t { legal := true, typeOk := s.fmt == .fp32, srcs := [s.req b], dsts := [], reads := .guarded } s.after fun l s =>
    let va := (s.g a).toNat
    Get.fin (s.bfaLoc .atomic va) false 0 fun loc s =>
      let xs := (List.range 64).map fun e => if l.contains e then lane (s.v b) 32 e else 0
      Get.fin (s.atomicAt va loc 256 (.acc va mode s.act.csr.seed xs)) false 0 fun bs s =>
        .ok () (s.raise (accAt va mode s.act.csr.seed xs bs).2)

/-- R188. -/
def execVldbfa (md : Mode) (d a : Reg) (t : Ctl) (s : State) : Out :=
  let mode := RMode.ofMode s.rmode md
  s.vecOp t { legal := true, typeOk := s.fmt == .fp32, srcs := [], dsts := [d], reads := .elems } s.after fun l s =>
    Get.fin (s.bfaLoc .look (s.g a).toNat) false 0 fun loc s =>
      Get.fin (s.atomicAt (s.g a).toNat loc 256 .look) false 0 fun bs s =>
      let e := (bs.getD 192 0).toNat
      .ok () ((s.fill d 32 (l.filter fun i => decide (i < 64)) fun i =>
        if e = 0xFF then plainRes fp32.nanBits
        else roundDy fp32 (s.rndV mode d i) false { m := bfaM bs i, e := (e : Int) - 150 }).okSet d 32)

/-! Fences (R189, R198, R341). -/

/-- Two cores share a tier's storage (R19). -/
def sameTier (tier : Tier) (a b : Nat) : Bool :=
  match tier with
  | .core => a == b
  | .pair => pairOf a == pairOf b
  | .quad => quadOf a == quadOf b
  | .stack => stackOf a == stackOf b
  | .domain => true

/-- An instruction of the vector queue that always completes. -/
def State.queueStep (s : State) (f : State → State) : Out := (Res.ok () (f s)).finQ s

/-- R189: every older access is performed at the tier's scope. -/
def State.fence (s : State) (tier : Tier) : State := s.performAt (s.coreDie s.act.core) tier

def execFenceC (tier : Tier) (_ : Ctl) (s : State) : Out := s.queueStep fun s => s.fence tier
def execFenceS (tier : Tier) (_ : Ctl) (s : State) : Out := s.queueStep fun s => s.fence tier
/-- `.rec`: the record caches of the scope's copy units drop their records. -/
def execFenceRec (tier : Tier) (_ : Ctl) (s : State) : Out :=
  s.queueStep fun s =>
    let s := s.fence tier
    { s with cores := s.cores.map fun c => if sameTier tier s.act.core c.1 then (c.1, { c.2 with records := [] }) else c }
/-- `.host`: every older store is visible to the host. -/
def execFenceHost (_ : Tier) (_ : Ctl) (s : State) : Out := s.queueStep fun s => s.fence .domain

/-- The strand has an engine operation or a query that is not DONE or FAILED. -/
def State.enginesBusy (s : State) : Bool :=
  (s.engines.any fun o => o.2.sid == s.act.sid && !o.2.ended) ||
  s.queries.any fun q => q.2.sid == s.act.sid && q.2.st != .building && q.2.st != .done && q.2.st != .failed

/-- `.eng`: waits for the strand's engine operations. -/
def execFenceEng (tier : Tier) (_ : Ctl) (s : State) : Out :=
  (if s.enginesBusy then Res.wait .fenceEng s else .ok () (s.fence tier)).finQ s

/-! Streams (R191). -/

/-- The acting strand's stream bindings changed. -/
def State.setStreams (s : State) (f : NMap Stream → NMap Stream) : State :=
  { s with act := { s.act with streams := f s.act.streams } }

def execStrm (d a b : Reg) (_ : Ctl) (s : State) : Out :=
  let base := (s.g a).toNat
  let len := (s.g b).toNat
  (if (s.act.streams.get? d.toNat).isSome then Res.trap (s.streamTrap 3) s
   else if 2 ^ 40 < len then .trap (s.streamTrap 4) s
   else if base % 16 ≠ 0 then .trap (Trap.queue .align base) s
   else .ok () (s.setStreams (NMap.set d.toNat { base := base, len := len, pos := 0, ahead := [] }))).finQ s

def execStrmx (d : Reg) (_ : Ctl) (s : State) : Out := s.queueStep fun s => s.setStreams (NMap.del d.toNat)

/-! Stashes (R190). -/

/-- The lines of the instruction's range, ascending; gB above 2^32 takes ALIGN. -/
def State.lineOp (s : State) (a b : Reg) (f : Nat → State → Res Unit) : Out :=
  let va := (s.g a).toNat
  let n := (s.g b).toNat
  (if 2 ^ 32 < n then Res.trap (Trap.queue .align va) s
   else s.onLines va n f).finQ s

/-- The place of a line that has the permission of a kind: nothing where it lies in the scratchpad or the partition record's
window, which no L2 holds. Of the checks of R330 only translation and permission apply: what the line holds, and whether a
store to it would wait, does not matter. -/
def State.lineLoc (s : State) (k : Kind) (line : Nat) : Except Stop (Option Nat) × State :=
  let va := line * 128
  if 2 ^ 57 ≤ va then (.error (.bad .dataXlt), s)
  else if inRegion va then
    let off := va - 0x01FFFFF000000000
    if off < 2 ^ 21 then (.ok none, s)
    else if off = 0x800000000 then (if k = .read then .ok none else .error (.bad .perm), s)
    else (.error (.bad .dataXlt), s)
  else
    match s.lookup s.act.core s.act.part va with
    | (.error e, s) => (.error (e.stop .dataXlt), s)
    | (.ok t, s) =>
      if !s.filledAt (s.physOf t va) 128 then (.error (.bad .dataXlt), s)
      else if s.permits s.act.part t k then (.ok (some (s.physOf t va)), s)
      else (.error (.bad .perm), s)

/-- The stash limit of a quad in lines: 2 MiB, and the partition's L2 quota in sixteenths of it (R190, R390). -/
def State.stashRoom (s : State) (quad : Nat) : Bool :=
  let l := (s.pins.getD quad []).length
  decide (l < 16384) && decide (l < (s.part s.act.part).record.l2q * 1024)

/-- A line fetched into the L2: the die then holds a copy of a line homed elsewhere, which comes by a message from another package's
home. -/
def State.fetchLine (s : State) (a : Nat) : State :=
  let d := s.coreDie s.act.core
  let line := a / 128
  if isPad a ∨ homeDie a = d ∨ ((s.dieAt d).copies.get? line).isSome then s
  else if s.far a then s.ask d a
  else
    let s := s.readSync d a
    let bs := s.bytesAt d (line * 128) 128
    s.onDie d fun x => { x with copies := NMap.set line bs x.copies }

/-- A line pinned, where the quad has room. -/
def State.pin (s : State) (a : Nat) : State :=
  let q := quadOf s.act.core
  let line := a / 128
  if isPad a ∨ (s.pins.getD q []).any (·.1 == line) ∨ !s.stashRoom q then s
  else { s with pins := s.pins.upd q [] fun l => (line, s.act.part) :: l }

/-- A line unpinned. -/
def State.unpin (s : State) (a : Nat) : State :=
  { s with pins := s.pins.upd (quadOf s.act.core) [] fun l => l.filter fun p => p.1 != a / 128 }

/-- `stash` and `pref`: a line whose address fails a check of R330 is passed over. -/
def State.bring (s : State) (pin : Bool) (line : Nat) : Res Unit :=
  match s.check s.act.core s.act.part (line * 128) 128 128 .read false false with
  | (.ok (.at_ a _), s) => .ok () (if pin then (s.pin a).fetchLine a else s.fetchLine a)
  | (.stall w, s) => .wait w s
  | (_, s) => .ok () s

def execStash (a b : Reg) (_ : Ctl) (s : State) : Out := s.lineOp a b fun line s => s.bring true line
def execPref (a b : Reg) (_ : Ctl) (s : State) : Out := s.lineOp a b fun line s => s.bring false line

/-- The line written back or discarded, where its address passes; DATAXLT or PERM otherwise. -/
def State.lineAct (s : State) (k : Kind) (line : Nat) (f : Nat → State → State) : Res Unit :=
  match s.lineLoc k line with
  | (.ok (some a), s) => .ok () (f a s)
  | (.ok none, s) => .ok () s
  | (.error (.bad c), s) => .trap (Trap.queue c (line * 128)) s
  | (.error (.stall w), s) => .wait w s

/-- `stflush`: the line's dirty bytes reach the LLC; the pin goes, the copy stays. -/
def execStflush (a b : Reg) (_ : Ctl) (s : State) : Out :=
  s.lineOp a b fun line s => s.lineAct .read line fun loc s =>
    (s.reach (s.coreDie s.act.core) (homeDie loc)).unpin loc

/-- Writes of one quad to a line, dropped from a list of writes. -/
def dropLine (quad line : Nat) (l : List Wr) : List Wr :=
  l.filter fun w => !(w.quad == quad && decide (w.addr / 128 ≤ line) && decide (line * 128 < w.addr + w.data.length))

/-- `stinv`: the L2's copy goes with its dirty bytes: the quad's stores to a line homed elsewhere that have not left the die
(log entry 17). -/
def execStinv (a b : Reg) (_ : Ctl) (s : State) : Out :=
  s.lineOp a b fun line s => s.lineAct .write line fun loc s =>
    let d := s.coreDie s.act.core
    let q := quadOf s.act.core
    if homeDie loc = d then s.unpin loc
    else
      let s := s.onDie d fun x => { x with pending := dropLine q (loc / 128) x.pending, copies := NMap.del (loc / 128) x.copies }
      (s.rebuildOwn d (loc / 128)).unpin loc

/-! Compress and append (R202). -/

/-- The reservation of b bytes in the append area at `va`, one atomic step at the record's home. -/
def State.reserve (s : State) (va b unit : Nat) : Get Reserve × State :=
  match s.access va 16 16 .atomic false false with
  | (.bad e, s) => (.bad e va, s)
  | (.stall w, s) => (.stall w, s)
  | (.ok l, s) =>
    match s.atomicAt va l.addr 16 (.reserve b unit) with
    | (.ok bs, s) => (.ok (reserveIn b unit bs), s)
    | (.bad e va, s) => (.bad e va, s)
    | (.stall w, s) => (.stall w, s)

/-- The element writes into a reserved range: element i at its rank among the elements counted from `v0`. -/
def State.append (s : State) (t : Ctl) (b : Reg) (base v0 : Nat) (l : List Nat) : Res Unit :=
  let w := s.sew
  let all := (s.allActives t).filter fun i => decide (v0 ≤ i)
  s.writeRuns .plain (fun i => (base + all.idxOf i * (w / 8)) % 2 ^ 64) (w / 8) (fun i => leBytes (w / 8) (lane (s.v b) w i)) l

/-- R202: the range reserved stays reserved while the instruction is partly done. -/
def execVcapp (a b : Reg) (t : Ctl) (s : State) : Out :=
  s.vecOp t { legal := true, typeOk := true, srcs := [s.req b], dsts := [], reads := .guarded } s.after fun l s =>
    match s.act.prog.reserved with
    | some (base, v0) => s.append t b base v0 l
    | none =>
      let v0 := s.act.csr.vstart.toNat
      let n := l.length * (s.sew / 8)
      let va := (s.g a).toNat
      Get.fin (s.reserve va n (s.sew / 8)) false v0 fun r s =>
        match r with
        | .got base => { s with act := { s.act with prog := { s.act.prog with reserved := some (base, v0) } } }.append t b base v0 l
        | .misaligned next => .trap (Trap.posted .align (BitVec.ofNat 64 next) v0) s
        | .full => .trap (Trap.posted .cmpFull (BitVec.ofNat 64 n) v0) s

end Sys2Proof.Machine
end

