-- ==== Sys2Proof/Machine/Power.lean ====
section
/-!
DEFINITION. Power, current and time (R382 to R388), the rail controllers (R236). Measurements, readings and failing lanes
are free values. An event whose conditions do not hold changes nothing.
-/

namespace Sys2Proof.Machine

/-- A quad's state. -/
def State.quad (s : State) (q : Nat) : Quad := s.quads.getD q Quad.reset
/-- Changes a quad's state. -/
def State.onQuad (s : State) (q : Nat) (f : Quad → Quad) : State := { s with quads := s.quads.upd q Quad.reset f }

/-! DVFS (R383, R274). -/

/-- R274: cycles left at one clock as cycles at another. -/
def reconvert (old new_ left : Nat) : Nat := cyclesOf new_ (nanosOf old left)

/-- A clock in MHz. -/
def pointMhz (p : Nat) : Nat := 1200 + 100 * p

/-- The core has power, so that its `cyc` counts: a sail core that is GATED or WAKING has none (R388). -/
def State.powered (s : State) (core : Nat) : Bool :=
  isMill core || match (s.pair (pairOf core)).gate with | .on | .draining => true | .gated | .waking => false

/-- A quad goes to another point: its cores have counted some cycles more, and timed waits convert again. -/
def State.setPoint (s : State) (q p : Nat) : State :=
  let old := pointMhz (s.quad q).point
  let s := (List.range 8).foldl (fun s i =>
    if s.powered (8 * q + i) then let (n, s) := s.draw (2 ^ 16); s.pass (8 * q + i) n else s) s
  (s.onQuad q fun x => { x with point := p }).onStrands (fun a => quadOf a.core == q && a.onCore)
    fun a => a.onWaits (Wait.onLeft (reconvert old (pointMhz p)))

/-- R387: every sensor of one kind is flagged. -/
def Quad.blind (x : Quad) : Bool :=
  [SensorKind.thermal, .current].any fun k => (x.sensors.filter fun t => t.kind == k).all (·.flagged)

def execDvfsTransition (quad point : Nat) (s : State) : Out :=
  .next (if quad < 64 ∧ point < 22 ∧ (point = 0 ∨ !(s.quad quad).blind) ∧ point ≠ (s.quad quad).point then s.setPoint quad point else s)

/-! The power window (R386, R387). -/

/-- A list of numbers put in order. -/
def sorted (l : List Int) : List Int :=
  l.foldl (fun acc x => (acc.filter fun y => decide (y ≤ x)) ++ [x] ++ acc.filter fun y => decide (x < y)) []

/-- The median. -/
def median (l : List Int) : Int :=
  let t := sorted l
  (t.getD ((t.length - 1) / 2) 0 + t.getD (t.length / 2) 0) / 2

/-- The limits of R387 in the units of a reading: least, most, the move of a stuck sensor's neighbours, the disagreement. -/
def SensorKind.limits : SensorKind → Int × Int × Int × Int
  | .thermal => (-400, 1500, 20, 100)
  | .current => (0, 1500, 50, 200)

/-- A sensor after a window, from its new reading and its neighbours' median. -/
def Sensor.window (t : Sensor) (reading med : Int) : Sensor :=
  let l := t.kind.limits
  let same := reading == t.reading
  let still := if same then t.still + 1 else 0
  let then_ := if same then t.medianThen else med
  let t := { t with reading := reading, still := still, medianThen := then_ }
  let away (a b k : Int) : Bool := decide (k ≤ a - b) || decide (k ≤ b - a)
  let bad (x : Int) : Sensor := { t with used := x, flagged := true, passed := 0, subst := t.subst + 1 }
  if reading < l.1 ∨ l.2.1 < reading then bad l.2.1
  else if 64 ≤ still ∧ away med then_ l.2.2.1 then bad med
  else if away reading med (l.2.2.2 + 1) then bad med
  else if t.flagged ∧ t.passed + 1 < 16 then { t with used := med, passed := t.passed + 1, subst := t.subst + 1 }
  else { t with used := reading, flagged := false, passed := 0 }

/-- The values used for the like sensors of a quad's neighbours. -/
def State.like (s : State) (q i : Nat) : List Int :=
  (Config.quadNeighbours q).filterMap fun n => ((s.quad n).sensors[i]?).map (·.used)

/-- One sensor's window. -/
def State.readSensor (s : State) (q i : Nat) : State :=
  match (s.quad q).sensors[i]? with
  | none => s
  | some t =>
    let (n, s) := s.draw (2 ^ 16)
    let u := t.window ((n : Int) - 2 ^ 15) (median (s.like q i))
    let s := s.onQuad q fun x => { x with sensors := x.sensors.set i u }
    if u.subst = t.subst then s else s.event (.sensor q i)

/-- Every sensor's window; a quad whose sensors of a kind are all flagged goes to its lowest point. -/
def State.readSensors (s : State) : State :=
  (List.range 64).foldl (fun s q =>
    let s := (List.range 6).foldl (fun s i => s.readSensor q i) s
    if (s.quad q).blind ∧ (s.quad q).point ≠ 0 then s.setPoint q 0 else s) s

/-- Quads in turn one point lower, until the estimate is below the cap. -/
def State.throttle (s : State) (watts : Nat) : State :=
  ((List.range 64).foldl (fun (x : Nat × State) q =>
    if x.1 < x.2.power.cap ∨ (x.2.quad q).point = 0 then x
    else
      let (n, s) := x.2.draw (x.1 + 1)
      (n, s.setPoint q ((s.quad q).point - 1))) (watts, s)).2

/-- Quads in turn one point higher. -/
def State.unthrottle (s : State) : State :=
  (List.range 64).foldl (fun s q => if (s.quad q).point < 21 ∧ !(s.quad q).blind then s.setPoint q ((s.quad q).point + 1) else s) s

/-- R386: firmware sets the cap up to the rating, or leaves it; where no rating is stated, to any number (log entry 33). -/
def State.setCap (s : State) : State :=
  let (n, s) := s.draw (s.board.form.rating.getD (2 ^ 16) + 1)
  if n = 0 then s else { s with power := { s.power with cap := n } }

/-- A window ends, at whose end the cap is what firmware has set it to. -/
def execPowerWindow (s : State) : Out :=
  let s := s.readSensors.setCap
  let (w, s) := s.draw (2 ^ 16)
  let quiet := if 100 * w < 95 * s.power.cap then s.power.quiet + 1 else 0
  let s : State := { s with power := { s.power with watts := w, quiet := if quiet = 8 then 0 else quiet } }
  .next (if s.power.cap < w then s.throttle w else if quiet = 8 then s.unthrottle else s)

/-! Rails (R236). -/

/-- A window of 2^24 cycles ends; a count that has passed EBUD acts before it is cleared. -/
def execRailWindow (core : Nat) (s : State) : Out :=
  let c := s.core core
  .next (if core < 512 ∧ 2 ^ 24 ≤ c.cyc.toNat - c.windowStart then
    (s.railCheck core).onCore core fun c =>
      let quiet := match s.ebud? core with
        | some e => if (s.core core).railCount ≤ e / 4 then c.railQuiet + 1 else 0
        | none => c.railQuiet
      let lower := decide (16 ≤ quiet) && c.railFid != 0 && decide (railFloor c.railFid < c.railStep)
      { c with
        railCount := 0, fidSat := false, windowStart := c.windowStart + 2 ^ 24
        railQuiet := if lower then 0 else quiet, railStep := if lower then c.railStep - 1 else c.railStep }
    else s)

/-- The count has passed EBUD at a chunk boundary. -/
def execRailStepRaise (core : Nat) (s : State) : Out := .next (if core < 512 then s.railCheck core else s)

/-! Ballast, trim, gating. -/

/-- R385: ballast starts, or has tapered off; it writes nothing that a program sees. -/
def execBallast (quad : Nat) (s : State) : Out :=
  .next (if quad < 64 then s.onQuad quad fun x => { x with ballast := !x.ballast } else s)

/-- R382: lanes that fail are feathered; a cluster with two leaves the map; a core with no cluster is lost to its pair. -/
def State.trim (s : State) (core : Nat) : State :=
  let (n, s) := s.draw (2 ^ 40)
  let old := s.core core
  let new_ := (List.range 40).filter fun i => n.testBit i && !NSet.has i old.badLanes
  let bad := new_.foldl (fun l i => NSet.add i l) old.badLanes
  let lost := (List.range 8).filter fun k => decide (2 ≤ (bad.filter fun i => i / 5 == k).length)
  let s := s.onCore core fun c => { c with badLanes := bad, lostClusters := lost }
  let s := new_.foldl (fun s i => s.event (.lane core i)) s
  let s := (lost.filter fun k => !NSet.has k old.lostClusters).foldl (fun s k => s.event (.cluster core k)) s
  if lost.length = 8 then s.onCore core fun c => { c with lost := true } else s

/-- A retrim: strands on the core are stopped first, each with its group (R302), and the request stays until the core is free of them. -/
def execLaneTrim (core : Nat) (s : State) : Out :=
  .next (if 512 ≤ core then s
    else if s.strands.any fun a => a.onCore && a.core == core then
      let s := ((s.strands.filter fun a => a.onCore && a.core == core).map (·.node)).eraseDups.foldl State.stopNode s
      (s.saveTrapped core).onCore core fun c => { c with trimDue := true }
    else (s.trim core).onCore core fun c => { c with trimDue := false })

/-- R388: ballast runs before the rails turn off (R385). -/
def execGateDrained (pair : Nat) (s : State) : Out :=
  .next (if (s.pair pair).gate = .draining ∧ !(s.strands.any fun a => a.onCore && a.core == sailOf pair) then
    (s.onQuad (pair / 4) fun x => { x with ballast := true }).onPair pair fun p => { p with gate := .gated } else s)

/-- R388: the lanes are trimmed, the core is ON, a held request is applied. -/
def execWakeDone (pair : Nat) (s : State) : Out :=
  .next (if (s.pair pair).gate = .waking then
    let held := (s.pair pair).request
    let s := (s.trim (sailOf pair)).onPair pair fun p => { p with gate := .on, request := false }
    if held then s.gateRequest pair true else s
  else s)

end Sys2Proof.Machine
end

