-- ==== Sys2Proof/Machine/Mgmt.lean ====
section
/-!
DEFINITION. The management controller (R390, R391, R394 to R401). Commands are served in the order in which they arrived; an
event for a host whose command is not the next one changes nothing.
-/

namespace Sys2Proof.Machine

/-! The mailbox (R398). -/

/-- Changes the controller. -/
def State.onMgmt (s : State) (f : Mgmt → Mgmt) : State := { s with mgmt := f s.mgmt }

/-- A command of the mailbox; a host's accesses to memory are not among them. -/
def Cmd.isCommand : Cmd → Bool
  | .memWrite _ _ => false
  | _ => true

/-- The next command. -/
def State.command? (s : State) : Option (Nat × Cmd) := s.mgmt.mailbox.find? fun c => c.2.isCommand

/-- The next command, where it is a host's, taken from the mailbox; before bring-up is done only READ is served (R401). -/
def State.take? (s : State) (host : Nat) : Option (Cmd × State) :=
  match s.command? with
  | some c => if c.1 = host ∧ (s.mgmt.up ∨ c.2 = .read) then some (c.2, s.onMgmt fun m => { m with mailbox := m.mailbox.erase c }) else none
  | none => none

/-- The host owns the device. -/
def State.owns (s : State) (host : Nat) : Bool :=
  match s.mgmt.owner with
  | .vacant => false
  | .owned h => h == host
  | .pending h _ => h == host

/-- A command of the owner; any other host is DENIED. -/
def State.owner (s : State) (host : Nat) (f : State → State) : State :=
  if s.owns host then f s else s.answer host .denied

/-! Ownership. -/

def execClaim (host : Nat) (s : State) : Out :=
  .next (match s.take? host with
    | some (.claim, s) =>
      (match s.mgmt.owner with
       | .vacant => (s.onMgmt fun m => { m with owner := .owned host }).answer host .ok
       | _ => s.answer host (if s.owns host then .ok else .denied))
    | _ => s)

def execRenew (host : Nat) (s : State) : Out :=
  .next (match s.take? host with | some (.renew, s) => s.owner host fun s => s.answer host .ok | _ => s)

def execLeaseLapse (s : State) : Out :=
  .next (match s.mgmt.owner with
    | .owned _ => (s.onMgmt fun m => { m with owner := .vacant }).event .leaseLapsed
    | _ => s)

/-- A HANDOVER while one is pending changes nothing (R3). -/
def execHandover (host dest : Nat) (s : State) : Out :=
  .next (match s.take? host with
    | some (.handover t, s') =>
      if t ≠ dest then s
      else s'.owner host fun s =>
        match s.mgmt.owner with
        | .owned _ => (s.onMgmt fun m => { m with owner := .pending host dest }).answer host .ok
        | _ => s.answer host (.refused 0)
    | _ => s)

def execAccept (host : Nat) (s : State) : Out :=
  .next (match s.take? host with
    | some (.accept, s) =>
      (match s.mgmt.owner with
       | .pending h t =>
         if t = host then (s.onMgmt fun m => { m with owner := .owned host }).answer host .ok
         else (s.onMgmt fun m => { m with owner := .owned h }).answer host .denied
       | _ => s.answer host .denied)
    | _ => s)

def execHandoverTimeout (s : State) : Out :=
  .next (match s.mgmt.owner with
    | .pending h _ => s.onMgmt fun m => { m with owner := .owned h }
    | _ => s)

/-! READ, ATTEST, SPDM (R398, R400, R401). -/

/-- What READ reports. -/
def State.readOut (s : State) : Report :=
  { up := s.mgmt.up, owner := s.mgmt.owner, events := s.mgmt.events, board := s.board, totals := Totals.package
    lost := (s.cores.filter fun c => !c.2.lostClusters.isEmpty).map fun c => (c.1, c.2.lostClusters) }

def execRead (host : Nat) (s : State) : Out :=
  .next (match s.take? host with
    | some (.read, s) => s.answer host (.state s.readOut)
    | _ => s)

/-- The report of R400 and its signature; the number and the version take eight bytes each (log entry 9). -/
def State.attestation (s : State) (nonce : List Byte) (part : Nat) : List Byte :=
  let p := s.part part
  let report := nonce.take 32 ++ leBytes 8 s.mgmt.serial ++ leBytes 8 s.mgmt.fwVersion ++ leBytes 64 s.mgmt.fwDigest.toNat ++
    leBytes 64 (sha512 (p.bytes part)).toNat ++ leBytes 64 p.digest.toNat
  report ++ Config.rsaSign (leBytes 64 (sha512 report).toNat)

def execAttest (host : Nat) (s : State) : Out :=
  .next (match s.take? host with
    | some (.attest nonce part, s) => s.answer host (.bytes (s.attestation nonce part))
    | _ => s)

def execSpdmMeasurement (host : Nat) (s : State) : Out :=
  .next (match s.take? host with
    | some (.spdm nonce part, s) => s.answer host (.bytes (s.attestation nonce part))
    | _ => s)

/-! Partition records (R390, R391). -/

/-- The record that 128 bytes give; FCOUNT is the Millrace's. -/
def recordOf (b : List Byte) (fcount : BitVec 64) : PartRec :=
  { quads := BitVec.ofNat 64 (field b 8 8), ptroot := field b 16 8, faultArea := field b 24 8, ctrBase := field b 32 2
    ctrLast := field b 34 2, pool := field b 36 2, llcq := field b 38 2, l2q := field b 40 1, memBud := field b 42 2
    linkBud := field b 44 2, schedBud := field b 46 2, stackBar := BitVec.ofNat 64 (field b 48 8)
    domBar := BitVec.ofNat 64 (field b 56 8), mlog := field b 64 8
    queues := Vector.ofFn fun (i : Fin 16) => BitVec.ofNat 16 (field b (72 + 2 * i.val) 2), fcount := fcount, nptab := field b 112 8 }

/-- Two records share a quad of a stack. -/
def shareStack (a b : PartRec) (stack : Nat) : Bool :=
  let on (r : PartRec) : Bool := (List.range 16).any fun i => r.quads.getLsbD (16 * stack + i)
  on a && on b

/-- Two records hold one quad, one counter or one barrier object. -/
def PartRec.clash (a b : PartRec) : Bool :=
  a.quads &&& b.quads != 0 || (decide (a.ctrBase ≤ b.ctrLast) && decide (b.ctrBase ≤ a.ctrLast)) || a.domBar &&& b.domBar != 0 ||
  (a.stackBar &&& b.stackBar != 0 && (List.range 4).any (shareStack a b))

/-- The n bytes of an object at a physical address lie in filled LPDDR-6 of one package of the domain, at its boundary. -/
def State.placed (s : State) (a n algn : Nat) : Bool :=
  NSet.has (a / 2 ^ 48) s.dom.members && decide (a % 2 ^ 48 + n ≤ s.capacity (a / 2 ^ 48)) && a % algn == 0

/-- R391, R18, R390: the record `r` of bytes `b` for a partition is accepted beside the others. -/
def State.valid (s : State) (pid : Nat) (b : List Byte) (r : PartRec) : Bool :=
  let others := (s.parts.filter fun p => p.1 != pid && p.2.st != .absent).map (·.2.record)
  let sum (f : PartRec → Nat) : Nat := others.foldl (fun acc o => acc + f o) (f r)
  b.length == 128 && decide (pid < 32) && zeros b 1 7 && zeros b 41 1 && zeros b 120 8 && r.quads != 0 &&
  (r.queues.toList.all fun q => q.extractLsb' 12 4 == 0) &&
  decide (r.ctrBase + 257 ≤ r.ctrLast) && !others.any r.clash && decide (sum (·.pool) ≤ 16384) && decide (sum (·.llcq) ≤ 2048) &&
  decide (sum (·.memBud) ≤ 11264) && decide (sum (·.linkBud) ≤ 65536) && decide (sum (·.schedBud) ≤ 16384) &&
  s.placed r.ptroot 4096 4096 && s.placed r.faultArea 16384 16384 && s.placed r.mlog 262144 262144 && s.placed r.nptab 131072 4096

/-- R190: what was pinned and no longer is is written back: the dies of those quads have sent all they wrote. -/
def State.unpinQuads (s : State) (pid : Nat) (gone : Nat → Bool) : State :=
  let quads := (s.pins.filter fun q => gone q.1 && q.2.any fun x => x.2 == pid).map (·.1)
  let s := quads.foldl (fun s q => s.performAt (s.coreDie (8 * q)) .domain) s
  { s with pins := s.pins.map fun q => (q.1, q.2.filter fun x => !(x.2 == pid && gone q.1)) }

/-- What belonged to quads that change hands: the Leats are empty (R307), the queries saved (R248). -/
def State.moveQuads (s : State) (moved : BitVec 64) : State :=
  let s := (s.queries.filter fun q => moved.getLsbD (q.1 / 16) && q.2.st.live).foldl
    (fun s q => s.qSave q.1 q.2) s
  { s with pairs := s.pairs.map fun p => if moved.getLsbD (p.1 / 4) then (p.1, { p.2 with leat := [] }) else p }

/-- A record takes the place of another: objects, entries and pins of quads that change hands, or of a quota reduced, are free
(R190, R307, R317). The Millrace goes by the old record until its next period where the partition runs (R394). -/
def State.setRecord (s : State) (pid : Nat) (st : PartSt) (r : PartRec) : State :=
  let old := (s.part pid).record
  let moved := old.quads ^^^ r.quads
  let s := s.freeBarriers ({ r with quads := moved, stackBar := 0, domBar := 0 } : PartRec).holdsBarrier
  let s := s.freeBarriers fun k => decide (3 ≤ k / 65536) && (old.holdsBarrier k != r.holdsBarrier k)
  let s := (s.unpinQuads pid fun q => moved.getLsbD q || decide (r.l2q < old.l2q)).moveQuads moved
  let s := if st = .running ∧ (s.mill.inForce.get? pid).isNone then
    s.onMill fun m => { m with inForce := NMap.set pid old m.inForce } else s
  { s with parts := s.parts.upd pid Part.absent fun p => { p with st := st, record := r } }

/-- CREATE of a record. -/
def State.create (s : State) (host : Nat) (b : List Byte) : State :=
  let pid := field b 0 1
  let r := recordOf b 0
  if (s.part pid).st = .absent ∧ s.valid pid b r then (s.setRecord pid .stopped r).answer host .ok
  else s.answer host (.refused 0)

def execCreate (host : Nat) (s : State) : Out :=
  .next (match s.take? host with | some (.create b, s) => s.owner host fun s => s.create host b | _ => s)

/-- MODIFY (R394, R395). -/
def State.modify (s : State) (host : Nat) (b : List Byte) : State :=
  let pid := field b 0 1
  let p := s.part pid
  let r := recordOf b p.record.fcount
  let o := p.record
  match p.st with
  | .stopped => if s.valid pid b r then (s.setRecord pid .stopped r).answer host .ok else s.answer host (.refused 0)
  | .running =>
    if r.quads ≠ o.quads ∨ r.ptroot ≠ o.ptroot ∨ r.ctrBase ≠ o.ctrBase ∨ r.ctrLast ≠ o.ctrLast then s.answer host .denied
    else if s.valid pid b r then (s.setRecord pid .running r).answer host .ok
    else s.answer host (.refused 0)
  | _ => s.answer host (.refused 0)

def execModify (host : Nat) (s : State) : Out :=
  .next (match s.take? host with | some (.modify b, s) => s.owner host fun s => s.modify host b | _ => s)

/-! Life cycle (R395, R396). -/

/-- The node of the first control strand. -/
def bootNode (pid base : Nat) (k : Kernel) : NodeRun :=
  { part := pid, recAddr := 0, replay := none, gate := none, kernel := base, hdr := k.hdr, nstr := 1, tier := .core, queue := 0
    succ := [], param := 0, slot := 0, boot := true, st := .waiting, age := 0, members := [], due := [], errs := 0, epc := 0, core := 0
    user := false, verified := true, sailOnly := k.hdr.cls == 2 || (k.hdr.cls == 0 && k.query), killed := false }

/-- START refused with a reason of R279, or 12. -/
def State.startRefused (s : State) (host pid reason : Nat) : State :=
  (s.event (.startRefused pid reason)).answer host (.refused reason)

/-- START (R396). -/
def State.start (s : State) (host pid base : Nat) : State :=
  if (s.part pid).st ≠ .stopped then s.answer host (.refused 0)
  else
    match s.verify pid base false with
    | (.error r, t) => t.startRefused host pid r
    | (.ok k, t) =>
      if !k.hdr.ctrl then s.startRefused host pid 12
      else
        let n := t.mill.nextId
        let t : State := { t with parts := t.parts.upd pid Part.absent fun p => { p with st := .running } }
        ((t.onMill fun m => { m with nextId := n + 1, nodes := NMap.set n (bootNode pid base k) m.nodes }).nodeReady n).answer host .ok

def execStart (host : Nat) (s : State) : Out :=
  .next (s.onceThere (match s.take? host with | some (.start pid base, s) => s.owner host fun s => s.start host pid base | _ => s))

/-- RESET of a partition that runs. -/
def execReset (host part : Nat) (s : State) : Out :=
  .next (match s.take? host with
    | some (.reset p, s') =>
      if p ≠ part then s
      else s'.owner host fun s => if (s.part p).st = .running then (s.contain p).answer host .ok else s.answer host (.refused 0)
    | _ => s)

def execResetComplete (part : Nat) (s : State) : Out :=
  .next (if (s.part part).st = .resetting then
    ({ s with parts := s.parts.upd part Part.absent fun p => { p with st := .stopped } } : State).event (.stopped part) else s)

def execDestroy (host part : Nat) (s : State) : Out :=
  .next (match s.take? host with
    | some (.destroy p, s') =>
      if p ≠ part then s
      else s'.owner host fun s =>
        if (s.part p).st = .stopped then
          ({ s.setRecord p .absent PartRec.zero with parts := NMap.del p s.parts } : State).answer host .ok
        else s.answer host (.refused 0)
    | _ => s)

/-! Firmware and bring-up (R399, R401). -/

/-- R399: an image is accepted. -/
def State.imageGood (s : State) (image sig : List Byte) (version : Nat) : Bool :=
  Config.rsaVerifies (sha512 image) sig && decide (s.mgmt.rollback ≤ version)

def execFwupdate (host : Nat) (s : State) : Out :=
  .next (match s.take? host with
    | some (.fwupdate image sig v, s) => s.owner host fun s =>
        if s.imageGood image sig v then (s.onMgmt fun m => { m with fwPending := some (image, sig, v) }).answer host .ok
        else s.answer host (.refused 0)
    | _ => s)

/-- The machine as it leaves reset: what hosts have asked, the firmware, the serial number, memory outside the scratchpads
and what the model keeps for itself remain (log entry 23). -/
def State.afterReset (s : State) : State :=
  { State.reset with
    mem := s.mem.filter fun c => !isPad c.1
    poison := s.poison.filter fun g => !isPad (16 * g)
    board := s.board, agenda := s.agenda, freeCount := s.freeCount
    mgmt := { Mgmt.reset with
      mailbox := s.mgmt.mailbox, answers := s.mgmt.answers, fwImage := s.mgmt.fwImage, fwSig := s.mgmt.fwSig, fwVersion := s.mgmt.fwVersion, fwDigest := s.mgmt.fwDigest
      rollback := s.mgmt.rollback, fwPending := s.mgmt.fwPending, serial := s.mgmt.serial } }

/-- Step 1: the image in place is verified, an update that waits taking its place first (R399). -/
def State.bootFirmware (s : State) : Bool × State :=
  let s := match s.mgmt.fwPending with
    | some (image, sig, v) => s.onMgmt fun m => { m with fwPending := none, fwImage := image, fwSig := sig, fwVersion := v }
    | none => s
  if s.imageGood s.mgmt.fwImage s.mgmt.fwSig s.mgmt.fwVersion then
    (true, s.onMgmt fun m => { m with fwDigest := sha512 m.fwImage })
  else (false, s)

/-- The route to a package: up to four ports in some order, a free value. -/
def State.drawRoute (s : State) (k : Nat) : State :=
  let (r, s) := s.draw (13 ^ 4)
  let ports := (((List.range 4).map fun i => r / 13 ^ i % 13).filter fun p => decide (p < 12)).eraseDups
  s.onLinks fun l => { l with routes := NMap.set k ports l.routes }

/-- The number of this package, the packages present, the ports of each route and what the others have filled are free values; firmware tells
the others what this one has (R2, R374; log entry 8). -/
def State.number (s : State) : State :=
  let (p, s) := s.draw 16
  let (m, s) := s.draw (2 ^ 16)
  let members := (List.range 16).filter fun i => i == p || m.testBit i
  let s : State := { s with dom := { s.dom with pkg := p, members := members, lost := [], filled := [] } }
  s.peers.foldl (fun s k =>
    let (c, s) := s.draw (2 ^ 40 + 1)
    let s : State := { s with dom := { s.dom with filled := NMap.set k c s.dom.filled } }
    (s.drawRoute k).tell k (.manage (leBytes 8 p ++ leBytes 8 s.board.bytes))) s

/-- What the board fits, by `Config.board`: an AXV7-M, or a bare package with the same channels on every stack and at most 1 TiB in all (R1,
R2). -/
def Board.fitted : Board :=
  if Config.board 0 % 2 = 0 then Board.m
  else
    let n := 16 * (Config.board 1 % 4 + 1)
    { form := .bare, channels := n, channelBytes := min (Config.board 2) (2 ^ 40 / n) }

/-- Step 3: the board, and the remap table of R332: a channel of a stack that is not filled goes to one of the stack's that is, which one being a
free value. -/
def State.fitBoard (s : State) : State :=
  let n := Board.fitted.channels / 4
  let s : State := { s with board := Board.fitted, mgmt := { s.mgmt with remap := [] } }
  ((List.range 64).filter fun c => decide (n ≤ c % 16)).foldl (fun s c =>
    let (k, s) := s.draw n
    s.onMgmt fun m => { m with remap := NMap.set c (c / 16 * 16 + k) m.remap }) s

/-- Steps 2 to 5 in order; the free value of a step says whether it fails. -/
def State.bringUp (s : State) : State :=
  let stop (s : State) (k : Nat) : State := s.event (.bringUp k)
  let (ok, s) := s.bootFirmware
  if !ok then stop s 1
  else
    let s := (List.range 512).foldl (fun s c => s.trim c) s
    let (a, s) := s.draw 2
    let (b, s) := s.draw 2
    let (c, s) := s.draw 2
    let (d, s) := s.draw 2
    if a = 0 then stop s 2
    else if b = 0 then stop s 3
    else if c = 0 then stop s.fitBoard 4
    else
      let s := s.fitBoard
      let s : State := { s with dom := { s.dom with hostUp := true } }
      if d = 0 then stop s 5
      else
        let s := ((List.range 12).foldl (fun s p => s.trainPort p) s).number.setCap
        s.onMgmt fun m => { m with up := true, owner := .vacant }

def execDeviceReset (s : State) : Out := .next s.afterReset.bringUp

end Sys2Proof.Machine
end

