-- ==== Sys2Proof/Machine/Vector.lean ====
section
/-!
DEFINITION. Vector instructions of OP 0x38 to 0x3F: arithmetic, comparison, merge, conversion, special functions
(06_vector.md).
-/

namespace Sys2Proof.Machine

/-! Elementwise forms. -/

/-- vD[i] ← f(i), in the format of `vtype`, for the active elements; `ok` is the row of R125. -/
def State.vecMapR (s : State) (t : Ctl) (ok : Fmt → Bool) (d : Reg) (srcs : List Reg) (src : Src) (f : State → Nat → FRes) :
    Res Unit :=
  let all := srcs ++ srcRegs src
  s.vecRes t { legal := s.srcOk src, typeOk := ok s.fmt, srcs := all.map s.req, dsts := [d], reads := .elems }
    fun l s => .ok () ((s.fill d s.sew l (f s)).okResult d all)

/-- The same with the end of the instruction. -/
def State.vecMap (s : State) (t : Ctl) (ok : Fmt → Bool) (d : Reg) (srcs : List Reg) (src : Src) (nx : Word)
    (f : State → Nat → FRes) : Out := (s.vecMapR t ok d srcs src f).fin s nx

/-- A binary function by its effect on integers, on floats, on bits. -/
structure BinFn where
  ints : Nat → Int → Int → Int
  floats : FloatFmt → Rnd → Nat → Nat → FRes

/-- One element of a binary function (R126 to R129): on integers of width w it is given w and the operands by value. -/
def State.bin (s : State) (fn : BinFn) (d : Reg) (src : Src) (i a b : Nat) : FRes :=
  match floatOf s.fmt with
  | some q => fn.floats q (s.rndV s.rmode d i) a b
  | none =>
    plainRes (elemBits s.fmt s.npk (fn.ints (intWidth s.fmt s.npk) (elemInt s.fmt s.npk a) (lastInt s.fmt s.npk src b)))

/-- The binary instructions of OP 0x38 and 0x39. -/
def State.vecBinR (s : State) (ok : Fmt → Bool) (fn : BinFn) (d a : Reg) (src : Src) (t : Ctl) : Res Unit :=
  s.vecMapR t ok d [a] src fun s i => s.bin fn d src i (lane (s.v a) s.sew i) (s.srcElem s.fmt src i)

/-- The same with the end of the instruction. -/
def State.vecBin (s : State) (ok : Fmt → Bool) (fn : BinFn) (d a : Reg) (src : Src) (t : Ctl) : Out :=
  (s.vecBinR ok fn d a src t).fin s (s.act.pc + src.bytes)

/-- A float function that an integer-only row has no use for. -/
def noFloat (_ : FloatFmt) (_ : Rnd) (_ _ : Nat) : FRes := plainRes 0
/-- An integer function that a float-only row has no use for. -/
def noInt (_ : Nat) (_ _ : Int) : Int := 0

/-- A float function on values. -/
def onVals (f : FloatFmt → Rnd → FVal → FVal → FRes) (q : FloatFmt) (rd : Rnd) (a b : Nat) : FRes :=
  f q rd (FVal.ofBits q a) (FVal.ofBits q b)

/-- a − b with one rounding. -/
def vSubV (q : FloatFmt) (rd : Rnd) (a b : FVal) : FRes := fAddV q rd a b.neg

/-- R126 `vdiv`. -/
def intDiv (_ : Nat) (a b : Int) : Int := if b = 0 then -1 else a.tdiv b
/-- The shift count of an element of width w; NP takes 4 bits (R126, R128). -/
def elemCount (np : Bool) (w : Nat) (b : Int) : Nat := bitsOf (if np then 4 else w.log2) b
/-- R126 `vshl`. -/
def intShl (np : Bool) (w : Nat) (a b : Int) : Int := a * (2 ^ elemCount np w b : Nat)
/-- R126 `vshr`: zeros come in. -/
def intShr (np : Bool) (w : Nat) (a b : Int) : Int := (bitsOf w a >>> elemCount np w b : Nat)
/-- R126 `vsra`: the sign comes in; on a U format, whose elements have none, bit w − 1 does (DEDUCED, log entry 50). -/
def intSra (np : Bool) (w : Nat) (a b : Int) : Int := signedOf w (bitsOf w a) / (2 ^ elemCount np w b : Nat)
/-- R126 bitwise functions on w bits. -/
def intBits (f : Nat → Nat → Nat) (w : Nat) (a b : Int) : Int := f (bitsOf w a) (bitsOf w b)

/-- R127 `vabsd`: |a − b| from the exact difference, rounded once; a NaN where `fsub` gives one. -/
def fAbsDiff (q : FloatFmt) (rd : Rnd) (a b : FVal) : FRes :=
  match a, b with
  | .fin n m e, .fin k m' e' =>
    let x := (FVal.fin n m e).dy.add (FVal.fin k m' e').dy.neg
    roundDy q rd false { m := x.m.natAbs, e := x.e }
  | a, b => let r := vSubV q rd a b; if r.bits = q.nanBits then r else { bits := q.infBits, flags := r.flags }

/-- R127 `vsgnj`: the magnitude of a with the sign bit of b. -/
def fSignJoin (q : FloatFmt) (_ : Rnd) (a b : Nat) : FRes :=
  match FVal.ofBits q a with
  | .nan sn => FRes.nan q sn
  | _ => plainRes (q.signed ((b >>> (q.ebits + q.fbits)) % 2 == 1) (a % 2 ^ (q.ebits + q.fbits)))

/-- R130 on floats: a result that finite operands make infinite becomes the largest finite value of its sign. -/
def fSat (f : FloatFmt → Rnd → FVal → FVal → FRes) (q : FloatFmt) (rd : Rnd) (a b : Nat) : FRes :=
  let x := FVal.ofBits q a
  let y := FVal.ofBits q b
  let r := f q rd x y
  let neg := r.bits / 2 ^ (q.ebits + q.fbits) == 1
  if r.bits % 2 ^ (q.ebits + q.fbits) = q.infBits ∧ !x.isInf ∧ !y.isInf then { r with bits := q.signed neg q.maxBits } else r

/-- Limits of an integer or NP element (R130). -/
def elemSat (q : Fmt) (k : Nat) (x : Int) : Int :=
  if q = .np then sat x (-(2 ^ (k - 1) : Nat)) ((2 ^ (k - 1) : Nat) - 1) else sat x (fmtMin q) (fmtMax q)

/-- The rows of R125. -/
def okAdd : Fmt → Bool := fmtIn true true true false
/-- Integers and NP. -/
def okLogic : Fmt → Bool := fmtIn true false true false
/-- Integers and floats. -/
def okMul : Fmt → Bool := fmtIn true true false false
/-- Integers. -/
def okInts : Fmt → Bool := fmtIn true false false false
/-- Floats. -/
def okFloats : Fmt → Bool := fmtIn false true false false
/-- Every format of `vtype`. -/
def okAll : Fmt → Bool := fmtIn true true true true

/-- `vadd` (R126 to R129). -/
def fnAdd : BinFn := { ints := fun _ x y => x + y, floats := onVals fAddV }
/-- `vsub` (R126 to R129). -/
def fnSub : BinFn := { ints := fun _ x y => x - y, floats := onVals vSubV }
/-- `vmul` (R126 to R129). -/
def fnMul : BinFn := { ints := fun _ x y => x * y, floats := onVals fMulV }
/-- `vmin` (R126 to R129). -/
def fnMin : BinFn := { ints := fun _ x y => min x y, floats := fun q _ => fMinMax q false }
/-- `vmax` (R126 to R129). -/
def fnMax : BinFn := { ints := fun _ x y => max x y, floats := fun q _ => fMinMax q true }
/-- `vand` (R126 to R129). -/
def fnAnd : BinFn := { ints := intBits (· &&& ·), floats := noFloat }
/-- `vor` (R126 to R129). -/
def fnOr : BinFn := { ints := intBits (· ||| ·), floats := noFloat }
/-- `vxor` (R126 to R129). -/
def fnXor : BinFn := { ints := intBits (· ^^^ ·), floats := noFloat }

def execVadd (d a : Reg) (src : Src) (t : Ctl) (s : State) : Out :=
  s.vecBin okAdd fnAdd d a src t
def execVsub (d a : Reg) (src : Src) (t : Ctl) (s : State) : Out :=
  s.vecBin okAdd fnSub d a src t
def execVmul (d a : Reg) (src : Src) (t : Ctl) (s : State) : Out :=
  s.vecBin okMul fnMul d a src t
def execVdiv (d a : Reg) (src : Src) (t : Ctl) (s : State) : Out :=
  s.vecBin okMul { ints := intDiv, floats := onVals fDivV } d a src t
def execVmin (d a : Reg) (src : Src) (t : Ctl) (s : State) : Out :=
  s.vecBin okAll fnMin d a src t
def execVmax (d a : Reg) (src : Src) (t : Ctl) (s : State) : Out :=
  s.vecBin okAll fnMax d a src t
def execVand (d a : Reg) (src : Src) (t : Ctl) (s : State) : Out :=
  s.vecBin okLogic fnAnd d a src t
def execVor (d a : Reg) (src : Src) (t : Ctl) (s : State) : Out :=
  s.vecBin okLogic fnOr d a src t
def execVxor (d a : Reg) (src : Src) (t : Ctl) (s : State) : Out :=
  s.vecBin okLogic fnXor d a src t
def execVshl (d a : Reg) (src : Src) (t : Ctl) (s : State) : Out :=
  s.vecBin okLogic { ints := intShl (s.fmt == .np), floats := noFloat } d a src t
def execVshr (d a : Reg) (src : Src) (t : Ctl) (s : State) : Out :=
  s.vecBin okLogic { ints := intShr (s.fmt == .np), floats := noFloat } d a src t
def execVsra (d a : Reg) (src : Src) (t : Ctl) (s : State) : Out :=
  s.vecBin okLogic { ints := intSra (s.fmt == .np), floats := noFloat } d a src t
def execVmulh (d a : Reg) (src : Src) (t : Ctl) (s : State) : Out :=
  s.vecBin okInts { ints := fun w x y => x * y / (2 ^ w : Nat), floats := noFloat } d a src t
def execVabsd (d a : Reg) (src : Src) (t : Ctl) (s : State) : Out :=
  s.vecBin okMul { ints := fun _ x y => ((x - y).natAbs : Int), floats := onVals fAbsDiff } d a src t
def execVsgnj (d a : Reg) (src : Src) (t : Ctl) (s : State) : Out :=
  s.vecBin okFloats { ints := noInt, floats := fSignJoin } d a src t
def execVaddSat (d a : Reg) (src : Src) (t : Ctl) (s : State) : Out :=
  s.vecBin okAdd { ints := fun _ x y => elemSat s.fmt s.npk (x + y), floats := fSat fAddV } d a src t
def execVsubSat (d a : Reg) (src : Src) (t : Ctl) (s : State) : Out :=
  s.vecBin okAdd { ints := fun _ x y => elemSat s.fmt s.npk (x - y), floats := fSat vSubV } d a src t
def execVmulSat (d a : Reg) (src : Src) (t : Ctl) (s : State) : Out :=
  s.vecBin okMul { ints := fun _ x y => elemSat s.fmt s.npk (x * y), floats := fSat fMulV } d a src t

/-- R131: ±(a × b) ± c. -/
def State.vecFma (s : State) (negP negC : Bool) (d a b : Reg) (src : Src) (t : Ctl) : Out :=
  s.vecMap t okMul d [a, b] src (s.act.pc + src.bytes) fun s i =>
    let w := s.sew
    let x := lane (s.v a) w i
    let y := lane (s.v b) w i
    let z := s.srcElem s.fmt src i
    match floatOf s.fmt with
    | some q =>
      let vx := FVal.ofBits q x
      let vz := FVal.ofBits q z
      fFmaV q (s.rndV s.rmode d i) (if negP then vx.neg else vx) (FVal.ofBits q y) (if negC then vz.neg else vz)
    | none =>
      let p := intOf s.fmt x * intOf s.fmt y
      let c := intOf s.fmt z
      plainRes (bitsOf w ((if negP then -p else p) + if negC then -c else c))

def execVfma (d a b : Reg) (src : Src) (t : Ctl) (s : State) : Out := s.vecFma false false d a b src t
def execVfms (d a b : Reg) (src : Src) (t : Ctl) (s : State) : Out := s.vecFma false true d a b src t
def execVfnma (d a b : Reg) (src : Src) (t : Ctl) (s : State) : Out := s.vecFma true false d a b src t
def execVfnms (d a b : Reg) (src : Src) (t : Ctl) (s : State) : Out := s.vecFma true true d a b src t

/-- R132: the one-source functions. -/
def State.vecUn (s : State) (ok : Fmt → Bool) (ints : Int → Int) (floats : FloatFmt → Rnd → Nat → FRes) (d a : Reg)
    (t : Ctl) : Out :=
  s.vecMap t ok d [a] (.imm 0) s.after fun s i =>
    let x := lane (s.v a) s.sew i
    match floatOf s.fmt with
    | some q => floats q (s.rndV s.rmode d i) x
    | none => plainRes (elemBits s.fmt s.npk (ints (elemInt s.fmt s.npk x)))

def execVneg (d a : Reg) (t : Ctl) (s : State) : Out := s.vecUn okAdd (fun x => -x) (fun q _ => fSign q false) d a t
/-- R125: I formats, floats and NP. -/
def execVabs (d a : Reg) (t : Ctl) (s : State) : Out :=
  s.vecUn (fun q => fmtSigned q || fmtFloat q || q == .np) (fun x => (x.natAbs : Int)) (fun q _ => fSign q true) d a t
def execVsqrt (d a : Reg) (t : Ctl) (s : State) : Out :=
  s.vecUn okFloats id (fun q rd x => fSqrtV q rd (FVal.ofBits q x)) d a t
def execVnot (d a : Reg) (t : Ctl) (s : State) : Out :=
  s.vecUn okLogic (fun x => -x - 1) (fun _ _ x => plainRes x) d a t

/-- R132: bit for bit, with the block-validity bits. -/
def execVmov (d a : Reg) (t : Ctl) (s : State) : Out :=
  s.vecOp t { legal := true, typeOk := okAll s.fmt, srcs := [s.req a], dsts := [d], reads := .elems } s.after fun l s =>
    let m := okMask s.vl s.sew
    .ok () ((s.fill d s.sew l fun i => plainRes (lane (s.v a) s.sew i)).setVok d ((s.vok d &&& ~~~m) ||| (s.vok a &&& m)))

/-! Comparison and merge (R133, R134). -/

/-- The relation of two integers. -/
def Rel.ints (r : Rel) (a b : Int) : Bool :=
  match r with
  | .eq => a == b
  | .ne => a != b
  | .lt => decide (a < b)
  | .le => decide (a ≤ b)
  | .gt => decide (b < a)
  | .ge => decide (b ≤ a)
  | .un => false

/-- The block-validity bit that covers 16-bit element i of a register. -/
def State.blockOk (s : State) (r : Reg) (i : Nat) : Bool := (s.vok r).getLsbD (i / 64)

/-- One comparison of R133: its truth and its flags. -/
def State.cmpElem (s : State) (rel : Rel) (a : Reg) (src : Src) (i : Nat) : Bool × FFlags :=
  let x := lane (s.v a) s.sew i
  let y := s.srcElem s.fmt src i
  match floatOf s.fmt with
  | some q => fCompare q rel x y
  | none =>
    let valid := s.fmt != .np || (s.blockOk a i && match src with | .reg r => s.blockOk r i | _ => true)
    if valid then (rel.ints (elemInt s.fmt s.npk x) (lastInt s.fmt s.npk src y), 0)
    else (rel == .ne || rel == .un, 0)

/-- Bits of a mask register written. -/
def State.fillMask (s : State) (d : MReg) (l : List Nat) (f : Nat → Bool × FFlags) : State :=
  let r := l.foldl (fun acc i =>
    let x := f i
    ((if x.1 then acc.1 ||| (1#2048 <<< i) else acc.1 &&& ~~~(1#2048 <<< i)), acc.2 ||| x.2)) (s.m d, (0 : FFlags))
  (s.setM d r.1).raise r.2

/-- R133. -/
def State.vecCmp (s : State) (rel : Rel) (d : MReg) (a : Reg) (src : Src) (t : Ctl) : Out :=
  s.vecOp t { legal := s.srcOk src, typeOk := okAll s.fmt, srcs := (a :: srcRegs src).map s.req, dsts := [], reads := .elems }
    (s.act.pc + src.bytes) fun l s => .ok () (s.fillMask d l (s.cmpElem rel a src))

def execVcmpEq (d : MReg) (a : Reg) (src : Src) (t : Ctl) (s : State) : Out := s.vecCmp .eq d a src t
def execVcmpNe (d : MReg) (a : Reg) (src : Src) (t : Ctl) (s : State) : Out := s.vecCmp .ne d a src t
def execVcmpLt (d : MReg) (a : Reg) (src : Src) (t : Ctl) (s : State) : Out := s.vecCmp .lt d a src t
def execVcmpLe (d : MReg) (a : Reg) (src : Src) (t : Ctl) (s : State) : Out := s.vecCmp .le d a src t
def execVcmpGt (d : MReg) (a : Reg) (src : Src) (t : Ctl) (s : State) : Out := s.vecCmp .gt d a src t
def execVcmpGe (d : MReg) (a : Reg) (src : Src) (t : Ctl) (s : State) : Out := s.vecCmp .ge d a src t
def execVcmpUn (d : MReg) (a : Reg) (src : Src) (t : Ctl) (s : State) : Out := s.vecCmp .un d a src t

/-- R134, R129: A where the mask bit is set, else B; a weight is written saturated. -/
def execVmerge (d a b : Reg) (c : MReg) (t : Ctl) (s : State) : Out :=
  s.vecMap t okAll d [a, b] (.imm 0) s.after fun s i =>
    let x := lane (s.v (if (s.m c).getLsbD i then a else b)) s.sew i
    plainRes (if s.fmt = .uq15 then uqVal x else x)

/-! Conversion (R135, R136). -/

/-- The registers of a group (R135). -/
def groupSize (vl w c : Nat) : Nat := max 1 ((vl * w + 2048 * c - 1) / (2048 * c))

/-- Register number base + n. -/
def regAt (base : Reg) (n : Nat) : Reg := base + BitVec.ofNat 5 n

/-- Elements of one register of a group. -/
def State.perReg (s : State) (w : Nat) : Nat := vlmax s.act.clusters w

/-- Element i of a group. -/
def State.groupLane (s : State) (base : Reg) (w i : Nat) : Nat :=
  let n := s.perReg w
  lane (s.v (regAt base (i / n))) w (i % n)

/-- Element i of a group written. -/
def State.setGroupLane (s : State) (base : Reg) (w i x : Nat) : State :=
  let n := s.perReg w
  let r := regAt base (i / n)
  s.setV r (setLane (s.v r) w (i % n) x)

/-- Validity of block j of an NP group: 2·c blocks to a register. -/
def State.groupOk (s : State) (base : Reg) (j : Nat) : Bool :=
  let n := 2 * s.act.clusters
  (s.vok (regAt base (j / n))).getLsbD (j % n)
/-- Writes the validity of block j of an NP group. -/
def State.setGroupOk (s : State) (base : Reg) (j : Nat) (ok : Bool) : State :=
  let n := 2 * s.act.clusters
  let r := regAt base (j / n)
  let bit := 1#16 <<< (j % n)
  s.setVok r (if ok then s.vok r ||| bit else s.vok r &&& ~~~bit)

/-- A side of `vcvt`: how many registers hold elements, and the register of its exponents. -/
def State.cvtGroup (s : State) (q : Fmt) : Nat := groupSize s.vl (fmtWidth q) s.act.clusters
/-- The registers of a side, its exponent register among them. -/
def State.cvtRegs (s : State) (q : Fmt) (base : Reg) : List Reg :=
  (List.range (s.cvtGroup q + if q = .np then 1 else 0)).map (regAt base)

/-- The sources that a side of `vcvt` reads. -/
def State.cvtReqs (s : State) (q : Fmt) (base : Reg) : List SReq :=
  let n := s.perReg (fmtWidth q)
  (List.range (s.cvtGroup q)).map fun j =>
    { r := regAt base j, count := min n (s.vl - j * n), w := fmtWidth q, k := if q = .np then some s.npk else none, first := j * n }

/-- R50 names the pair of formats. -/
def cvtPair (src dst : Fmt) : Bool :=
  if src = .bfa24 ∨ dst = .bfa24 then false
  else if src = .np then dst = .np || fmtFloat dst
  else if dst = .np then fmtFloat src
  else (convert src dst Rnd.rne false 0).isSome

/-- One element of an NP source as a float (R50, R40); exponent 0xFF is a NaN scale (R35). -/
def npToFloat (q : FloatFmt) (rd : Rnd) (k : Nat) (ok : Bool) (b e : Nat) : FRes :=
  if ok && e != 0xFF then roundDy q rd false (npVal k (signedOf k b) e) else plainRes q.nanBits

/-- One element of a conversion that is not to NP. -/
def State.cvtElem (s : State) (d a : Reg) (dst src : Fmt) (mode : RMode) (satur : Bool) (i : Nat) : FRes :=
  let b := s.groupLane a (fmtWidth src) i
  let rd := s.rndV mode d i
  match src, floatOf dst with
  | .np, some q =>
    let e := lane (s.v (regAt a (s.cvtGroup src))) 8 (i / 64)
    let r := npToFloat q rd s.npk (s.groupOk a (i / 64)) b e
    if satur && r.bits % 2 ^ (q.ebits + q.fbits) == q.infBits then { r with bits := r.bits - 1 } else r
  | _, _ => (convert src dst rd satur b).getD (plainRes 0)

/-- Elements of a group written, with their flags. -/
def State.fillGroup (s : State) (base : Reg) (w : Nat) (l : List (Nat × FRes)) : State :=
  (l.foldl (fun s p => s.setGroupLane base w p.1 p.2.bits) s).raise (unionFlags (l.map (·.2.flags)))

/-- R51, R136: one block of a conversion to NP: its active elements decide the exponent and the validity. -/
def State.cvtBlock (s0 : State) (d a : Reg) (src : Fmt) (mode : RMode) (k j : Nat) (l : List Nat) (s : State) : State :=
  match floatOf src with
  | none => s
  | some q =>
    let b := toNpBlock k (l.map fun i => (FVal.ofBits q (s0.groupLane a (fmtWidth src) i), s0.rndV mode d i))
    let s := (l.zip b.ints).foldl (fun s p => s.setGroupLane d 16 p.1 (bitsOf 16 p.2)) s
    let r := regAt d (s.cvtGroup .np)
    ((s.putExp r j b.exp).setGroupOk d j b.valid).raise b.flags

/-- R50: one element from k planes to j. -/
def State.npElem (s : State) (d a : Reg) (mode : RMode) (j i : Nat) : FRes :=
  let x := npPlanes s.npk j (s.rndV mode d i) (signedOf s.npk (s.groupLane a 16 i))
  { bits := bitsOf 16 x.1, flags := x.2 }

/-- The block-validity bits of a group whose result is not NP (R40). -/
def State.okGroup (s : State) (q : Fmt) (d : Reg) : State :=
  let n := s.perReg (fmtWidth q)
  (List.range (s.cvtGroup q)).foldl (fun s j =>
    let r := regAt d j
    s.setVok r (s.vok r ||| okMask (min n (s.vl - j * n)) (fmtWidth q))) s

/-- R135, R136: `vcvt`. -/
def execVcvt (d a : Reg) (dst src : Fmt) (md : Mode) (satur : Bool) (j : BitVec 4) (t : Ctl) (s : State) : Out :=
  let mode := RMode.ofMode s.rmode md
  let k := j.toNat + 1
  let fits (q : Fmt) (base : Reg) : Bool := decide (base.toNat + (s.cvtRegs q base).length ≤ 32)
  let legal := fits dst d && fits src a && (dst == .np || j == 0)
  let typeOk := cvtPair src dst && (src != .np || s.fmt == .np)
  s.vecOp t { legal := legal, typeOk := typeOk, srcs := s.cvtReqs src a, dsts := s.cvtRegs dst d, reads := .elems }
    s.after fun l s0 =>
      if dst = .np ∧ src = .np then
        let e := s0.v (regAt a (s0.cvtGroup src))
        let s := s0.fillGroup d 16 (l.map fun i => (i, s0.npElem d a mode k i))
        let blocks := List.range ((s0.vl + 63) / 64)
        let re := regAt d (s0.cvtGroup dst)
        let s := blocks.foldl (fun s b => s.putExp re b (lane e 8 b)) s
        .ok () (blocks.foldl (fun s b => s.setGroupOk d b (s0.groupOk a b)) s)
      else if dst = .np then
        .ok () ((blocksOf s0.vl l).foldl (fun s b => s0.cvtBlock d a src mode k b (inBlock l b) s) s0)
      else
        .ok () ((s0.fillGroup d (fmtWidth dst) (l.map fun i => (i, s0.cvtElem d a dst src mode satur i))).okGroup dst d)

/-! Special functions (R137). -/

/-- The special results of R137 and `vsqrt`: bits and flags; nothing where the function's value is computed. -/
def sfuSpecial (fn : Sfu) (x : FVal) : Option FRes :=
  let one := 0x3F800000
  let inf (n : Bool) : FRes := plainRes (fp32.signed n fp32.infBits)
  let zero (n : Bool) : FRes := plainRes (fp32.signed n 0)
  let nv : FRes := FRes.nan fp32 true
  match x with
  | .nan sn => some (FRes.nan fp32 sn)
  | .inf n =>
    match fn with
    | .exp | .exp2 => some (if n then zero false else inf false)
    | .log | .log2 | .sqrt => some (if n then nv else inf false)
    | .rcp => some (zero n)
    | .rsqrt => some (if n then nv else zero false)
    | .tanh => some (plainRes (fp32.signed n one))
    | .sig => some (if n then zero false else plainRes one)
    | .gelu => some (if n then zero true else inf false)
    | .sin | .cos => some nv
  | .fin n m e =>
    if m = 0 then
      match fn with
      | .exp | .exp2 | .cos => some (plainRes one)
      | .log | .log2 => some { bits := fp32.signed true fp32.infBits, flags := flagDZ }
      | .rcp | .rsqrt => some { bits := fp32.signed n fp32.infBits, flags := flagDZ }
      | .sqrt | .tanh | .gelu | .sin => some (zero n)
      | .sig => some (plainRes 0x3F000000)
    else
      match fn with
      | .log | .log2 =>
        if n then some nv else if m = 2 ^ m.log2 ∧ (m.log2 : Int) + e = 0 then some (zero false) else none
      | .rsqrt | .sqrt => if n then some nv else none
      | _ => none

/-- The bound of R137 is 2 ulp. -/
def Sfu.wide : Sfu → Bool
  | .tanh | .sig | .gelu | .sin | .cos => true
  | _ => false

/-- The code of a function in the free choice. -/
def Sfu.code : Sfu → Nat
  | .exp => 0 | .exp2 => 1 | .log => 2 | .log2 => 3 | .rcp => 4 | .rsqrt => 5 | .sqrt => 6 | .tanh => 7 | .sig => 8
  | .gelu => 9 | .sin => 10 | .cos => 11

/-- The FP32 result of a function where no special result stands, `c` being the free choice within its bound, and the value
itself where FP32 has it. -/
def sfuValue (fn : Sfu) (neg : Bool) (m : Nat) (e : Int) (c : Nat) : Nat × Option Nat :=
  let (n, x, _) := sfuReal fn neg m e
  let big := decide ((Mag.dyadic m e).log2 ≥ 16) && !(m == 2 ^ m.log2 && (Mag.dyadic m e).log2 == 16)
  let near : Bool :=
    match fn with
    | .sin | .cos => big
    | .gelu => decide ((Mag.dyadic m e).log2 < 0)
    | _ => false
  if near then (sfuNear c n x, none) else sfuChoose fn.wide (fn == .rcp || fn == .exp2) c n x

/-- R137: one element. The choice within the bound is the free function `Config.sfuChoice` of the function and the input, so
that the same input gives the same bits everywhere (R55; log entry 14). -/
def sfuElem (q : FloatFmt) (fn : Sfu) (b : Nat) : FRes :=
  let v := FVal.ofBits q b
  match sfuSpecial fn v with
  | some r => if q = fp32 then r else { bits := (convFF fp32 q Rnd.rne false r.bits).bits, flags := r.flags }
  | none =>
    match v with
    | .fin neg m e =>
      let c := Config.sfuChoice fn.code (convFF q fp32 Rnd.rne false b).bits
      let (r, ex) := sfuValue fn neg m e c
      let y := convFF fp32 q Rnd.rne false r
      let exact := ex.any fun x => let z := convFF fp32 q Rnd.rne false x; z.flags == 0 && z.bits == y.bits
      let mag := y.bits % 2 ^ (q.ebits + q.fbits)
      let tiny := decide (mag < 2 ^ q.fbits) || y.flags &&& flagUF != 0
      { bits := y.bits
        flags := flagIf (!exact) flagNX ||| flagIf (mag == q.infBits) flagOF ||| flagIf (tiny && !exact) flagUF }
    | _ => plainRes 0

/-- R137. -/
def State.vecSfu (s : State) (fn : Sfu) (d a : Reg) (t : Ctl) : Out :=
  s.vecMap t okFloats d [a] (.imm 0) s.after fun s i =>
    match floatOf s.fmt with
    | some q => sfuElem q fn (lane (s.v a) s.sew i)
    | none => plainRes 0

def execVsfuExp (d a : Reg) (t : Ctl) (s : State) : Out := s.vecSfu .exp d a t
def execVsfuExp2 (d a : Reg) (t : Ctl) (s : State) : Out := s.vecSfu .exp2 d a t
def execVsfuLog (d a : Reg) (t : Ctl) (s : State) : Out := s.vecSfu .log d a t
def execVsfuLog2 (d a : Reg) (t : Ctl) (s : State) : Out := s.vecSfu .log2 d a t
def execVsfuRcp (d a : Reg) (t : Ctl) (s : State) : Out := s.vecSfu .rcp d a t
def execVsfuRsqrt (d a : Reg) (t : Ctl) (s : State) : Out := s.vecSfu .rsqrt d a t
def execVsfuSqrt (d a : Reg) (t : Ctl) (s : State) : Out := s.vecSfu .sqrt d a t
def execVsfuTanh (d a : Reg) (t : Ctl) (s : State) : Out := s.vecSfu .tanh d a t
def execVsfuSig (d a : Reg) (t : Ctl) (s : State) : Out := s.vecSfu .sig d a t
def execVsfuGelu (d a : Reg) (t : Ctl) (s : State) : Out := s.vecSfu .gelu d a t
def execVsfuSin (d a : Reg) (t : Ctl) (s : State) : Out := s.vecSfu .sin d a t
def execVsfuCos (d a : Reg) (t : Ctl) (s : State) : Out := s.vecSfu .cos d a t

end Sys2Proof.Machine
end

