-- ==== Sys2Proof/Machine/Optimiser.lean ====
section
/-!
DEFINITION. The optimiser step and the sparsity pair of the vector queue: `vopt`, `vsal`, `vnms` (R225 to R228).
-/

namespace Sys2Proof.Machine

/-! Values. -/

/-- The exact product; an invalid one is a signalling NaN. -/
def FVal.times (a b : FVal) : FVal :=
  match a, b with
  | .nan s, y => .nan (s || y.isSNaN)
  | x, .nan s => .nan (s || x.isSNaN)
  | .inf n, y => if y.isZero then .nan true else .inf (n != y.isNeg)
  | x, .inf n => if x.isZero then .nan true else .inf (n != x.isNeg)
  | .fin n m e, .fin k m' e' => .fin (n != k) (m * m') (e + e')

/-- The exact sum; an invalid one is a signalling NaN. -/
def FVal.plus (a b : FVal) : FVal :=
  match a, b with
  | .nan s, y => .nan (s || y.isSNaN)
  | x, .nan s => .nan (s || x.isSNaN)
  | .inf n, .inf k => if n = k then .inf n else .nan true
  | .inf n, _ => .inf n
  | _, .inf n => .inf n
  | .fin n m e, .fin k m' e' =>
    let d := Dy.add (FVal.fin n m e).dy (FVal.fin k m' e').dy
    if d.m = 0 then .fin (n && k) 0 0 else .fin (decide (d.m < 0)) d.m.natAbs d.e

/-- `rnd` of R225. -/
def FVal.rnd (x : FVal) : FRes :=
  match x with
  | .nan s => FRes.nan fp32 s
  | .inf n => { bits := fp32.signed n fp32.infBits, flags := 0 }
  | .fin n m e => roundMag fp32 Rnd.rne n (.dyadic m e)

/-- The value of FP32 bits. -/
def f32 (b : Nat) : FVal := FVal.ofBits fp32 b
/-- A NaN or an infinity. -/
def FVal.bad (x : FVal) : Bool := x.isNaN || x.isInf

/-! One element (R225). -/

/-- The forms of `vopt`. -/
inductive Opt where
  | sgd | msgd | adam
deriving DecidableEq, Repr

/-- Bytes of state of a block. -/
def Opt.size : Opt → Nat
  | .sgd => 0 | .msgd => 256 | .adam => 512

/-- The parameter record. -/
structure OptPar where
  lr : FVal
  b1 : FVal
  b2 : FVal
  eps : FVal
  c1 : FVal
  c2 : FVal
deriving DecidableEq, Repr

/-- The parameters of a record's bytes. -/
def OptPar.ofBytes (bs : List Byte) : OptPar :=
  let f (i : Nat) : FVal := f32 (leNat ((bs.drop i).take 4))
  { lr := f 0, b1 := f 4, b2 := f 8, eps := f 12, c1 := f 16, c2 := f 20 }

/-- An element's step: u, the new momentum and variance, flags. -/
structure OptElem where
  u : Nat
  m : Nat
  v : Nat
  flags : FFlags
deriving DecidableEq, Repr

/-- B·x + (1 − B)·y, rounded once. -/
def blend (b x y : FVal) : FRes := ((b.times x).plus (((f32 0x3F800000).plus b.neg).times y)).rnd

/-- u_e, m_e and v_e from the gradient and the old state. -/
def Opt.elem (k : Opt) (p : OptPar) (g m v : Nat) : OptElem :=
  match k with
  | .sgd => { u := g, m := 0, v := 0, flags := 0 }
  | .msgd =>
    let r := ((p.b1.times (f32 m)).plus (f32 g)).rnd
    { u := r.bits, m := r.bits, v := 0, flags := r.flags }
  | .adam =>
    let m' := blend p.b1 (f32 m) (f32 g)
    let v' := blend p.b2 (f32 v) ((f32 g).times (f32 g))
    let x := fMulV fp32 Rnd.rne (f32 m'.bits) p.c1
    let y := fMulV fp32 Rnd.rne (f32 v'.bits) p.c2
    let r := fSqrtV fp32 Rnd.rne (f32 y.bits)
    let d := fAddV fp32 Rnd.rne (f32 r.bits) p.eps
    let u := fDivV fp32 Rnd.rne (f32 x.bits) (f32 d.bits)
    { u := u.bits, m := m'.bits, v := v'.bits, flags := unionFlags [m'.flags, v'.flags, x.flags, y.flags, r.flags, d.flags, u.flags] }

/-! One block. -/

/-- The loop of R225: the exponent rises until every element fits; `fuel` bounds the exponent's range. `rd` is the rounding
of each element. -/
def optFit (n e0 : Nat) (rd : Nat → Rnd) (l : List Dy) : Nat → Nat → FFlags → List Int × Nat × FFlags
  | 0, e, fl => (l.map fun _ => 0, e, fl)
  | fuel + 1, e, fl =>
    let top : Int := (2 ^ (n - 1) : Nat)
    let r := l.zipIdx.map fun x => roundInt (rd x.2) x.1 ((e : Int) - e0)
    let fl := fl ||| flagIf (r.any (·.2)) flagNX
    if r.all fun x => decide (-top ≤ x.1) && decide (x.1 < top) then (r.map (·.1), e, fl)
    else if e = 0xFE then (l.map fun _ => 0, 0xFF, fl ||| flagOF)
    else optFit n e0 rd l fuel (e + 1) fl

/-- A block's new contents: integers, exponent, state bytes, flags. -/
structure OptNew where
  ints : List Int
  exp : Nat
  state : List Byte
  flags : FFlags
deriving DecidableEq, Repr

/-- The flags that R225 names. -/
def optFlags : FFlags := flagNV ||| flagOF ||| flagUF ||| flagNX

/-- R225 for one block: its integers and exponent, its gradients, its state. An `rnd` that overflows makes it a NaN block, whether u, m or v
is infinite or not (log entry 67). An element without a gradient is not active: it keeps
its integer, as the block's exponent may move it, and its state (R56, R151; log entry 15). -/
def optBlock (k : Opt) (p : OptPar) (n e0 : Nat) (rd : Nat → Rnd) (ints : List Int) (grad : List (Option Nat)) (st : List Byte) : OptNew :=
  let get (i : Nat) : Nat := leNat ((st.drop (4 * i)).take 4)
  let es := grad.zipIdx.map fun g => match g.1 with
    | some x => k.elem p x (get g.2) (get (64 + g.2))
    | none => { u := 0, m := get g.2, v := get (64 + g.2), flags := 0 }
  let live := (es.zip grad).filter fun x => x.2.isSome
  let fl := unionFlags (es.map (·.flags))
  let state := match k with
    | .sgd => []
    | .msgd => es.flatMap fun x => leBytes 4 x.m
    | .adam => (es.flatMap fun x => leBytes 4 x.m) ++ es.flatMap fun x => leBytes 4 x.v
  if e0 = 0xFF ∨ p.lr.bad ∨ fl &&& flagOF ≠ 0 ∨ (live.any fun x => (f32 x.1.u).bad || (f32 x.1.m).bad || (f32 x.1.v).bad) then
    { ints := ints.map fun _ => 0, exp := 0xFF, state := state, flags := (fl ||| flagNV) &&& optFlags }
  else
    let ss := (ints.zip es).map fun x =>
      let t := (p.lr.dy.mul (f32 x.2.u).dy).neg
      (Dy.ofInt x.1).add { t with e := t.e + ((n : Int) - 1) + 127 - e0 }
    let r := optFit n e0 rd ss 256 e0 fl
    { ints := r.1, exp := r.2.1, state := state, flags := r.2.2 &&& optFlags }

/-! The instruction (R225, R226). -/

/-- `c` words of state read from `va` on. -/
def State.readState (va : Nat) : Nat → State → Get (List Byte) × State
  | 0, s => (.ok [], s)
  | c + 1, s =>
    match s.elemRead .update va 4 4 .plain false with
    | (.ok bs, s) =>
      match State.readState ((va + 4) % 2 ^ 64) c s with
      | (.ok r, s) => (.ok (bs ++ r), s)
      | r => r
    | r => r

/-- What a `vopt` works with. -/
structure OptJob where
  k : Opt
  t : NpT
  par : OptPar
  grad : Reg
  state : Nat
  act : List Nat

/-- The bytes of one block that the step changes, with its state's; nothing else of it is left to do. -/
def State.optOne (s : State) (c : OptJob) (j : Nat) : Get (Pieces × FFlags) × State :=
  let get : ByteGet := fun s va n => s.elemRead .update va n n .plain false
  match s.npFetch .update get c.t j c.t.n with
  | (.bad e va, s) => (.bad e va, s)
  | (.stall w, s) => (.stall w, s)
  | (.ok x, s) =>
    let va := (c.state + c.k.size * j) % 2 ^ 64
    match State.readState va (c.k.size / 4) s with
    | (.bad e va, s) => (.bad e va, s)
    | (.stall w, s) => (.stall w, s)
    | (.ok st, s) =>
      let (strip, b) := c.t.block j
      let ints := (List.range 64).map fun e => x.int c.t.n e
      let grad := (List.range 64).map fun e =>
        if s.vl ≤ 64 * j + e then some 0 else if c.act.contains (64 * j + e) then some (lane (s.v c.grad) 32 (64 * j + e)) else none
      let rd (e : Nat) : Rnd := Rnd.at s.rmode s.act.csr.seed (BitVec.ofNat 64 (c.t.line strip 0 * 8 + 64 * b + e))
      let y := optBlock c.k c.par c.t.n x.exp.toNat rd ints grad st
      let np : NpNew := { ints := y.ints, exp := y.exp, force := [], forceExp := false, flags := 0, renormed := false }
      let sp : Pieces := (List.range (c.k.size / 4)).map fun i => ((va + 4 * i) % 2 ^ 64, ((y.state.drop (4 * i)).take 4).map some)
      (.ok (sp ++ np.pieces c.t j x, y.flags), s)

/-- The blocks in order, the state and the plane lines of each strip as one step; `stop` is the block of a gradient's fault. The
instruction stops only where a strip begins (R258). -/
def State.optBlocks (c : OptJob) (stop : Option (Nat × SFault)) : List Nat → Option Int → Pieces → State → Res Unit
  | [], _, p, s => .ok () (s.stripEnd p true)
  | j :: r, strip, p, s =>
    let next := (c.t.block j).1
    let same := strip == some next
    let s := if same then s else s.stripEnd p true
    let p := if same then p else []
    (if same then fun k => k s else s.unit (64 * j)) fun s =>
    match stop.filter fun x => x.1 == j with
    | some (_, f) => .trap (Trap.posted f.cause (BitVec.ofNat 64 f.va) (64 * j)) (s.stripEnd p true)
    | none =>
      match s.optOne c j with
      | (.bad e va, s) => .trap (Trap.posted e (BitVec.ofNat 64 va) (64 * j)) (s.stripEnd p true)
      | (.stall w, s) => (s.stripEnd p true).waitAt (64 * j) w
      | (.ok (q, fl), s) => State.optBlocks c stop r (some next) (p ++ q) (s.raise fl)

/-- What comes before the first block: the tensor and the parameter record. -/
def State.optOpen (s : State) (a e : Reg) : Get (NpT × OptPar) × State :=
  match s.npOpen s.act.core s.act.part (s.g a).toNat with
  | (.error f, s) =>
    match f.stop with
    | .bad c => (.bad c (f.va (s.g a).toNat (if f.first then 0 else s.act.csr.vstart.toNat)), s)
    | .stall w => (.stall w, s)
  | (.ok t, s) =>
    match s.elemRead .read (s.g e).toNat 32 32 .plain false with
    | (.bad c va, s) => (.bad c va, s)
    | (.stall w, s) => (.stall w, s)
    | (.ok bs, s) =>
      if leNat (bs.drop 24) ≠ 0 then (.bad .illegal (s.g e).toNat, s) else (.ok (t, OptPar.ofBytes bs), s)

/-- `vopt`: every element below `vl` takes part, inside an arm pair or a soft loop those that its implicit guard lets run (R151,
R167, R225; log entry 15). -/
def State.vopt (s : State) (k : Opt) (a b c e : Reg) (t : Ctl) : Res Unit :=
  if s.fmt ≠ .fp32 then .trap s.typeCombo s
  else
    let act := s.actives t
    ((State.deliverAll (fun i => act.contains i) [] [s.req b] s).waits fun t => { t with act := s.act }).bind fun p s =>
      let v0 := s.act.csr.vstart.toNat
      (if act.isEmpty then .ok () s
       else
         match s.optOpen a e with
         | (.bad x va, s) => .trap (Trap.posted x (BitVec.ofNat 64 va) (if x = .illegal then 0 else v0)) s
         | (.stall w, s) => s.waitAt v0 w
         | (.ok (t, par), s) =>
           State.optBlocks { k := k, t := t, par := par, grad := b, state := (s.g c).toNat, act := act }
             (p.1.map fun f => (f.elem / 64, f)) (blocksOf s.vl act) none [] s : Res Unit).bind fun _ s =>
        .ok () (s.advance p.2).queueDone

def execVoptSgd (a b c e : Reg) (t : Ctl) (s : State) : Out := (s.vopt .sgd a b c e t).fin s s.after
def execVoptMsgd (a b c e : Reg) (t : Ctl) (s : State) : Out := (s.vopt .msgd a b c e t).fin s s.after
def execVoptAdam (a b c e : Reg) (t : Ctl) (s : State) : Out := (s.vopt .adam a b c e t).fin s s.after

/-! Saliency (R227, R228). -/

/-- |round(round(a·b, FP32), BF16)|, a NaN giving the canonical one. -/
def saliency (a b : Nat) : Nat :=
  (convFF fp32 bf16 Rnd.rne false (fMulV fp32 Rnd.rne (FVal.ofBits bf16 a) (FVal.ofBits bf16 b)).bits).bits % 2 ^ 15

def execVsal (d a b : Reg) (t : Ctl) (s : State) : Out :=
  s.vecOp t { legal := true, typeOk := s.fmt == .bf16, srcs := [s.req a, s.req b], dsts := [d], reads := .elems } s.after
    fun l s => .ok () ((s.fill d 16 l fun i => plainRes (saliency (lane (s.v a) 16 i) (lane (s.v b) 16 i))).okSet d 16)

/-- Element i is among the n largest keys of the candidates of its group of 8, ties going to the lower index. -/
def amongLargest (cand : List Nat) (n : Nat) (key : Nat → Nat) (i : Nat) : Bool :=
  let g := (List.range 8).map (i / 8 * 8 + ·)
  decide ((g.filter fun j => cand.contains j && (decide (key i < key j) || (key i == key j && decide (j < i)))).length < n)

/-- `vnms`: the candidates are the elements below `vl`, inside an arm pair or a soft loop those that its implicit guard lets run; the
bits of the others stay (R56, R151, R228; log entry 15). -/
def execVnms (d : MReg) (a : Reg) (n : BitVec 4) (t : Ctl) (s : State) : Out :=
  s.vecOp t { legal := true, typeOk := s.fmt == .bf16, srcs := [s.req a], dsts := [], reads := .guarded } s.after fun l s =>
    .ok () (s.fillMask d l fun i => (amongLargest l n.toNat (lane (s.v a) 16) i, 0))

end Sys2Proof.Machine
end

