-- ==== Sys2Proof/Machine/Scalar.lean ====
section
/-!
DEFINITION. Scalar integer, address and floating-point instructions, and conversions (05_scalar.md).
-/

namespace Sys2Proof.Machine

/-! Integer instructions (R95 to R98). -/

/-- gD ← f(gA, b), b being the last source. -/
def State.int2 (s : State) (d a : Reg) (src : Src) (f : Word → Word → Word) : Out :=
  s.withSrc src (.ok () (s.setG d (f (s.g a) (s.srcInt src))))

/-- gD ← f(gA). -/
def State.int1 (s : State) (d a : Reg) (f : Word → Word) : Out :=
  (Res.ok () (s.setG d (f (s.g a)))).fin s s.after

/-- The low six bits of a shift count (R95). -/
def shiftCount (b : Word) : Nat := b.toNat % 64

/-- Signed minimum. -/
def minS (a b : Word) : Word := if a.slt b then a else b
/-- Signed maximum. -/
def maxS (a b : Word) : Word := if a.slt b then b else a
/-- Unsigned minimum. -/
def minU (a b : Word) : Word := if a.ult b then a else b
/-- Unsigned maximum. -/
def maxU (a b : Word) : Word := if a.ult b then b else a

/-- Bits 127:64 of the signed product. -/
def mulHigh (a b : Word) : Word := BitVec.ofInt 64 (a.toInt * b.toInt / 2 ^ 64)
/-- Bits 127:64 of the unsigned product. -/
def mulHighU (a b : Word) : Word := BitVec.ofNat 64 (a.toNat * b.toNat / 2 ^ 64)

/-- R96: the signed quotient, rounded toward zero. -/
def divS (a b : Word) : Word := if b = 0 then BitVec.allOnes 64 else BitVec.ofInt 64 (a.toInt.tdiv b.toInt)
/-- R96: the unsigned quotient. -/
def divU (a b : Word) : Word := if b = 0 then BitVec.allOnes 64 else BitVec.ofNat 64 (a.toNat / b.toNat)
/-- R96: the signed remainder, with the sign of a. -/
def remS (a b : Word) : Word := if b = 0 then a else BitVec.ofInt 64 (a.toInt.tmod b.toInt)
/-- R96: the unsigned remainder. -/
def remU (a b : Word) : Word := if b = 0 then a else BitVec.ofNat 64 (a.toNat % b.toNat)

/-- Bits of a register, the highest first. -/
def bitsDown (x : Word) : List Bool := ((List.range 64).map fun i => x.getLsbD i).reverse
/-- How many bits are clear before the first set one. -/
def zerosBefore (l : List Bool) : Word := BitVec.ofNat 64 (l.takeWhile (!·)).length
/-- R97 `clz`. -/
def clz (x : Word) : Word := zerosBefore (bitsDown x)
/-- R97 `ctz`. -/
def ctz (x : Word) : Word := zerosBefore (bitsDown x).reverse
/-- R97 `popc`. -/
def popc (x : Word) : Word := BitVec.ofNat 64 ((bitsDown x).filter id).length
/-- R97 `bswap`. -/
def bswap (x : Word) : Word :=
  x.extractLsb' 0 8 ++ x.extractLsb' 8 8 ++ x.extractLsb' 16 8 ++ x.extractLsb' 24 8 ++
  x.extractLsb' 32 8 ++ x.extractLsb' 40 8 ++ x.extractLsb' 48 8 ++ x.extractLsb' 56 8
/-- Bits 7:0 and so on, sign-extended (R97). -/
def sx (n : Nat) (x : Word) : Word := (x.setWidth n).signExtend 64
/-- Bits 7:0 and so on, zero-extended (R97). -/
def zx (n : Nat) (x : Word) : Word := (x.setWidth n).setWidth 64

def execAdd (d a : Reg) (src : Src) (_ : Ctl) (s : State) : Out := s.int2 d a src (· + ·)
def execSub (d a : Reg) (src : Src) (_ : Ctl) (s : State) : Out := s.int2 d a src (· - ·)
def execAnd (d a : Reg) (src : Src) (_ : Ctl) (s : State) : Out := s.int2 d a src (· &&& ·)
def execOr (d a : Reg) (src : Src) (_ : Ctl) (s : State) : Out := s.int2 d a src (· ||| ·)
def execXor (d a : Reg) (src : Src) (_ : Ctl) (s : State) : Out := s.int2 d a src (· ^^^ ·)
def execShl (d a : Reg) (src : Src) (_ : Ctl) (s : State) : Out := s.int2 d a src fun x y => x <<< shiftCount y
def execShr (d a : Reg) (src : Src) (_ : Ctl) (s : State) : Out := s.int2 d a src fun x y => x >>> shiftCount y
def execSra (d a : Reg) (src : Src) (_ : Ctl) (s : State) : Out := s.int2 d a src fun x y => x.sshiftRight (shiftCount y)
def execMin (d a : Reg) (src : Src) (_ : Ctl) (s : State) : Out := s.int2 d a src minS
def execMax (d a : Reg) (src : Src) (_ : Ctl) (s : State) : Out := s.int2 d a src maxS
def execMinu (d a : Reg) (src : Src) (_ : Ctl) (s : State) : Out := s.int2 d a src minU
def execMaxu (d a : Reg) (src : Src) (_ : Ctl) (s : State) : Out := s.int2 d a src maxU
def execSlt (d a : Reg) (src : Src) (_ : Ctl) (s : State) : Out := s.int2 d a src fun x y => ofTruth (x.slt y)
def execSltu (d a : Reg) (src : Src) (_ : Ctl) (s : State) : Out := s.int2 d a src fun x y => ofTruth (x.ult y)
def execSeq (d a : Reg) (src : Src) (_ : Ctl) (s : State) : Out := s.int2 d a src fun x y => ofTruth (x == y)
def execMul (d a : Reg) (src : Src) (_ : Ctl) (s : State) : Out := s.int2 d a src (· * ·)
def execMulh (d a : Reg) (src : Src) (_ : Ctl) (s : State) : Out := s.int2 d a src mulHigh
def execMulhu (d a : Reg) (src : Src) (_ : Ctl) (s : State) : Out := s.int2 d a src mulHighU
def execDiv (d a : Reg) (src : Src) (_ : Ctl) (s : State) : Out := s.int2 d a src divS
def execDivu (d a : Reg) (src : Src) (_ : Ctl) (s : State) : Out := s.int2 d a src divU
def execRem (d a : Reg) (src : Src) (_ : Ctl) (s : State) : Out := s.int2 d a src remS
def execRemu (d a : Reg) (src : Src) (_ : Ctl) (s : State) : Out := s.int2 d a src remU
def execClz (d a : Reg) (_ : Ctl) (s : State) : Out := s.int1 d a clz
def execCtz (d a : Reg) (_ : Ctl) (s : State) : Out := s.int1 d a ctz
def execPopc (d a : Reg) (_ : Ctl) (s : State) : Out := s.int1 d a popc
def execBswap (d a : Reg) (_ : Ctl) (s : State) : Out := s.int1 d a bswap
def execSxb (d a : Reg) (_ : Ctl) (s : State) : Out := s.int1 d a (sx 8)
def execSxh (d a : Reg) (_ : Ctl) (s : State) : Out := s.int1 d a (sx 16)
def execSxw (d a : Reg) (_ : Ctl) (s : State) : Out := s.int1 d a (sx 32)
def execZxb (d a : Reg) (_ : Ctl) (s : State) : Out := s.int1 d a (zx 8)
def execZxh (d a : Reg) (_ : Ctl) (s : State) : Out := s.int1 d a (zx 16)
def execZxw (d a : Reg) (_ : Ctl) (s : State) : Out := s.int1 d a (zx 32)
/-- R98: gD ← PC + offset. -/
def execAddpc (d : Reg) (src : Src) (_ : Ctl) (s : State) : Out :=
  s.withSrc src (.ok () (s.setG d (s.act.pc + s.srcInt src)))

/-! Floating point (R99 to R101). -/

/-- The rounding of a result for `gD`: the mode in `rmode`, the `g` key of R47. -/
def State.rndG (s : State) (mode : RMode) (d : Reg) : Rnd := Rnd.at mode s.act.csr.seed (regKey 1 d.toNat 0)

/-- gD ← the result's bits with zeros above (R31), and its flags. -/
def State.putFloat (s : State) (d : Reg) (r : FRes) : State := (s.setG d (BitVec.ofNat 64 r.bits)).raise r.flags

/-- A two-source operation on values. -/
def State.flt2 (s : State) (q : FFmt) (d a : Reg) (src : Src) (f : FloatFmt → Rnd → FVal → FVal → FRes) : Out :=
  let q := FloatFmt.ofFFmt q
  s.withSrc src (.ok () (s.putFloat d (f q (s.rndG s.rmode d) (FVal.ofBits q ((s.g a).toNat % 2 ^ q.width))
    (FVal.ofBits q (s.srcFloat q src)))))

/-- A two-source operation on bits. -/
def State.fltBits (s : State) (q : FFmt) (d a : Reg) (src : Src) (f : FloatFmt → Nat → Nat → FRes) : Out :=
  let q := FloatFmt.ofFFmt q
  s.withSrc src (.ok () (s.putFloat d (f q ((s.g a).toNat % 2 ^ q.width) (s.srcFloat q src))))

/-- A one-source operation. -/
def State.flt1 (s : State) (q : FFmt) (d : Reg) (src : Src) (f : FloatFmt → Rnd → Nat → FRes) : Out :=
  let q := FloatFmt.ofFFmt q
  s.withSrc src (.ok () (s.putFloat d (f q (s.rndG s.rmode d) (s.srcFloat q src))))

/-- A comparison: integer 1 or 0 in all 64 bits. -/
def State.fltCmp (s : State) (q : FFmt) (d a : Reg) (src : Src) (rel : Rel) : Out :=
  let q := FloatFmt.ofFFmt q
  let r := fCompare q rel ((s.g a).toNat % 2 ^ q.width) (s.srcFloat q src)
  s.withSrc src (.ok () ((s.setG d (ofTruth r.1)).raise r.2))

/-- a − b: the sum with b's sign inverted. -/
def fSubV (q : FloatFmt) (rd : Rnd) (a b : FVal) : FRes := fAddV q rd a b.neg

def execFadd (f : FFmt) (d a : Reg) (src : Src) (_ : Ctl) (s : State) : Out := s.flt2 f d a src fAddV
def execFsub (f : FFmt) (d a : Reg) (src : Src) (_ : Ctl) (s : State) : Out := s.flt2 f d a src fSubV
def execFmul (f : FFmt) (d a : Reg) (src : Src) (_ : Ctl) (s : State) : Out := s.flt2 f d a src fMulV
def execFdiv (f : FFmt) (d a : Reg) (src : Src) (_ : Ctl) (s : State) : Out := s.flt2 f d a src fDivV
def execFmin (f : FFmt) (d a : Reg) (src : Src) (_ : Ctl) (s : State) : Out := s.fltBits f d a src fun q => fMinMax q false
def execFmax (f : FFmt) (d a : Reg) (src : Src) (_ : Ctl) (s : State) : Out := s.fltBits f d a src fun q => fMinMax q true
def execFsqrt (f : FFmt) (d : Reg) (src : Src) (_ : Ctl) (s : State) : Out :=
  s.flt1 f d src fun q rd b => fSqrtV q rd (FVal.ofBits q b)
def execFabs (f : FFmt) (d : Reg) (src : Src) (_ : Ctl) (s : State) : Out := s.flt1 f d src fun q _ b => fSign q true b
def execFneg (f : FFmt) (d : Reg) (src : Src) (_ : Ctl) (s : State) : Out := s.flt1 f d src fun q _ b => fSign q false b
def execFeq (f : FFmt) (d a : Reg) (src : Src) (_ : Ctl) (s : State) : Out := s.fltCmp f d a src .eq
def execFlt (f : FFmt) (d a : Reg) (src : Src) (_ : Ctl) (s : State) : Out := s.fltCmp f d a src .lt
def execFle (f : FFmt) (d a : Reg) (src : Src) (_ : Ctl) (s : State) : Out := s.fltCmp f d a src .le

/-- R101: ±(a × b) ± c, rounded once. -/
def State.flt3 (s : State) (q : FFmt) (d a b : Reg) (src : Src) (negP negC : Bool) : Out :=
  let q := FloatFmt.ofFFmt q
  let x := FVal.ofBits q ((s.g a).toNat % 2 ^ q.width)
  let y := FVal.ofBits q ((s.g b).toNat % 2 ^ q.width)
  let z := FVal.ofBits q (s.srcFloat q src)
  s.withSrc src (.ok () (s.putFloat d
    (fFmaV q (s.rndG s.rmode d) (if negP then x.neg else x) y (if negC then z.neg else z))))

def execFfma (f : FFmt) (d a b : Reg) (src : Src) (_ : Ctl) (s : State) : Out := s.flt3 f d a b src false false
def execFfms (f : FFmt) (d a b : Reg) (src : Src) (_ : Ctl) (s : State) : Out := s.flt3 f d a b src false true
def execFfnma (f : FFmt) (d a b : Reg) (src : Src) (_ : Ctl) (s : State) : Out := s.flt3 f d a b src true false
def execFfnms (f : FFmt) (d a b : Reg) (src : Src) (_ : Ctl) (s : State) : Out := s.flt3 f d a b src true true

/-- R102: one value converted by R50. -/
def execFcvt (d a : Reg) (dst src : Fmt) (md : Mode) (satur : Bool) (_ : Ctl) (s : State) : Out :=
  let rd := s.rndG (RMode.ofMode s.rmode md) d
  let r : Res Unit :=
    if dst = .np ∨ dst = .bfa24 ∨ src = .np ∨ src = .bfa24 then .trap s.typeCombo s
    else
      match convert src dst rd satur ((s.g a).toNat % 2 ^ fmtWidth src) with
      | none => .trap s.typeCombo s
      | some x =>
        let y : Word := if fmtSigned dst then BitVec.ofInt 64 (intOf dst x.bits) else BitVec.ofNat 64 x.bits
        .ok () ((s.setG d y).raise x.flags)
  r.fin s s.after

end Sys2Proof.Machine
end

