-- ==== Sys2Proof/Machine/PairWord.lean ====
section
/-!
DEFINITION. Pair words (R85 to R88, R94).
-/

namespace Sys2Proof.Machine

/-- The constant of a slot as the last source of the full word: an integer, or the FP32 value whose bits 31:18 it is (R85). -/
def slotSrc (x : Slot) (float : Bool) : Src :=
  if x.i then .imm (if float then x.imm ++ (0 : BitVec 6) else x.imm.signExtend 20) else .reg x.a
/-- The first source: gD or vD, or gA or vA beside a constant. -/
def slotFirst (x : Slot) : Reg := if x.i then x.a else x.d

/-- An integer slot: gD ← first op last. -/
def State.slotInt (s : State) (x : Slot) (f : Word → Word → Word) : State :=
  s.setG x.d (f (s.g (slotFirst x)) (s.srcInt (slotSrc x false)))

/-- A float slot on values. -/
def State.slotFlt (s : State) (x : Slot) (f : FloatFmt → Rnd → FVal → FVal → FRes) : State :=
  s.putFloat x.d (f fp32 (s.rndG s.rmode x.d) (FVal.ofBits fp32 ((s.g (slotFirst x)).toNat % 2 ^ 32))
    (FVal.ofBits fp32 (s.srcFloat fp32 (slotSrc x true))))

/-- A float slot on bits. -/
def State.slotMinMax (s : State) (x : Slot) (isMax : Bool) : State :=
  s.putFloat x.d (fMinMax fp32 isMax ((s.g (slotFirst x)).toNat % 2 ^ 32) (s.srcFloat fp32 (slotSrc x true)))

/-- A vector slot, unguarded, under `vtype` as it stands. -/
def State.slotVec (s : State) (x : Slot) (ok : Fmt → Bool) (fn : BinFn) : Res Unit :=
  s.vecBinR ok fn x.d (slotFirst x) (slotSrc x (fmtFloat s.fmt)) Ctl.none

/-- The address of a memory slot. -/
def State.slotAddr (s : State) (x : Slot) : Nat :=
  (s.g x.a + (if x.i then x.imm.signExtend 64 else 0)).toNat

/-- What a vector slot computes: the formats that it has, and the function (R86). -/
def slotFn (rop : Nat) : Option ((Fmt → Bool) × BinFn) :=
  match rop with
  | 0x10 => some (okAdd, fnAdd)
  | 0x11 => some (okAdd, fnSub)
  | 0x12 => some (okMul, fnMul)
  | 0x13 => some (okAll, fnMin)
  | 0x14 => some (okAll, fnMax)
  | 0x15 => some (okLogic, fnAnd)
  | 0x16 => some (okLogic, fnOr)
  | 0x17 => some (okLogic, fnXor)
  | _ => none

/-- A vector slot that the format of `vtype` does not suit: decode finds it before either slot executes (R88, R89 step 9). -/
def State.slotCombo (s : State) (x : Slot) : Bool :=
  match slotFn x.rop.toNat with
  | some p => !p.1 s.fmt
  | none => false

/-- One slot's effect (R86). -/
def State.slot (s : State) (x : Slot) : Res Unit :=
  match x.rop.toNat with
  | 0x00 => .ok () (s.slotInt x (· + ·))
  | 0x01 => .ok () (s.slotInt x (· - ·))
  | 0x02 => .ok () (s.slotInt x (· &&& ·))
  | 0x03 => .ok () (s.slotInt x (· ||| ·))
  | 0x04 => .ok () (s.slotInt x (· ^^^ ·))
  | 0x05 => .ok () (s.slotInt x fun a b => a <<< shiftCount b)
  | 0x06 => .ok () (s.slotInt x fun a b => a >>> shiftCount b)
  | 0x07 => .ok () (s.slotInt x fun a b => a.sshiftRight (shiftCount b))
  | 0x08 => .ok () (s.slotInt x minS)
  | 0x09 => .ok () (s.slotInt x maxS)
  | 0x0A => .ok () (s.slotFlt x fAddV)
  | 0x0B => .ok () (s.slotFlt x fSubV)
  | 0x0C => .ok () (s.slotFlt x fMulV)
  | 0x0D => .ok () (s.slotMinMax x false)
  | 0x0E => .ok () (s.slotMinMax x true)
  | 0x20 => (s.load (s.slotAddr x) 4 .plain).bind fun v s => .ok () (s.setG x.d (BitVec.ofInt 64 (signedOf 32 v)))
  | 0x21 => (s.load (s.slotAddr x) 8 .plain).bind fun v s => .ok () (s.setG x.d (BitVec.ofNat 64 v))
  | 0x22 => s.store (s.slotAddr x) 4 (s.g x.d).toNat .plain
  | 0x23 => s.store (s.slotAddr x) 8 (s.g x.d).toNat .plain
  | r =>
    match slotFn r with
    | some p => s.slotVec x p.1 p.2
    | none => .trap s.illegal s

/-- A trap of a slot: the whole pair runs again, nothing having been written (R88). So do STREAM and the faults of a refill, which a
vector slot meets in the queue (DEDUCED, log entry 49). -/
def Trap.ofSlot (t : Trap) (slot1 : Bool) : Trap := { t with at_ := .scalar, slot1 := slot1 }

/-- Registers after both slots: what either slot has changed. -/
def mergeR {α : Type} [DecidableEq α] {n : Nat} (old a b : Vector α n) : Vector α n :=
  Vector.ofFn fun i => if a[i] = old[i] then b[i] else a[i]

/-- The bits of the lanes of width w that a list names. -/
def laneMask (w : Nat) (l : List Nat) : BitVec 16384 := (fillLanes w (fun _ => plainRes (2 ^ w - 1)) l 0).1

/-- A stream delivers NP elements to a reader in the format of `vtype` (R192). -/
def State.npBound (s : State) (q : Stream) : Bool :=
  s.fmt == .np && match (s.mapped s.act.core s.act.part q.base).1 with
    | .ok f => f.pl != 0
    | .error _ => false

/-- What a vector slot writes of vector register i and of its validity bits: the active elements of its destination, the elements that
a stream delivers, and beside them the exponents of an NP stream (R87, R88, R192). -/
def State.slotWrites (s : State) (x : Slot) (i : Nat) : BitVec 16384 × BitVec 16 :=
  (slotFirst x :: srcRegs (slotSrc x false)).foldl (fun m r =>
    match s.act.streams.get? r.toNat with
    | none => m
    | some q =>
      let np := s.npBound q
      let m := if i = r.toNat then (m.1 ||| laneMask s.sew (List.range s.vl), if np then m.2 ||| okMask s.vl 16 else m.2) else m
      if np && i == r.toNat + 1 then (m.1 ||| laneMask 8 (List.range ((s.vl + 63) / 64)), m.2 ||| 1) else m)
    (if i = x.d.toNat then (laneMask s.sew (s.actives Ctl.none), okMask s.vl s.sew) else (0, 0))

/-- Bits after both slots, those of slot 1 where `m` says that it has written. -/
def mergeBits {w : Nat} (m a b : BitVec w) : BitVec w := (a &&& ~~~m) ||| (b &&& m)

/-- Streams after both slots: each has gone as far as the slot that has taken the most of it. -/
def mergeStreams (old a b : NMap Stream) : NMap Stream :=
  if a = old then b else b.map fun x => (x.1, match a.get? x.1 with | some y => if x.2.pos < y.pos then y else x.2 | none => x.2)

/-- The strand after both slots, each of which began with the registers of `s` (R87): where both have written a vector register, what
slot 1, `x`, wrote prevails. -/
def State.both (s : State) (x : Slot) (a b : Strand) : Strand :=
  let old := s.act
  let vec := (slotFn x.rop.toNat).isSome
  { b with
    g := mergeR old.g a.g b.g
    v := if vec then Vector.ofFn fun i => mergeBits (s.slotWrites x i).1 a.v[i] b.v[i] else a.v
    vok := if vec then Vector.ofFn fun i => mergeBits (s.slotWrites x i).2 a.vok[i] b.vok[i] else a.vok
    streams := mergeStreams old.streams a.streams b.streams
    csr := { b.csr with fflags := a.csr.fflags ||| b.csr.fflags, vstart := if a.csr.vstart = old.csr.vstart then b.csr.vstart else a.csr.vstart
                        vpend := a.csr.vpend && b.csr.vpend } }

/-- Both slots commit or neither; slot 1 reads every register, and `vstart`, as they stood before slot 0, and a stream that both
read gives both the same elements (R87, R88; log entry 49). -/
def State.pairSlots (s : State) (s0 s1 : Slot) : Res Unit :=
  if s.slotCombo s0 then .trap (s.typeCombo.ofSlot false) s
  else if s.slotCombo s1 then .trap (s.typeCombo.ofSlot true) s
  else
  match s.slot s0 with
  | .trap t _ => .trap (t.ofSlot false) s
  | .wait w _ => .wait w s
  | .ok _ a =>
    match ({ a with act := s.act }).slot s1 with
    | .trap t _ => .trap (t.ofSlot true) s
    | .wait w _ => .wait w s
    | .ok _ b => .ok () { b with act := s.both s1 a.act b.act }

def execPairWord (s0 s1 : Slot) (s : State) : Out := (s.pairSlots s0 s1).fin s s.after

end Sys2Proof.Machine
end

