-- ==== Sys2Proof/Machine/Queue.lean ====
section
/-!
DEFINITION. `glaunch`, `nspawn`, `dcset`, `dcdec`, `npatch` (R298).
-/

namespace Sys2Proof.Machine

/-- The state of a piece of an instruction. -/
def Res.state {α : Type} : Res α → State
  | .ok _ s => s
  | .trap _ s => s
  | .wait _ s => s

/-- What an instruction does at the Millrace, once every line of other packages' homes that it reads there has come (R346). -/
def State.atMill (s : State) (r : Res Unit) : Res Unit :=
  match s.missing r.state with
  | some (l, s) => .wait (.far l) s
  | none => r

/-- An instruction that issues to the Millrace and is counted there: it waits until every older engine issue of the strand has
completed (R298), and for the next period where the partition has used its budget (R297). What the strand's die has written and
read goes with it (R349, R350). -/
def State.millOp (s : State) (k : State → Res Unit) : Out :=
  (if s.engines.any fun o => o.2.sid == s.act.sid && o.2.st == .posted then Res.wait .issue s
   else if !s.budgetLeft s.act.part then .wait .budget s
   else
     let t := s.bringAlong (s.coreDie s.act.core) s.millDie
     (t.atMill (k t)).bind fun _ s => .ok () (s.spend s.act.part)).finQ s

/-- The trap, or the wait, of an access that does not go on. -/
def State.agentStop (s : State) (e : AgentFail) : Res Unit :=
  match e.1 with
  | .bad c => .trap (Trap.queue c e.2) s
  | .stall w => .wait w s

def execGlaunch (a b : Reg) (_ : Ctl) (s : State) : Out :=
  let rec_ := (s.g a).toNat
  let w : Word := BitVec.ofNat 64 ((s.g b).toNat % 2 ^ 17)
  s.millOp fun s =>
    if rec_ % 64 ≠ 0 then .trap (Trap.queue .align rec_) s
    else
      match (wordCtr w).bind fun c => s.ctrTrap c w with
      | some t => .trap t s
      | none =>
        let r : Replay :=
          { graph := rec_, part := s.act.part, core := s.act.core, epc := s.act.pc, user := s.act.priv == .user
            launch := w.toNat, st := .pending, slot := 0, gen := 0, ctrs := [], kernels := [], errand := none }
        .ok () (s.onMill fun m => { m with replays := NMap.set m.nextId r m.replays, nextId := m.nextId + 1 })

/-- R298, R265: why a spawned node's gate cannot be bound. -/
def State.gateTrap (s : State) (b : Word) : Option Trap :=
  match wordCtr b with
  | none => none
  | some c =>
    if !s.ownCtr s.act.part c ∨ s.replyCtr s.act.part c ∨ (s.ctr c).st != .idle then some (Trap.posted .perm b 0) else none

/-- A spawned node joins the spawner's replay; its kernel is verified, and its graph names it (R281). In a replay that is DRAINING it is
discarded at once (R289, R293). -/
def State.spawn (s : State) (x : NodeRun) (gate : Option Nat) : State :=
  let replay := (s.node? s.act.node).bind (·.replay)
  let user := s.act.priv == .user
  let (r, s) := s.verify x.part x.kernel user
  let n := s.mill.nextId
  let y : NodeRun :=
    match r with
    | .ok k => { x with hdr := k.hdr, verified := true, sailOnly := k.hdr.cls == 2 || (k.hdr.cls == 0 && k.query) }
    | .error _ => x
  let y := { y with replay := replay, gate := gate, epc := s.act.pc, core := s.act.core, user := user
                    slot := ((replay.bind fun id => s.mill.replays.get? id).map (·.slot)).getD 0 }
  match replay.bind fun id => s.mill.replays.get? id with
  | some { st := .draining, .. } => s.releaseKernels
  | _ =>
    let s := if y.verified then s.nameKernel replay x.part x.kernel else s
    let s := s.onMill fun m => { m with
      nextId := n + 1, nodes := NMap.set n y m.nodes
      replays := m.replays.map fun p =>
        if some p.1 == replay then (p.1, { p.2 with ctrs := p.2.ctrs ++ gate.toList.filter fun c => !s.faultCtr x.part c }) else p }
    match gate with
    | none => s.nodeReady n
    | some c => s.bindCtr c (s.ctr c).count (.node n)

def execNspawn (a b : Reg) (_ : Ctl) (s : State) : Out :=
  let rec_ := (s.g a).toNat
  s.millOp fun s =>
    if rec_ % 128 ≠ 0 then .trap (Trap.queue .align rec_) s
    else
      match s.agentRead s.millDie s.act.part rec_ 128 with
      | (.error e, s) => s.agentStop e
      | (.ok bs, s) =>
        let x := nodeOf s.act.part rec_ bs
        if nodeBad bs then .trap (Trap.queue .illegal rec_) s
        else
          match s.gateTrap (s.g b), x.succ.find? fun c => !s.ownCtr s.act.part c with
          | some t, _ => .trap t s
          | none, some _ => .trap (Trap.posted .perm (s.g b) 0) s
          | none, none => .ok () (s.spawn x (wordCtr (s.g b)))

/-- A count of at most 24 bits. -/
def count24 (x : Word) : Nat := min x.toNat (2 ^ 24 - 1)

/-- A counter update is an atomic at the Millrace (R345, R349): the die's batch is closed, and both dies' vectors are exchanged. -/
def State.millAtomic (s : State) : State :=
  let d := s.coreDie s.act.core
  (s.closeBatch d).exchange d s.millDie

/-- An update of the counter that gA names. -/
def State.ctrOp (s : State) (a : Reg) (f : State → Nat → State) : Out :=
  let c := (s.g a).toNat % 2 ^ 16
  s.millOp fun s => match s.ctrTrap c (s.g a) with | some t => .trap t s | none => .ok () (f s.millAtomic c)

def execDcset (a b : Reg) (_ : Ctl) (s : State) : Out := s.ctrOp a fun s c => s.ctrSet c (count24 (s.g b))
def execDcdec (a b : Reg) (_ : Ctl) (s : State) : Out :=
  s.ctrOp a fun s c => if s.g b = 0 then s else s.ctrDec c (count24 (s.g b))

/-- Two writes of the Millrace, each performed at the domain tier, the second after the first. -/
def State.patch (s : State) (at_ graph : Nat) (x : Word) : Res Unit :=
  let d := s.millDie
  match s.agentWrite d s.act.part noQuad at_ (leBytes 8 x.toNat) with
  | (.error e, s) => s.agentStop e
  | (.ok _, s) =>
    match (s.performAt d .domain).agentWrite d s.act.part noQuad (graph + 8) (leBytes 8 1) with
    | (.error e, s) => s.agentStop e
    | (.ok _, s) => .ok () (s.performAt d .domain)

def execNpatch (a b c : Reg) (_ : Ctl) (s : State) : Out :=
  let rec_ := (s.g a).toNat
  let w := (s.g b).toNat
  let off := w % 2 ^ 16
  let idx := w / 2 ^ 16 % 2 ^ 16
  s.millOp fun s =>
    if off % 8 ≠ 0 then .trap (Trap.queue .align w) s
    else
      match s.agentRead s.millDie s.act.part rec_ 64 with
      | (.error e, s) => s.agentStop e
      | (.ok bs, s) =>
        let g := graphOf bs
        if g.nn ≤ idx ∨ g.plen ≤ off then .trap (Trap.queue .perm w) s
        else s.patch (g.stage + idx * g.plen + off) rec_ (s.g c)

end Sys2Proof.Machine
end

