-- ==== Sys2Proof/Machine/Reduce.lean ====
section
/-!
DEFINITION. Vector instructions of OP 0x40 to 0x43 and 0x60 to 0x63: reductions, index, random bits, dropout, permutes,
masks and mask queries (06_vector.md).
-/

namespace Sys2Proof.Machine

/-! Reductions (R138, R139). -/

/-- An instruction that reads the whole of its source before it executes (R57). -/
def State.vecWhole (s : State) (t : Ctl) (reads : Reads) (legal : Bool) (ok : Fmt → Bool) (srcs dsts : List Reg) (nx : Word)
    (body : List Nat → State → State) : Out :=
  s.vecOp t { legal := legal, typeOk := ok s.fmt, srcs := srcs.map s.req, dsts := dsts, reads := reads } nx
    fun l s => .ok () (body l s)

/-- A float term converted exactly to FP32. -/
def termF32 (q : FloatFmt) (b : Nat) : FRes := convFF q fp32 Rnd.rne false b

/-- The terms of a float reduction by element: absent where the element is not active. -/
def State.floatTerms (s : State) (a : Reg) (l : List Nat) : List (Option FRes) :=
  match floatOf s.fmt with
  | some q => (List.range s.vl).map fun i => if l.contains i then some (termF32 q (lane (s.v a) s.sew i)) else none
  | none => []

/-- The starting value of a float reduction: none where B = 0. -/
def State.floatStart (s : State) (b : Reg) : Option FRes :=
  if b = 0 then none else some (termF32 fp32 ((s.g b).toNat % 2 ^ 32))

/-- R139: the sum of one lane's terms, in order. -/
def laneSum (w lanes l : Nat) (ts : List (Option Nat)) : Option Nat × FFlags :=
  (List.range ts.length).foldl (fun acc i =>
    if i * w / 64 % lanes = l then pairSum fp32 acc (ts.getD i none, 0) else acc) (none, 0)

/-- R139: the tree over the lanes, `n` levels being left. -/
def laneTree : Nat → List (Option Nat × FFlags) → List (Option Nat × FFlags)
  | 0, l => l
  | n + 1, l => laneTree n (pairLevel fp32 l)

/-- The sum of the terms without the starting value put last (R139), or with it put first (R52). -/
def State.fsum (s : State) (ts : List (Option Nat)) (start : Option Nat) : Option Nat × FFlags :=
  if s.act.csr.reproEn then reproSum fp32 ((ts.length + 31) / 32) ts (start, 0)
  else
    let lanes := 4 * s.act.clusters
    let t := (List.range lanes).map fun l => laneSum s.sew lanes l ts
    pairSum fp32 (start, 0) ((laneTree 5 t).headD (none, 0))

/-- The flags that reading the terms raises. -/
def termFlags (ts : List (Option FRes)) : FFlags := unionFlags (ts.map fun t => (t.map (·.flags)).getD 0)

/-- gD ← an FP32 result with zeros above. -/
def State.redFloat (s : State) (d a b : Reg) (t : Ctl) (f : State → List (Option Nat) → Option Nat → FRes) : Out :=
  s.vecWhole t .guarded true okFloats [a] [] s.after fun l s =>
    let ts := s.floatTerms a l
    let st := s.floatStart b
    let r := f s (ts.map fun t => t.map (·.bits)) (st.map (·.bits))
    (s.setG d (BitVec.ofNat 64 r.bits)).raise (r.flags ||| termFlags ts ||| termFlags [st])

/-- R138 `.fmax` and `.fmin`. -/
def redMinMax (isMax : Bool) (_ : State) (ts : List (Option Nat)) (st : Option Nat) : FRes :=
  match (st :: ts).filterMap id with
  | [] => plainRes fp32.nanBits
  | x :: r => r.foldl (fun acc y => let z := fMinMax fp32 isMax acc.bits y; { z with flags := z.flags ||| acc.flags }) (plainRes x)

def execVredFsum (d a b : Reg) (t : Ctl) (s : State) : Out :=
  s.redFloat d a b t fun s ts st => let r := s.fsum ts st; { bits := r.1.getD 0, flags := r.2 }
def execVredFmax (d a b : Reg) (t : Ctl) (s : State) : Out := s.redFloat d a b t (redMinMax true)
def execVredFmin (d a b : Reg) (t : Ctl) (s : State) : Out := s.redFloat d a b t (redMinMax false)

/-- R138: an integer reduction from its result for no term. -/
def State.redInt (s : State) (d a b : Reg) (t : Ctl) (empty : Word) (f : Word → Word → Word) : Out :=
  s.vecWhole t .guarded true okLogic [a] [] s.after fun l s =>
    let ts := l.map fun i => BitVec.ofInt 64 (elemInt s.fmt s.npk (lane (s.v a) s.sew i))
    let all := if b = 0 then ts else s.g b :: ts
    s.setG d (match all with | [] => empty | x :: r => r.foldl f x)

def execVredIsum (d a b : Reg) (t : Ctl) (s : State) : Out := s.redInt d a b t 0 (· + ·)
def execVredImax (d a b : Reg) (t : Ctl) (s : State) : Out :=
  s.redInt d a b t 0x8000000000000000 fun x y => if x.slt y then y else x
def execVredImin (d a b : Reg) (t : Ctl) (s : State) : Out :=
  s.redInt d a b t 0x7FFFFFFFFFFFFFFF fun x y => if x.slt y then x else y
def execVredImaxu (d a b : Reg) (t : Ctl) (s : State) : Out := s.redInt d a b t 0 fun x y => if x.ult y then y else x
def execVredIminu (d a b : Reg) (t : Ctl) (s : State) : Out :=
  s.redInt d a b t (BitVec.allOnes 64) fun x y => if x.ult y then x else y
def execVredAnd (d a b : Reg) (t : Ctl) (s : State) : Out := s.redInt d a b t (BitVec.allOnes 64) (· &&& ·)
def execVredOr (d a b : Reg) (t : Ctl) (s : State) : Out := s.redInt d a b t 0 (· ||| ·)
def execVredXor (d a b : Reg) (t : Ctl) (s : State) : Out := s.redInt d a b t 0 (· ^^^ ·)

/-! Index, random bits, dropout (R140 to R142). -/

/-- R140. -/
def execVid (d : Reg) (t : Ctl) (s : State) : Out :=
  s.vecMap t okMul d [] (.imm 0) s.after fun s i =>
    match floatOf s.fmt with
    | some q => roundDy q Rnd.rne false (Dy.ofInt i)
    | none => plainRes (bitsOf s.sew i)

/-- R141: the hash of element i. -/
def State.drawHash (s : State) (base : Word) (i : Nat) : Word :=
  elemHash (base + BitVec.ofNat 64 (i * (s.sew / 8))) s.act.csr.seed

/-- R141 `.bits`: the highest w bits of the hash. -/
def execVrngBits (d a : Reg) (t : Ctl) (s : State) : Out :=
  s.vecMap t okInts d [] (.imm 0) s.after fun s i => plainRes ((s.drawHash (s.g a) i).toNat >>> (64 - s.sew))

/-- R141 `.unit`. -/
def execVrngUnit (d a : Reg) (t : Ctl) (s : State) : Out :=
  s.vecMap t (fmtIn false true false true) d [] (.imm 0) s.after fun s i =>
    let h := (s.drawHash (s.g a) i).toNat
    match floatOf s.fmt with
    | some q => plainRes (roundDy q { mode := .rtz, r := 0 } false { m := h >>> 40, e := -24 }).bits
    | none => plainRes (h >>> 49)

/-- R142: the scaled element. -/
def dropScale (q : FloatFmt) (rd : Rnd) (drop b : Nat) : FRes :=
  match FVal.ofBits q b with
  | .nan sn => FRes.nan q sn
  | .inf n => plainRes (q.signed n q.infBits)
  | .fin n m e => if drop = 0 then plainRes b else roundMag q rd n (.ratio (m * 128) (128 - drop) e)

/-- R142. -/
def execVdrop (d a b : Reg) (t : Ctl) (s : State) : Out :=
  s.vecMap t okFloats d [a] (.imm 0) s.after fun s i =>
    match floatOf s.fmt with
    | none => plainRes 0
    | some q =>
      let drop := (s.g b).toNat >>> 57
      let u := (s.drawHash (BitVec.ofNat 64 ((s.g b).toNat % 2 ^ 57)) i).toNat >>> 57
      if u < drop then plainRes 0 else dropScale q (s.rndV s.rmode d i) drop (lane (s.v a) s.sew i)

/-! Permutes (R143, R144). -/

/-- R143: the validity bits of a permuted result. -/
def State.okPermute (s : State) (d a : Reg) : State :=
  if s.fmt = .np then
    let inUse := BitVec.ofNat 16 (2 ^ (2 * s.act.clusters) - 1)
    s.okAnd d (if s.vok a &&& inUse = inUse then BitVec.allOnes 16 else 0)
  else s.okSet d s.sew

/-- vD[i] ← f(i) for each active element, nothing where f gives nothing. -/
def State.permute (s : State) (t : Ctl) (legal : Bool) (d a : Reg) (more : List Reg) (nx : Word)
    (f : State → Nat → Option Nat) : Out :=
  s.vecWhole t .every legal okAll (a :: more) [d] nx fun l s =>
    (s.fill d s.sew (l.filter fun i => (f s i).isSome) fun i => plainRes ((f s i).getD 0)).okPermute d a

/-- An element of vA. -/
def State.elem (s : State) (a : Reg) (i : Nat) : Nat := lane (s.v a) s.sew i

def execVperm (d a b : Reg) (t : Ctl) (s : State) : Out :=
  s.permute t true d a [b] s.after fun s i =>
    let j := s.elem b i
    some (if s.vl ≤ j then 0 else s.elem a j)

def execVrot (d a : Reg) (src : Src) (t : Ctl) (s : State) : Out :=
  s.permute t (s.srcOk src) d a [] (s.act.pc + src.bytes) fun s i => some (s.elem a ((i + (s.srcInt src).toNat) % s.vl))

def execVslideUp (d a : Reg) (src : Src) (t : Ctl) (s : State) : Out :=
  s.permute t (s.srcOk src) d a [] (s.act.pc + src.bytes) fun s i =>
    let n := (s.srcInt src).toNat
    if n ≤ i then some (s.elem a (i - n)) else none

def execVslideDn (d a : Reg) (src : Src) (t : Ctl) (s : State) : Out :=
  s.permute t (s.srcOk src) d a [] (s.act.pc + src.bytes) fun s i =>
    let j := i + (s.srcInt src).toNat
    some (if j < s.vl then s.elem a j else 0)

/-- R144: compress. -/
def execVcomp (d a : Reg) (b : MReg) (t : Ctl) (s : State) : Out :=
  s.vecWhole t .every true okAll [a] [d] s.after fun l s =>
    let sel := l.filter fun i => (s.m b).getLsbD i
    (s.fill d s.sew (List.range s.vl) fun i => plainRes (match sel[i]? with | some j => s.elem a j | none => 0)).okPermute d a

/-- R144: expand. -/
def execVexp (d a : Reg) (b : MReg) (t : Ctl) (s : State) : Out :=
  s.vecWhole t .every true okAll [a] [d] s.after fun l s =>
    let sel := l.filter fun i => (s.m b).getLsbD i
    (s.fill d s.sew sel fun i => plainRes (s.elem a (sel.idxOf i))).okPermute d a

/-! Masks (R146, R147). -/

/-- Bits 0 to `vl` − 1. -/
def State.below (s : State) : BitVec 2048 := BitVec.ofNat 2048 (2 ^ s.vl - 1)

/-- R146: bits below `vl` written. -/
def State.maskOp (s : State) (d : MReg) (x : BitVec 2048) : Out :=
  s.vecOp Ctl.none { legal := true, typeOk := true, srcs := [], dsts := [], reads := .elems } s.after fun _ s =>
    .ok () (s.setM d ((s.m d &&& ~~~s.below) ||| (x &&& s.below)))

def execMand (d a b : MReg) (_ : Ctl) (s : State) : Out := s.maskOp d (s.m a &&& s.m b)
def execMor (d a b : MReg) (_ : Ctl) (s : State) : Out := s.maskOp d (s.m a ||| s.m b)
def execMxor (d a b : MReg) (_ : Ctl) (s : State) : Out := s.maskOp d (s.m a ^^^ s.m b)
def execMandn (d a b : MReg) (_ : Ctl) (s : State) : Out := s.maskOp d (s.m a &&& ~~~s.m b)
def execMnot (d a : MReg) (_ : Ctl) (s : State) : Out := s.maskOp d (~~~s.m a)

/-- R147: the set bits below `vl`, ascending, and gD from them. -/
def State.maskQuery (s : State) (d : Reg) (a : MReg) (f : List Nat → Word) : Out :=
  s.vecOp Ctl.none { legal := true, typeOk := true, srcs := [], dsts := [], reads := .elems } s.after fun _ s =>
    .ok () (s.setG d (f ((List.range s.vl).filter fun i => (s.m a).getLsbD i)))

def execMcnt (d : Reg) (a : MReg) (_ : Ctl) (s : State) : Out := s.maskQuery d a fun l => BitVec.ofNat 64 l.length
def execMany (d : Reg) (a : MReg) (_ : Ctl) (s : State) : Out := s.maskQuery d a fun l => ofTruth (!l.isEmpty)
def execMfirst (d : Reg) (a : MReg) (_ : Ctl) (s : State) : Out :=
  s.maskQuery d a fun l => match l with | [] => BitVec.allOnes 64 | i :: _ => BitVec.ofNat 64 i

end Sys2Proof.Machine
end

