-- ==== Sys2Proof/Machine/TileStore.lean ====
section
/-!
DEFINITION. Tile stores: `msts`, `msts.cmp`, `msts.cmp.trap` (R218 to R220).
-/

namespace Sys2Proof.Machine

/-- A stored value (R218). -/
def State.storedCell (s : State) (b : ZReg) (f : Fmt) (mode : RMode) (key : Word) (r c : Nat) : FRes :=
  let x := s.merged (f == .i32) b r c
  match f with
  | .bf16 => convFF fp32 bf16 (Rnd.at mode s.act.csr.seed key) false x.bits
  | .fp16 => convFF fp32 fp16 (Rnd.at mode s.act.csr.seed key) false x.bits
  | _ => plainRes x.bits

/-- The record at gC. -/
def State.withStoreRec (s : State) (va : Nat) (go : StoreRec → State → Res Unit) : Res Unit :=
  if va % 64 ≠ 0 then .trap (s.matStop .align va) s
  else
    match s.elemRead .read va 64 64 .plain false with
    | (.bad c _, s) => .trap (s.matStop c va) s
    | (.stall w, s) => .wait w s
    | (.ok bs, s) =>
      match storeRec s.mvl s.rmode bs with
      | none => .trap (s.matStop .illegal va) s
      | some x => go x s

/-! Plain stores (R219). -/

/-- The address of a cell. -/
def cellVa (base : Nat) (stride : Int) (w r c : Nat) : Nat := (((base : Int) + r * stride + (c * (w / 8) : Nat)) % (2 ^ 64 : Nat)).toNat

/-- An element of a tile written (R342). -/
def State.cellWrite (s : State) (va : Nat) (bs : List Byte) : Get Unit × State :=
  match s.access va bs.length bs.length .write false false with
  | (.bad e, s) => (.bad e va, s)
  | (.stall w, s) => (.stall w, s)
  | (.ok l, s) => (.ok (), (s.write (s.coreDie s.act.core) (quadOf s.act.core) l.addr bs).hostOrder l)

/-- The cells of a row from a column on, written in order; a fault stops at the row. -/
def State.storeRow (base : Nat) (b : ZReg) (x : StoreRec) (r : Nat) : List Nat → State → Res Unit
  | [], s => .ok () s
  | c :: l, s =>
    let w := fmtWidth x.fmt
    let va := cellVa base x.stride w r c
    let y := s.storedCell b x.fmt x.mode (BitVec.ofNat 64 va) r c
    match s.cellWrite va (leBytes (w / 8) y.bits) with
    | (.bad e _, s) => .trap (matTrap e va r) s
    | (.stall w, s) => s.matWait r w
    | (.ok _, s) => State.storeRow base b x r l (s.raise y.flags)

/-- Rows written in order; the instruction may stop before a row (R216, R219). -/
def State.storeRows (base : Nat) (b : ZReg) (x : StoreRec) : List Nat → State → Res Unit
  | [], s => .ok () s
  | r :: l, s =>
    match s.take with
    | none => s.matWait r .pause
    | some s => (State.storeRow base b x r (List.range x.cols) s).bind fun _ s => State.storeRows base b x l s

/-- `msts`. -/
def State.msts (s : State) (a : Reg) (b : ZReg) (c : Reg) : Res Unit :=
  s.withStoreRec (s.g c).toNat fun x s =>
    State.storeRows (s.g a).toNat b x ((List.range x.rows).filter fun r => decide (s.matStart ≤ r)) s

def execMsts (a : Reg) (b : ZReg) (c : Reg) (_ : Ctl) (s : State) : Out := s.matOp (s.msts a b c)

/-! Compressed stores (R220). -/

/-- The stored bits of block k of the tile, with their flags, in the order 8·row + column. -/
def State.tileBlock (s : State) (b : ZReg) (f : Fmt) (mode : RMode) (k : Nat) : List FRes :=
  let m := s.mvl
  let n := m / 8
  (List.range 64).map fun i =>
    let r := k / n * 8 + i / 8
    let c := k % n * 8 + i % 8
    s.storedCell b f mode (regKey 2 b.toNat (m * r + c)) r c

/-- The image of a tile and the flags of its values. -/
def State.tileImage (s : State) (b : ZReg) (f : Fmt) (mode : RMode) : List Byte × FFlags :=
  let n := s.mvl / 8
  let blocks := (List.range (n * n)).map fun k => s.tileBlock b f mode k
  let kept := blocks.zipIdx.filter fun x => x.1.any fun y => y.bits != 0
  let w := fmtWidth f / 8
  let data := kept.flatMap fun x => x.1.flatMap fun y => leBytes w y.bits
  (leBytes 8 (kept.foldl (fun acc x => acc + 2 ^ x.2) 0) ++ leBytes 8 (16 + data.length) ++ data,
   unionFlags (blocks.map fun l => unionFlags (l.map (·.flags))))

/-- The image written from byte `off` on, in elements of n bytes, `fuel` bounding them; the instruction may stop before an element
(R216, R220). -/
def State.storeImage (base n : Nat) : Nat → Nat → List Byte → State → Res Unit
  | 0, _, _, s => .ok () s
  | fuel + 1, off, bs, s =>
    if bs.isEmpty then .ok () s
    else
      let va := (base + off) % 2 ^ 64
      match s.take with
      | none => s.matWait off .pause
      | some s =>
        match s.cellWrite va (bs.take n) with
        | (.bad e _, s) => .trap (matTrap e va off) s
        | (.stall w, s) => s.matWait off w
        | (.ok _, s) => State.storeImage base n fuel (off + n) (bs.drop n) s

/-- What the instruction has reserved. -/
def State.reservedAt (s : State) (x : Option (Nat × Nat)) : State :=
  { s with act := { s.act with prog := { s.act.prog with reserved := x } } }

/-- The image goes into the range reserved at `old`; the reservation is over when all of it is written. -/
def State.writeImage (s : State) (a : Reg) (b : ZReg) (old : Nat) (f : Fmt) (mode : RMode) (start : Nat) : Res Unit :=
  let bs := (s.tileImage b f mode).1
  (State.storeImage ((s.g a).toNat + old) (fmtWidth f / 8) bs.length start (bs.drop start) s).bind fun _ s =>
    .ok () (s.reservedAt none)

/-- The codes of the rounding modes. -/
def RMode.num : RMode → Nat
  | .rne => 0 | .rtz => 1 | .rdn => 2 | .rup => 3 | .sr => 4

/-- What a reservation keeps of its record. -/
def packStore (f : Fmt) (mode : RMode) : Nat := f.code.toNat + 256 * mode.num

/-- The sizes of the tile's image by format and mode, as the home of a record chooses among them (R220). -/
def State.imageSizes (s : State) (b : ZReg) : List Nat :=
  [Fmt.fp32, .bf16, .fp16, .i32].flatMap fun f => [RMode.rne, .rtz, .rdn, .rup, .sr, .rne, .rne, .rne].map fun md => (s.tileImage b f md).1.length

/-- `msts.cmp` and `msts.cmp.trap`: the record is updated at its home, and the image written into what the update has reserved. -/
def State.mstsCmp (s : State) (traps : Bool) (a : Reg) (b : ZReg) (c : Reg) : Res Unit :=
  match (if s.resumed then s.act.prog.reserved else none) with
  | some (old, p) =>
    s.writeImage a b old ((Fmt.ofCode (BitVec.ofNat 5 p)).getD .fp32) (RMode.ofBits (BitVec.ofNat 3 (p / 256))) s.matStart
  | none =>
    let va := (s.g c).toNat
    match s.access va 64 64 .atomic false false with
    | (.bad e, s) => .trap (s.matStop e va) s
    | (.stall w, s) => .wait w s
    | (.ok l, s) =>
      match s.atomicAt va l.addr 64 (.record s.mvl s.rmode (s.imageSizes b) traps) with
      | (.bad e va, s) => .trap (s.matStop e va) s
      | (.stall w, s) => .wait w s
      | (.ok bs, s) =>
        match storeRec s.mvl s.rmode bs with
        | none => .trap (s.matStop .illegal va) s
        | some x =>
          let (bs, fl) := s.tileImage b x.fmt x.mode
          if x.full bs.length then
            if traps then .trap (s.matStop .cmpFull bs.length) s else .ok () (s.raise fl)
          else ((s.raise fl).reservedAt (some (x.next, packStore x.fmt x.mode))).writeImage a b x.next x.fmt x.mode 0

def execMstsCmp (a : Reg) (b : ZReg) (c : Reg) (_ : Ctl) (s : State) : Out := s.matOp (s.mstsCmp false a b c)
def execMstsCmpTrap (a : Reg) (b : ZReg) (c : Reg) (_ : Ctl) (s : State) : Out := s.matOp (s.mstsCmp true a b c)

end Sys2Proof.Machine
end

