-- ==== Sys2Proof/Machine/Sequencer.lean ====
section
/-!
DEFINITION. The sequencer: `seqdef` and `seqrun` (R221 to R223).
-/

namespace Sys2Proof.Machine

/-- What a buffer word asks for (R221). -/
inductive SeqOp where
  | mlds (a b : Reg)
  | mldw (a : Reg) (fs : FmtSpec)
  | mstrm (d : ZReg) (a : Reg) (fs : FmtSpec)
  | mxprod (d : ZReg) (a b : Reg)
  | mzero (d : ZReg)
  | mtrs (d a : ZReg)
  | msts (a : Reg) (b : ZReg) (c : Reg)
  | mstsCmp (traps : Bool) (a : Reg) (b : ZReg) (c : Reg)
deriving DecidableEq, Repr

/-- The operation of the fields of a full word, where R221 allows it and decode accepts it (R89, R90): a format that no latch and no
stream has never passes its last step (R210, R211). -/
def seqFields (f : Fields) (t : Ctl) : Option SeqOp :=
  let z (r : Reg) : ZReg := r.setWidth 2
  match f.op.toNat, f.fn.toNat with
  | 0x9A, 0 =>
    if f.d == 0 && f.c == 0 && f.e == 0 && f.x == 0 && t.allows false false false false false false then some (.mlds f.a f.b)
    else none
  | 0x9A, 1 =>
    if f.d == 0 && f.b == 0 && decide (f.c.toNat < 8) && t.allows false false false false false false then
      f.fmtSpec.bind fun fs => if fs.tileOk && wsCombo fs.fmt fs.fmt then some (.mldw f.a fs) else none
    else none
  | 0x9B, 0 =>
    if f.b == 0 && decide (f.d.toNat < 4) && decide (f.c.toNat < 8) && t.allows false true false false false false then
      f.fmtSpec.bind fun fs =>
        if fs.tileOk && wsCombo fs.fmt fs.fmt && !(fs.fmt == .np && decide (30 < f.a)) then some (.mstrm (z f.d) f.a fs) else none
    else none
  | 0x9C, 0 =>
    if f.c == 0 && f.e == 0 && f.x == 0 && decide (f.d.toNat < 4) && t.allows false true true false false false then
      some (.mxprod (z f.d) f.a f.b)
    else none
  | 0x9D, 0 =>
    if f.a == 0 && f.b == 0 && f.c == 0 && f.e == 0 && f.x == 0 && decide (f.d.toNat < 4) &&
        t.allows false false false false false false then some (.mzero (z f.d))
    else none
  | 0x9D, 5 =>
    if f.b == 0 && f.c == 0 && f.e == 0 && f.x == 0 && decide (f.d.toNat < 4) && decide (f.a.toNat < 4) &&
        t.allows false false false false false false then some (.mtrs (z f.d) (z f.a))
    else none
  | 0x9E, n =>
    if f.d == 0 && f.e == 0 && f.x == 0 && decide (f.b.toNat < 4) && t.allows false false false false false false then
      match n with
      | 0 => some (.msts f.a (z f.b) f.c)
      | 1 => some (.mstsCmp false f.a (z f.b) f.c)
      | 2 => some (.mstsCmp true f.a (z f.b) f.c)
      | _ => none
    else none
  | _, _ => none

/-- The operation of a buffer word: a full word with LIT and SY clear. -/
def seqOp (w : Word) : Option SeqOp :=
  let f := Fields.ofWord w
  if w.extractLsb' 62 2 = 0#2 ∧ !f.lit ∧ !f.sy then f.ctl.bind fun t => seqFields f t else none

/-- The instruction executed from the buffer. -/
def State.seqExec (s : State) : SeqOp → Res Unit
  | .mlds a b => s.mlds a b
  | .mldw a fs => s.mldw a fs
  | .mstrm d a fs => s.mstrm d a fs
  | .mxprod d a b => s.mxprod d a b
  | .mzero d => s.mzero d
  | .mtrs d a => s.mtrs d a
  | .msts a b c => s.msts a b c
  | .mstsCmp traps a b c => s.mstsCmp traps a b c

/-! The record (R221). -/

/-- FLAGS of word i. -/
def seqFlags (r : List Byte) (i : Nat) : Nat := recNat r (192 + i) 1
/-- The level of word i. -/
def seqLevel (r : List Byte) (i : Nat) : Nat := seqFlags r i / 4 % 8
/-- Word i. -/
def seqWordAt (r : List Byte) (i : Nat) : Word := BitVec.ofNat 64 (recNat r (256 + 8 * i) 8)
/-- COUNT of level l. -/
def seqCount (r : List Byte) (l : Nat) : Nat := recNat r (8 + 4 * l) 4

/-- What makes a record bad: `tval` of SEQ; nothing where it is good. Bits 7:6 of every FLAGS byte count, the level those of the NW words alone
(DEDUCED, log entry 73). -/
def seqBad (r : List Byte) : Option Nat :=
  let nw := recNat r 0 1
  let nl := recNat r 1 1
  if nw = 0 ∨ 64 < nw ∨ nl = 0 ∨ 6 < nl ∨ recNat r 2 6 ≠ 0 ∨ recNat r 166 26 ≠ 0 ∨
      ((List.range 64).any fun i => decide (64 ≤ seqFlags r i)) ∨ ((List.range nw).any fun i => decide (nl ≤ seqLevel r i)) then some 3
  else ((List.range nw).find? fun i => (seqOp (seqWordAt r i)).isNone).map (0x100 + ·)

/-- n pieces of 64 bytes read from `va` on. -/
def State.readPieces (va : Nat) : Nat → State → Get (List Byte) × State
  | 0, s => (.ok [], s)
  | n + 1, s =>
    match s.elemRead .read va 64 64 .plain false with
    | (.ok bs, s) =>
      match State.readPieces ((va + 64) % 2 ^ 64) n s with
      | (.ok r, s) => (.ok (bs ++ r), s)
      | r => r
    | r => r

def execSeqdef (a : Reg) (_ : Ctl) (s : State) : Out :=
  let va := (s.g a).toNat
  s.matOp (
    if va % 64 ≠ 0 then .trap (s.matStop .align va) s
    else
      match State.readPieces va 12 s with
      | (.bad c x, s) => .trap (matTrap c x 0) s
      | (.stall w, s) => .wait w s
      | (.ok bs, s) =>
        match seqBad bs with
        | some n => .trap (s.matStop .seq n) s
        | none => .ok () (s.onMat fun m => { m with seq := .defined, seqRec := bs }))

/-! The replay (R222). -/

/-- The iteration vector after one, level 0 innermost; nothing after the last. -/
def nextVec : List Nat → List Nat → Option (List Nat)
  | [], _ => none
  | i :: r, c :: cs => if i + 1 < c then some ((i + 1) :: r) else (nextVec r cs).map (0 :: ·)
  | _, [] => none

/-- Counter q. -/
def seqCounter (r : List Byte) (idx : List Nat) (q : Nat) : Word :=
  BitVec.ofInt 64 (idx.zipIdx.foldl (fun acc x => acc + x.1 * signedOf 32 (recNat r (32 + 4 * (4 * x.2 + q)) 4))
    ((recNat r (128 + 8 * q) 8 : Nat) : Int))

/-- Word i is skipped at an iteration vector. -/
def seqSkip (r : List Byte) (idx : List Nat) (k : BitVec 256) (i : Nat) : Bool :=
  let f := seqFlags r i
  let x := idx.getD (seqLevel r i) 0
  let p := idx.zipIdx.foldl (fun acc y => acc + y.1 * recNat r (160 + y.2) 1) 0
  (f.testBit 0 && x != 0) || (f.testBit 1 && x + 1 != seqCount r (seqLevel r i)) || (f.testBit 5 && !k.getLsbD (p % 256))

/-- `g` as a buffer word reads it. -/
def seqG (r : List Byte) (idx : List Nat) (g : Vector Word 32) : Vector Word 32 :=
  Vector.ofFn fun i => if 28 ≤ i.val then seqCounter r idx (i.val - 28) else g[i]

/-- The place where the replay stands is saved: MPEND is set, and `mstart` holds the word's own point. -/
def State.seqAt (s : State) (idx : List Nat) (word k : Nat) : State :=
  (s.onMat fun m => { m with seq := .suspended, seqIdx := idx, seqWord := word }).matAt k

/-- The replay has ended. -/
def State.seqEnd (s : State) : State :=
  (s.onMat fun m => { m with seq := .defined, seqIdx := [], seqWord := 0 }).matDone

/-- The point at which a word stopped. -/
def Trap.point (t : Trap) : Nat :=
  match t.at_ with
  | .mat k => k
  | _ => 0

/-- One buffer word at a place: `true` where it was the last. -/
def State.seqWordRun (s : State) (ka : KReg) (idx : List Nat) (word : Nat) : Res Bool :=
  let r := s.act.mat.seqRec
  let nw := recNat r 0 1
  let nl := recNat r 1 1
  let w := seqWordAt r word
  let ir := s.ir
  let g := s.act.g
  let back (s : State) : State := { s with ir := ir, act := { s.act with g := g } }
  let inner : State := { s with ir := (w, none), act := { s.act with g := seqG r idx g } }
  let run : Res Unit :=
    if seqSkip r idx (s.kr ka) word then .ok () s
    else
      match seqOp w with
      | some op => inner.seqExec op
      | none => .ok () s
  match run with
  | .trap t s => .trap { t with at_ := .mat t.point } ((back s).seqAt idx word t.point)
  | .wait w s => .wait w ((back s).seqAt idx word s.matStart)
  | .ok _ s =>
    let s := back s
    if word + 1 < nw then .ok false (s.seqAt idx (word + 1) 0)
    else
      match nextVec idx ((List.range nl).map (seqCount r)) with
      | some i => .ok false (s.seqAt i 0 0)
      | none => .ok true s.seqEnd

/-- R223: where a replay begins or goes on, and one word of it. -/
def State.seqStep (s : State) (ka : KReg) : Res Bool :=
  let nl := recNat s.act.mat.seqRec 1 1
  if !s.holds? then .trap (s.slotTrap 8) s
  else
    match s.act.mat.seq with
    | .empty => .trap (s.matStop .seq 1) s
    | .suspended =>
      if s.resumed then s.seqWordRun ka s.act.mat.seqIdx s.act.mat.seqWord else .trap (s.matStop .seq 2) s
    | .defined =>
      if (List.range nl).any fun l => seqCount s.act.mat.seqRec l == 0 then .ok true s.matDone
      else s.seqWordRun ka (List.replicate nl 0) 0

/-- R222: one buffer word a step, behind which the instruction stops at a restart point (log entry 19). -/
def execSeqrun (a : KReg) (_ : Ctl) (s : State) : Out :=
  match s.seqStep a with
  | .ok false t => (Res.wait .pause t : Res Unit).fin s s.after
  | .ok true t => (Res.ok () t : Res Unit).fin s s.after
  | .trap x t => (Res.trap x t : Res Unit).fin s s.after
  | .wait w t => (Res.wait w t : Res Unit).fin s s.after

end Sys2Proof.Machine
end

