-- ==== Sys2Proof/Machine/Waits.lean ====
section
/-!
DEFINITION. How a wait ends (R181, R274, R305, R308, R309, R320, R389). An event that names a strand which does not wait
so, or whose wait does not end yet, changes nothing.
-/

namespace Sys2Proof.Machine

/-- R274: the cycles that a timed wait has left pass, and a free number more. -/
def State.runOut (s : State) (core left : Nat) : State :=
  let (n, s) := s.draw (2 ^ 16)
  s.pass core (left + n)

/-- The strand with a number, where it runs, with a timed wait of it. -/
def State.waiting? (s : State) (sid : Nat) : Option (Strand × Wait) :=
  ((s.strand? sid).filter fun a => a.life == .running).bind fun a =>
    (a.waits.find? fun w => match w with | .sleep _ => true | .waitt _ _ _ => true | _ => false).map fun w => (a, w)

def execSleepExpiry (sid : Nat) (s : State) : Out :=
  .next (match s.waiting? sid with
    | some (a, .sleep left) => (s.runOut a.core left).wakeIf sid 0 fun _ w => match w with | .sleep _ => true | _ => false
    | _ => s)

/-- The watched word has changed, or the time runs out. -/
def execWaittEnd (sid : Nat) (s : State) : Out :=
  .next (match s.waiting? sid with
    | some (a, .waitt at_ old left) =>
      (if s.watched a.core at_ ≠ old then s else s.runOut a.core left).wakeIf sid 0 fun _ w =>
        match w with | .waitt _ _ _ => true | _ => false
    | _ => s)

def execLeatSlotFreed (sid : Nat) (s : State) : Out :=
  .next (s.wakeIf sid 0 fun a w => w == .lput && (decide (0 < s.leatFree (pairOf a.core)) || (s.core (otherCore a.core)).lost))

def execLeatEntryArrives (sid : Nat) (s : State) : Out :=
  .next (s.wakeIf sid 0 fun a w => w == .lget && (!(s.pair (pairOf a.core)).leat.isEmpty || (s.core (otherCore a.core)).lost))

def execFeWaitSatisfied (sid : Nat) (s : State) : Out :=
  .next (s.wakeIf sid 0 fun _ w => match w with | .fe a full => s.isFull a == full | _ => false)

/-- The generation has moved on, or the object's home is lost, which `barw` then reports (R317). -/
def execBarrierRelease (sid : Nat) (s : State) : Out :=
  .next (s.wakeIf sid 0 fun _ w =>
    match w with
    | .barrier tier unit idx gen => (s.barrier (barrierKey tier unit idx)).gen != gen || s.homeLost tier
    | .barHome _ => s.homeLost .domain
    | _ => false)

/-- The members of a node's unit at a tier, as `gsplit` counts them. -/
def State.splitMembers (s : State) (x : Split) : List Nat :=
  match s.node? x.node with
  | none => x.arrived.map (·.1)
  | some n =>
    if tierRank n.tier ≤ tierRank x.tier then n.members.map (·.1)
    else (n.members.filter fun m => unitOf x.tier m.2 == x.unit).map (·.1)

def execGsplitRoundComplete (s : State) : Out :=
  .next (match s.mill.splits.find? fun x => s.roundComplete (s.splitMembers x) x with
    | some x => s.endRound x
    | none => s)

def execPgateWaitEnd (sid : Nat) (s : State) : Out :=
  .next (s.wakeIf sid 0 fun _ w => match w with | .pgate pair gate => s.gateReached pair gate | _ => false)

end Sys2Proof.Machine
end

