-- ==== Sys2Proof/Machine/Dispatch.lean ====
section
/-!
DEFINITION. The one table from instructions to their meanings: one arm per constructor, in the order of the opcode table.
-/

namespace Sys2Proof.Machine

def exec (i : Instr) (s : State) : Host.Outcome State Fault Refusal :=
  match i with
  | .add d a src t => Sys2Proof.Machine.execAdd d a src t s
  | .sub d a src t => Sys2Proof.Machine.execSub d a src t s
  | .and d a src t => Sys2Proof.Machine.execAnd d a src t s
  | .or d a src t => Sys2Proof.Machine.execOr d a src t s
  | .xor d a src t => Sys2Proof.Machine.execXor d a src t s
  | .shl d a src t => Sys2Proof.Machine.execShl d a src t s
  | .shr d a src t => Sys2Proof.Machine.execShr d a src t s
  | .sra d a src t => Sys2Proof.Machine.execSra d a src t s
  | .min d a src t => Sys2Proof.Machine.execMin d a src t s
  | .max d a src t => Sys2Proof.Machine.execMax d a src t s
  | .minu d a src t => Sys2Proof.Machine.execMinu d a src t s
  | .maxu d a src t => Sys2Proof.Machine.execMaxu d a src t s
  | .slt d a src t => Sys2Proof.Machine.execSlt d a src t s
  | .sltu d a src t => Sys2Proof.Machine.execSltu d a src t s
  | .seq d a src t => Sys2Proof.Machine.execSeq d a src t s
  | .mul d a src t => Sys2Proof.Machine.execMul d a src t s
  | .mulh d a src t => Sys2Proof.Machine.execMulh d a src t s
  | .mulhu d a src t => Sys2Proof.Machine.execMulhu d a src t s
  | .div d a src t => Sys2Proof.Machine.execDiv d a src t s
  | .divu d a src t => Sys2Proof.Machine.execDivu d a src t s
  | .rem d a src t => Sys2Proof.Machine.execRem d a src t s
  | .remu d a src t => Sys2Proof.Machine.execRemu d a src t s
  | .clz d a t => Sys2Proof.Machine.execClz d a t s
  | .ctz d a t => Sys2Proof.Machine.execCtz d a t s
  | .popc d a t => Sys2Proof.Machine.execPopc d a t s
  | .bswap d a t => Sys2Proof.Machine.execBswap d a t s
  | .sxb d a t => Sys2Proof.Machine.execSxb d a t s
  | .sxh d a t => Sys2Proof.Machine.execSxh d a t s
  | .sxw d a t => Sys2Proof.Machine.execSxw d a t s
  | .zxb d a t => Sys2Proof.Machine.execZxb d a t s
  | .zxh d a t => Sys2Proof.Machine.execZxh d a t s
  | .zxw d a t => Sys2Proof.Machine.execZxw d a t s
  | .addpc d src t => Sys2Proof.Machine.execAddpc d src t s
  | .fadd f d a src t => Sys2Proof.Machine.execFadd f d a src t s
  | .fsub f d a src t => Sys2Proof.Machine.execFsub f d a src t s
  | .fmul f d a src t => Sys2Proof.Machine.execFmul f d a src t s
  | .fdiv f d a src t => Sys2Proof.Machine.execFdiv f d a src t s
  | .fmin f d a src t => Sys2Proof.Machine.execFmin f d a src t s
  | .fmax f d a src t => Sys2Proof.Machine.execFmax f d a src t s
  | .fsqrt f d src t => Sys2Proof.Machine.execFsqrt f d src t s
  | .fabs f d src t => Sys2Proof.Machine.execFabs f d src t s
  | .fneg f d src t => Sys2Proof.Machine.execFneg f d src t s
  | .feq f d a src t => Sys2Proof.Machine.execFeq f d a src t s
  | .flt f d a src t => Sys2Proof.Machine.execFlt f d a src t s
  | .fle f d a src t => Sys2Proof.Machine.execFle f d a src t s
  | .ffma f d a b src t => Sys2Proof.Machine.execFfma f d a b src t s
  | .ffms f d a b src t => Sys2Proof.Machine.execFfms f d a b src t s
  | .ffnma f d a b src t => Sys2Proof.Machine.execFfnma f d a b src t s
  | .ffnms f d a b src t => Sys2Proof.Machine.execFfnms f d a b src t s
  | .fcvt d a dst src md sat t => Sys2Proof.Machine.execFcvt d a dst src md sat t s
  | .jal d off t => Sys2Proof.Machine.execJal d off t s
  | .jr d a t => Sys2Proof.Machine.execJr d a t s
  | .bEq a b off t => Sys2Proof.Machine.execBEq a b off t s
  | .bNe a b off t => Sys2Proof.Machine.execBNe a b off t s
  | .bLt a b off t => Sys2Proof.Machine.execBLt a b off t s
  | .bGe a b off t => Sys2Proof.Machine.execBGe a b off t s
  | .bLtu a b off t => Sys2Proof.Machine.execBLtu a b off t s
  | .bGeu a b off t => Sys2Proof.Machine.execBGeu a b off t s
  | .subbr d a off t => Sys2Proof.Machine.execSubbr d a off t s
  | .csrr d r t => Sys2Proof.Machine.execCsrr d r t s
  | .csrw r a t => Sys2Proof.Machine.execCsrw r a t s
  | .csrs r a t => Sys2Proof.Machine.execCsrs r a t s
  | .csrc r a t => Sys2Proof.Machine.execCsrc r a t s
  | .setvl d a f k t => Sys2Proof.Machine.execSetvl d a f k t s
  | .halt t => Sys2Proof.Machine.execHalt t s
  | .yield t => Sys2Proof.Machine.execYield t s
  | .trap imm t => Sys2Proof.Machine.execTrap imm t s
  | .eret t => Sys2Proof.Machine.execEret t s
  | .sleep a t => Sys2Proof.Machine.execSleep a t s
  | .waitt a b t => Sys2Proof.Machine.execWaitt a b t s
  | .grant d a t => Sys2Proof.Machine.execGrant d a t s
  | .pgate a b t => Sys2Proof.Machine.execPgate a b t s
  | .xlinvAddr a t => Sys2Proof.Machine.execXlinvAddr a t s
  | .xlinvPart a t => Sys2Proof.Machine.execXlinvPart a t s
  | .xlinvAll t => Sys2Proof.Machine.execXlinvAll t s
  | .pgq d a t => Sys2Proof.Machine.execPgq d a t s
  | .pairWord s0 s1 => Sys2Proof.Machine.execPairWord s0 s1 s
  | .vadd d a src t => Sys2Proof.Machine.execVadd d a src t s
  | .vsub d a src t => Sys2Proof.Machine.execVsub d a src t s
  | .vmul d a src t => Sys2Proof.Machine.execVmul d a src t s
  | .vdiv d a src t => Sys2Proof.Machine.execVdiv d a src t s
  | .vmin d a src t => Sys2Proof.Machine.execVmin d a src t s
  | .vmax d a src t => Sys2Proof.Machine.execVmax d a src t s
  | .vand d a src t => Sys2Proof.Machine.execVand d a src t s
  | .vor d a src t => Sys2Proof.Machine.execVor d a src t s
  | .vxor d a src t => Sys2Proof.Machine.execVxor d a src t s
  | .vshl d a src t => Sys2Proof.Machine.execVshl d a src t s
  | .vshr d a src t => Sys2Proof.Machine.execVshr d a src t s
  | .vsra d a src t => Sys2Proof.Machine.execVsra d a src t s
  | .vmulh d a src t => Sys2Proof.Machine.execVmulh d a src t s
  | .vabsd d a src t => Sys2Proof.Machine.execVabsd d a src t s
  | .vsgnj d a src t => Sys2Proof.Machine.execVsgnj d a src t s
  | .vaddSat d a src t => Sys2Proof.Machine.execVaddSat d a src t s
  | .vsubSat d a src t => Sys2Proof.Machine.execVsubSat d a src t s
  | .vmulSat d a src t => Sys2Proof.Machine.execVmulSat d a src t s
  | .vfma d a b src t => Sys2Proof.Machine.execVfma d a b src t s
  | .vfms d a b src t => Sys2Proof.Machine.execVfms d a b src t s
  | .vfnma d a b src t => Sys2Proof.Machine.execVfnma d a b src t s
  | .vfnms d a b src t => Sys2Proof.Machine.execVfnms d a b src t s
  | .vneg d a t => Sys2Proof.Machine.execVneg d a t s
  | .vabs d a t => Sys2Proof.Machine.execVabs d a t s
  | .vsqrt d a t => Sys2Proof.Machine.execVsqrt d a t s
  | .vmov d a t => Sys2Proof.Machine.execVmov d a t s
  | .vnot d a t => Sys2Proof.Machine.execVnot d a t s
  | .vcmpEq d a src t => Sys2Proof.Machine.execVcmpEq d a src t s
  | .vcmpNe d a src t => Sys2Proof.Machine.execVcmpNe d a src t s
  | .vcmpLt d a src t => Sys2Proof.Machine.execVcmpLt d a src t s
  | .vcmpLe d a src t => Sys2Proof.Machine.execVcmpLe d a src t s
  | .vcmpGt d a src t => Sys2Proof.Machine.execVcmpGt d a src t s
  | .vcmpGe d a src t => Sys2Proof.Machine.execVcmpGe d a src t s
  | .vcmpUn d a src t => Sys2Proof.Machine.execVcmpUn d a src t s
  | .vmerge d a b c t => Sys2Proof.Machine.execVmerge d a b c t s
  | .vcvt d a dst src md sat j t => Sys2Proof.Machine.execVcvt d a dst src md sat j t s
  | .vsfuExp d a t => Sys2Proof.Machine.execVsfuExp d a t s
  | .vsfuExp2 d a t => Sys2Proof.Machine.execVsfuExp2 d a t s
  | .vsfuLog d a t => Sys2Proof.Machine.execVsfuLog d a t s
  | .vsfuLog2 d a t => Sys2Proof.Machine.execVsfuLog2 d a t s
  | .vsfuRcp d a t => Sys2Proof.Machine.execVsfuRcp d a t s
  | .vsfuRsqrt d a t => Sys2Proof.Machine.execVsfuRsqrt d a t s
  | .vsfuSqrt d a t => Sys2Proof.Machine.execVsfuSqrt d a t s
  | .vsfuTanh d a t => Sys2Proof.Machine.execVsfuTanh d a t s
  | .vsfuSig d a t => Sys2Proof.Machine.execVsfuSig d a t s
  | .vsfuGelu d a t => Sys2Proof.Machine.execVsfuGelu d a t s
  | .vsfuSin d a t => Sys2Proof.Machine.execVsfuSin d a t s
  | .vsfuCos d a t => Sys2Proof.Machine.execVsfuCos d a t s
  | .vredFsum d a b t => Sys2Proof.Machine.execVredFsum d a b t s
  | .vredFmax d a b t => Sys2Proof.Machine.execVredFmax d a b t s
  | .vredFmin d a b t => Sys2Proof.Machine.execVredFmin d a b t s
  | .vredIsum d a b t => Sys2Proof.Machine.execVredIsum d a b t s
  | .vredImax d a b t => Sys2Proof.Machine.execVredImax d a b t s
  | .vredImin d a b t => Sys2Proof.Machine.execVredImin d a b t s
  | .vredImaxu d a b t => Sys2Proof.Machine.execVredImaxu d a b t s
  | .vredIminu d a b t => Sys2Proof.Machine.execVredIminu d a b t s
  | .vredAnd d a b t => Sys2Proof.Machine.execVredAnd d a b t s
  | .vredOr d a b t => Sys2Proof.Machine.execVredOr d a b t s
  | .vredXor d a b t => Sys2Proof.Machine.execVredXor d a b t s
  | .vid d t => Sys2Proof.Machine.execVid d t s
  | .vrngBits d a t => Sys2Proof.Machine.execVrngBits d a t s
  | .vrngUnit d a t => Sys2Proof.Machine.execVrngUnit d a t s
  | .vdrop d a b t => Sys2Proof.Machine.execVdrop d a b t s
  | .vperm d a b t => Sys2Proof.Machine.execVperm d a b t s
  | .vrot d a src t => Sys2Proof.Machine.execVrot d a src t s
  | .vslideUp d a src t => Sys2Proof.Machine.execVslideUp d a src t s
  | .vslideDn d a src t => Sys2Proof.Machine.execVslideDn d a src t s
  | .vcomp d a b t => Sys2Proof.Machine.execVcomp d a b t s
  | .vexp d a b t => Sys2Proof.Machine.execVexp d a b t s
  | .mand d a b t => Sys2Proof.Machine.execMand d a b t s
  | .mor d a b t => Sys2Proof.Machine.execMor d a b t s
  | .mxor d a b t => Sys2Proof.Machine.execMxor d a b t s
  | .mandn d a b t => Sys2Proof.Machine.execMandn d a b t s
  | .mnot d a t => Sys2Proof.Machine.execMnot d a t s
  | .mcnt d a t => Sys2Proof.Machine.execMcnt d a t s
  | .many d a t => Sys2Proof.Machine.execMany d a t s
  | .mfirst d a t => Sys2Proof.Machine.execMfirst d a t s
  | .wset d src t => Sys2Proof.Machine.execWset d src t s
  | .wsigH d a t => Sys2Proof.Machine.execWsigH d a t s
  | .wsigS d a t => Sys2Proof.Machine.execWsigS d a t s
  | .wget d a t => Sys2Proof.Machine.execWget d a t s
  | .wmul d a b t => Sys2Proof.Machine.execWmul d a b t s
  | .wcmp d a t => Sys2Proof.Machine.execWcmp d a t s
  | .arm a off t => Sys2Proof.Machine.execArm a off t s
  | .armb a off t => Sys2Proof.Machine.execArmb a off t s
  | .armend t => Sys2Proof.Machine.execArmend t s
  | .join d a b c t => Sys2Proof.Machine.execJoin d a b c t s
  | .joinb d a b c e t => Sys2Proof.Machine.execJoinb d a b c e t s
  | .wloop d a off t => Sys2Proof.Machine.execWloop d a off t s
  | .wlend off t => Sys2Proof.Machine.execWlend off t s
  | .ld8 d a off fq t => Sys2Proof.Machine.execLd8 d a off fq t s
  | .ld16 d a off fq t => Sys2Proof.Machine.execLd16 d a off fq t s
  | .ld32 d a off fq t => Sys2Proof.Machine.execLd32 d a off fq t s
  | .ld64 d a off fq t => Sys2Proof.Machine.execLd64 d a off fq t s
  | .ldz8 d a off fq t => Sys2Proof.Machine.execLdz8 d a off fq t s
  | .ldz16 d a off fq t => Sys2Proof.Machine.execLdz16 d a off fq t s
  | .ldz32 d a off fq t => Sys2Proof.Machine.execLdz32 d a off fq t s
  | .st8 a b off fq t => Sys2Proof.Machine.execSt8 a b off fq t s
  | .st16 a b off fq t => Sys2Proof.Machine.execSt16 a b off fq t s
  | .st32 a b off fq t => Sys2Proof.Machine.execSt32 a b off fq t s
  | .st64 a b off fq t => Sys2Proof.Machine.execSt64 a b off fq t s
  | .vld d a off fq k rhu t => Sys2Proof.Machine.execVld d a off fq k rhu t s
  | .vlds d a b fq k rhu t => Sys2Proof.Machine.execVlds d a b fq k rhu t s
  | .vldx d a b fq k rhu t => Sys2Proof.Machine.execVldx d a b fq k rhu t s
  | .vst a b off fq k t => Sys2Proof.Machine.execVst a b off fq k t s
  | .vsts a b c fq k t => Sys2Proof.Machine.execVsts a b c fq k t s
  | .vstx a b c fq k t => Sys2Proof.Machine.execVstx a b c fq k t s
  | .vstp a b off fq k t => Sys2Proof.Machine.execVstp a b off fq k t s
  | .vstpPa a b off fq k t => Sys2Proof.Machine.execVstpPa a b off fq k t s
  | .feset a b t => Sys2Proof.Machine.execFeset a b t s
  | .feclr a b t => Sys2Proof.Machine.execFeclr a b t s
  | .amoAdd n32 d a b t => Sys2Proof.Machine.execAmoAdd n32 d a b t s
  | .amoAnd n32 d a b t => Sys2Proof.Machine.execAmoAnd n32 d a b t s
  | .amoOr n32 d a b t => Sys2Proof.Machine.execAmoOr n32 d a b t s
  | .amoXor n32 d a b t => Sys2Proof.Machine.execAmoXor n32 d a b t s
  | .amoMin n32 d a b t => Sys2Proof.Machine.execAmoMin n32 d a b t s
  | .amoMax n32 d a b t => Sys2Proof.Machine.execAmoMax n32 d a b t s
  | .amoMinu n32 d a b t => Sys2Proof.Machine.execAmoMinu n32 d a b t s
  | .amoMaxu n32 d a b t => Sys2Proof.Machine.execAmoMaxu n32 d a b t s
  | .amoSwap n32 d a b t => Sys2Proof.Machine.execAmoSwap n32 d a b t s
  | .amoCas n32 d a b c t => Sys2Proof.Machine.execAmoCas n32 d a b c t s
  | .vamoAdd n32 d a b c t => Sys2Proof.Machine.execVamoAdd n32 d a b c t s
  | .vamoAnd n32 d a b c t => Sys2Proof.Machine.execVamoAnd n32 d a b c t s
  | .vamoOr n32 d a b c t => Sys2Proof.Machine.execVamoOr n32 d a b c t s
  | .vamoXor n32 d a b c t => Sys2Proof.Machine.execVamoXor n32 d a b c t s
  | .vamoMin n32 d a b c t => Sys2Proof.Machine.execVamoMin n32 d a b c t s
  | .vamoMax n32 d a b c t => Sys2Proof.Machine.execVamoMax n32 d a b c t s
  | .vamoMinu n32 d a b c t => Sys2Proof.Machine.execVamoMinu n32 d a b c t s
  | .vamoMaxu n32 d a b c t => Sys2Proof.Machine.execVamoMaxu n32 d a b c t s
  | .vamoSwap n32 d a b c t => Sys2Proof.Machine.execVamoSwap n32 d a b c t s
  | .vamoCas n32 d a b c t => Sys2Proof.Machine.execVamoCas n32 d a b c t s
  | .amoacc md a b t => Sys2Proof.Machine.execAmoacc md a b t s
  | .vldbfa md d a t => Sys2Proof.Machine.execVldbfa md d a t s
  | .fenceC tier t => Sys2Proof.Machine.execFenceC tier t s
  | .fenceS tier t => Sys2Proof.Machine.execFenceS tier t s
  | .fenceRec tier t => Sys2Proof.Machine.execFenceRec tier t s
  | .fenceHost tier t => Sys2Proof.Machine.execFenceHost tier t s
  | .fenceEng tier t => Sys2Proof.Machine.execFenceEng tier t s
  | .strm d a b t => Sys2Proof.Machine.execStrm d a b t s
  | .strmx d t => Sys2Proof.Machine.execStrmx d t s
  | .stash a b t => Sys2Proof.Machine.execStash a b t s
  | .stflush a b t => Sys2Proof.Machine.execStflush a b t s
  | .stinv a b t => Sys2Proof.Machine.execStinv a b t s
  | .pref a b t => Sys2Proof.Machine.execPref a b t s
  | .vcapp a b t => Sys2Proof.Machine.execVcapp a b t s
  | .cpy a b c e t => Sys2Proof.Machine.execCpy a b c e t s
  | .gath a b c e t => Sys2Proof.Machine.execGath a b c e t s
  | .scat a b c e t => Sys2Proof.Machine.execScat a b c e t s
  | .collAg a b c e t => Sys2Proof.Machine.execCollAg a b c e t s
  | .collRs f a b c e t => Sys2Proof.Machine.execCollRs f a b c e t s
  | .collAr f a b c e t => Sys2Proof.Machine.execCollAr f a b c e t s
  | .ewait a t => Sys2Proof.Machine.execEwait a t s
  | .glaunch a b t => Sys2Proof.Machine.execGlaunch a b t s
  | .nspawn a b t => Sys2Proof.Machine.execNspawn a b t s
  | .dcset a b t => Sys2Proof.Machine.execDcset a b t s
  | .dcdec a b t => Sys2Proof.Machine.execDcdec a b t s
  | .npatch a b c t => Sys2Proof.Machine.execNpatch a b c t s
  | .gid tier d t => Sys2Proof.Machine.execGid tier d t s
  | .gsplit tier d a t => Sys2Proof.Machine.execGsplit tier d a t s
  | .lput a t => Sys2Proof.Machine.execLput a t s
  | .lget d t => Sys2Proof.Machine.execLget d t s
  | .lfree d t => Sys2Proof.Machine.execLfree d t s
  | .bari tier idx b t => Sys2Proof.Machine.execBari tier idx b t s
  | .barr tier idx t => Sys2Proof.Machine.execBarr tier idx t s
  | .barw tier idx t => Sys2Proof.Machine.execBarw tier idx t s
  | .barrw tier idx t => Sys2Proof.Machine.execBarrw tier idx t s
  | .msmode op mvl t => Sys2Proof.Machine.execMsmode op mvl t s
  | .mclaim d n t => Sys2Proof.Machine.execMclaim d n t s
  | .mrel a t => Sys2Proof.Machine.execMrel a t s
  | .mlds a b t => Sys2Proof.Machine.execMlds a b t s
  | .mldw a fs t => Sys2Proof.Machine.execMldw a fs t s
  | .mstrm d a fs t => Sys2Proof.Machine.execMstrm d a fs t s
  | .mxprod d a b t => Sys2Proof.Machine.execMxprod d a b t s
  | .mzero d t => Sys2Proof.Machine.execMzero d t s
  | .mrdzSplit d a b t => Sys2Proof.Machine.execMrdzSplit d a b t s
  | .mrdzMerge d a b t => Sys2Proof.Machine.execMrdzMerge d a b t s
  | .mwrz d a b t => Sys2Proof.Machine.execMwrz d a b t s
  | .mcol d a b t => Sys2Proof.Machine.execMcol d a b t s
  | .mtrs d a t => Sys2Proof.Machine.execMtrs d a t s
  | .msts a b c t => Sys2Proof.Machine.execMsts a b c t s
  | .mstsCmp a b c t => Sys2Proof.Machine.execMstsCmp a b c t s
  | .mstsCmpTrap a b c t => Sys2Proof.Machine.execMstsCmpTrap a b c t s
  | .seqdef a t => Sys2Proof.Machine.execSeqdef a t s
  | .seqrun a t => Sys2Proof.Machine.execSeqrun a t s
  | .kset d a t => Sys2Proof.Machine.execKset d a t s
  | .kclr d a t => Sys2Proof.Machine.execKclr d a t s
  | .kld d a t => Sys2Proof.Machine.execKld d a t s
  | .ktst d a b t => Sys2Proof.Machine.execKtst d a b t s
  | .voptSgd a b c e t => Sys2Proof.Machine.execVoptSgd a b c e t s
  | .voptMsgd a b c e t => Sys2Proof.Machine.execVoptMsgd a b c e t s
  | .voptAdam a b c e t => Sys2Proof.Machine.execVoptAdam a b c e t s
  | .vsal d a b t => Sys2Proof.Machine.execVsal d a b t s
  | .vnms d a n t => Sys2Proof.Machine.execVnms d a n t s
  | .qterm a b c t => Sys2Proof.Machine.execQterm a b c t s
  | .qvec a b c t => Sys2Proof.Machine.execQvec a b c t s
  | .qexec a b t => Sys2Proof.Machine.execQexec a b t s
  | .qstat d a t => Sys2Proof.Machine.execQstat d a t s
  | .strandDispatch core => Sys2Proof.Machine.execStrandDispatch core s
  | .priorityPreemption => Sys2Proof.Machine.execPriorityPreemption s
  | .queueAging part q => Sys2Proof.Machine.execQueueAging part q s
  | .preemptionRequest sid => Sys2Proof.Machine.execPreemptionRequest sid s
  | .strandStopped sid => Sys2Proof.Machine.execStrandStopped sid s
  | .trappedSave sid => Sys2Proof.Machine.execTrappedSave sid s
  | .faultRecordWrite => Sys2Proof.Machine.execFaultRecordWrite s
  | .faultReply part slot => Sys2Proof.Machine.execFaultReply part slot s
  | .migrationSelect sid => Sys2Proof.Machine.execMigrationSelect sid s
  | .reelTransfer sid pkg => Sys2Proof.Machine.execReelTransfer sid pkg s
  | .reelArrived sid core => Sys2Proof.Machine.execReelArrived sid core s
  | .nodeComplete node => Sys2Proof.Machine.execNodeComplete node s
  | .readyPoolEntry => Sys2Proof.Machine.execReadyPoolEntry s
  | .replayBind id => Sys2Proof.Machine.execReplayBind id s
  | .spawnedKernelReject node => Sys2Proof.Machine.execSpawnedKernelReject node s
  | .arbiterPeriod => Sys2Proof.Machine.execArbiterPeriod s
  | .engineIssue op => Sys2Proof.Machine.execEngineIssue op s
  | .engineDone op unit => Sys2Proof.Machine.execEngineDone op unit s
  | .engineSuspend op unit => Sys2Proof.Machine.execEngineSuspend op unit s
  | .engineFail op unit => Sys2Proof.Machine.execEngineFail op unit s
  | .postStallResume sid => Sys2Proof.Machine.execPostStallResume sid s
  | .streamRefill sid r granule => Sys2Proof.Machine.execStreamRefill sid r granule s
  | .gatherSubrequest op => Sys2Proof.Machine.execGatherSubrequest op s
  | .gatherReply op owner => Sys2Proof.Machine.execGatherReply op owner s
  | .collBlock op rank => Sys2Proof.Machine.execCollBlock op rank s
  | .queryStart quad => Sys2Proof.Machine.execQueryStart quad s
  | .queryDone quad ctx => Sys2Proof.Machine.execQueryDone quad ctx s
  | .querySuspend quad ctx => Sys2Proof.Machine.execQuerySuspend quad ctx s
  | .queryFail quad ctx => Sys2Proof.Machine.execQueryFail quad ctx s
  | .batchTimeout die => Sys2Proof.Machine.execBatchTimeout die s
  | .batchArrive die src => Sys2Proof.Machine.execBatchArrive die src s
  | .batchApply die src => Sys2Proof.Machine.execBatchApply die src s
  | .remoteReadRequest die => Sys2Proof.Machine.execRemoteReadRequest die s
  | .readReply die => Sys2Proof.Machine.execReadReply die s
  | .remoteAtomic die => Sys2Proof.Machine.execRemoteAtomic die s
  | .remoteAccessTimeout sid pkg => Sys2Proof.Machine.execRemoteAccessTimeout sid pkg s
  | .flitData port => Sys2Proof.Machine.execFlitData port s
  | .flitCredit port => Sys2Proof.Machine.execFlitCredit port s
  | .flitReplayRequest port => Sys2Proof.Machine.execFlitReplayRequest port s
  | .portEnable port => Sys2Proof.Machine.execPortEnable port s
  | .portTrained port => Sys2Proof.Machine.execPortTrained port s
  | .trainingTimeout port => Sys2Proof.Machine.execTrainingTimeout port s
  | .laneFail port lane => Sys2Proof.Machine.execLaneFail port lane s
  | .retrainDone port => Sys2Proof.Machine.execRetrainDone port s
  | .retrainFail port => Sys2Proof.Machine.execRetrainFail port s
  | .portDisable port => Sys2Proof.Machine.execPortDisable port s
  | .peerLoss pkg => Sys2Proof.Machine.execPeerLoss pkg s
  | .hostPortDown => Sys2Proof.Machine.execHostPortDown s
  | .hostMemRead host addr len => Sys2Proof.Machine.execHostMemRead host addr len s
  | .hostMemWrite host addr => Sys2Proof.Machine.execHostMemWrite host addr s
  | .eccCorrected chan => Sys2Proof.Machine.execEccCorrected chan s
  | .eccUncorrectable addr held => Sys2Proof.Machine.execEccUncorrectable addr held s
  | .dvfsTransition quad point => Sys2Proof.Machine.execDvfsTransition quad point s
  | .powerWindow => Sys2Proof.Machine.execPowerWindow s
  | .railWindow core => Sys2Proof.Machine.execRailWindow core s
  | .railStepRaise core => Sys2Proof.Machine.execRailStepRaise core s
  | .ballast quad => Sys2Proof.Machine.execBallast quad s
  | .laneTrim core => Sys2Proof.Machine.execLaneTrim core s
  | .gateDrained pair => Sys2Proof.Machine.execGateDrained pair s
  | .wakeDone pair => Sys2Proof.Machine.execWakeDone pair s
  | .sleepExpiry sid => Sys2Proof.Machine.execSleepExpiry sid s
  | .waittEnd sid => Sys2Proof.Machine.execWaittEnd sid s
  | .leatSlotFreed sid => Sys2Proof.Machine.execLeatSlotFreed sid s
  | .leatEntryArrives sid => Sys2Proof.Machine.execLeatEntryArrives sid s
  | .feWaitSatisfied sid => Sys2Proof.Machine.execFeWaitSatisfied sid s
  | .barrierRelease sid => Sys2Proof.Machine.execBarrierRelease sid s
  | .gsplitRoundComplete => Sys2Proof.Machine.execGsplitRoundComplete s
  | .pgateWaitEnd sid => Sys2Proof.Machine.execPgateWaitEnd sid s
  | .ewaitRetire sid => Sys2Proof.Machine.execEwaitRetire sid s
  | .claim host => Sys2Proof.Machine.execClaim host s
  | .renew host => Sys2Proof.Machine.execRenew host s
  | .leaseLapse => Sys2Proof.Machine.execLeaseLapse s
  | .handover host dest => Sys2Proof.Machine.execHandover host dest s
  | .accept host => Sys2Proof.Machine.execAccept host s
  | .handoverTimeout => Sys2Proof.Machine.execHandoverTimeout s
  | .read host => Sys2Proof.Machine.execRead host s
  | .attest host => Sys2Proof.Machine.execAttest host s
  | .spdmMeasurement host => Sys2Proof.Machine.execSpdmMeasurement host s
  | .create host => Sys2Proof.Machine.execCreate host s
  | .modify host => Sys2Proof.Machine.execModify host s
  | .start host => Sys2Proof.Machine.execStart host s
  | .reset host part => Sys2Proof.Machine.execReset host part s
  | .resetComplete part => Sys2Proof.Machine.execResetComplete part s
  | .destroy host part => Sys2Proof.Machine.execDestroy host part s
  | .fwupdate host => Sys2Proof.Machine.execFwupdate host s
  | .deviceReset => Sys2Proof.Machine.execDeviceReset s
  | .hostPortUp => Sys2Proof.Machine.execHostPortUp s
  | .bisnpResponse line => Sys2Proof.Machine.execBisnpResponse line s
  | .domainBarrierArrival => Sys2Proof.Machine.execDomainBarrierArrival s
  | .remoteCounterUpdate => Sys2Proof.Machine.execRemoteCounterUpdate s

end Sys2Proof.Machine
end

