-- ==== Sys2Proof/Machine/Fetch.lean ====
section
/-!
DEFINITION. Fetching a word and its literal (R71, R72, R108 to R111), posted work (R49, R58), which strand acts, and how a
program is placed where the next step fetches.
-/

namespace Sys2Proof.Machine

/-- The kernel's code end (R111). -/
def Strand.codeEnd (a : Strand) : Word := a.base + BitVec.ofNat 64 a.hdr.codeEnd

/-- R108 checks 2 to 4 for the eight bytes at an address, and the word there; `tval` is that address, also for the literal at the target of a
branch (R109, R110; DEDUCED, log entry 71). -/
def State.fetchWord (s : State) (pc : Word) : Res Word :=
  if s.act.codeEnd.toNat ≤ pc.toNat then .trap (Trap.scalar .codeEnd pc) s
  else
    match s.access pc.toNat 8 8 .fetch false false with
    | (.bad c, s) => .trap (Trap.scalar c pc) s
    | (.stall w, s) => .wait (.own w) s
    | (.ok l, s) =>
      let s := s.locSync s.act.core l
      .ok (BitVec.ofNat 64 (leNat (s.locBytes s.act.core s.act.part l 8))) s

/-- R108: the word at the strand's address, and the word after it where LIT is set. The checks of the literal come after those of the word,
which says whether there is one (DEDUCED, log entry 71). -/
def State.fetch (s : State) : Res (Word × Option Word) :=
  let pc := s.act.pc
  if pc.toNat % 8 ≠ 0 then .trap (Trap.scalar .align pc) s
  else
    (s.fetchWord pc).bind fun w s =>
      if needsLit w then (s.fetchWord (pc + 8)).bind fun l s => .ok (w, some l) s
      else .ok (w, none) s

/-- The trap of a word that is no instruction (R89). -/
def State.decodeTrap (s : State) (e : DecodeError) : Trap :=
  match e with
  | .wordKind => Trap.scalar .wordKind s.ir.1
  | .litExec => Trap.scalar .litExec s.act.pc
  | .pairBank => Trap.scalar .pairBank s.ir.1
  | .illegal => Trap.scalar .illegal s.ir.1
  | .short => Trap.scalar .illegal s.ir.1

/-- The address after the words being executed (R72). -/
def State.afterIr (s : State) : Word := s.act.pc + (if s.ir.2.isSome then 16 else 8)

/-- R118: the acting core counts at least one cycle more, how many is a free value (log entry 12). -/
def State.tick (s : State) : State :=
  let (n, s) := s.draw (2 ^ 16)
  s.pass s.act.core (n + 1)

/-! Which words are posted, and which `g` registers a word names (R58, R90). -/

/-- The OP value of a word (R74). -/
def wordOp (w : Word) : Nat := (w.extractLsb' 54 8).toNat
/-- The function number of a word without SRCK (R79). -/
def wordFn (w : Word) : Nat := (w.extractLsb' 48 4).toNat
/-- SRCK of a word (R79). -/
def wordSrck (w : Word) : Nat := (w.extractLsb' 52 2).toNat
/-- A register field of a word: 0 for D, 1 for A, 2 for B, 3 for C, 4 for E (R74). -/
def wordReg (w : Word) (i : Nat) : Reg := w.extractLsb' (43 - 5 * i) 5

/-- The fields of a full word that name `g` registers, read or written (R90). -/
def gFields (w : Word) : List Nat :=
  let reg := wordSrck w == 0
  match wordOp w with
  | 0x00 | 0x01 | 0x20 | 0x21 | 0x22 => [0, 1] ++ (if reg then [2] else [])
  | 0x23 => [0, 1] ++ (if wordSrck w == 1 && !w.getLsbD 1 then [] else [2]) ++ (if reg then [3] else [])
  | 0x02 | 0x24 | 0x29 | 0x2B | 0x30 | 0x31 | 0x35 | 0x70 | 0x91 | 0xBB => [0, 1]
  | 0x03 | 0x28 | 0x63 => [0]
  | 0x2A | 0x33 | 0x71 | 0x73 | 0x79 | 0x7E | 0x7F | 0x9A | 0xBA => [1, 2]
  | 0x32 => [0, 1, 2]
  | 0x34 | 0x42 | 0x6B | 0x72 | 0x74 | 0x7B | 0x7C | 0x80 | 0x8B => [1]
  | 0x60 => if wordFn w != 0 && reg then [2] else []
  | 0x68 => if wordFn w == 0 && reg then [1] else []
  | 0x40 => [0, 2]
  | 0x43 | 0x75 | 0x77 | 0x78 | 0x93 | 0x9D => [2]
  | 0x76 => [2, 3]
  | 0x7A => [0, 1, 2, 3]
  | 0x88 | 0x89 | 0x8A => [1, 2, 3, 4]
  | 0x90 | 0xB8 | 0xB9 => [1, 2, 3]
  | 0x92 => if wordFn w == 2 then [0] else []
  | 0x99 => if wordFn w == 0 then [0] else [1]
  | 0x9E => [1, 3]
  | 0x9F => if wordFn w == 0 then [1] else []
  | 0xA0 => if wordFn w == 3 then [0, 2] else [1]
  | 0xB0 => [1, 3, 4]
  | _ => []

/-- The `g` registers that a full or a pair word reads or writes; `seqrun` captures `g1` to `g27` (R222). -/
def gUses (w : Word) : List Reg :=
  if w.extractLsb' 62 2 == 1#2 then [w.extractLsb' 51 5, w.extractLsb' 46 5, w.extractLsb' 20 5, w.extractLsb' 15 5]
  else if wordOp w == 0x9F && wordFn w == 1 then (List.range 27).map fun i => BitVec.ofNat 5 (i + 1)
  else (gFields w).map (wordReg w)

/-- The `g` register that a posted word writes. -/
def gDest (w : Word) : Option Reg :=
  let d := wordReg w 0
  match wordOp w with
  | 0x35 | 0x40 | 0x63 | 0x91 | 0xBB => some d
  | 0x92 => if wordFn w == 2 then some d else none
  | 0x99 => if wordFn w == 0 then some d else none
  | 0xA0 => if wordFn w == 3 then some d else none
  | _ => none

/-- R58: a word names no `g` register that posted work has still to write. -/
def Strand.gFree (a : Strand) (w : Word) : Bool :=
  (gUses w).all fun r => r == 0 || a.posted.all fun p => gDest p.word != some r

/-- Words whose outcome says where the scalar part goes on: `arm`, `armb`, `wloop`, `wlend` (R155, R168). -/
def isOutcome (w : Word) : Bool := (wordOp w == 0x69 && wordFn w != 2) || wordOp w == 0x6B

/-- The scalar part may go past its posted work with a word. -/
def Strand.mayPass (a : Strand) (w : Word) : Bool := a.gFree w && a.posted.all fun p => !isOutcome p.word

/-- Words for the matrix queue (R205). -/
def isMatrixWord (w : Word) : Bool := decide (0x98 ≤ wordOp w) && decide (wordOp w ≤ 0xA0)

/-- Full words that the scalar part may post and leave (R49, R58, R205): all that go to the vector queue or the matrix queue, but
for those whose outcome says where it goes on or whether it does: `arm`, `armb`, `wloop`, `wlend` (R155, R168), and those of OP
0x32. A word with SY set waits for older work (R58). -/
def State.irPosts (s : State) : Bool :=
  let w := s.ir.1
  w.extractLsb' 62 2 == 0#2 && !w.getLsbD 0 &&
  ([0x33, 0x34, 0x35, 0x38, 0x39, 0x3A, 0x3B, 0x3C, 0x3D, 0x3E, 0x3F, 0x40, 0x41, 0x42, 0x43, 0x60, 0x61, 0x62, 0x63, 0x68, 0x6A,
    0x72, 0x73, 0x74, 0x75, 0x76, 0x77, 0x78, 0x79, 0x7B, 0x7C, 0x7D, 0x7E, 0x7F, 0x80, 0x88, 0x89, 0x8A, 0x8B, 0x90, 0x91, 0x92,
    0x93, 0xB0, 0xB1, 0xB8, 0xB9, 0xBA, 0xBB].contains (wordOp w) || isMatrixWord w || (wordOp w == 0x69 && wordFn w == 2))

/-- Words that issue an engine operation (R193). -/
def isEngineWord (w : Word) : Bool := [0x88, 0x89, 0x8A].contains (wordOp w)

/-- How many posted words of the strands of a core a test selects. -/
def State.postedOn (s : State) (core : Nat) (f : Word → Bool) : Nat :=
  s.strands.foldl (fun n a => if a.core == core then n + (a.posted.filter fun p => f p.word).length else n) 0

/-- The word has room where it is posted: in the 256-entry matrix queue of the core (R205), among the 16 outstanding engine
operations of the core (R193). -/
def State.queueRoom (s : State) : Bool :=
  (!isMatrixWord s.ir.1 || decide (s.postedOn s.act.core isMatrixWord < 256)) &&
  (!isEngineWord s.ir.1 ||
    decide ((s.engines.filter fun o => o.2.core == s.act.core).length + s.postedOn s.act.core isEngineWord < 16))

/-- CSRs whose accesses do not wait for posted work (R116): the captured ones and those of the order "issue". -/
def csrAhead (w : Word) : Bool :=
  [0x000, 0x001, 0x003, 0x010, 0x012, 0x013, 0x014, 0x020, 0x021, 0x040, 0x060, 0x070, 0x071, 0x072, 0x073].contains
    (w.extractLsb' 18 12).toNat

/-- Words of the scalar part alone, without accesses to memory, that do not wait for posted work (R49, R58, R107, R116): integer
and floating-point arithmetic, control transfer, `setvl`, CSRs, and pair words of two such slots. -/
def plainAhead (w : Word) : Bool :=
  if w.extractLsb' 62 2 == 1#2 then decide ((w.extractLsb' 56 6).toNat < 0x10) && decide ((w.extractLsb' 25 6).toNat < 0x10)
  else
    w.extractLsb' 62 2 == 0#2 && !w.getLsbD 0 &&
    ([0x00, 0x01, 0x02, 0x03, 0x20, 0x21, 0x22, 0x23, 0x24, 0x28, 0x29, 0x2A, 0x2B, 0x31].contains (wordOp w) ||
      (wordOp w == 0x30 && csrAhead w))

/-! Scalar accesses ahead of posted accesses (R173). -/

/-- A range of virtual addresses: the first one and how many bytes; addresses are sums of 64 bits (R80). -/
structure Span where
  first : Word
  count : Nat
deriving DecidableEq, Repr

/-- Two ranges have no byte in common. -/
def Span.apart (x y : Span) : Bool :=
  decide (x.count ≤ (y.first - x.first).toNat) && decide (y.count ≤ (x.first - y.first).toNat)

/-- The signed offset of a unit-stride form (R80). -/
def wordOff (w : Word) : Word := (w.extractLsb' 20 13).signExtend 64

/-- The bytes that a scalar load, store or atomic touches. -/
def scalarRange (g : Vector Word 32) (w : Word) : Option Span :=
  let at_ (r : Reg) : Word := if r = 0 then 0 else g[r.toNat]
  match wordOp w with
  | 0x70 => some { first := at_ (wordReg w 1) + wordOff w, count := [1, 2, 4, 8, 1, 2, 4].getD (wordFn w) 8 }
  | 0x71 => some { first := at_ (wordReg w 2) + wordOff w, count := [1, 2, 4, 8].getD (wordFn w) 8 }
  | 0x7A => some { first := at_ (wordReg w 1), count := 8 }
  | _ => none

/-- The hull of the bytes that `vl` elements at a stride touch. -/
def hull (base : Word) (stride : Int) (vl nb : Nat) : Span :=
  let far := stride * (vl - 1 : Nat)
  { first := base + BitVec.ofInt 64 (min 0 far), count := far.natAbs + nb }

/-- The range of a posted vector access that a scalar access may be compared with: a unit-stride or a strided access that has not
NV set and whose format is not NP. -/
def vectorRange (p : Posted) : Option Span :=
  let w := p.word
  let at_ (r : Reg) : Word := if r = 0 then 0 else p.cap.g[r.toNat]
  let nb := fmtWidth p.cap.vt.fmt / 8
  if w.getLsbD 2 || p.cap.vt.fmt == .np then none
  else
    match wordOp w with
    | 0x72 => some (hull (at_ (wordReg w 1) + wordOff w) nb p.cap.vl.toNat nb)
    | 0x73 => some (hull (at_ (wordReg w 1)) (at_ (wordReg w 2)).toInt p.cap.vl.toNat nb)
    | 0x75 => some (hull (at_ (wordReg w 2) + wordOff w) nb p.cap.vl.toNat nb)
    | 0x76 => some (hull (at_ (wordReg w 2)) (at_ (wordReg w 3)).toInt p.cap.vl.toNat nb)
    | _ => none

/-- Posted words that touch no memory and no engine. -/
def noMemory (w : Word) : Bool :=
  [0x38, 0x39, 0x3A, 0x3B, 0x3C, 0x3D, 0x3E, 0x3F, 0x40, 0x41, 0x42, 0x43, 0x60, 0x61, 0x62, 0x63, 0x68, 0x6A, 0x91, 0x92, 0x98, 0x99,
   0x9B, 0x9C, 0x9D, 0xB1].contains (wordOp w) ||
  (wordOp w == 0x9A && wordFn w == 1) || (wordOp w == 0xA0 && wordFn w != 2)

/-- Posted words that no later access is ordered with: those without an access, but for `lget`, whose entry orders them (R313,
R350). -/
def noAccess (w : Word) : Bool := noMemory w && !(wordOp w == 0x92 && wordFn w == 1)

/-- R173: a scalar access may take effect before an older posted one that touches other bytes. The model lets it pass accesses
whose range is known from the word, where no stream is bound and no arm pair is open (log entry 2). -/
def Strand.memAhead (a : Strand) (w : Word) : Bool :=
  w.extractLsb' 62 2 == 0#2 && !w.getLsbD 0 && a.streams.isEmpty && a.arms.isEmpty &&
  match scalarRange a.g w with
  | none => false
  | some x => a.posted.all fun p => noAccess p.word || match vectorRange p with
    | some y => x.apart y
    | none => false

/-- The word names no register that is bound to a stream. -/
def Strand.pastStreams (a : Strand) (w : Word) : Bool :=
  (List.range 5).all fun i => !(List.range 8).any fun j => (a.streams.get? ((wordReg w i).toNat + j)).isSome

/-- R321: a posted word that a waiting `barw` does not hold back: it touches neither memory nor an engine, and names no register
that is bound to a stream. -/
def Strand.pastBarrier (a : Strand) (w : Word) : Bool := noMemory w && a.pastStreams w

/-- The scalar part may execute the word that it holds ahead of posted work. -/
def State.irAhead (s : State) : Bool := s.act.mayPass s.ir.1 && (plainAhead s.ir.1 || s.act.memAhead s.ir.1)

/-- R49: the scalar part posts the words it holds and goes on. An instruction behind a vector instruction begins at element 0
(R123). -/
def State.post (s : State) : State :=
  let p := s.asPosted
  let p := if s.act.posted.all fun q => isMatrixWord q.word then p else { p with cap := { p.cap with vstart := 0 } }
  { s with act := { s.act with posted := s.act.posted ++ [p], pc := s.afterIr } }

/-- R321: a word of the scalar part that touches neither memory nor an engine and that only a waiting `barw` is before: `arm`, `armb`,
`wloop`, `wlend`, and pair words without a memory slot. -/
def Strand.loneBehind (a : Strand) (w : Word) : Bool :=
  (isOutcome w && a.pastStreams w) ||
  (w.extractLsb' 62 2 == 1#2 && decide ((w.extractLsb' 56 6).toNat < 0x20) && decide ((w.extractLsb' 25 6).toNat < 0x20) && a.streams.isEmpty)

/-! The host's lines (R370). -/

/-- An outcome that writes a line that the host may hold is not taken: `k` says what happens until the host has given it up (log entry
35). -/
def State.heed (s : State) (o : Out) (k : Nat → Out) : Out :=
  match o with
  | .next t => match s.dom.hostLines.find? fun l => !NSet.has l t.dom.hostLines with | some l => k l | none => o
  | o => o

/-- The scalar part waits for the host to give a line up. -/
def State.heedScalar (s : State) (o : Out) : Out := s.heed o fun l => .next (s.onAct fun a => { a with hold := some (.snoop l) })
/-- The oldest posted instruction waits for the host to give a line up. -/
def State.heedPosted (s : State) (o : Out) : Out := s.heed o fun l => .next (s.onAct fun a => { a with wait := some (.snoop l) })

/-- The strand with a number takes the place of the acting one; with no such strand nothing changes. -/
def State.switch (s : State) (sid : Nat) : State :=
  if s.act.sid = sid then s
  else
    match s.parked.find? fun a => a.sid == sid with
    | some a => { s with act := a, parked := s.act :: s.parked.filter fun b => b.sid != sid }
    | none => s

/-- The oldest posted instruction of the strand can be executed. -/
def Strand.canDrain (a : Strand) : Bool := a.life == .running && !a.posted.isEmpty && a.wait.isNone
/-- The strand's scalar part can go on. -/
def Strand.canGo (a : Strand) : Bool := a.life == .running && a.hold.isNone
/-- The strand can execute (R256). -/
def Strand.canRun (a : Strand) : Bool := a.canDrain || a.canGo

/-! Placing a program (log entry 13). -/

/-- Where the placed instruction lies. -/
def placeVa : Nat := 0x40000080

/-- The partition of the placed program: its root table lies at physical 0x1000. -/
def placePart (p : Part) : Part := { p with st := .running, record := { p.record with ptroot := 0x1000 } }

/-- The tables that map the 1 GiB page at 0x4000_0000 to itself, with R, W and X. -/
def placeTables (m : Memory) : Memory :=
  ((m.writeL 0x1000 (leBytes 8 0x2001)).writeL 0x2000 (leBytes 8 0x3001)).writeL 0x3008 (leBytes 8 0x4000001F)

/-- An instruction of at most 16 bytes stored where the next step fetches: the acting strand runs at that address in a
partition whose table maps it, nothing is posted or waited for, and no cached or unsent byte stands before it. -/
def State.place (s : State) (bytes : List Byte) : State :=
  { s with
    act := { s.act with
      life := .running, wait := none, hold := none, woke := none, posted := [], resume := none, prog := Progress.none, part := 0, base := 0x40000000
      hdr := { s.act.hdr with codeEnd := 0x10000, handler := 128 }, pc := BitVec.ofNat 64 placeVa }
    mem := (placeTables s.mem).writeL placeVa bytes
    parts := s.parts.upd 0 Part.absent placePart
    board := Board.m
    dom := { s.dom with members := NSet.add 0 s.dom.members, lost := NSet.del 0 s.dom.lost, filled := NMap.del 0 s.dom.filled }
    poison := (NSet.del (placeVa / 16) s.poison)
    dies := [], flight := [], l2tlb := []
    cores := s.cores.map fun c => (c.1, { c.2 with tlb := [] })
    agenda := [], budget := none }

end Sys2Proof.Machine
end

