-- ==== Sys2Proof/Machine/Auto.lean ====
section
/-!
DEFINITION. What happens where the agenda is empty (log entry 2): the events of engines, queries and messages come first, then the
acting strand; where it cannot run, another strand's turn, or the first event of a fixed order that changes the state.
-/

namespace Sys2Proof.Machine

/-- A strand that can run. -/
def State.nextStrand (s : State) : Option Nat := (s.parked.find? Strand.canRun).map (·.sid)

/-- The event that would end a wait of a strand. -/
noncomputable def Wait.event (sid : Nat) : Wait → Option Instr
  | .sleep _ => some (.sleepExpiry sid)
  | .waitt _ _ _ => some (.waittEnd sid)
  | .fe _ _ => some (.feWaitSatisfied sid)
  | .barrier _ _ _ _ => some (.barrierRelease sid)
  | .lput => some (.leatSlotFreed sid)
  | .lget => some (.leatEntryArrives sid)
  | .split _ _ => some .gsplitRoundComplete
  | .pgate _ _ => some (.pgateWaitEnd sid)
  | .engine => some (.postStallResume sid)
  | .issue => some (.postStallResume sid)
  | .budget => some (.postStallResume sid)
  | .far _ => none
  | .home _ _ => none
  | .barHome _ => some (.barrierRelease sid)
  | .ewait _ => some (.ewaitRetire sid)
  | .migr _ => none
  | .fenceEng => none
  | .snoop _ => none
  | .queue => none
  | .pause => none
  | .own w => w.event sid

/-- The wait is a timed one. -/
def Wait.timed : Wait → Bool
  | .sleep _ => true
  | .waitt _ _ _ => true
  | _ => false

/-- Events that end the waits of strands. -/
noncomputable def State.strandEvents (s : State) (timed : Bool) : List Instr :=
  s.strands.flatMap fun a => (a.waits.filter fun w => w.timed == timed).filterMap (Wait.event a.sid)

/-- Events of an engine operation. -/
noncomputable def opEvents (k : Nat) (e : EngOp) : List Instr :=
  let u := ((List.range e.units).find? fun u => !NSet.has u e.moved).getD 0
  let ranks : List Nat := match e.job with | .coll _ _ _ _ _ _ p _ _ _ => List.range p | _ => []
  [.engineIssue k, .engineDone k u, .engineSuspend k u, .engineFail k u, .gatherSubrequest k] ++
  (e.out.map fun r => .gatherReply k r.owner) ++ ranks.map fun q => .collBlock k q

/-- The event that serves the next command of a host. -/
noncomputable def Cmd.event (host : Nat) : Cmd → Instr
  | .claim => .claim host
  | .renew => .renew host
  | .handover dest => .handover host dest
  | .accept => .accept host
  | .read => .read host
  | .attest _ _ => .attest host
  | .spdm _ _ => .spdmMeasurement host
  | .create _ => .create host
  | .modify _ => .modify host
  | .start _ _ => .start host
  | .reset pid => .reset host pid
  | .destroy pid => .destroy host pid
  | .fwupdate _ _ _ => .fwupdate host
  | .memWrite addr _ => .hostMemWrite host addr

/-- The event that takes a message; reels and what firmware is told have none. -/
noncomputable def Msg.event : Msg → Option Instr
  | .batchHead die src _ _ _ => some (.batchApply die src)
  | .batchData _ _ _ _ => none
  | .read die _ _ _ _ => some (.remoteReadRequest die)
  | .reply die _ _ _ _ _ _ => some (.readReply die)
  | .atomic die _ _ _ _ _ _ => some (.remoteAtomic die)
  | .counter _ _ _ _ _ => some .remoteCounterUpdate
  | .counterDone die _ _ => some (.readReply die)
  | .halted _ _ => some .remoteCounterUpdate
  | .barrier _ _ _ _ => some .domainBarrierArrival
  | .barrierReply _ _ _ => some .domainBarrierArrival
  | .barrierGen _ _ => some .domainBarrierArrival
  | .reel _ _ _ _ _ _ _ _ => none
  | .reelPlaced sid _ => some (.reelArrived sid 0)
  | .block _ _ _ _ _ _ _ _ _ _ => none
  | .listReq _ op _ _ _ _ _ => some (.gatherSubrequest op)
  | .listReply _ op owner _ _ _ => some (.gatherReply op owner)
  | .manage _ => none

/-- The strand is on a sail core that drains (R388). -/
def State.drains (s : State) (a : Strand) : Bool := !isMill a.core && a.onCore && (s.pair (pairOf a.core)).gate == .draining

/-- What brings strands to their stop within the bound of R259: the stops that are under way, and those of sail cores that drain. -/
noncomputable def State.stopEvents (s : State) : List Instr :=
  s.strands.flatMap fun a =>
    if a.life == .stopping then [.strandStopped a.sid]
    else if !s.drains a then []
    else if a.life == .running then [.preemptionRequest a.sid]
    else [.trappedSave a.sid]

/-- Events of the engines, the queries and the messages, and stops: none of them waits for a strand. -/
noncomputable def State.unitCandidates (s : State) : List Instr :=
  (s.engines.flatMap fun o => opEvents o.1 o.2) ++
  (s.queries.flatMap fun q => [.queryStart (q.1 / 16), .queryDone (q.1 / 16) (q.1 % 16), .querySuspend (q.1 / 16) (q.1 % 16),
    .queryFail (q.1 / 16) (q.1 % 16)]) ++
  s.links.inbox.filterMap Msg.event ++ s.stopEvents

/-- Reply counters that have FIRED and have still to be read (R265). -/
noncomputable def State.replyEvents (s : State) : List Instr :=
  s.mill.ctrs.filterMap fun c =>
    match c.2.st, c.2.bound with
    | .fired, some (.reply part slot) => some (.faultReply part slot)
    | _, _ => none

/-- Events that may be due, in order; those that only time brings come last. -/
noncomputable def State.candidates (s : State) : List Instr :=
  s.strandEvents false ++ [.faultRecordWrite] ++ s.replyEvents ++ (s.mill.nodes.map fun n => .nodeComplete n.1) ++ [.readyPoolEntry] ++
  (s.mill.replays.map fun r => .replayBind r.1) ++ (s.mill.nodes.map fun n => .spawnedKernelReject n.1) ++ s.unitCandidates ++
  (s.pairs.flatMap fun p => [.gateDrained p.1, .wakeDone p.1]) ++
  (s.flight.flatMap fun b => s.allDies.flatMap fun d => [.batchArrive d b.src, .batchApply d b.src]) ++
  ((s.cores.filter fun c => c.2.trimDue).map fun c => .laneTrim c.1) ++
  (s.mgmt.mailbox.map fun c => c.2.event c.1) ++
  (s.parts.map fun p => .resetComplete p.1) ++
  (if s.mill.pool.isEmpty then []
   else (List.range 512).map (fun c => .strandDispatch c) ++ [.priorityPreemption] ++
     (s.strands.filter fun a => a.life == .trapped).map fun a => .trappedSave a.sid) ++
  s.strandEvents true ++ ((s.dies.filter fun d => !d.2.pending.isEmpty).map fun d => .batchTimeout d.1) ++
  (if s.mill.pool.isEmpty && s.mill.updates.isEmpty && s.mill.faults.isEmpty && !(s.strands.any fun a => a.waits.contains .budget) then []
   else [.arbiterPeriod])

/-- An event: one that would write a line that the host may hold changes nothing, but for the host's own answer (R370). -/
noncomputable def eventOut (i : Instr) (s : State) : Out :=
  match i with
  | .bisnpResponse _ => exec i s
  | _ => s.heed (exec i s) fun _ => .next s

/-- An outcome other than the state as it was. -/
def changes (s : State) : Out → Bool
  | .next t => t != s
  | _ => true

/-- The first event that is due. -/
noncomputable def State.dueEvent (s : State) : Option Instr := s.candidates.find? fun i => changes s (eventOut i s)

/-- An outcome other than the state as it was, but for free values drawn. -/
def moves (s : State) : Out → Bool
  | .next t => { t with freeCount := s.freeCount } != s
  | _ => true

/-- The first event of an engine, a query or a message that goes on: a strand that polls does not hold these back (R409, R411). -/
noncomputable def State.unitEvent (s : State) : Option Instr := s.unitCandidates.find? fun i => moves s (eventOut i s)

end Sys2Proof.Machine
end

