-- ==== Sys2Proof/Machine/Step.lean ====
section
/-!
DEFINITION. One step: the agenda says who acts; where it is empty, the engines and the messages go on first, then the acting
strand executes its oldest posted instruction, or its next word, and a strand that cannot run leaves the step to another, or to the
first event that is due.
-/

namespace Sys2Proof.Machine

/-- The words that the strand holds are decoded and executed. -/
noncomputable def runIr (s : State) : Out :=
  match decode s.ir.1 s.ir.2 with
  | .instr i => exec i s
  | .bad e => (Res.trap (s.decodeTrap e) s : Res Unit).fin s s.afterIr

/-- The oldest posted instruction is executed, or waits for what it has waited for behind a `barw` (R321). -/
noncomputable def drainStep (s : State) : Out :=
  match s.act.posted with
  | [] => .next s
  | p :: r =>
    match p.wait with
    | some w => .next (s.onAct fun a => { a with posted := { p with wait := none } :: r, wait := some w })
    | none => s.heedPosted (runIr (({ s with act := { s.act with posted := r } }).begin p))

/-- The scalar part's next word is fetched and `k` says what happens to it. -/
def fetchStep (s : State) (k : State → Out) : Out :=
  s.heedScalar (match s.tick.fetch with
  | .ok w s => k { s with ir := w }
  | .trap t s => (Res.trap t s : Res Unit).fin s s.after
  | .wait w s => (Res.wait w s : Res Unit).fin s s.after)

/-- A trap was taken between two states. -/
def tookTrap (s s' : State) : Bool := s'.act.life != s.act.life || s'.act.frame != s.act.frame

/-- The outcome is a trap with a cause of decode (R89). -/
def decodeTraps (s : State) : Out → Bool
  | .next s' => tookTrap s s' && [Cause.illegal, .wordKind, .pairBank, .litExec, .typeCombo, .priv].any fun c => s'.act.csr.code == c.code
  | _ => false

/-- The outcome is a trap. -/
def anyTrap (s : State) : Out → Bool
  | .next s' => tookTrap s s'
  | _ => false

/-- The matrix unit in the mode and with the latched format that an instruction gives it. -/
def Matrix.after (m : Matrix) : Instr → Matrix
  | .msmode op mvl _ => { m with op := op, mvl := 8 * 2 ^ mvl.toNat, latch := none }
  | .mldw _ fs _ => { m with latch := some { fs := fs, image := 0 } }
  | _ => m

/-- The strand as decode sees it ahead of posted work: with the formats that it has posted (R211). -/
noncomputable def State.alone (s : State) : State :=
  { s with act := { s.act with
      posted := []
      mat := s.act.posted.foldl (fun m p => match decode p.word p.lit with | .instr i => m.after i | .bad _ => m) s.act.mat } }

/-- A copy, a gather or a scatter whose posting check takes ALIGN (R193, R197). -/
def postTraps (s : State) : Out → Bool
  | .next s' => [0x88, 0x89, 0x8A].contains (wordOp s.ir.1) && tookTrap s s' && s'.act.csr.code == Cause.align.code
  | _ => false

/-- The scalar part may post the word that it holds: decode and the checks at posting accept it, no source of it has still to be
written, its queue has room (R49, R58, R89, R193, R205). -/
noncomputable def State.mayPost (s : State) : Bool :=
  s.irPosts && s.act.mayPass s.ir.1 && s.queueRoom && (let o := runIr s.alone; !decodeTraps s.alone o && !postTraps s.alone o)

/-- The scalar part's instruction has sent an atomic to another package, which it does only behind its older work. -/
def sendsAtomic : Out → Bool
  | .next t => t.act.prog.errand.isSome
  | _ => false

/-- The scalar part waits until an older instruction has completed (R58, R205, R260). -/
def State.holdScalar (s : State) : State := { s with act := { s.act with hold := some .queue } }

/-- The scalar part's turn ahead of posted work (R49, R58): it posts the word that it holds, or executes a word that may run ahead
and does not trap; else `k` says what happens, with the state as it was (R260). -/
noncomputable def aheadStep (s : State) (k : Out) : Out :=
  match s.tick.fetch with
  | .ok w s1 =>
    let s' : State := { s1 with ir := w }
    if s'.mayPost then s.heedScalar (.next s'.post)
    else if s'.irAhead && !anyTrap s' (runIr s') && !sendsAtomic (runIr s') then s.heedScalar (runIr s')
    else k
  | .wait w s1 => s.heedScalar ((Res.wait w s1 : Res Unit).fin s1 s1.after)
  | .trap _ _ => k

/-- The scalar part's turn: it posts instead of executing where it may. -/
noncomputable def postStep (s : State) : Out :=
  if s.act.posted.isEmpty then fetchStep s fun s' => if s'.mayPost then .next s'.post else runIr s'
  else aheadStep s (if s.act.wait.isNone then drainStep s else .next s.holdScalar)

/-- The queue waits in `barw`, for a phase or for the home of its object (R321). -/
def Strand.atBarrier (a : Strand) : Bool :=
  match a.wait with
  | some (.barrier _ _ _ _) => true
  | some (.barHome _) => true
  | _ => false

/-- The `barw` of a state put back before what has gone on behind it: VPEND and its `vstart` stay those of `barw`. -/
def State.behind (s t : State) (l : List Posted) : State :=
  t.onAct fun a => { a with
    posted := l, wait := s.act.wait, woke := s.act.woke, late := s.act.late
    csr := { a.csr with vpend := s.act.csr.vpend, vstart := if s.act.vstartHeld then s.act.csr.vstart else a.csr.vstart } }

/-- R321: the posted instruction behind a waiting `barw`, executed where it touches neither memory nor an engine: it completes, or waits
itself. -/
noncomputable def State.behindStep? (s : State) : Option Out :=
  match s.act.posted with
  | p :: q :: r =>
    if s.act.life == .running && s.act.atBarrier && s.act.pastBarrier q.word && q.wait.isNone then
      let s0 := s.onAct fun a => { a with posted := r, wait := none, csr := { a.csr with vpend := false } }
      match runIr (s0.begin q) with
      | .next t =>
        if tookTrap s0 t then none
        else if t.act.posted = r then some (.next (s.behind t (p :: r)))
        else
          match t.act.posted, t.act.wait with
          | q' :: _, some w => some (.next (s.behind t (p :: { q' with wait := some w } :: r)))
          | _, _ => none
      | _ => none
    else none
  | _ => none

/-- R321: the scalar part's next word, where only a waiting `barw` is before it and it touches neither memory nor an engine. -/
noncomputable def State.behindLone? (s : State) : Option Out :=
  match s.act.posted with
  | [p] =>
    if s.act.life == .running && s.act.atBarrier then
      match s.tick.fetch with
      | .ok w s1 =>
        let s0 : State := ({ s1 with ir := w }).onAct fun a => { a with posted := [], wait := none, csr := { a.csr with vpend := false } }
        if s0.act.loneBehind w.1 then
          match runIr s0 with
          | .next t => if tookTrap s0 t ∨ t.act.posted ≠ [] ∨ t.act.hold.isSome then none else some (s.heedScalar (.next (s.behind t [p])))
          | _ => none
        else none
      | _ => none
    else none
  | _ => none

/-- What goes on behind a waiting `barw`. -/
noncomputable def State.behind? (s : State) : Option Out := s.behindStep?.orElse fun _ => s.behindLone?

/-- The acting strand's turn in order: the oldest posted instruction, or the scalar part's next word; where the queue waits, the
scalar part goes on ahead of it. -/
noncomputable def strandStep (s : State) : Out :=
  if s.act.canDrain then drainStep s
  else if s.act.posted.isEmpty then fetchStep s runIr
  else s.behind?.getD (aheadStep s (.next s.holdScalar))

/-- A parked strand that cannot run, but whose queue goes on behind a waiting `barw`. -/
noncomputable def State.nextBehind (s : State) : Option Nat := (s.parked.find? fun a => (s.switch a.sid).behindStep?.isSome).map (·.sid)

/-- The oldest posted instruction, or the next word where nothing is posted, as far as the restart point after `n` units of it
(R216, R258); what comes after it goes on without such a bound. -/
noncomputable def partStep (n : Nat) (s : State) : Out :=
  match (if s.act.posted.isEmpty then fetchStep { s with budget := some n } runIr else drainStep { s with budget := some n }) with
  | .next s => .next { s with budget := none }
  | o => o

/-- One step. -/
noncomputable def step (s : State) : Out :=
  match s.agenda with
  | .event i :: r => eventOut i { s with agenda := r }
  | .strand k :: r => .next ({ s with agenda := r }.switch k)
  | .post :: r => let s := { s with agenda := r }; if s.act.canGo then postStep s else .next s
  | .drain :: r => let s := { s with agenda := r }; if s.act.canDrain then drainStep s else .next s
  | .part n :: r => let s := { s with agenda := r }; if s.act.canDrain || (s.act.canGo && s.act.posted.isEmpty) then partStep n s else .next s
  | .reserve :: r => .next { s with agenda := r }.reserveLeat
  | [] =>
    match s.unitEvent with
    | some i => eventOut i s
    | none =>
      if s.act.canRun then strandStep s
      else
        match s.nextStrand with
        | some k => .next (s.switch k)
        | none =>
          match s.behindStep?, s.nextBehind, s.dueEvent with
          | some o, _, _ => o
          | none, some k, _ => .next (s.switch k)
          | none, none, some i => eventOut i s
          | none, none, none => .next s

/-- The instruction of spec/opcode_table.json's bits placed where the next step fetches (log entry 13). -/
def State.withFetchWord (s : State) (_nbits w : Nat) : State := s.place (leBytes 16 w)

end Sys2Proof.Machine
end

