-- ==== Sys2Proof/Safety.lean ====
section
/-!
DEFINITION. The terms in which claims are stated: a strand that executes its own next word, the ends of instructions, what an
instruction leaves as it was, and the invariant of the machine.
-/

namespace Sys2Proof.Machine

/-- Nothing is left over from a wait, a posted instruction, an instruction that has stopped in the middle or a remote access, and the
instruction is not to stop at a restart point: the strand executes its own next word. -/
structure Ready (s : State) : Prop where
  resume : s.act.resume = none
  woke : s.act.woke = none
  late : s.act.late = none
  budget : s.budget = none
  prog : s.act.prog = Progress.none

/-- An instruction of the vector queue begins at its first element, with no trap of posted work pending. -/
structure Fresh (s : State) : Prop extends Ready s where
  vstart : s.act.csr.vstart = 0
  vpend : s.act.csr.vpend = false

/-- The next state in which the strand has gone on to `pc` and nothing else differs from `t`. -/
def continues (t : State) (pc : Word) : Out := .next (t.goto pc)

/-- The instruction has completed in the state `u`, and the strand goes on at `nx`. -/
def completes (u : State) (nx : Word) : Out := .next (u.done u.act.g nx)

/-- The instruction waits as the oldest posted one, and the scalar part stands at `nx`. -/
def waitsAt (u : State) (w : Wait) (nx : Word) : Out :=
  .next { u with act := { u.act with
    wait := some w, posted := u.asPosted :: u.act.posted, pc := nx, prog := Progress.none } }

/-- A trap is taken: the acting strand's state after it, for a strand that executes its own next word. -/
def traps (s : State) (c : Cause) (tval : Word) (nx : Word) : Out := .next (s.takeTrap (Trap.scalar c tval) nx)

/-- What an instruction of the vector queue may change: the vector, mask and weight registers, `fflags`; it has gone on to
`nx` with `vstart` 0 (R123) and nothing else differs. -/
def VectorFrame (s t : State) (nx : Word) : Prop :=
  t = { s with act := { s.act with
    pc := nx, prog := Progress.none, v := t.act.v, vok := t.act.vok, m := t.act.m, w := t.act.w
    csr := { s.act.csr with
      vstart := 0, vpend := s.act.csr.vpend && s.act.frame.isSome, fflags := t.act.csr.fflags } } }

/-- vD[i] ← f(i) for the active elements (R56, R124): inactive elements and every other register as they were, the flags of
the active elements accumulated, block-validity as R40 says for the sources. -/
structure Elementwise (s t : State) (c : Ctl) (d : Reg) (srcs : List Reg) (nx : Word) (f : Nat → FRes) : Prop where
  frame : VectorFrame s t nx
  lanes : ∀ i, (i + 1) * s.sew ≤ 16384 →
    lane (t.v d) s.sew i = if s.active c i then (f i).bits % 2 ^ s.sew else lane (s.v d) s.sew i
  flags : t.act.csr.fflags = s.act.csr.fflags ||| unionFlags ((s.actives c).map fun i => (f i).flags)
  others : ∀ r, r ≠ d → t.v r = s.v r ∧ t.vok r = s.vok r
  valid : t.vok d = (s.okResult d srcs).vok d
  masks : t.act.m = s.act.m ∧ t.act.w = s.act.w

/-- An elementwise instruction: TYPECOMBO where the format has no row, else its results. -/
def elementwise (s : State) (i : Instr) (ok : Bool) (c : Ctl) (d : Reg) (srcs : List Reg) (nx : Word) (f : Nat → FRes) : Prop :=
  (ok = false → exec i s = traps s .typeCombo s.ir.1 nx) ∧
  (ok = true → ∃ t, exec i s = .next t ∧ Elementwise s t c d srcs nx f)

/-- An instruction of the vector queue ends in the next state `u`, but for `vstart`, VPEND, its own progress and the pc. -/
def queueEnds (u : State) (nx : Word) : Out :=
  continues { u.queueDone with act := { u.queueDone.act with prog := Progress.none } } nx

/-- The memory of the machine has its canonical form: addresses strictly rising, no byte listed that reads as an unlisted one. -/
def State.Inv (s : State) : Prop := s.mem.wf = true

/-- Two states agree in all that is not the acting strand. -/
def sameOutside (s t : State) : Prop := t = { s with act := t.act }

end Sys2Proof.Machine
end

