-- ==== Sys2Proof/Certificates/Slice0/Obligations.lean ====
section
/-!
DEFINITION. The statements for the provers, in the order of OBLIGATIONS.json. Each docstring names the rules of spec/ that the
statement is about.
-/

open Sys2Proof Sys2Proof.Machine

/-- R95 (and the source forms of R79, R81): the two-source integer instructions but division. Multiplication high and the
comparisons are said over wider words and integers; nothing but gD and the program counter changes, so `fflags` is as it was. -/
def Obligations.IntegerArithmetic : Prop :=
  ∀ (s : State) (d a : Reg) (src : Src) (t : Ctl), Ready s → s.srcOk src = true →
    let x := s.g a
    let y := s.srcInt src
    let ends (v : Word) : Out := continues (s.setG d v) (s.act.pc + src.bytes)
    exec (.add d a src t) s = ends (x + y) ∧
    exec (.sub d a src t) s = ends (x - y) ∧
    exec (.and d a src t) s = ends (x &&& y) ∧
    exec (.or d a src t) s = ends (x ||| y) ∧
    exec (.xor d a src t) s = ends (x ^^^ y) ∧
    exec (.shl d a src t) s = ends (x <<< (y &&& 63).toNat) ∧
    exec (.shr d a src t) s = ends (x >>> (y &&& 63).toNat) ∧
    exec (.sra d a src t) s = ends (x.sshiftRight (y &&& 63).toNat) ∧
    exec (.min d a src t) s = ends (if x.toInt ≤ y.toInt then x else y) ∧
    exec (.max d a src t) s = ends (if x.toInt ≤ y.toInt then y else x) ∧
    exec (.minu d a src t) s = ends (if x.toNat ≤ y.toNat then x else y) ∧
    exec (.maxu d a src t) s = ends (if x.toNat ≤ y.toNat then y else x) ∧
    exec (.slt d a src t) s = ends (if x.toInt < y.toInt then 1 else 0) ∧
    exec (.sltu d a src t) s = ends (if x.toNat < y.toNat then 1 else 0) ∧
    exec (.seq d a src t) s = ends (if x = y then 1 else 0) ∧
    exec (.mul d a src t) s = ends (x * y) ∧
    exec (.mulh d a src t) s = ends ((x.signExtend 128 * y.signExtend 128).extractLsb' 64 64) ∧
    exec (.mulhu d a src t) s = ends ((x.setWidth 128 * y.setWidth 128).extractLsb' 64 64)

/-- R95 and R96: the four divisions, with the edge cases written out. -/
def Obligations.IntegerDivision : Prop :=
  ∀ (s : State) (d a : Reg) (src : Src) (t : Ctl), Ready s → s.srcOk src = true →
    let x := s.g a
    let y := s.srcInt src
    let ends (v : Word) : Out := continues (s.setG d v) (s.act.pc + src.bytes)
    (y = 0 →
      exec (.div d a src t) s = ends (BitVec.allOnes 64) ∧ exec (.divu d a src t) s = ends (BitVec.allOnes 64) ∧
      exec (.rem d a src t) s = ends x ∧ exec (.remu d a src t) s = ends x) ∧
    (x = BitVec.intMin 64 → y = BitVec.allOnes 64 →
      exec (.div d a src t) s = ends (BitVec.intMin 64) ∧ exec (.rem d a src t) s = ends 0) ∧
    (y ≠ 0 →
      exec (.div d a src t) s = ends (x.sdiv y) ∧ exec (.rem d a src t) s = ends (x - y * x.sdiv y) ∧
      exec (.divu d a src t) s = ends (x / y) ∧ exec (.remu d a src t) s = ends (x - y * (x / y)))

/-- R97 and R98. `clz` and `ctz` are said by the bits that are clear and the first that is set. -/
def Obligations.BitFunctions : Prop :=
  ∀ (s : State) (d a : Reg) (t : Ctl), Ready s →
    let x := s.g a
    let ends (v : Word) : Out := continues (s.setG d v) (s.act.pc + 8)
    (∃ n : Nat, n ≤ 64 ∧ (∀ i, i < n → x.getLsbD (63 - i) = false) ∧ (n < 64 → x.getLsbD (63 - n) = true) ∧
      exec (.clz d a t) s = ends (BitVec.ofNat 64 n)) ∧
    (∃ n : Nat, n ≤ 64 ∧ (∀ i, i < n → x.getLsbD i = false) ∧ (n < 64 → x.getLsbD n = true) ∧
      exec (.ctz d a t) s = ends (BitVec.ofNat 64 n)) ∧
    exec (.popc d a t) s = ends (BitVec.ofNat 64 ((List.range 64).countP fun i => x.getLsbD i)) ∧
    (∃ y : Word, (∀ i, i < 8 → y.extractLsb' (8 * i) 8 = x.extractLsb' (8 * (7 - i)) 8) ∧
      exec (.bswap d a t) s = ends y) ∧
    exec (.sxb d a t) s = ends ((x.extractLsb' 0 8).signExtend 64) ∧
    exec (.sxh d a t) s = ends ((x.extractLsb' 0 16).signExtend 64) ∧
    exec (.sxw d a t) s = ends ((x.extractLsb' 0 32).signExtend 64) ∧
    exec (.zxb d a t) s = ends (x &&& 0xFF) ∧
    exec (.zxh d a t) s = ends (x &&& 0xFFFF) ∧
    exec (.zxw d a t) s = ends (x &&& 0xFFFFFFFF) ∧
    (∀ v : BitVec 20, exec (.addpc d (.imm v) t) s = continues (s.setG d (s.act.pc + v.signExtend 64)) (s.act.pc + 8)) ∧
    ∀ v : BitVec 32, exec (.addpc d (.lit v) t) s = continues (s.setG d (s.act.pc + v.signExtend 64)) (s.act.pc + 16)

/-- R72, R79, R81, R82. R92: the operations through which every instruction reads and writes `g`. -/
def Obligations.SourcesAndRegisters : Prop :=
  (∀ (s : State) (d a r : Reg) (v : BitVec 20) (l : BitVec 32) (i : BitVec 8) (t : Ctl),
     s.srcInt (.reg r) = s.g r ∧ s.srcInt (.imm v) = v.signExtend 64 ∧ s.srcInt (.lit l) = l.signExtend 64 ∧
     s.srcInt (.cb i) = (s.act.cb.getD i.toNat 0).signExtend 64 ∧
     Src.bytes (.reg r) = 8 ∧ Src.bytes (.imm v) = 8 ∧ Src.bytes (.lit l) = 16 ∧ Src.bytes (.cb i) = 8 ∧
     s.srcOk (.reg r) = true ∧ s.srcOk (.imm v) = true ∧ s.srcOk (.lit l) = true ∧
     (s.srcOk (.cb i) = true ↔ i.toNat < s.act.cb.length) ∧
     (s.act.cb.length ≤ i.toNat → exec (.add d a (.cb i) t) s = traps s .illegal s.ir.1 (s.act.pc + 8))) ∧
  ∀ (s : State) (d r : Reg) (x : Word),
    s.g 0 = 0 ∧ s.setG 0 x = s ∧
    (s.setG d x).g r = (if d ≠ 0 ∧ r = d then x else s.g r) ∧
    (s.setG d x).setG d x = s.setG d x ∧
    s.setG d x = { s with act := { s.act with g := (s.setG d x).act.g } }

/-- R99 to R101 over the number functions of Machine/Num.lean: the value in gD, the flags, the frame. -/
def Obligations.FloatArithmetic : Prop :=
  ∀ (s : State) (f : FFmt) (d a b : Reg) (src : Src) (t : Ctl), Ready s → s.srcOk src = true →
    let q := FloatFmt.ofFFmt f
    let rd := s.rndG (RMode.ofBits s.act.csr.rmode) d
    let bits (r : Reg) := (s.g r).toNat % 2 ^ q.width
    let c := s.srcFloat q src
    let va := FVal.ofBits q (bits a)
    let vb := FVal.ofBits q (bits b)
    let vc := FVal.ofBits q c
    let ends (r : FRes) : Out :=
      continues ((s.setG d (BitVec.ofNat 64 r.bits)).raise r.flags) (s.act.pc + src.bytes)
    exec (.fadd f d a src t) s = ends (fAddV q rd va vc) ∧
    exec (.fsub f d a src t) s = ends (fAddV q rd va vc.neg) ∧
    exec (.fmul f d a src t) s = ends (fMulV q rd va vc) ∧
    exec (.fdiv f d a src t) s = ends (fDivV q rd va vc) ∧
    exec (.fmin f d a src t) s = ends (fMinMax q false (bits a) c) ∧
    exec (.fmax f d a src t) s = ends (fMinMax q true (bits a) c) ∧
    exec (.fsqrt f d src t) s = ends (fSqrtV q rd vc) ∧
    exec (.fabs f d src t) s = ends (fSign q true c) ∧
    exec (.fneg f d src t) s = ends (fSign q false c) ∧
    exec (.ffma f d a b src t) s = ends (fFmaV q rd va vb vc) ∧
    exec (.ffms f d a b src t) s = ends (fFmaV q rd va vb vc.neg) ∧
    exec (.ffnma f d a b src t) s = ends (fFmaV q rd va.neg vb vc) ∧
    exec (.ffnms f d a b src t) s = ends (fFmaV q rd va.neg vb vc.neg)

/-- R99 and R100, for register sources. -/
def Obligations.FloatSpecialCases : Prop :=
  ∀ (s : State) (f : FFmt) (d a b : Reg) (t : Ctl), Ready s →
    let q := FloatFmt.ofFFmt f
    let va := FVal.ofBits q ((s.g a).toNat % 2 ^ q.width)
    let vb := FVal.ofBits q ((s.g b).toNat % 2 ^ q.width)
    let sn := va.isSNaN || vb.isSNaN
    let ends (x : Nat) (fl : FFlags) : Out := continues ((s.setG d (BitVec.ofNat 64 x)).raise fl) (s.act.pc + 8)
    (va.isNaN || vb.isNaN →
      exec (.fadd f d a (.reg b) t) s = ends q.nanBits (if sn then 16 else 0) ∧
      exec (.fsub f d a (.reg b) t) s = ends q.nanBits (if sn then 16 else 0) ∧
      exec (.fmul f d a (.reg b) t) s = ends q.nanBits (if sn then 16 else 0) ∧
      exec (.fdiv f d a (.reg b) t) s = ends q.nanBits (if sn then 16 else 0) ∧
      exec (.feq f d a (.reg b) t) s = ends 0 (if sn then 16 else 0) ∧
      exec (.flt f d a (.reg b) t) s = ends 0 16 ∧
      exec (.fle f d a (.reg b) t) s = ends 0 16) ∧
    (va.isNaN → exec (.fsqrt f d (.reg a) t) s = ends q.nanBits (if va.isSNaN then 16 else 0)) ∧
    (va.isNaN = false → va.isZero = false → va.isNeg → exec (.fsqrt f d (.reg a) t) s = ends q.nanBits 16) ∧
    (∀ n, va = .inf n → vb = .inf (!n) → exec (.fadd f d a (.reg b) t) s = ends q.nanBits 16) ∧
    (va.isInf → va = vb → exec (.fsub f d a (.reg b) t) s = ends q.nanBits 16 ∧
      exec (.fdiv f d a (.reg b) t) s = ends q.nanBits 16) ∧
    (va.isZero ∧ vb.isInf ∨ va.isInf ∧ vb.isZero → exec (.fmul f d a (.reg b) t) s = ends q.nanBits 16) ∧
    (va.isZero → vb.isZero → exec (.fdiv f d a (.reg b) t) s = ends q.nanBits 16) ∧
    (vb.isZero → (∃ n m e, va = .fin n m e ∧ m ≠ 0) →
      exec (.fdiv f d a (.reg b) t) s = ends (q.signed (va.isNeg != vb.isNeg) q.infBits) 8)

/-- R99, R102, and the pairs of formats that the table of R50 covers. -/
def Obligations.FloatCompareAndConvert : Prop :=
  ∀ (s : State) (f : FFmt) (d a : Reg) (src : Src) (x y : Fmt) (md : Mode) (sat : Bool) (t : Ctl), Ready s → s.srcOk src = true →
    let q := FloatFmt.ofFFmt f
    let ends (rel : Rel) : Out :=
      let r := fCompare q rel ((s.g a).toNat % 2 ^ q.width) (s.srcFloat q src)
      continues ((s.setG d (if r.1 then 1 else 0)).raise r.2) (s.act.pc + src.bytes)
    exec (.feq f d a src t) s = ends .eq ∧ exec (.flt f d a src t) s = ends .lt ∧ exec (.fle f d a src t) s = ends .le ∧
    let floats : List Fmt := [.fp32, .fp16, .bf16]
    let covered : Bool :=
      x ∉ [Fmt.np, Fmt.bfa24] && y ∉ [Fmt.np, Fmt.bfa24] && !(x == y && x ∈ floats) && !(x == .uq15 && y ∉ floats) &&
        !(y == .uq15 && x ∉ floats)
    (covered = false → exec (.fcvt d a x y md sat t) s = traps s .typeCombo s.ir.1 (s.act.pc + 8)) ∧
    (covered = true →
      ∃ r, convert y x (s.rndG (RMode.ofMode (RMode.ofBits s.act.csr.rmode) md) d) sat ((s.g a).toNat % 2 ^ fmtWidth y) = some r ∧
        exec (.fcvt d a x y md sat t) s =
          continues ((s.setG d (if fmtSigned x then BitVec.ofInt 64 (intOf x r.bits) else BitVec.ofNat 64 r.bits)).raise r.flags)
            (s.act.pc + 8))

/-- R103 to R106. -/
def Obligations.ControlTransfer : Prop :=
  ∀ (s : State) (d a b : Reg) (off20 : BitVec 20) (off : BitVec 15) (t : Ctl), Ready s →
    let pc := s.act.pc
    let target := pc + 8 * off.signExtend 64
    let br (c : Prop) [Decidable c] : Out := continues s (if c then target else pc + 8)
    let n := s.g d - s.g a
    exec (.jal d off20 t) s = continues (s.setG d (pc + 8)) (pc + 8 * off20.signExtend 64) ∧
    exec (.jr d a t) s = continues (s.setG d (pc + 8)) (s.g a) ∧
    exec (.bEq a b off t) s = br (s.g a = s.g b) ∧
    exec (.bNe a b off t) s = br (s.g a ≠ s.g b) ∧
    exec (.bLt a b off t) s = br ((s.g a).toInt < (s.g b).toInt) ∧
    exec (.bGe a b off t) s = br ((s.g b).toInt ≤ (s.g a).toInt) ∧
    exec (.bLtu a b off t) s = br ((s.g a).toNat < (s.g b).toNat) ∧
    exec (.bGeu a b off t) s = br ((s.g b).toNat ≤ (s.g a).toNat) ∧
    exec (.subbr d a off t) s = continues (s.setG d n) (if 0 < n.toInt then target else pc + 8)

/-- R115 and R116: what each form does; the clauses on `csrRead` and `csrWrite` below say the values. R117 (and R54 for `fid`.EFF): the fields of each CSR by value and place. The innermost open arm pair stands first in `arms`. R112; R260 and R264 for the restart point that `vstart` keeps while VPEND names older posted work. -/
def Obligations.CsrsAndVectorLength : Prop :=
  (∀ (s : State) (d a : Reg) (r : Csr) (t : Ctl), Ready s →
     let x := s.g a
     let controlOnly : Prop := r ∈ [Csr.epc, .cause, .tval, .status]
     let userReads : Prop := r ∈ [Csr.vstart, .mstart, .ecnt0, .ecnt1, .ecnt2, .ecnt3]
     let user : Prop := s.act.priv = .user
     let priv := traps s .priv s.ir.1 (s.act.pc + 8)
     let ends (u : State) : Out := continues u (s.act.pc + 8)
     (controlOnly → user → exec (.csrr d r t) s = priv) ∧
     (¬(controlOnly ∧ user) → exec (.csrr d r t) s = ends (s.setG d (s.csrRead r))) ∧
     ((controlOnly ∨ userReads) → user →
       exec (.csrw r a t) s = priv ∧ exec (.csrs r a t) s = priv ∧ exec (.csrc r a t) s = priv) ∧
     (¬((controlOnly ∨ userReads) ∧ user) →
       exec (.csrw r a t) s = ends (s.csrWrite r .write x) ∧ exec (.csrs r a t) s = ends (s.csrWrite r .set x) ∧
       exec (.csrc r a t) s = ends (s.csrWrite r .clear x))) ∧
  (∀ (s : State) (x : Word) (op : CsrOp),
     let a := s.act
     let c := a.csr
     let one (b : Bool) : Nat := if b then 1 else 0
     let reads (r : Csr) (n : Nat) : Prop := (s.csrRead r).toNat = n
     let sew := match c.vt.fmt with
       | .i8 | .u8 => 0 | .i16 | .u16 | .fp16 | .bf16 | .np | .uq15 => 1 | .i64 | .u64 => 3 | _ => 2
     let clusters := (List.range 8).countP fun i => a.clMap.getLsbD i
     let armB (i : Nat) : Nat := match a.arms.reverse[i]? with | some k => one k.armB | none => 0
     let rw (n : Nat) (old y : BitVec n) : BitVec n := match op with
       | .write => y | .set => old ||| y | .clear => old &&& ~~~y
     let rwBit (old : Bool) (i : Nat) : Bool := match op with
       | .write => x.getLsbD i | .set => old || x.getLsbD i | .clear => old && !x.getLsbD i
     let weight (old : BitVec 16) : BitVec 16 :=
       let y := rw 16 old (x.setWidth 16)
       if 0x8000 < y.toNat then 0x8000 else y
     let core := s.core a.core
     let ecnt (i : Fin 4) : State := s.onCore a.core fun k => { k with ecnt := k.ecnt.set i (rw 32 k.ecnt[i] (x.setWidth 32)) }
     let writes (r : Csr) (f : Csrs) : Prop := s.csrWrite r op x = { s with act := { a with csr := f } }
     reads .vl c.vl.toNat ∧
     reads .vtype (c.vt.fmt.code.toNat % 16 + 16 * sew + 64 * (if c.vt.fmt = .np then 6 else 0) + 512 * c.vt.np.toNat) ∧
     reads .vstart c.vstart.toNat ∧
     reads .grant (a.clMap.toNat + 256 * clusters + 4096 * (64 * clusters)) ∧
     reads .rmode c.rmode.toNat ∧ reads .fflags c.fflags.toNat ∧
     reads .repro (one c.reproEn + 2 * one c.reproLock) ∧ reads .seed c.seed.toNat ∧
     reads .fid (c.fidHdr.toNat + 16 * (if c.reproEn then 0 else c.fidHdr.toNat)) ∧
     reads .wth c.wth.toNat ∧ reads .wprune c.wprune.toNat ∧
     reads .armst (a.arms.length % 8 + 8 * (armB 0 + 2 * armB 1 + 4 * armB 2 + 8 * armB 3) + 256 * one c.pbf) ∧
     reads .mstart c.mstart.toNat ∧ (a.mat.mvl < 2 ^ 64 → reads .mvl a.mat.mvl) ∧
     (∀ code : Nat, code < 4 → a.mat.mvl = 8 * 2 ^ code → reads .mmode (one a.mat.op + 2 * code)) ∧
     reads .skew c.skew.toNat ∧ reads .ecnt0 core.ecnt[0].toNat ∧ reads .ecnt1 core.ecnt[1].toNat ∧
     reads .ecnt2 core.ecnt[2].toNat ∧ reads .ecnt3 core.ecnt[3].toNat ∧ reads .cyc core.cyc.toNat ∧
     reads .epc c.epc.toNat ∧ reads .cause (c.code.toNat + 256 * one c.slot1) ∧ reads .tval c.tval.toNat ∧
     reads .status (c.pprv.toNat + 4 * one c.vpend + 8 * one c.mpend) ∧
     writes .vstart { c with vstart := rw 12 c.vstart (x.setWidth 12) } ∧
     writes .rmode { c with rmode := if 4 < (rw 3 c.rmode (x.setWidth 3)).toNat then c.rmode else rw 3 c.rmode (x.setWidth 3) } ∧
     writes .fflags { c with fflags := rw 5 c.fflags (x.setWidth 5) } ∧
     writes .repro { c with reproEn := if c.reproLock then c.reproEn else rwBit c.reproEn 0 } ∧
     writes .seed { c with seed := rw 64 c.seed x } ∧
     writes .wth { c with wth := weight c.wth } ∧ writes .wprune { c with wprune := weight c.wprune } ∧
     writes .armst { c with pbf := c.pbf && (op = .clear || !x.getLsbD 8) } ∧
     writes .mstart { c with mstart := rw 32 c.mstart (x.setWidth 32) } ∧
     writes .skew { c with skew := rw 4 c.skew (x.setWidth 4) } ∧
     s.csrWrite .ecnt0 op x = ecnt 0 ∧ s.csrWrite .ecnt1 op x = ecnt 1 ∧ s.csrWrite .ecnt2 op x = ecnt 2 ∧
     s.csrWrite .ecnt3 op x = ecnt 3 ∧
     writes .epc { c with epc := rw 64 c.epc x } ∧
     writes .cause { c with code := rw 8 c.code (x.setWidth 8), slot1 := rwBit c.slot1 8 } ∧
     writes .tval { c with tval := rw 64 c.tval x } ∧
     writes .status { c with
       pprv := if rw 2 c.pprv (x.setWidth 2) = 3 then c.pprv else rw 2 c.pprv (x.setWidth 2)
       vpend := rwBit c.vpend 2, mpend := rwBit c.mpend 3 } ∧
     (∀ r, r ∈ [Csr.vl, .vtype, .grant, .fid, .mvl, .mmode, .cyc] → s.csrWrite r op x = s)) ∧
  ∀ (s : State) (d a : Reg) (f : Fmt) (k : BitVec 4) (t : Ctl), Ready s →
    let w := match f with
      | .i8 | .u8 => 8 | .i16 | .u16 | .fp16 | .bf16 | .np | .uq15 => 16 | .i64 | .u64 => 64 | .bfa24 => 24 | _ => 32
    let vlmax := 2048 * s.act.clusters / w
    let n := (s.g a).toInt
    let vl : Nat :=
      if n ≤ 0 then 0
      else if (vlmax : Int) ≤ n then vlmax
      else if s.act.csr.reproEn = true ∧ 32 ≤ n then (n / 32 * 32).toNat
      else n.toNat
    (f = Fmt.bfa24 → exec (.setvl d a f k t) s = traps s .typeCombo s.ir.1 (s.act.pc + 8)) ∧
    (f ≠ Fmt.bfa24 → exec (.setvl d a f k t) s =
      continues (({ s with act := { s.act with csr := { s.act.csr with
          vl := BitVec.ofNat 12 vl, vt := { fmt := f, np := if f = Fmt.np then k.setWidth 5 + 1 else 0 }
          vstart := if s.act.csr.vpend = true ∧ s.act.frame = none ∧ s.act.posted ≠ [] then s.act.csr.vstart else 0 } } }).setG d
        (BitVec.ofNat 64 vl)) (s.act.pc + 8))

/-- R262 and R267, for a trap of the scalar part of a strand that executes its own next word. R260, for an instruction of the vector queue of a user strand that executes in order. -/
def Obligations.TrapsAreTaken : Prop :=
  (∀ (s : State) (c : Cause) (tval nx : Word), Ready s →
     let a := s.act
     let u := s.takeTrap (Trap.scalar c tval) nx
     let r (ctrl : Bool) : FaultRec :=
       { part := a.part, owner := .strand a.sid, epc := a.pc, tval := tval, spc := a.pc, cause := c.code
         flags := if ctrl then 16 else 0, core := a.core, strand := a.hwSlot, vstart := a.csr.vstart.toNat
         mstart := a.csr.mstart.toNat }
     let stopped (ctrl : Bool) : Prop :=
       u.act.life = .trapped ∧ u.act.pc = a.pc ∧ u.act.posted = a.posted.map Posted.release ∧ u.act.frame = a.frame ∧
       u.act.csr.pprv = a.csr.pprv ∧ u.mill.faults = s.mill.faults ++ [r ctrl]
     (u.act.csr.epc = a.pc ∧ u.act.csr.code = c.code ∧ u.act.csr.slot1 = false ∧ u.act.csr.tval = tval ∧
       u.act.csr.vpend = false ∧ u.act.csr.mpend = false ∧ u.act.csr.vstart = a.csr.vstart ∧ u.act.csr.mstart = a.csr.mstart ∧
       u.act.wait = none ∧ u.act.hold = none) ∧
     (u.act.g = a.g ∧ u.act.v = a.v ∧ u.act.m = a.m ∧ u.act.w = a.w ∧ u.act.priv = a.priv ∧ u.mem = s.mem ∧ u.parked = s.parked) ∧
     (a.priv = .user → stopped false) ∧
     (a.priv = .firmware → stopped true) ∧
     (a.priv = .control → a.frame.isSome → stopped true) ∧
     (a.priv = .control → a.frame = none →
       u.act.life = a.life ∧ u.act.pc = a.base + BitVec.ofNat 64 a.hdr.handler ∧ u.act.csr.pprv = 1 ∧
       u.act.frame = some { spc := a.pc, posted := a.posted.map Posted.release } ∧ u.act.posted = [] ∧ u.mill.faults = s.mill.faults)) ∧
  ∀ (s : State) (c : Cause) (tval nx : Word) (k : Nat), Ready s → s.act.priv = .user →
    let a := s.act
    let u := s.takeTrap (Trap.posted c tval k) nx
    u.act.life = .trapped ∧ u.act.csr.epc = a.pc ∧ u.act.csr.code = c.code ∧ u.act.csr.tval = tval ∧
    u.act.csr.vstart = BitVec.ofNat 12 k ∧ u.act.csr.vpend = true ∧ u.act.csr.mpend = false ∧ u.act.pc = nx ∧
    u.act.posted =
      { pc := a.pc, word := s.ir.1, lit := s.ir.2, cap := a.captured, prog := Progress.none, wait := none, woke := none } ::
        a.posted.map Posted.release ∧
    u.act.g = a.g ∧ u.act.v = a.v ∧ u.mem = s.mem

/-- R272 and R273. The restart points that VPEND and MPEND name are kept where the frame holds posted work. -/
def Obligations.TrapInstructionAndReturn : Prop :=
  ∀ (s : State) (imm : BitVec 20) (t : Ctl), Ready s →
    let a := s.act
    let priv : Priv := if a.csr.pprv = 0 then .user else if a.csr.pprv = 1 then .control else .firmware
    (∃ u, exec (.trap imm t) s = .next u ∧ u.act.csr.epc = a.pc + 8 ∧ u.act.csr.code = 0x14 ∧
      u.act.csr.tval = imm.setWidth 64 ∧ u.act.g = a.g ∧ u.mem = s.mem ∧
      (a.priv = .user → u.act.life = .trapped ∧ u.act.pc = a.pc + 8) ∧
      (a.priv = .control → ∀ f, u.act.frame = some f → a.frame = none → f.spc = a.pc + 8)) ∧
    (a.priv = .user → exec (.eret t) s = traps s .priv s.ir.1 (a.pc + 8)) ∧
    (a.priv ≠ .user → a.frame = none →
      exec (.eret t) s = .next { s with act := { a with priv := priv, pc := a.csr.epc } }) ∧
    (a.priv ≠ .user → ∀ f, a.frame = some f →
      ∃ u, exec (.eret t) s = .next u ∧ u.act.pc = f.spc ∧ u.act.frame = none ∧
        (a.csr.vpend = true ∨ a.csr.mpend = true → u.act.posted = f.posted) ∧
        (a.csr.vpend = false → a.csr.mpend = false → ∀ p r, f.posted = p :: r →
          u.act.posted = { p with cap := { p.cap with vstart := 0 }, prog := Progress.none } :: r) ∧
        u.act.priv = priv ∧ u.act.g = a.g ∧ u.mem = s.mem ∧
        (f.posted ≠ [] → u.act.csr.vstart = (if a.csr.vpend then a.csr.vstart else 0) ∧
          u.act.csr.mstart = (if a.csr.mpend then a.csr.mstart else 0)))

/-- R168, R270, R271. That the ARMDEPTH of `halt` is a trap of posted work, with VPEND set and SPC behind the word, is the model's choice (DEDUCED,
log entry 42): R168 gives the cause and the code alone. R274. `woke` holds a value where the wait has ended and the instruction is executed again. -/
def Obligations.StoppingAndWaiting : Prop :=
  (∀ (s : State) (t : Ctl), Ready s →
     let a := s.act
     (a.arms ≠ [] ∨ a.loop.isSome →
       exec (.halt t) s = .next (s.takeTrap (Trap.posted .armDepth 6 0) (a.pc + 8))) ∧
     (a.arms = [] → a.loop = none →
       ∃ u, exec (.halt t) s = .next u ∧ u.act.life = .halted ∧ u.act.clMap = 0 ∧ u.act.posted = [] ∧ u.act.wait = none ∧
         u.act.arrivals = [] ∧ u.act.g = a.g ∧ u.act.v = a.v ∧ u.act.csr = a.csr ∧ u.mem = s.mem) ∧
     (a.life = .running →
       ∃ u, exec (.yield t) s = .next u ∧ u.act.life = .stopping ∧ u.act.pc = a.pc + 8 ∧ u.act.g = a.g ∧ u.act.v = a.v ∧
         u.act.csr.vstart = 0 ∧ u.mem = s.mem ∧
         ∀ b ∈ s.parked, ∃ b' ∈ u.parked, b'.sid = b.sid ∧
           (b.node = a.node → b.life = .running → b'.life = .stopping) ∧ (b.node ≠ a.node → b' = b))) ∧
  ∀ (s : State) (a b : Reg) (t : Ctl), s.act.resume = none → s.act.late = none → s.act.posted = [] →
    s.act.prog = Progress.none →
    let ns (x : Word) := min x.toNat (2 ^ 40)
    let cyc (x : Word) := (ns x * s.mhz s.act.core + 999) / 1000
    let past (u : State) : Out :=
      .next { u with act := { u.act with pc := s.act.pc + 8, woke := none, csr := { u.act.csr with
        vstart := 0, vpend := u.act.csr.vpend && u.act.frame.isSome } } }
    let va := (s.g a).toNat
    (s.act.woke.isSome ∨ (s.g a).toInt ≤ 0 → exec (.sleep a t) s = past s) ∧
    (s.act.woke = none → 0 < (s.g a).toInt →
      exec (.sleep a t) s = waitsAt s (.sleep (cyc (s.g a))) (s.act.pc + 8)) ∧
    (s.act.woke.isSome → exec (.waitt a b t) s = past s) ∧
    (s.act.woke = none → va % 8 ≠ 0 →
      exec (.waitt a b t) s = .next (s.takeTrap (Trap.posted .align (s.g a) 0) (s.act.pc + 8))) ∧
    (s.act.woke = none → ∀ c s1, s.access va 8 8 .read false false = (.bad c, s1) →
      exec (.waitt a b t) s = .next (s1.takeTrap (Trap.posted c (s.g a) 0) (s.act.pc + 8))) ∧
    (s.act.woke = none → ∀ line s1, s.access va 8 8 .read false false = (.stall (.far line), s1) →
      exec (.waitt a b t) s = waitsAt s1 (.far line) (s.act.pc + 8)) ∧
    (s.act.woke = none → ∀ l s1, s.access va 8 8 .read false false = (.ok l, s1) →
      let s2 := s1.locSync s1.act.core l
      let place := match l with
        | .at_ p _ => p
        | .record off => 2 ^ 60 + 128 * s2.act.part + off
      let old := BitVec.ofNat 64 (leNat (s2.locBytes s2.act.core s2.act.part l 8))
      let cycles := (ns (s.g b) * s2.mhz s2.act.core + 999) / 1000
      ((s.g b).toInt ≤ 0 → exec (.waitt a b t) s = past s2) ∧
      (0 < (s.g b).toInt → exec (.waitt a b t) s = waitsAt s2 (.waitt place old cycles) (s.act.pc + 8)) ∧
      s2.act = s.act)

/-- R275 and R389. -/
def Obligations.GrantAndGate : Prop :=
  ∀ (s : State) (d a b : Reg) (t : Ctl), Ready s →
    let x := (s.g a).toInt
    let r := max (max s.act.hdr.clMin (min (if x < 1 then 1 else if 8 < x then 8 else x.toNat) s.act.hdr.clMax)) s.act.needClusters
    let held := clusterList s.act.clMap
    let cl := if r ≤ held.length then held.take r else held ++ (s.freeClusters s.act.core).take (r - held.length)
    let pair := (s.g a).toNat % 256
    let mine := (s.part s.act.part).record.quads.getLsbD (pair / 4)
    (∃ u, exec (.grant d a t) s = .next u ∧ u.act.clMap = clusterMap cl ∧ u.act.pc = s.act.pc + 8 ∧
      u.g d = (if d = 0 then 0 else BitVec.ofNat 64 cl.length) ∧ (∀ r, r ≠ d → u.g r = s.g r) ∧ u.act.m = s.act.m ∧
      u.act.csr.vl = s.act.csr.vl ∧ u.mem = s.mem ∧ u.parked = s.parked) ∧
    (s.act.priv = .user → exec (.pgate a b t) s = traps s .priv s.ir.1 (s.act.pc + 8)) ∧
    (s.act.priv = .control → mine = false →
      exec (.pgate a b t) s = .next (s.takeTrap (Trap.posted .perm (s.g a) 0) (s.act.pc + 8))) ∧
    (s.act.priv = .firmware ∨ s.act.priv = .control ∧ mine = true →
      let gate := (s.g b).getLsbD 0
      let u := s.gateRequest pair gate
      let reached : Prop :=
        (u.core (2 * pair + 1)).lost ∨ (u.pair pair).gate = (if gate then Gate.gated else Gate.on)
      ((s.g b).getLsbD 1 = false ∨ s.act.core = 2 * pair + 1 ∨ reached →
        exec (.pgate a b t) s = continues u.queueDone (s.act.pc + 8)) ∧
      ((s.g b).getLsbD 1 = true → s.act.core ≠ 2 * pair + 1 → ¬reached →
        exec (.pgate a b t) s = waitsAt u (.pgate pair gate) (s.act.pc + 8)) ∧
      ((s.core (2 * pair + 1)).lost → u = s))

/-- R338 and R339; that the translations wait for the sub-requests of gathers and scatters is log entry 21. -/
def Obligations.TranslationInstructions : Prop :=
  ∀ (s : State) (d a : Reg) (t : Ctl), Ready s →
    let ends (u : State) : Out := continues u.queueDone (s.act.pc + 8)
    let va := (s.g a).toNat % 2 ^ 57 / 2 ^ 16 * 2 ^ 16
    let p := (s.g a).toNat
    let mine (u : State) (q : TlbEntry → Bool) : Prop :=
      (∀ c ∈ u.cores, ∀ e ∈ c.2.tlb, q e = false) ∧ ∀ c ∈ u.l2tlb, ∀ e ∈ c.2, q e = false
    let drops (i : Instr) (part : Nat → Bool) (q : TlbEntry → Bool) : Prop :=
      let f := s.flushReqs part
      (f.asksOwners part = false → ∃ u, exec i s = .next u ∧ u.act.pc = s.act.pc + 8 ∧ u.act.g = s.act.g ∧ mine u q) ∧
      (f.asksOwners part = true → ∃ u, exec i s = .next u ∧ u.act.pc = s.act.pc + 8 ∧ u.act.wait = none ∧
        u.act.posted = f.asPosted :: f.act.posted)
    (s.act.priv = .user →
      exec (.xlinvAddr a t) s = traps s .priv s.ir.1 (s.act.pc + 8) ∧
      exec (.xlinvPart a t) s = traps s .priv s.ir.1 (s.act.pc + 8)) ∧
    (s.act.priv ≠ .firmware → exec (.xlinvAll t) s = traps s .priv s.ir.1 (s.act.pc + 8)) ∧
    (s.act.priv ≠ .user →
      drops (.xlinvAddr a t) (· == s.act.part) fun e =>
        e.part == s.act.part && decide (e.va ≤ va) && decide (va < e.va + leafSize e.level)) ∧
    (s.act.priv = .control ∧ p ≠ s.act.part ∨ s.act.priv = .firmware ∧ 32 ≤ p →
      exec (.xlinvPart a t) s = .next (s.takeTrap (Trap.posted .perm (s.g a) 0) (s.act.pc + 8))) ∧
    (s.act.priv = .control ∧ p = s.act.part ∨ s.act.priv = .firmware ∧ p < 32 →
      drops (.xlinvPart a t) (· == p) fun e => e.part == p) ∧
    (s.act.priv = .firmware → drops (.xlinvAll t) (fun _ => true) fun _ => true) ∧
    (∀ x u, s.pageQuery p = .ok x u → exec (.pgq d a t) s = ends (u.setG d x)) ∧
    (∀ line u, s.pageQuery p = .wait (.far line) u → exec (.pgq d a t) s = waitsAt u (.far line) (s.act.pc + 8)) ∧
    (∀ x u, s.pageQuery p ≠ .trap x u) ∧
    (2 ^ 57 ≤ p → exec (.pgq d a t) s = ends (s.setG d 0x0070000000000000))

/-- R86 to R88; that the faults a vector slot meets in the queue trap so is log entry 49. -/
def Obligations.PairWordSlots : Prop :=
  ∀ (s : State) (x y : Slot), Ready s →
    (x.rop = 0 → y.rop = 0 → x.d ≠ y.d →
      let last (z : Slot) : Word := if z.i then z.imm.signExtend 64 else s.g z.a
      let first (z : Slot) : Word := s.g (if z.i then z.a else z.d)
      exec (.pairWord x y) s =
        continues ((s.setG x.d (first x + last x)).setG y.d (first y + last y)) (s.act.pc + 8)) ∧
    let combo (slot1 : Bool) : Trap := { cause := .typeCombo, tval := s.ir.1, at_ := .scalar, slot1 := slot1 }
    (s.slotCombo x = true → exec (.pairWord x y) s = .next (s.takeTrap (combo false) (s.act.pc + 8))) ∧
    (s.slotCombo x = false → s.slotCombo y = true →
      exec (.pairWord x y) s = .next (s.takeTrap (combo true) (s.act.pc + 8))) ∧
    (s.slotCombo x = false → s.slotCombo y = false →
      (∀ t u, s.slot x = .trap t u →
        exec (.pairWord x y) s = .next (s.takeTrap { t with at_ := .scalar, slot1 := false } (s.act.pc + 8))) ∧
      (∀ u t w, s.slot x = .ok () u → ({ u with act := s.act }).slot y = .trap t w →
        exec (.pairWord x y) s = .next (s.takeTrap { t with at_ := .scalar, slot1 := true } (s.act.pc + 8))) ∧
      ∀ u w, s.slot x = .ok () u → ({ u with act := s.act }).slot y = .ok () w →
        exec (.pairWord x y) s = completes { w with act := s.both y u.act w.act } (s.act.pc + 8))

/-- R123 to R130, and R191, R192 for sources and destinations that are bound as streams. That vsra gives an element of a U format its bit
w - 1 as a sign, and which low bits an NP element takes its value from, is log entry 50. `el` is the element's result: the exact integer cut to the element's width
for integers and NP, a float function otherwise; a constant beside NP elements is an integer of 16 bits (R81, R128). -/
def Obligations.VectorArithmetic : Prop :=
  ∀ (s : State) (d a : Reg) (src : Src) (c : Ctl), Ready s → s.srcOk src = true →
    let w := s.sew
    let k := s.npk
    let x (i : Nat) := lane (s.v a) w i
    let y (i : Nat) := s.srcElem s.fmt src i
    let last (i : Nat) : Int := if s.fmt = .np ∧ srcRegs src = [] then signedOf 16 (y i) else elemInt s.fmt k (y i)
    let el (fi : Int → Int → Int) (ff : FloatFmt → Rnd → Nat → Nat → FRes) (i : Nat) : FRes :=
      match floatOf s.fmt with
      | some q => ff q (s.rndV s.rmode d i) (x i) (y i)
      | none => plainRes (elemBits s.fmt k (fi (elemInt s.fmt k (x i)) (last i)))
    let n := intWidth s.fmt k
    let np := s.fmt == Fmt.np
    let ints := fmtInt s.fmt
    let floats := fmtFloat s.fmt
    let srcs := [a] ++ srcRegs src
    let nx := s.act.pc + src.bytes
    let bound (r : Reg) : Prop := (s.act.streams.get? r.toNat).isSome
    let ends (i : Instr) (ok : Bool) (f : Nat → FRes) : Prop :=
      ((∀ r ∈ d :: srcs, ¬bound r) → elementwise s i ok c d srcs nx f) ∧
      (ok = true → bound d → exec i s = .next (s.takeTrap (Trap.posted .stream 2 s.act.csr.vstart.toNat) nx)) ∧
      (ok = true → ¬bound d → ∀ u adv,
        State.deliverAll (fun j => (s.actives c).contains j) [] (srcs.map s.req) s = .ok (none, adv) u →
        ∃ t, exec i { u with act := { u.act with streams := [] } } = .next t ∧
          exec i s = .next { t with act := { t.act with streams := (u.advance adv).act.streams } })
    ends (.vadd d a src c) (ints || floats || np) (el (fun x y => x + y) (onVals fAddV)) ∧
    ends (.vsub d a src c) (ints || floats || np) (el (fun x y => x - y) (onVals fun q r x y => fAddV q r x y.neg)) ∧
    ends (.vmul d a src c) (ints || floats) (el (fun x y => x * y) (onVals fMulV)) ∧
    ends (.vdiv d a src c) (ints || floats) (el (fun x y => if y = 0 then -1 else x.tdiv y) (onVals fDivV)) ∧
    ends (.vmin d a src c) (ints || floats || np || s.fmt == .uq15) (el (fun x y => min x y) fun q _ => fMinMax q false) ∧
    ends (.vmax d a src c) (ints || floats || np || s.fmt == .uq15) (el (fun x y => max x y) fun q _ => fMinMax q true) ∧
    ends (.vand d a src c) (ints || np) (el (fun x y => (bitsOf n x &&& bitsOf n y : Nat)) noFloat) ∧
    ends (.vor d a src c) (ints || np) (el (fun x y => (bitsOf n x ||| bitsOf n y : Nat)) noFloat) ∧
    ends (.vxor d a src c) (ints || np) (el (fun x y => (bitsOf n x ^^^ bitsOf n y : Nat)) noFloat) ∧
    ends (.vshl d a src c) (ints || np) (el (intShl np n) noFloat) ∧
    ends (.vshr d a src c) (ints || np) (el (intShr np n) noFloat) ∧
    ends (.vsra d a src c) (ints || np) (el (intSra np n) noFloat) ∧
    ends (.vmulh d a src c) ints (el (fun x y => x * y / (2 ^ w : Nat)) noFloat) ∧
    ends (.vabsd d a src c) (ints || floats) (el (fun x y => ((x - y).natAbs : Int)) (onVals fAbsDiff)) ∧
    ends (.vsgnj d a src c) floats (el (fun _ _ => 0) fSignJoin) ∧
    ends (.vaddSat d a src c) (ints || floats || np) (el (fun x y => elemSat s.fmt k (x + y)) (fSat fAddV)) ∧
    ends (.vsubSat d a src c) (ints || floats || np)
      (el (fun x y => elemSat s.fmt k (x - y)) (fSat fun q r x y => fAddV q r x y.neg)) ∧
    ends (.vmulSat d a src c) (ints || floats) (el (fun x y => elemSat s.fmt k (x * y)) (fSat fMulV))

/-- R131, R132, R134, R137, R140. -/
def Obligations.VectorFusedAndUnary : Prop :=
  ∀ (s : State) (d a b : Reg) (m : MReg) (src : Src) (c : Ctl), Ready s → s.srcOk src = true → s.act.streams = [] →
    let w := s.sew
    let k := s.npk
    let x (i : Nat) := lane (s.v a) w i
    let y (i : Nat) := lane (s.v b) w i
    let z (i : Nat) := s.srcElem s.fmt src i
    let ints := fmtInt s.fmt
    let floats := fmtFloat s.fmt
    let np := s.fmt == Fmt.np
    let rd (i : Nat) := s.rndV s.rmode d i
    let fma (fi : Int → Int → Int → Int) (ff : FloatFmt → Rnd → FVal → FVal → FVal → FRes) (i : Nat) : FRes :=
      match floatOf s.fmt with
      | some q => ff q (rd i) (FVal.ofBits q (x i)) (FVal.ofBits q (y i)) (FVal.ofBits q (z i))
      | none => plainRes (bitsOf w (fi (intOf s.fmt (x i)) (intOf s.fmt (y i)) (intOf s.fmt (z i))))
    let fused (i : Instr) (f : Nat → FRes) : Prop :=
      elementwise s i (ints || floats) c d ([a, b] ++ srcRegs src) (s.act.pc + src.bytes) f
    let un (fi : Int → Int) (ff : FloatFmt → Rnd → Nat → FRes) (i : Nat) : FRes :=
      match floatOf s.fmt with
      | some q => ff q (rd i) (x i)
      | none => plainRes (elemBits s.fmt k (fi (elemInt s.fmt k (x i))))
    let unary (i : Instr) (ok : Bool) (f : Nat → FRes) : Prop := elementwise s i ok c d [a] (s.act.pc + 8) f
    let sfu (i : Instr) (fn : Sfu) : Prop :=
      unary i floats fun j => match floatOf s.fmt with | some q => sfuElem q fn (x j) | none => plainRes 0
    fused (.vfma d a b src c) (fma (fun x y z => x * y + z) fun q r x y z => fFmaV q r x y z) ∧
    fused (.vfms d a b src c) (fma (fun x y z => x * y - z) fun q r x y z => fFmaV q r x y z.neg) ∧
    fused (.vfnma d a b src c) (fma (fun x y z => -(x * y) + z) fun q r x y z => fFmaV q r x.neg y z) ∧
    fused (.vfnms d a b src c) (fma (fun x y z => -(x * y) - z) fun q r x y z => fFmaV q r x.neg y z.neg) ∧
    unary (.vneg d a c) (ints || floats || np) (un (fun x => -x) fun q _ => fSign q false) ∧
    unary (.vabs d a c) (fmtSigned s.fmt || floats || np) (un (fun x => (x.natAbs : Int)) fun q _ => fSign q true) ∧
    unary (.vsqrt d a c) floats (un id fun q r x => fSqrtV q r (FVal.ofBits q x)) ∧
    unary (.vnot d a c) (ints || np) (un (fun x => -x - 1) fun _ _ x => plainRes x) ∧
    elementwise s (.vmerge d a b m c) (ints || floats || np || s.fmt == .uq15) c d [a, b] (s.act.pc + 8)
      (fun i => plainRes (let e := if (s.m m).getLsbD i then x i else y i; if s.fmt = .uq15 then min (e % 2 ^ 16) 0x8000 else e)) ∧
    elementwise s (.vid d c) (ints || floats) c d [] (s.act.pc + 8)
      (fun i => match floatOf s.fmt with | some q => roundDy q Rnd.rne false (Dy.ofInt i) | none => plainRes (i % 2 ^ w)) ∧
    sfu (.vsfuExp d a c) .exp ∧ sfu (.vsfuExp2 d a c) .exp2 ∧ sfu (.vsfuLog d a c) .log ∧ sfu (.vsfuLog2 d a c) .log2 ∧
    sfu (.vsfuRcp d a c) .rcp ∧ sfu (.vsfuRsqrt d a c) .rsqrt ∧ sfu (.vsfuSqrt d a c) .sqrt ∧ sfu (.vsfuTanh d a c) .tanh ∧
    sfu (.vsfuSig d a c) .sig ∧ sfu (.vsfuGelu d a c) .gelu ∧ sfu (.vsfuSin d a c) .sin ∧ sfu (.vsfuCos d a c) .cos ∧
    (s.fmt ≠ .bfa24 → ∃ t, exec (.vmov d a c) s = .next t ∧ VectorFrame s t (s.act.pc + 8) ∧
      (∀ i, (i + 1) * w ≤ 16384 → lane (t.v d) w i = if s.active c i then x i else lane (s.v d) w i) ∧
      (∀ r, r ≠ d → t.v r = s.v r ∧ t.vok r = s.vok r) ∧ t.act.csr.fflags = s.act.csr.fflags ∧
      t.vok d = (s.vok d &&& ~~~(okMask s.vl w)) ||| (s.vok a &&& okMask s.vl w))

/-- R133: the comparisons on elements are those of the model's function of one element. R146 and R147. -/
def Obligations.MasksFromVectors : Prop :=
  (∀ (s : State) (d : MReg) (a : Reg) (src : Src) (c : Ctl), Ready s → s.srcOk src = true → s.act.streams = [] → s.fmt ≠ .bfa24 →
     let ends (i : Instr) (rel : Rel) : Prop :=
       ∃ t, exec i s = .next t ∧ VectorFrame s t (s.act.pc + src.bytes) ∧
         (d ≠ 0 → ∀ j, j < 2048 → (t.m d).getLsbD j = if s.active c j then (s.cmpElem rel a src j).1 else (s.m d).getLsbD j) ∧
         (∀ r, r ≠ d ∨ d = 0 → t.m r = s.m r) ∧ t.m 0 = BitVec.allOnes 2048 ∧ t.act.v = s.act.v ∧ t.act.vok = s.act.vok ∧
         t.act.w = s.act.w ∧
         t.act.csr.fflags = s.act.csr.fflags ||| unionFlags ((s.actives c).map fun j => (s.cmpElem rel a src j).2)
     ends (.vcmpEq d a src c) .eq ∧ ends (.vcmpNe d a src c) .ne ∧ ends (.vcmpLt d a src c) .lt ∧ ends (.vcmpLe d a src c) .le ∧
     ends (.vcmpGt d a src c) .gt ∧ ends (.vcmpGe d a src c) .ge ∧ ends (.vcmpUn d a src c) .un) ∧
  ∀ (s : State) (d a b : MReg) (r : Reg) (c : Ctl), Ready s →
    let logic (i : Instr) (f : Bool → Bool → Bool) : Prop :=
      ∃ t, exec i s = .next t ∧ VectorFrame s t (s.act.pc + 8) ∧ t.act.v = s.act.v ∧ t.act.vok = s.act.vok ∧ t.act.w = s.act.w ∧
        t.act.csr.fflags = s.act.csr.fflags ∧ (∀ q, q ≠ d ∨ d = 0 → t.m q = s.m q) ∧
        (d ≠ 0 → ∀ j, j < 2048 → (t.m d).getLsbD j =
          if j < s.vl then f ((s.m a).getLsbD j) ((s.m b).getLsbD j) else (s.m d).getLsbD j)
    let bits := (List.range s.vl).filter fun i => (s.m a).getLsbD i
    let query (i : Instr) (x : Word) : Prop := exec i s = queueEnds (s.setG r x) (s.act.pc + 8)
    logic (.mand d a b c) (fun x y => x && y) ∧ logic (.mor d a b c) (fun x y => x || y) ∧
    logic (.mxor d a b c) (fun x y => x != y) ∧ logic (.mandn d a b c) (fun x y => x && !y) ∧
    logic (.mnot d a c) (fun x _ => !x) ∧
    query (.mcnt r a c) (BitVec.ofNat 64 bits.length) ∧
    query (.many r a c) (if bits = [] then 0 else 1) ∧
    query (.mfirst r a c) (match bits with | [] => BitVec.allOnes 64 | i :: _ => BitVec.ofNat 64 i)

/-- R50, R135, R136. The element values are the model's conversion function. That a BFA24 side has the register group of 32-bit elements is
the model's choice (DEDUCED, log entry 63): R135 and R136 give that format no group. -/
def Obligations.VectorConvert : Prop :=
  ∀ (s : State) (d a : Reg) (dst src : Fmt) (md : Mode) (sat : Bool) (j : BitVec 4) (c : Ctl), Ready s → s.act.streams = [] →
    let regs (q : Fmt) := s.cvtGroup q + if q = .np then 1 else 0
    let fits := d.toNat + regs dst ≤ 32 ∧ a.toNat + regs src ≤ 32 ∧ (dst = .np ∨ j = 0)
    let i := Instr.vcvt d a dst src md sat j c
    (¬fits → exec i s = traps s .illegal s.ir.1 (s.act.pc + 8)) ∧
    (fits → cvtPair src dst = false → exec i s = traps s .typeCombo s.ir.1 (s.act.pc + 8)) ∧
    (fits → cvtPair src dst = true → (src = .np → s.fmt = .np) →
      ∃ t, exec i s = .next t ∧ VectorFrame s t (s.act.pc + 8) ∧ t.act.m = s.act.m ∧ t.act.w = s.act.w ∧
        (dst ≠ .np → t.act.csr.fflags = s.act.csr.fflags |||
          unionFlags ((s.actives c).map fun k => (s.cvtElem d a dst src (RMode.ofMode s.rmode md) sat k).flags)) ∧
        (dst ≠ .np → s.vl ≤ regs dst * s.perReg (fmtWidth dst) → ∀ k, k < s.vl → s.active c k = true →
          t.groupLane d (fmtWidth dst) k = (s.cvtElem d a dst src (RMode.ofMode s.rmode md) sat k).bits % 2 ^ fmtWidth dst))

/-- R138, R139. -/
def Obligations.VectorReductions : Prop :=
  ∀ (s : State) (d a b : Reg) (c : Ctl), Ready s → s.act.streams = [] →
    let terms := (s.actives c).map fun i => BitVec.ofInt 64 (elemInt s.fmt s.npk (lane (s.v a) s.sew i))
    let all := if b = 0 then terms else s.g b :: terms
    let fold (empty : Word) (f : Word → Word → Word) : Word := match all with | [] => empty | x :: r => r.foldl f x
    let int (i : Instr) (x : Word) : Prop :=
      fmtInt s.fmt || s.fmt == Fmt.np → exec i s = queueEnds (s.setG d x) (s.act.pc + 8)
    let ts := s.floatTerms a (s.actives c)
    let st := s.floatStart b
    let flt (i : Instr) (f : List (Option Nat) → Option Nat → FRes) : Prop :=
      fmtFloat s.fmt → exec i s =
        let r := f (ts.map fun t => t.map (·.bits)) (st.map (·.bits))
        queueEnds ((s.setG d (BitVec.ofNat 64 r.bits)).raise (r.flags ||| termFlags ts ||| termFlags [st])) (s.act.pc + 8)
    int (.vredIsum d a b c) (fold 0 fun x y => x + y) ∧
    int (.vredImax d a b c) (fold (BitVec.intMin 64) fun x y => if x.toInt < y.toInt then y else x) ∧
    int (.vredImin d a b c) (fold (BitVec.intMax 64) fun x y => if x.toInt < y.toInt then x else y) ∧
    int (.vredImaxu d a b c) (fold 0 fun x y => if x < y then y else x) ∧
    int (.vredIminu d a b c) (fold (BitVec.allOnes 64) fun x y => if x < y then x else y) ∧
    int (.vredAnd d a b c) (fold (BitVec.allOnes 64) fun x y => x &&& y) ∧
    int (.vredOr d a b c) (fold 0 fun x y => x ||| y) ∧
    int (.vredXor d a b c) (fold 0 fun x y => x ^^^ y) ∧
    flt (.vredFsum d a b c) (fun ts st => { bits := (s.fsum ts st).1.getD 0, flags := (s.fsum ts st).2 }) ∧
    flt (.vredFmax d a b c) (redMinMax true s) ∧ flt (.vredFmin d a b c) (redMinMax false s) ∧
    (fmtFloat s.fmt → s.actives c = [] → b = 0 →
      exec (.vredFmax d a b c) s = queueEnds (s.setG d 0x7FC00000) (s.act.pc + 8) ∧
      exec (.vredFmin d a b c) s = queueEnds (s.setG d 0x7FC00000) (s.act.pc + 8))

/-- R141 to R144. A permute reads `vA` as it was; `old` marks an element that it leaves. -/
def Obligations.VectorRandomAndPermute : Prop :=
  ∀ (s : State) (d a b : Reg) (m : MReg) (src : Src) (c : Ctl), Ready s → s.srcOk src = true → s.act.streams = [] →
    let w := s.sew
    let el (r : Reg) (i : Nat) := lane (s.v r) w i
    let n := (s.srcInt src).toNat
    let h (base : Word) (i : Nat) : Word := elemHash (base + BitVec.ofNat 64 (i * (w / 8))) s.act.csr.seed
    let sel := (s.actives c).filter fun i => (s.m m).getLsbD i
    let moves (i : Instr) (nx : Word) (on : Nat → Bool) (f : Nat → Nat) : Prop :=
      s.fmt ≠ .bfa24 → ∃ t, exec i s = .next t ∧ VectorFrame s t nx ∧ t.act.m = s.act.m ∧ t.act.w = s.act.w ∧
        t.act.csr.fflags = s.act.csr.fflags ∧ (∀ r, r ≠ d → t.v r = s.v r ∧ t.vok r = s.vok r) ∧
        ∀ i, (i + 1) * w ≤ 16384 → lane (t.v d) w i = if on i then f i % 2 ^ w else el d i
    elementwise s (.vrngBits d a c) (fmtInt s.fmt) c d [] (s.act.pc + 8)
      (fun i => plainRes ((h (s.g a) i).toNat / 2 ^ (64 - w))) ∧
    elementwise s (.vrngUnit d a c) (fmtFloat s.fmt || s.fmt == .uq15) c d [] (s.act.pc + 8)
      (fun i => match floatOf s.fmt with
        | some q => plainRes (roundDy q { mode := .rtz, r := 0 } false { m := ((h (s.g a) i).toNat / 2 ^ 40 : Nat), e := -24 }).bits
        | none => plainRes ((h (s.g a) i).toNat / 2 ^ 49)) ∧
    elementwise s (.vdrop d a b c) (fmtFloat s.fmt) c d [a] (s.act.pc + 8)
      (fun i => match floatOf s.fmt with
        | some q =>
          let p := (s.g b).toNat / 2 ^ 57
          if (h (BitVec.ofNat 64 ((s.g b).toNat % 2 ^ 57)) i).toNat / 2 ^ 57 < p then plainRes 0
          else dropScale q (s.rndV s.rmode d i) p (el a i)
        | none => plainRes 0) ∧
    moves (.vperm d a b c) (s.act.pc + 8) (s.active c) (fun i => if s.vl ≤ el b i then 0 else el a (el b i)) ∧
    moves (.vrot d a src c) (s.act.pc + src.bytes) (s.active c) (fun i => el a ((i + n) % s.vl)) ∧
    moves (.vslideUp d a src c) (s.act.pc + src.bytes) (fun i => s.active c i && decide (n ≤ i)) (fun i => el a (i - n)) ∧
    moves (.vslideDn d a src c) (s.act.pc + src.bytes) (s.active c) (fun i => if i + n < s.vl then el a (i + n) else 0) ∧
    moves (.vcomp d a m c) (s.act.pc + 8) (fun i => decide (i < s.vl))
      (fun i => match sel[i]? with | some j => el a j | none => 0) ∧
    moves (.vexp d a m c) (s.act.pc + 8) (fun i => sel.contains i) (fun i => el a (sel.idxOf i))

/-- R166, with R43 for the codes. That the rounding of `wget` takes the key of a `v` register (R47) although R166 names that of `w` registers is
the model's reading (DEDUCED, log entry 54). -/
def Obligations.WeightInstructions : Prop :=
  ∀ (s : State) (d a b : WReg) (m : MReg) (v : Reg) (src : Src) (c : Ctl),
    Ready s → s.srcOk src = true → s.act.streams = [] → s.fmt ≠ .bfa24 →
    let code (r : WReg) (i : Nat) := min (lane (s.w r) 16 i) 0x8000
    let rd (i : Nat) := Rnd.at s.rmode s.act.csr.seed (regKey 3 d.toNat i)
    let writes (i : Instr) (nx : Word) (f : Nat → FRes) : Prop :=
      ∃ t, exec i s = .next t ∧ VectorFrame s t nx ∧ t.act.v = s.act.v ∧ t.act.vok = s.act.vok ∧ t.act.m = s.act.m ∧
        (∀ r, r ≠ d → t.w r = s.w r) ∧
        (∀ i, i < 2048 → lane (t.w d) 16 i = if s.active c i then (f i).bits % 2 ^ 16 else lane (s.w d) 16 i) ∧
        t.act.csr.fflags = s.act.csr.fflags ||| unionFlags ((s.actives c).map fun i => (f i).flags)
    let sig (i : Instr) (f : Nat → FVal → FRes) : Prop :=
      (fmtFloat s.fmt = false → exec i s = traps s .typeCombo s.ir.1 (s.act.pc + 8)) ∧
      ∀ q, floatOf s.fmt = some q → writes i (s.act.pc + 8) fun j => f j (FVal.ofBits q (lane (s.v v) s.sew j))
    writes (.wset d src c) (s.act.pc + src.bytes) (fun _ => plainRes (match src with
      | .reg r => min ((s.g r).toNat % 2 ^ 16) 0x8000
      | x => (max 0 (min (s.srcInt x).toInt 0x8000)).toNat)) ∧
    sig (.wsigH d v c) (fun j => sigHard (rd j)) ∧ sig (.wsigS d v c) (fun _ => sigSoft) ∧
    writes (.wmul d a b c) (s.act.pc + 8) (fun i =>
      let r := roundInt (rd i) { m := (code a i * code b i : Nat), e := -15 } 0
      { bits := (max 0 (min r.1 0x8000)).toNat, flags := if r.2 then 1 else 0 }) ∧
    elementwise s (.wget v a c) (fmtFloat s.fmt || s.fmt == .uq15) c v [] (s.act.pc + 8) (fun i => match floatOf s.fmt with
      | some q => roundDy q (Rnd.at s.rmode s.act.csr.seed (regKey 0 v.toNat i)) false { m := (code a i : Nat), e := -15 }
      | none => plainRes (code a i)) ∧
    ∃ t, exec (.wcmp m a c) s = .next t ∧ VectorFrame s t (s.act.pc + 8) ∧ t.act.v = s.act.v ∧ t.act.w = s.act.w ∧
      t.act.csr.fflags = s.act.csr.fflags ∧
      (∀ r, r ≠ m ∨ m = 0 → t.m r = s.m r) ∧
      (m ≠ 0 → ∀ i, i < 2048 → (t.m m).getLsbD i =
        if s.active c i then decide (s.act.csr.wth.toNat < code a i) else (s.m m).getLsbD i)

/-- R150 to R152, R155, R168. Where two codes of ARMDEPTH apply, their order is the model's (DEDUCED, log entry 42). -/
def Obligations.ArmPairs : Prop :=
  ∀ (s : State) (a : WReg) (off : BitVec 15) (c : Ctl), Ready s →
    let code (i : Nat) := min (lane (s.w a) 16 i) 0x8000
    let target := s.act.pc + 8 * off.signExtend 64
    let depthTrap (n : Word) : Out := .next (s.takeTrap (Trap.posted .armDepth n 0) (s.act.pc + 8))
    let e (i : Nat) : Bool := match s.act.arms with | [] => decide (i < s.vl) | lv :: _ => lv.run.getLsbD i
    let opened (l : List Arm) (run : BitVec 2048) : Out :=
      continues ({ s with act := { s.act with arms := l } }).queueDone (if run = 0 then target else s.act.pc + 8)
    let loopHere : Prop := ∃ l, s.act.loop = some l ∧ l.depth = s.act.arms.length
    (4 ≤ s.act.arms.length → exec (.arm a off c) s = depthTrap 1) ∧
    (s.act.arms.length < 4 →
      ∃ lv : Arm, exec (.arm a off c) s = opened (lv :: s.act.arms) lv.run ∧ lv.wreg = a ∧ lv.wth = s.act.csr.wth ∧
        lv.armB = false ∧ lv.window = [] ∧ lv.pruned = 0 ∧ lv.stores = 0 ∧
        ∀ i, i < 2048 → lv.outer.getLsbD i = e i ∧ lv.run.getLsbD i = (e i && decide (s.act.csr.wth.toNat < code i))) ∧
    (s.act.arms = [] → exec (.armb a off c) s = depthTrap 2 ∧ exec (.armend c) s = depthTrap 2) ∧
    (∀ lv r, s.act.arms = lv :: r →
      (loopHere → exec (.armb a off c) s = depthTrap 5 ∧ exec (.armend c) s = depthTrap 5) ∧
      (¬loopHere → lv.armB = true → exec (.armb a off c) s = depthTrap 4) ∧
      (¬loopHere → lv.armB = false → a ≠ lv.wreg → exec (.armb a off c) s = depthTrap 3) ∧
      (¬loopHere → lv.armB = false → exec (.armend c) s = depthTrap 4) ∧
      (¬loopHere → lv.armB = false → a = lv.wreg →
        ∃ run, exec (.armb a off c) s = opened ({ lv with armB := true, run := run } :: r) run ∧
          ∀ i, i < 2048 → run.getLsbD i = (lv.outer.getLsbD i && decide (lv.wth.toNat < 0x8000 - code i))))

/-- R158 and R160. That every surviving entry is translated again, whether or not a translation was dropped, is log entry 42, and
the weight of an entry that belongs to no element is log entry 51. -/
def Obligations.ArmEnd : Prop :=
  ∀ (s : State) (c : Ctl) (lv : Arm), Ready s → (∀ l, s.act.loop = some l → l.depth ≠ s.act.arms.length) → lv.armB = true →
    let live := s.survivors lv
    let win := lv.window
    let covers (e : WinEnt) (a : Nat) : Prop := e.loc ≤ a ∧ a < e.loc + e.data.length
    let last (n : Nat) (arm : Bool) (a : Nat) : Prop :=
      ∀ m f, n < m → win[m]? = some f → f.armB = arm → ¬covers f a
    let weight (e : WinEnt) : Nat :=
      let u := min (lane (s.w lv.wreg) 16 (e.elems.foldl max 0)) 0x8000
      if e.elems = [] then e.weight else if e.armB then 0x8000 - u else u
    let survives (n : Nat) (e : WinEnt) (a : Nat) : Prop :=
      last n e.armB a ∧ ∀ m f, win[m]? = some f → f.armB = !e.armB → covers f a → last m f.armB a →
        if e.armB then weight f < weight e else weight f ≤ weight e
    (∃ kept : Nat → Nat → Bool,
      (∀ n e i, win[n]? = some e → i < e.data.length → (kept n i = true ↔ survives n e (e.loc + i))) ∧
      live = (win.zipIdx.map fun e => (e.1, e.1.data.zipIdx.map fun b => if kept e.2 b.2 then some b.1 else none)).filter
        fun p => p.2.any Option.isSome) ∧
    let stores := (live.map fun p => p.1.store).eraseDups.length
    let order := (live.filter fun p => !p.1.armB) ++ live.filter fun p => p.1.armB
    (s.act.arms = [lv] → ∀ ws s1, s.retranslate order = .ok ws s1 →
      exec (.armend c) s = continues
        (((ws.splitBy fun x y => x.1.sameEvent y.1).foldl State.putGroup s1).closeArm).queueDone (s.act.pc + 8) ∧
      ws.map (fun w => (w.1, w.2.2)) = order) ∧
    (s.act.arms = [lv] → lv.window = [] →
      exec (.armend c) s = continues ({ s with act := { s.act with arms := [] } }).queueDone (s.act.pc + 8)) ∧
    (∀ outer r, s.act.arms = lv :: outer :: r → 64 < outer.stores + stores →
      exec (.armend c) s = .next (s.takeTrap (Trap.posted .armWin 64 0) (s.act.pc + 8))) ∧
    ∀ outer r, s.act.arms = lv :: outer :: r → outer.stores + stores ≤ 64 →
      ∃ number : Nat → Nat,
        (∀ p ∈ live, outer.stores < number p.1.store ∧ number p.1.store ≤ outer.stores + stores) ∧
        (∀ p ∈ live, ∀ q ∈ live, number p.1.store = number q.1.store → p.1.store = q.1.store) ∧
        let entry (e : WinEnt) (i : Nat) (b : Byte) : WinEnt :=
          { armB := outer.armB, elems := e.elems, va := e.va + i, loc := e.loc + i, data := [b], store := number e.store, block := e.block
            weight := e.weight }
        let added := live.flatMap fun p => p.2.zipIdx.filterMap fun b => b.1.map (entry p.1 b.2)
        let o : Arm := { outer with window := outer.window ++ added, stores := outer.stores + stores }
        exec (.armend c) s = continues ({ s with act := { s.act with arms := o :: r } }).queueDone (s.act.pc + 8)

/-- R165, R167, R168. That ARMDEPTH of wloop and wlend is a trap of posted work is log entry 42. -/
def Obligations.JoinsAndSoftLoops : Prop :=
  ∀ (s : State) (d a b r : Reg) (w : WReg) (off : BitVec 15) (c : Ctl), Ready s → s.act.streams = [] →
    let target := s.act.pc + 8 * off.signExtend 64
    let trap5 : Out := .next (s.takeTrap (Trap.posted .armDepth 5 0) (s.act.pc + 8))
    let go (l : Option SoftLoop) (pc : Word) : Out := continues ({ s with act := { s.act with loop := l } }).queueDone pc
    let valid := BitVec.ofNat 16 (2 ^ ((s.vl * s.sew + 1023) / 1024) - 1)
    let live (x : WReg) (e : BitVec 2048) (wth : BitVec 16) (run : BitVec 2048) : Prop :=
      ∀ i, i < 2048 → run.getLsbD i = (e.getLsbD i && decide (wth.toNat < min (lane (s.w x) 16 i) 0x8000))
    let e : BitVec 2048 := match s.act.arms with | [] => BitVec.ofNat 2048 (2 ^ s.vl - 1) | lv :: _ => lv.run
    (fmtFloat s.fmt = false → exec (.join d a b w c) s = traps s .typeCombo s.ir.1 (s.act.pc + 8) ∧
      exec (.joinb d a b r w c) s = traps s .typeCombo s.ir.1 (s.act.pc + 8)) ∧
    (∀ q, floatOf s.fmt = some q →
      (∃ t, exec (.join d a b w c) s = .next t ∧ VectorFrame s t (s.act.pc + 8) ∧ t.act.m = s.act.m ∧ t.act.w = s.act.w ∧
        (∀ i, (i + 1) * s.sew ≤ 16384 → lane (t.v d) s.sew i =
          if s.active c i then (s.joinElem q d a b w i).bits % 2 ^ s.sew else lane (s.v d) s.sew i) ∧
        t.act.csr.fflags = s.act.csr.fflags ||| unionFlags ((s.actives c).map fun i => (s.joinElem q d a b w i).flags) ∧
        t.vok d = s.vok d ||| valid ∧ ∀ x, x ≠ d → t.v x = s.v x ∧ t.vok x = s.vok x) ∧
      (d.toNat ≤ 29 → ∃ t, exec (.joinb d a b r w c) s = .next t ∧ VectorFrame s t (s.act.pc + 8) ∧ t.act.m = s.act.m ∧
        t.act.w = s.act.w ∧
        (∀ k, k < 3 → ∀ i, (i + 1) * s.sew ≤ 16384 → lane (t.v (d + BitVec.ofNat 5 k)) s.sew i =
          if s.active c i then (s.joinbElem q d a b r w k i).bits % 2 ^ s.sew
          else lane (s.v (d + BitVec.ofNat 5 k)) s.sew i) ∧
        (∀ k, k < 3 → t.vok (d + BitVec.ofNat 5 k) = s.vok (d + BitVec.ofNat 5 k) ||| valid) ∧
        t.act.csr.fflags = s.act.csr.fflags ||| unionFlags ((List.range 3).flatMap fun k =>
          (s.actives c).map fun i => (s.joinbElem q d a b r w k i).flags) ∧
        ∀ x, (∀ k, k < 3 → x ≠ d + BitVec.ofNat 5 k) → t.v x = s.v x ∧ t.vok x = s.vok x)) ∧
    (s.act.loop = none → ∃ run, live w e s.act.csr.wth run ∧
      exec (.wloop w a off c) s =
        if 0 < (s.g a).toInt ∧ run ≠ 0 then
          go (some { addr := s.act.pc, wreg := w, bound := s.g a, pass := 1, wth := s.act.csr.wth, live := run
                     depth := s.act.arms.length }) (s.act.pc + 8)
        else go none target) ∧
    (∀ l, s.act.loop = some l →
      (l.addr ≠ s.act.pc → exec (.wloop w a off c) s = trap5) ∧
      (l.addr = s.act.pc → ∃ run, live l.wreg l.live l.wth run ∧
        exec (.wloop w a off c) s =
          if l.pass.toInt < l.bound.toInt ∧ run ≠ 0 then go (some { l with live := run, pass := l.pass + 1 }) (s.act.pc + 8)
          else go none target) ∧
      (l.addr = target → l.depth = s.act.arms.length → exec (.wlend off c) s = continues s.queueDone target) ∧
      (l.addr ≠ target ∨ l.depth ≠ s.act.arms.length → exec (.wlend off c) s = trap5)) ∧
    (s.act.loop = none → exec (.wlend off c) s = trap5)

/-- R344 to R347: the read of one byte after a write, at the writer's die. -/
def Obligations.MemoryWrite : Prop :=
  ∀ (s : State) (d quad a x : Nat) (data : List Byte), s.mem.wf = true → a % 128 + data.length ≤ 128 →
    (s.write d quad a data).byteAt d x =
      if a ≤ x ∧ x < a + data.length then data.getD (x - a) 0 else s.byteAt d x

/-- R171, R175, R180. `s1` is the state after the checks (a translation may be cached), `s3` the one in which the
die of the strand has applied what the read needs. -/
def Obligations.ScalarLoads : Prop :=
  ∀ (s : State) (d a : Reg) (off : BitVec 13) (fq : Feq) (t : Ctl), Ready s →
    let va := (s.g a + off.signExtend 64).toNat
    let loads (i : Instr) (n : Nat) (sgn : Bool) : Prop :=
      (va % n ≠ 0 → exec i s = traps s .align (BitVec.ofNat 64 va) (s.act.pc + 8)) ∧
      (∀ c s1, s.access va n n .read (fq != .plain) false = (.bad c, s1) →
        exec i s = traps s1 c (BitVec.ofNat 64 va) (s.act.pc + 8)) ∧
      (∀ w s1, s.access va n n .read (fq != .plain) false = (.stall w, s1) →
        exec i s = .next { s1 with act := { s1.act with hold := some w } }) ∧
      (∀ l s1, s.access va n n .read (fq != .plain) false = (.ok l, s1) →
        let s2 := if fq = .fc then s1.setEmpty l.addr else s1
        let s3 := s2.locSync s.act.core l
        let x := leNat (s3.locBytes s.act.core s.act.part l n)
        (fq = .plain ∨ s1.isFull l.addr = true →
          exec i s = continues (s3.setG d (if sgn then (BitVec.ofNat (8 * n) x).signExtend 64 else BitVec.ofNat 64 x))
            (s.act.pc + 8)) ∧
        (fq ≠ .plain → s1.isFull l.addr = false →
          exec i s = .next { s1 with act := { s1.act with hold := some (.fe l.addr true) } }))
    loads (.ld8 d a off fq t) 1 true ∧ loads (.ld16 d a off fq t) 2 true ∧ loads (.ld32 d a off fq t) 4 true ∧
    loads (.ld64 d a off fq t) 8 true ∧ loads (.ldz8 d a off fq t) 1 false ∧ loads (.ldz16 d a off fq t) 2 false ∧
    loads (.ldz32 d a off fq t) 4 false

/-- R171, R175, R180. The address stored to is that of the access; the stored bytes are `n` bytes from there. -/
def Obligations.ScalarStores : Prop :=
  ∀ (s : State) (a b : Reg) (off : BitVec 13) (fq : Feq) (t : Ctl), Ready s →
    let va := (s.g b + off.signExtend 64).toNat
    let stores (i : Instr) (n : Nat) : Prop :=
      (va % n ≠ 0 → exec i s = traps s .align (BitVec.ofNat 64 va) (s.act.pc + 8)) ∧
      (∀ c s1, s.access va n n .write (fq != .plain) false = (.bad c, s1) →
        exec i s = traps s1 c (BitVec.ofNat 64 va) (s.act.pc + 8)) ∧
      (∀ w s1, s.access va n n .write (fq != .plain) false = (.stall w, s1) →
        exec i s = .next { s1 with act := { s1.act with hold := some w } }) ∧
      (∀ l s1, s.access va n n .write (fq != .plain) false = (.ok l, s1) →
        let s2 := if fq = .plain then s1 else s1.setFull l.addr
        let d := s1.coreDie s1.act.core
        (fq = .fe → s1.isFull l.addr = true →
          exec i s = .next { s1 with act := { s1.act with hold := some (.fe l.addr false) } }) ∧
        (fq ≠ .fe ∨ s1.isFull l.addr = false →
          exec i s = continues (s2.write d (quadOf s.act.core) l.addr (leBytes n (s.g a).toNat)) (s.act.pc + 8) ∧
          (s1.mem.wf = true → l.addr % 128 + n ≤ 128 →
            ∃ u, exec i s = .next u ∧ u.act.g = s.act.g ∧ u.act.v = s.act.v ∧ u.act.csr = s.act.csr ∧
              ∀ x, u.byteAt d x =
                if l.addr ≤ x ∧ x < l.addr + n then (s.g a).extractLsb' (8 * (x - l.addr)) 8 else s1.byteAt d x)))
    stores (.st8 a b off fq t) 1 ∧ stores (.st16 a b off fq t) 2 ∧ stores (.st32 a b off fq t) 4 ∧ stores (.st64 a b off fq t) 8

/-- R172, R176 to R178. The first clause covers every form through the element accesses; the second says what stands in vD. -/
def Obligations.VectorLoads : Prop :=
  ∀ (s : State) (d a b : Reg) (off : BitVec 13) (fq : Feq) (k : BitVec 5) (rhu : Bool) (c : Ctl), Ready s → s.act.streams = [] →
    let w := s.sew
    let base := s.g a + off.signExtend 64
    let unit (i : Nat) : Word := base + BitVec.ofNat 64 (i * (w / 8))
    let stride (i : Nat) : Word := s.g a + BitVec.ofNat 64 i * s.g b
    let index (i : Nat) : Word := s.g a + (BitVec.ofNat w (lane (s.v b) w i)).signExtend 64
    let l := s.actives c
    let plain : Prop := s.fmt ≠ .np ∧ k = 0 ∧ rhu = false
    let loads (i : Instr) (addr : Nat → Word) : Prop :=
      plain → fq = .plain → s.act.arms = [] → s.fmt ≠ .bfa24 →
      ∀ loc : Nat → Nat, (∀ j ∈ l, (∃ lf, s.access (addr j).toNat (w / 8) (w / 8) .read false false = (.ok (.at_ (loc j) lf), s)) ∧
        s.readSync (s.coreDie s.act.core) (loc j) = s) →
      ∃ t, exec i s = .next t ∧ VectorFrame s t (s.act.pc + 8) ∧ t.act.m = s.act.m ∧ t.act.w = s.act.w ∧
        t.act.csr.fflags = s.act.csr.fflags ∧ (∀ r, r ≠ d → t.v r = s.v r ∧ t.vok r = s.vok r) ∧
        ∀ j, (j + 1) * w ≤ 16384 → lane (t.v d) w j =
          if s.active c j then leNat (s.bytesAt (s.coreDie s.act.core) (loc j) (w / 8)) else lane (s.v d) w j
    (plain → ∀ u, s.loadElems d fq (fun x i => unitAddr base x.sew i) l = .ok () u →
      exec (.vld d a off fq k rhu c) s = queueEnds u (s.act.pc + 8)) ∧
    (s.fmt = .np → d.toNat ≤ 30 → ∀ u, s.loadNp d base.toNat fq (s.planes k) rhu l = .ok () u →
      exec (.vld d a off fq k rhu c) s = queueEnds u (s.act.pc + 8)) ∧
    (s.fmt = .np → d.toNat ≤ 30 → s.act.arms = [] → s.vl ≠ 0 → base.toNat % 8 ≠ 0 →
      exec (.vld d a off fq k rhu c) s = .next (s.takeTrap (Trap.posted .align base 0) (s.act.pc + 8))) ∧
    loads (.vld d a off fq k rhu c) unit ∧ loads (.vlds d a b fq k rhu c) stride ∧ loads (.vldx d a b fq k rhu c) index ∧
    (s.fmt = .np ∨ k ≠ 0 ∨ rhu = true → exec (.vlds d a b fq k rhu c) s = traps s .typeCombo s.ir.1 (s.act.pc + 8) ∧
      exec (.vldx d a b fq k rhu c) s = traps s .typeCombo s.ir.1 (s.act.pc + 8))

/-- R156, R176, R177, R179, R183, R202: the stores through their element writes, the bytes that they leave, and what an instruction
with no active element does. `place` is where the granule of a virtual address lies; the accesses pass whatever the memory and the
dies hold, on pages that are not host-shared. The `tval` of a misaligned NEXT of vcapp is log entry 40. -/
def Obligations.VectorStores : Prop :=
  ∀ (s : State) (a b x : Reg) (off : BitVec 13) (fq : Feq) (k : BitVec 5) (c : Ctl), Ready s → s.act.streams = [] →
    let w := s.sew
    let l := s.actives c
    let base := s.g b + off.signExtend 64
    let ends (i : Instr) (r : Res Unit) : Prop := ∀ u, r = .ok () u → exec i s = queueEnds u (s.act.pc + 8)
    let none_ (i : Instr) : Prop :=
      l = [] → s.act.arms = [] → exec i s = queueEnds s (s.act.pc + 8)
    let d := s.coreDie s.act.core
    let bytes (i : Instr) (z : State) (from_ : Reg) (addr : Nat → Nat) : Prop :=
      z.mem.wf = true → ∀ place : Nat → Nat,
        (∀ j ∈ l, ∀ y : State, y = { z with mem := y.mem, dies := y.dies, flight := y.flight, links := y.links, freeCount := y.freeCount } →
          ∃ lf : Option TlbEntry, (∀ e, lf = some e → e.hostShared = false) ∧
            y.access (addr j) (w / 8) (w / 8) .write false false =
              (.ok (.at_ (16 * place (addr j / 16) + addr j % 16) lf), y)) →
        ∃ u, exec i s = .next u ∧ u.act.g = s.act.g ∧ u.act.v = s.act.v ∧ u.act.m = s.act.m ∧ u.act.w = s.act.w ∧
          u.act.pc = s.act.pc + 8 ∧ u.act.csr.fflags = s.act.csr.fflags ∧ u.full = s.full ∧
          ∀ p, u.byteAt d p = l.foldl (fun old j =>
            let loc := 16 * place (addr j / 16) + addr j % 16
            if loc ≤ p ∧ p < loc + w / 8 then BitVec.ofNat 8 (lane (s.v from_) w j / 256 ^ (p - loc)) else old) (z.byteAt d p)
    let unit (j : Nat) : Nat := (base + BitVec.ofNat 64 (j * (w / 8))).toNat
    let stride (j : Nat) : Nat := (s.g b + BitVec.ofNat 64 j * s.g x).toNat
    let index (j : Nat) : Nat := (s.g b + (BitVec.ofNat w (lane (s.v x) w j)).signExtend 64).toNat
    let rank (j : Nat) : Nat := (l.filter fun i => decide (i < j)).length
    let opened := s.npOpen s.act.core s.act.part base.toNat
    let noneNp (i : Instr) : Prop :=
      l = [] → s.act.arms = [] → (∀ f, opened.1 = .error f → s.vl = 0 ∨ f.first = false) → exec i s = queueEnds opened.2 (s.act.pc + 8)
    let alignNp (i : Instr) : Prop :=
      s.act.arms = [] → s.vl ≠ 0 → base.toNat % 8 ≠ 0 →
        exec i s = .next (s.takeTrap (Trap.posted .align base 0) (s.act.pc + 8))
    (s.fmt ≠ .np → k = 0 → fq = .plain → s.act.arms = [] →
      bytes (.vst a b off fq k c) s a unit ∧ bytes (.vsts a b x fq k c) s a stride ∧ bytes (.vstx a b x fq k c) s a index) ∧
    (s.act.arms = [] → s.fmt ≠ .np → ∀ y u, s.reserve (s.g a).toNat (l.length * (w / 8)) (w / 8) = (.ok (.got y), u) →
      y + l.length * (w / 8) < 2 ^ 64 →
      bytes (.vcapp a b c) { u with act := { u.act with prog := { u.act.prog with reserved := some (y, s.act.csr.vstart.toNat) } } } b
        fun j => y + rank j * (w / 8)) ∧
    (s.fmt ≠ .np → k = 0 →
      ends (.vst a b off fq k c) (s.storeElems a fq (fun y i => unitAddr base y.sew i) l) ∧
      ends (.vsts a b x fq k c) (s.storeElems a fq (fun y i => strideAddr (y.g b) (y.g x) i) l) ∧
      ends (.vstx a b x fq k c) (s.storeElems a fq (fun y i => indexAddr (y.g b) y.sew (lane (y.v x) y.sew i)) l) ∧
      none_ (.vst a b off fq k c) ∧ none_ (.vsts a b x fq k c) ∧ none_ (.vstx a b x fq k c)) ∧
    (s.fmt = .np → a.toNat ≤ 30 →
      ends (.vst a b off fq k c) (s.storeNp c a base.toNat fq (s.planes k) false false l) ∧
      noneNp (.vst a b off fq k c) ∧ alignNp (.vst a b off fq k c)) ∧
    (s.fmt = .np →
      ends (.vstp a b off fq k c) (s.storeNp c a base.toNat fq (s.planes k) true false l) ∧
      ends (.vstpPa a b off fq k c) (s.storeNp c a base.toNat fq (s.planes k) true true l) ∧
      noneNp (.vstp a b off fq k c) ∧ noneNp (.vstpPa a b off fq k c) ∧
      alignNp (.vstp a b off fq k c) ∧ alignNp (.vstpPa a b off fq k c)) ∧
    (s.fmt ≠ .np → exec (.vstp a b off fq k c) s = traps s .typeCombo s.ir.1 (s.act.pc + 8) ∧
      exec (.vstpPa a b off fq k c) s = traps s .typeCombo s.ir.1 (s.act.pc + 8)) ∧
    (∀ y u, s.reserve (s.g a).toNat (l.length * (w / 8)) (w / 8) = (.ok (.got y), u) →
      ends (.vcapp a b c) (State.append { u with act := { u.act with
          prog := { u.act.prog with reserved := some (y, s.act.csr.vstart.toNat) } } } c b y s.act.csr.vstart.toNat l)) ∧
    (∀ u, s.reserve (s.g a).toNat (l.length * (w / 8)) (w / 8) = (.ok .full, u) →
      exec (.vcapp a b c) s = .next (u.takeTrap (Trap.posted .cmpFull (BitVec.ofNat 64 (l.length * (w / 8))) s.act.csr.vstart.toNat)
        (s.act.pc + 8))) ∧
    (∀ y u, s.reserve (s.g a).toNat (l.length * (w / 8)) (w / 8) = (.ok (.misaligned y), u) →
      exec (.vcapp a b c) s = .next (u.takeTrap (Trap.posted .align (BitVec.ofNat 64 y) s.act.csr.vstart.toNat) (s.act.pc + 8))) ∧
    ∀ home tag u, s.reserve (s.g a).toNat (l.length * (w / 8)) (w / 8) = (.stall (.home home tag), u) →
      exec (.vcapp a b c) s = waitsAt { u with act := { u.act with csr := { u.act.csr with
        vstart := s.act.csr.vstart, vpend := u.act.csr.vpend || u.act.frame.isNone } } } (.home home tag) (s.act.pc + 8)

/-- R185 and R349. That a scalar amo takes no TYPECOMBO, whatever `vtype` says, is log entry 43. `u` is the state in which the home has applied what
the die of the strand has sent; `z` is `s` when the answer of another package's home has come. -/
def Obligations.ScalarAtomics : Prop :=
  ∀ (s : State) (n32 : Bool) (d a b c : Reg) (t : Ctl), Ready s →
    let n := if n32 then 4 else 8
    let w := 8 * n
    let va := (s.g a).toNat
    let y := (s.g b).toNat % 2 ^ w
    let sg (x : Nat) : Int := (BitVec.ofNat w x).toInt
    let waiting (e : Errand) : Progress := { Progress.none with errand := some e }
    let acts (i : Instr) (op : Amo) (x : Nat) (f : Nat → Nat) : Prop :=
      (∀ e s1, s.access va n n .atomic false false = (.bad e, s1) → exec i s = traps s1 e (s.g a) (s.act.pc + 8)) ∧
      (∀ v s1, s.access va n n .atomic false false = (.stall v, s1) →
        exec i s = .next { s1 with act := { s1.act with hold := some v } }) ∧
      (∀ l s1, s.access va n n .atomic false false = (.ok l, s1) →
        let die := s1.coreDie s.act.core
        let home := homeDie l.addr
        (s1.far l.addr = false →
          let u := s1.atomicSync die l.addr
          let old := leNat (u.bytesAt home l.addr n)
          exec i s = continues ((u.atomicWrite die (quadOf s.act.core) l.addr (leBytes n (f old))).setG d (BitVec.ofNat 64 old))
            (s.act.pc + 8)) ∧
        (s1.far l.addr = true →
          let u := s1.closeBatch die
          let tag := u.links.nextMsg
          let v := u.sendMsg die home (.atomic home die l.addr n (.amo op (s.g b).toNat x) (u.dieAt die).vec tag)
          exec i s = .next { v with act := { v.act with
            hold := some (.home home tag), prog := waiting { tag := tag, home := home, answer := none } } })) ∧
      ∀ (bs : List Byte) (denied : Option Denial) (e : Errand), e.answer = some (bs, denied) →
        let z : State := { s with act := { s.act with prog := waiting e } }
        ∀ l s1, z.access va n n .atomic false false = (.ok l, s1) → s1.far l.addr = true →
          exec i z = match denied with
            | none => continues (({ s1 with act := s.act } : State).setG d (BitVec.ofNat 64 (leNat bs))) (s.act.pc + 8)
            | some x => traps { s1 with act := s.act } x.cause (s.g a) (s.act.pc + 8)
    acts (.amoAdd n32 d a b t) .add 0 (fun old => (old + y) % 2 ^ w) ∧
    acts (.amoAnd n32 d a b t) .and 0 (fun old => old &&& y) ∧
    acts (.amoOr n32 d a b t) .or 0 (fun old => old ||| y) ∧
    acts (.amoXor n32 d a b t) .xor 0 (fun old => old ^^^ y) ∧
    acts (.amoMin n32 d a b t) .min 0 (fun old => if sg old ≤ sg y then old else y) ∧
    acts (.amoMax n32 d a b t) .max 0 (fun old => if sg old ≤ sg y then y else old) ∧
    acts (.amoMinu n32 d a b t) .minu 0 (fun old => min old y) ∧
    acts (.amoMaxu n32 d a b t) .maxu 0 (fun old => max old y) ∧
    acts (.amoSwap n32 d a b t) .swap 0 (fun _ => y) ∧
    acts (.amoCas n32 d a b c t) .cas (s.g c).toNat (fun old => if old = y then (s.g c).toNat % 2 ^ w else old)

/-- R186 to R188, and R349 for a home on another package. That amoacc and vldbfa trap at element 0 with no element active is log entry 40. -/
def Obligations.VectorAtomicsAndBlocks : Prop :=
  ∀ (s : State) (n32 : Bool) (d a b x : Reg) (md : Mode) (c : Ctl), Ready s → s.act.streams = [] →
    let w := s.sew
    let l := s.actives c
    let ok : Prop := if n32 then s.fmt = .i32 ∨ s.fmt = .u32 else s.fmt = .i64 ∨ s.fmt = .u64
    let mode := RMode.ofMode s.rmode md
    let at_ (z : State) (j : Nat) : State :=
      { z with act := { z.act with csr := { z.act.csr with
        vstart := BitVec.ofNat 12 j, vpend := z.act.csr.vpend || z.act.frame.isNone } } }
    let sent (z : State) (loc : Nat) (op : RemoteOp) : Out :=
      let die := z.coreDie z.act.core
      let u := z.closeBatch die
      let tag := u.links.nextMsg
      let v := u.sendMsg die (homeDie loc) (.atomic (homeDie loc) die loc 256 op (u.dieAt die).vec tag)
      waitsAt (at_ { v with act := { v.act with
        prog := { v.act.prog with errand := some { tag := tag, home := homeDie loc, answer := none } } } } 0) (.home (homeDie loc) tag)
        (s.act.pc + 8)
    let acts (i : Instr) (op : Amo) : Prop :=
      (¬ok → exec i s = traps s .typeCombo s.ir.1 (s.act.pc + 8)) ∧
      (ok → l = [] → exec i s = queueEnds (s.okSet d w) (s.act.pc + 8)) ∧
      let one (z : State) (j : Nat) : Get Nat × State :=
        z.amoAt (z.g a + (BitVec.ofNat w (lane (z.v b) w j)).signExtend 64).toNat (w / 8) op
          (if op = .cas then lane (z.v d) w j else lane (z.v x) w j) (lane (z.v x) w j)
      let step (z : State) (j : Nat) : Option State :=
        match one z j with
        | (.ok old, u) => some (u.setV d (setLane (u.v d) w j old))
        | _ => none
      (ok → ∀ u, l.foldlM step s = some u → exec i s = queueEnds (u.okSet d w) (s.act.pc + 8)) ∧
      (ok → ∀ l1 j l2 u e va z, l = l1 ++ j :: l2 → l1.foldlM step s = some u → one u j = (.bad e va, z) →
        exec i s = .next (z.takeTrap (Trap.posted e (BitVec.ofNat 64 va) j) (s.act.pc + 8))) ∧
      (ok → ∀ l1 j l2 u home tag z, l = l1 ++ j :: l2 → l1.foldlM step s = some u → one u j = (.stall (.home home tag), z) →
        exec i s = waitsAt (at_ z j) (.home home tag) (s.act.pc + 8))
    acts (.vamoAdd n32 d a b x c) .add ∧ acts (.vamoAnd n32 d a b x c) .and ∧ acts (.vamoOr n32 d a b x c) .or ∧
    acts (.vamoXor n32 d a b x c) .xor ∧ acts (.vamoMin n32 d a b x c) .min ∧ acts (.vamoMax n32 d a b x c) .max ∧
    acts (.vamoMinu n32 d a b x c) .minu ∧ acts (.vamoMaxu n32 d a b x c) .maxu ∧ acts (.vamoSwap n32 d a b x c) .swap ∧
    acts (.vamoCas n32 d a b x c) .cas ∧
    (s.fmt ≠ .fp32 → exec (.amoacc md a b c) s = traps s .typeCombo s.ir.1 (s.act.pc + 8) ∧
      exec (.vldbfa md d a c) s = traps s .typeCombo s.ir.1 (s.act.pc + 8)) ∧
    (s.fmt = .fp32 → ∀ loc s1, s.bfaLoc .atomic (s.g a).toNat = (.ok loc, s1) → s1.far loc = true →
      exec (.amoacc md a b c) s = sent s1 loc (.acc (s.g a).toNat mode s.act.csr.seed
        ((List.range 64).map fun e => if l.contains e then lane (s.v b) 32 e else 0))) ∧
    (s.fmt = .fp32 → ∀ loc s1, s.bfaLoc .look (s.g a).toNat = (.ok loc, s1) → s1.far loc = true →
      exec (.vldbfa md d a c) s = sent s1 loc .look) ∧
    (s.fmt = .fp32 → ∀ loc s1, s.bfaLoc .atomic (s.g a).toNat = (.ok loc, s1) → s1.far loc = false →
      let u := s1.atomicSync (s1.coreDie s1.act.core) loc
      let r := bfaAdd (fun e => Rnd.at mode s.act.csr.seed (s.g a + BitVec.ofNat 64 (3 * e))) (u.bytesAt (homeDie loc) loc 256)
        ((List.range 64).map fun e => FVal.ofBits fp32 (if l.contains e then lane (s.v b) 32 e else 0))
      exec (.amoacc md a b c) s =
        queueEnds ((u.atomicWrite (s1.coreDie s1.act.core) (quadOf s.act.core) loc r.1).raise r.2) (s.act.pc + 8)) ∧
    (s.fmt = .fp32 → (s.g a).toNat % 256 = 0 → 0x01FFFFF000000000 ≤ (s.g a).toNat → (s.g a).toNat < 0x01FFFFF000200000 →
      exec (.amoacc md a b c) s = .next (s.takeTrap (Trap.posted .perm (s.g a) 0) (s.act.pc + 8)) ∧
      exec (.vldbfa md d a c) s = .next (s.takeTrap (Trap.posted .perm (s.g a) 0) (s.act.pc + 8))) ∧
    (s.fmt = .fp32 → ∀ e va s1, (s.bfaLoc .atomic (s.g a).toNat = (.bad e va, s1) →
        exec (.amoacc md a b c) s = .next (s1.takeTrap (Trap.posted e (BitVec.ofNat 64 va) 0) (s.act.pc + 8))) ∧
      (s.bfaLoc .look (s.g a).toNat = (.bad e va, s1) →
        exec (.vldbfa md d a c) s = .next (s1.takeTrap (Trap.posted e (BitVec.ofNat 64 va) 0) (s.act.pc + 8)))) ∧
    (s.fmt = .fp32 → ∀ loc s1, s.bfaLoc .look (s.g a).toNat = (.ok loc, s1) → s1.far loc = false →
      let u := s1.atomicSync (s1.coreDie s1.act.core) loc
      let bs := u.bytesAt (homeDie loc) loc 256
      ∃ t, exec (.vldbfa md d a c) s = .next t ∧ t.act.g = s.act.g ∧ t.act.pc = s.act.pc + 8 ∧ t.mem = u.mem ∧
        ∀ j, j < 512 → lane (t.v d) 32 j =
          if s.active c j ∧ j < 64 then
            (if bs.getD 192 0 = 0xFF then 0x7FC00000
             else (roundDy fp32 (s.rndV mode d j) false { m := bfaM bs j, e := ((bs.getD 192 0).toNat : Int) - 150 }).bits % 2 ^ 32)
          else lane (s.v d) 32 j)

/-- R189 and R341. -/
def Obligations.Fences : Prop :=
  ∀ (s : State) (tier : Tier) (c : Ctl), Ready s →
    let d := s.coreDie s.act.core
    let done (i : Instr) (tier : Tier) : Prop := exec i s = continues (s.performAt d tier).queueDone (s.act.pc + 8)
    done (.fenceC tier c) tier ∧ done (.fenceS tier c) tier ∧ done (.fenceHost tier c) .domain ∧
    (s.enginesBusy = false → done (.fenceEng tier c) tier) ∧
    (s.enginesBusy = true → exec (.fenceEng tier c) s = waitsAt s .fenceEng (s.act.pc + 8)) ∧
    (∃ u, exec (.fenceRec tier c) s = .next u ∧ u.act.g = s.act.g ∧ u.act.v = s.act.v ∧ u.act.pc = s.act.pc + 8 ∧
      u.mem = (s.performAt d tier).mem ∧ ∀ k ∈ u.cores, unitOf tier s.act.core = unitOf tier k.1 → k.2.records = []) ∧
    (s.performAt d .domain).act = s.act ∧ ((s.performAt d .domain).dieAt d).pending = []

/-- R182, R190, R191. What stinv discards is log entry 17, and the `tval` of a length above 2^32 log entry 40. -/
def Obligations.FullEmptyStreamsStashes : Prop :=
  ∀ (s : State) (a b d : Reg) (c : Ctl), Ready s →
    let va := (s.g a).toNat
    let n := (s.g b).toNat
    let queueTrap (e : Cause) : Out := .next (s.takeTrap (Trap.posted e (s.g a) 0) (s.act.pc + 8))
    let ends (u : State) : Out := continues u.queueDone (s.act.pc + 8)
    let pad := padBase (pairOf s.act.core) + (va - 0x01FFFFF000000000)
    let fe (i : Instr) (full : Bool) : Prop :=
      (va % 16 ≠ 0 ∨ n % 16 ≠ 0 → exec i s = queueTrap .align) ∧
      (va % 16 = 0 → n % 16 = 0 → n ≠ 0 → ¬(0x01FFFFF000000000 ≤ va ∧ va + n ≤ 0x01FFFFF000200000) → exec i s = queueTrap .perm) ∧
      (va % 16 = 0 → n % 16 = 0 → 0x01FFFFF000000000 ≤ va → va + n ≤ 0x01FFFFF000200000 → s.full.rising →
        ∃ u, exec i s = .next u ∧ u.act.g = s.act.g ∧ u.mem = s.mem ∧ u.act.pc = s.act.pc + 8 ∧
          ∀ g, NSet.has g u.full = if pad / 16 ≤ g ∧ g < pad / 16 + n / 16 then full else NSet.has g s.full)
    let lines (i : Instr) (f : Nat → State → Res Unit) : Prop :=
      (2 ^ 32 < n → exec i s = queueTrap .align) ∧ (n = 0 → exec i s = ends s) ∧
      (n ≤ 2 ^ 32 → ∀ u, eachLine f (linesOf va n) s = .ok () u → exec i s = queueEnds u (s.act.pc + 8))
    fe (.feset a b c) true ∧ fe (.feclr a b c) false ∧
    ((s.act.streams.get? d.toNat).isSome → exec (.strm d a b c) s = .next (s.takeTrap (s.streamTrap 3) (s.act.pc + 8))) ∧
    (s.act.streams.get? d.toNat = none → 2 ^ 40 < n →
      exec (.strm d a b c) s = .next (s.takeTrap (s.streamTrap 4) (s.act.pc + 8))) ∧
    (s.act.streams.get? d.toNat = none → n ≤ 2 ^ 40 → va % 16 ≠ 0 → exec (.strm d a b c) s = queueTrap .align) ∧
    (s.act.streams.get? d.toNat = none → n ≤ 2 ^ 40 → va % 16 = 0 →
      exec (.strm d a b c) s = ends { s with act := { s.act with
        streams := NMap.set d.toNat { base := va, len := n, pos := 0, ahead := [] } s.act.streams } }) ∧
    exec (.strmx d c) s = ends { s with act := { s.act with streams := NMap.del d.toNat s.act.streams } } ∧
    lines (.stash a b c) (fun line s => s.bring true line) ∧ lines (.pref a b c) (fun line s => s.bring false line) ∧
    lines (.stflush a b c) (fun line s => s.lineAct .read line fun loc u => (u.reach (u.coreDie u.act.core) (homeDie loc)).unpin loc) ∧
    lines (.stinv a b c) (fun line s => s.lineAct .write line fun loc u =>
      let e := u.coreDie u.act.core
      if homeDie loc = e then u.unpin loc
      else
        ((u.onDie e fun x => { x with
          pending := dropLine (quadOf u.act.core) (loc / 128) x.pending, copies := NMap.del (loc / 128) x.copies }).rebuildOwn e
            (loc / 128)).unpin loc)

/-- R193, R196, R199 to R201. The order in which misaligned operands are found and the `tval` of each, and what a collective takes
ALIGN for, are log entry 21. A copy by shape record is covered by `posts`, its record being well-formed or not. -/
def Obligations.EngineInstructions : Prop :=
  ∀ (s : State) (a b c e : Reg) (f : Fmt) (t : Ctl), Ready s →
    let dst := (s.g a).toNat
    let src := (s.g b).toNat
    let x := s.g e
    let esz := (x.extractLsb' 17 3).toNat
    let n := (x.extractLsb' 24 32).toNat
    let w := x &&& 0x1FFFF
    let align (i : Instr) (v : Word) : Prop := exec i s = traps s .align v (s.act.pc + 8)
    let posts (i : Instr) (job : EngJob) (w : Word) : Prop :=
      (s.engineRoom s.act.core = false → exec i s = .next { s with act := { s.act with hold := some .engine } }) ∧
      (s.engineRoom s.act.core = true → ∀ k, wordCtr w = some k → s.ownCtr s.act.part k = false →
        exec i s = .next (s.takeTrap (Trap.posted .perm (BitVec.ofNat 64 w.toNat) 0) (s.act.pc + 8))) ∧
      (s.engineRoom s.act.core = true → (∀ k, wordCtr w = some k → s.ownCtr s.act.part k = true) →
        (∀ va u, s.badShape job = (.ok (some va), u) →
          exec i s = .next (s.takeTrap (Trap.posted .illegal (BitVec.ofNat 64 va) 0) (s.act.pc + 8))) ∧
        (∀ x u, s.badShape job = (.error x, u) → exec i s = .next { u with act := { u.act with hold := some x } }) ∧
        (∀ u, s.badShape job = (.ok none, u) →
          exec i s = completes (({ s with nextOp := s.nextOp + 1 }).issueOp s.nextOp (s.newOp job (wordCtr w))).queueDone
            (s.act.pc + 8)))
    let list (i : Instr) (job : EngJob) : Prop :=
      ((s.g c).toNat % 8 ≠ 0 → align i (s.g c)) ∧
      ((s.g c).toNat % 8 = 0 → dst % 2 ^ esz ≠ 0 → align i (s.g a)) ∧
      ((s.g c).toNat % 8 = 0 → dst % 2 ^ esz = 0 → src % 2 ^ esz ≠ 0 → align i (s.g b)) ∧
      ((s.g c).toNat % 8 = 0 → dst % 2 ^ esz = 0 → src % 2 ^ esz = 0 → posts i job w)
    let coll (i : Instr) (kind : CollKind) (f : Fmt) : Prop :=
      (kind ≠ .ag → f ∉ [Fmt.i32, Fmt.i64, Fmt.fp32, Fmt.bf16] → exec i s = traps s .typeCombo s.ir.1 (s.act.pc + 8)) ∧
      (kind = .ag ∨ f ∈ [Fmt.i32, Fmt.i64, Fmt.fp32, Fmt.bf16] →
        ((s.g c).toNat % 16 ≠ 0 → align i (s.g c)) ∧
        ((s.g c).toNat % 16 = 0 → dst % 16 ≠ 0 → align i (s.g a)) ∧
        ((s.g c).toNat % 16 = 0 → dst % 16 = 0 → src % 16 ≠ 0 → align i (s.g b)) ∧
        ((s.g c).toNat % 16 = 0 → dst % 16 = 0 → src % 16 = 0 →
          posts i (.coll kind f dst src (s.g c).toNat (x.extractLsb' 24 8).toNat ((x.extractLsb' 32 8).toNat + 1)
            (x.extractLsb' 48 16).toNat 0 false) w))
    let sel := (s.g a).toNat % 16
    let l := s.watches s.act.sid sel
    ((s.g c).getLsbD 63 = false → dst % 16 ≠ 0 → align (.cpy a b c e t) (s.g a)) ∧
    ((s.g c).getLsbD 63 = false → dst % 16 = 0 → src % 16 ≠ 0 → align (.cpy a b c e t) (s.g b)) ∧
    ((s.g c).getLsbD 63 = false → dst % 16 = 0 → src % 16 = 0 → (s.g c).toNat % 16 ≠ 0 → align (.cpy a b c e t) (s.g a)) ∧
    ((s.g c).getLsbD 63 = false → dst % 16 = 0 → src % 16 = 0 → (s.g c).toNat % 16 = 0 →
      posts (.cpy a b c e t) (.cpy dst src (s.g c)) x) ∧
    ((s.g c).getLsbD 63 = true → (s.g c).toNat % 64 ≠ 0 → align (.cpy a b c e t) (s.g c &&& (2 ^ 57 - 1))) ∧
    ((s.g c).getLsbD 63 = true → (s.g c).toNat % 64 = 0 → posts (.cpy a b c e t) (.cpy dst src (s.g c)) x) ∧
    list (.gath a b c e t) (.gath dst src (s.g c).toNat esz n) ∧ list (.scat a b c e t) (.scat dst src (s.g c).toNat esz n) ∧
    coll (.collAg a b c e t) .ag .i32 ∧ coll (.collRs f a b c e t) .rs f ∧ coll (.collAr f a b c e t) .ar f ∧
    ((∃ k ∈ l, k.ended = false) → exec (.ewait a t) s = waitsAt s (.ewait sel) (s.act.pc + 8)) ∧
    ((∀ k ∈ l, k.ended = true ∧ k.failed = false) →
      exec (.ewait a t) s = completes (l.foldl State.retire s).queueDone (s.act.pc + 8)) ∧
    ((∀ k ∈ l, k.ended = true) → ∀ k, l.find? (·.failed) = some k →
      ∃ u, exec (.ewait a t) s = .next u ∧ u.act.csr.code = (causeOf k.cause).code ∧ u.act.csr.tval = k.tval ∧
        u.act.csr.epc = s.act.pc)

/-- R194, R288, R297, R298. Each instruction is counted against the budget of the partition, npatch too (log entry 36); the `tval` of
npatch is log entry 37. `s0` is the state in which what the die of
the strand has written and read is there for the Millrace; `s0.missing` names a line of another package that it lacks (R346, log entry 24). -/
def Obligations.MillraceInstructions : Prop :=
  ∀ (s : State) (a b c : Reg) (t : Ctl), Ready s →
    let p := s.act.part
    let s0 := s.bringAlong (s.coreDie s.act.core) s.millDie
    let issued : Prop := ∀ o ∈ s.engines, o.2.sid = s.act.sid → o.2.st ≠ .posted
    let waits (w : Wait) : Prop :=
      exec (.glaunch a b t) s = waitsAt s w (s.act.pc + 8) ∧ exec (.nspawn a b t) s = waitsAt s w (s.act.pc + 8) ∧
      exec (.dcset a b t) s = waitsAt s w (s.act.pc + 8) ∧ exec (.dcdec a b t) s = waitsAt s w (s.act.pc + 8) ∧
      exec (.npatch a b c t) s = waitsAt s w (s.act.pc + 8)
    let ends (u : State) : Out :=
      continues (u.onMill fun m => { m with used := m.used.upd u.act.part 0 (· + 1) }).queueDone (s.act.pc + 8)
    let queueTrap (u : State) (e : Cause) (v : Word) : Out := .next (u.takeTrap (Trap.posted e v 0) (s.act.pc + 8))
    let rec_ := (s.g a).toNat
    let w := (s.g b).toNat % 2 ^ 17
    let k := (s.g a).toNat % 2 ^ 16
    let r : Replay :=
      { graph := rec_, part := p, core := s.act.core, epc := s.act.pc, user := s.act.priv == .user, launch := w, st := .pending
        slot := 0, gen := 0, ctrs := [], kernels := [], errand := none }
    let off := (s.g b).toNat % 2 ^ 16
    let idx := (s.g b).toNat / 2 ^ 16 % 2 ^ 16
    (¬issued → waits .issue) ∧
    (issued → s.budgetLeft p = false → waits .budget) ∧
    (issued → s.budgetLeft p = true →
    (rec_ % 64 ≠ 0 → exec (.glaunch a b t) s = queueTrap s0 .align (s.g a)) ∧
    (rec_ % 64 = 0 → (2 ^ 16 ≤ w → s.ownCtr p (w % 2 ^ 16) = true) →
      ∃ u, exec (.glaunch a b t) s = .next u ∧ u.mill.replays.get? s.mill.nextId = some r ∧ u.mill.nextId = s.mill.nextId + 1 ∧
        u.act.g = s.act.g ∧ u.mem = s0.mem ∧ u.act.pc = s.act.pc + 8) ∧
    (rec_ % 64 = 0 → 2 ^ 16 ≤ w → s.ownCtr p (w % 2 ^ 16) = false → exec (.glaunch a b t) s = queueTrap s0 .perm (BitVec.ofNat 64 w)) ∧
    (s.ownCtr p k = false → exec (.dcset a b t) s = queueTrap s0 .perm (s.g a) ∧ exec (.dcdec a b t) s = queueTrap s0 .perm (s.g a)) ∧
    (s.ownCtr p k = true →
      exec (.dcset a b t) s = ends (s0.millAtomic.ctrSet k (min (s.g b).toNat (2 ^ 24 - 1))) ∧
      exec (.dcdec a b t) s = ends (if s.g b = 0 then s0.millAtomic else s0.millAtomic.ctrDec k (min (s.g b).toNat (2 ^ 24 - 1)))) ∧
    (s.ownCtr p k = true → (s.ctr k).st = .idle → s.mill.ctrs.rising →
      ∃ u, exec (.dcset a b t) s = .next u ∧ (u.ctr k).count = min (s.g b).toNat (2 ^ 24 - 1) ∧ (u.ctr k).st = .idle) ∧
    (rec_ % 128 ≠ 0 → exec (.nspawn a b t) s = queueTrap s0 .align (s.g a)) ∧
    (rec_ % 128 = 0 → ∀ bs u, s0.agentRead s.millDie p rec_ 128 = (.ok bs, u) →
      (nodeBad bs = true → s0.missing u = none → exec (.nspawn a b t) s = queueTrap u .illegal (s.g a)) ∧
      (nodeBad bs = false → u.gateTrap (s.g b) = none → (∀ j ∈ (nodeOf p rec_ bs).succ, u.ownCtr p j = true) →
        let v := u.spawn (nodeOf p rec_ bs) (wordCtr (s.g b))
        (s0.missing v = none → exec (.nspawn a b t) s = ends v) ∧
        (∀ line z, s0.missing v = some (line, z) → exec (.nspawn a b t) s = waitsAt z (.far line) (s.act.pc + 8)))) ∧
    (rec_ % 128 = 0 → ∀ e u line z, s0.agentRead s.millDie p rec_ 128 = (.error e, u) → s0.missing u = some (line, z) →
      exec (.nspawn a b t) s = waitsAt z (.far line) (s.act.pc + 8)) ∧
    (off % 8 = 0 → ∀ e u line z, s0.agentRead s.millDie p rec_ 64 = (.error e, u) → s0.missing u = some (line, z) →
      exec (.npatch a b c t) s = waitsAt z (.far line) (s.act.pc + 8)) ∧
    (off % 8 ≠ 0 → exec (.npatch a b c t) s = queueTrap s0 .align (s.g b)) ∧
    (off % 8 = 0 → ∀ bs u, s0.agentRead s.millDie p rec_ 64 = (.ok bs, u) → s0.missing u = none →
      ((graphOf bs).nn ≤ idx ∨ (graphOf bs).plen ≤ off → exec (.npatch a b c t) s = queueTrap u .perm (s.g b)) ∧
      (idx < (graphOf bs).nn → off < (graphOf bs).plen →
        ∀ v, u.patch ((graphOf bs).stage + idx * (graphOf bs).plen + off) rec_ (s.g c) = .ok () v → s0.missing v = none →
        exec (.npatch a b c t) s = ends v)))

/-- R304, R305, R307 to R311. -/
def Obligations.GroupsAndLeat : Prop :=
  ∀ (s : State) (tier : Tier) (d a : Reg) (t : Ctl), Ready s → s.act.streams = [] →
    let ends (u : State) : Out := continues u.queueDone (s.act.pc + 8)
    let p := s.pair (pairOf s.act.core)
    let waits (u : State) (w : Wait) : Out := waitsAt u w (s.act.pc + 8)
    let lost := (s.core (if s.act.core % 2 = 0 then s.act.core + 1 else s.act.core - 1)).lost
    let free := s.leatFree (pairOf s.act.core)
    let leat2 (i : Instr) : Prop := lost = true → exec i s = .next (s.takeTrap (Trap.posted .leat 2 0) (s.act.pc + 8))
    let n := s.vl * s.sew / 8
    (∀ x, s.node? s.act.node = some x → tierRank x.tier ≤ tierRank tier →
      exec (.gid tier d t) s = ends (s.setG d (BitVec.ofNat 16 1 ++ BitVec.ofNat 16 0 ++ BitVec.ofNat 16 x.members.length ++
        BitVec.ofNat 16 ((x.members.map (·.1)).idxOf s.act.sid)))) ∧
    (∀ x, s.node? s.act.node = some x → tierRank tier < tierRank x.tier →
      let us := ascending (x.members.map fun m => unitOf tier m.2)
      ∀ m, x.members.find? (fun m => m.1 == s.act.sid) = some m →
        let mine := x.members.filter fun k => unitOf tier k.2 == unitOf tier m.2
        exec (.gid tier d t) s = ends (s.setG d (BitVec.ofNat 16 us.length ++ BitVec.ofNat 16 (us.idxOf (unitOf tier m.2)) ++
          BitVec.ofNat 16 mine.length ++ BitVec.ofNat 16 ((mine.map (·.1)).idxOf s.act.sid)))) ∧
    (∀ x u, s.arriveSplit tier ((s.g a).toNat % 2 ^ 16) = (some x, u) →
      exec (.gsplit tier d a t) s = completes (u.setG d x).queueDone (s.act.pc + 8)) ∧
    (∀ u, s.arriveSplit tier ((s.g a).toNat % 2 ^ 16) = (none, u) →
      exec (.gsplit tier d a t) s = waits u (.split tier ((s.g a).toNat % 2 ^ 16))) ∧
    leat2 (.lput a t) ∧ leat2 (.lget d t) ∧ leat2 (.lfree d t) ∧
    free = 16 - (p.leat.length + s.leatReserved (pairOf s.act.core)) ∧
    (lost = false →
      (free = 0 → exec (.lput a t) s = waits s .lput) ∧
      (0 < free → exec (.lput a t) s = queueEnds
        (s.onPair (pairOf s.act.core) fun q => { q with leat := p.leat ++
          [{ data := lowBits (s.v a) (8 * n), len := n, fmt := s.fmt, ok := s.vok a, poison := false }] }) (s.act.pc + 8)) ∧
      (p.leat = [] → exec (.lget d t) s = waits s .lget) ∧
      (∀ e r, p.leat = e :: r → 256 * s.act.clusters < e.len →
        exec (.lget d t) s = .next (s.takeTrap (Trap.posted .leat 1 0) (s.act.pc + 8))) ∧
      (∀ e r, p.leat = e :: r → e.len ≤ 256 * s.act.clusters → e.poison = false →
        exec (.lget d t) s =
          ends (((s.onPair (pairOf s.act.core) fun q => { q with leat := r }).setV d e.data).setVok d e.ok)) ∧
      (∀ e r, p.leat = e :: r → e.len ≤ 256 * s.act.clusters → e.poison = true →
        ∃ u, exec (.lget d t) s = .next u ∧ u.act.csr.code = 0x0B ∧ (u.pair (pairOf s.act.core)).leat = r ∧ u.act.v = s.act.v) ∧
      exec (.lfree d t) s = ends (s.setG d (BitVec.ofNat 64 free)))

/-- R315 to R320. The messages to a far home and their answers, the order of the codes 4, 2 and 7, and that bari takes 7, are log entry
57; `far` is the strand with an answer of the home in `woke`: a mark in bit 40, 2·GEN below it, bit 0 where the object took the
request. `u` is the state in which the writes of the strand are performed at the tier. -/
def Obligations.Barriers : Prop :=
  ∀ (s : State) (tier : Tier) (i : BitVec 6) (b : Reg) (t : Ctl), Ready s →
    let ends (u : State) : Out := continues u.queueDone (s.act.pc + 8)
    let barrier (u : State) (n : Word) : Out := .next (u.takeTrap (Trap.posted .barrier n 0) (s.act.pc + 8))
    let unit := unitOf tier s.act.core
    let k := s.barrierOf tier i.toNat
    let x := s.barrier k
    let n := (s.g b).toNat
    let u := s.performAt (s.coreDie s.act.core) tier
    let here (e : Arrival) : Bool := e.tier == tier && e.unit == unit && e.idx == i.toNat
    let e : Arrival := { tier := tier, unit := unit, idx := i.toNat, gen := x.gen }
    let arrived : Barrier := if x.arr + 1 = x.n then { x with gen := x.gen + 1, arr := 0 } else { x with arr := x.arr + 1 }
    let moved := u.setBarrier k arrived
    let v := (if tier = .domain then moved.tellPhase i.toNat x.gen arrived.gen else moved).onAct fun a => { a with arrivals := a.arrivals ++ [e] }
    (s.ownsBarrier tier i.toNat = false →
      exec (.bari tier i b t) s = barrier s 4 ∧ exec (.barr tier i t) s = barrier s 4 ∧ exec (.barw tier i t) s = barrier s 4 ∧
      exec (.barrw tier i t) s = barrier s 4) ∧
    (s.ownsBarrier tier i.toNat = true → n = 0 ∨ barrierCap tier < n → exec (.bari tier i b t) s = barrier s 2) ∧
    (s.ownsBarrier tier i.toNat = true → s.homeLost tier = true →
      (0 < n → n ≤ barrierCap tier → exec (.bari tier i b t) s = barrier s 7) ∧ exec (.barr tier i t) s = barrier s 7 ∧
      exec (.barw tier i t) s = barrier s 7 ∧ exec (.barrw tier i t) s = barrier s 7) ∧
    (s.ownsBarrier tier i.toNat = true → s.homeLost tier = false → s.farBarrier tier = true →
      let asks (u : State) (op : BarOp) : Out :=
        waitsAt (u.tell s.barrierPkg (.barrier s.dom.pkg s.act.sid i.toNat op)) (.barHome i.toNat) (s.act.pc + 8)
      (0 < n → n ≤ barrierCap tier →
        exec (.bari tier i b t) s = asks s (.init n)) ∧
      (s.act.arrivals.any here = true → exec (.barr tier i t) s = barrier s 5 ∧ exec (.barrw tier i t) s = barrier s 5) ∧
      (s.act.arrivals.any here = false → 4 ≤ s.act.arrivals.length →
        exec (.barr tier i t) s = barrier s 6 ∧ exec (.barrw tier i t) s = barrier s 6) ∧
      (s.act.arrivals.any here = false → s.act.arrivals.length < 4 →
        exec (.barr tier i t) s = asks u .arrive ∧ exec (.barrw tier i t) s = asks u .arrive) ∧
      exec (.barw tier i t) s = asks s .look ∧
      ∀ w : Word, w.getLsbD 40 = true →
        let far : State := { s with act := { s.act with woke := some w } }
        let took := w.getLsbD 0
        let gen : BitVec 32 := w.extractLsb' 1 32
        (0 < n → n ≤ barrierCap tier →
          exec (.bari tier i b t) far = if took then ends s else barrier s 2) ∧
        (s.act.arrivals.any here = false → s.act.arrivals.length < 4 →
          let uf := (far.performAt (s.coreDie s.act.core) tier).onAct fun a => { a with woke := none }
          exec (.barr tier i t) far =
            if took then ends (uf.onAct fun a => { a with arrivals := a.arrivals ++ [{ e with gen := gen }] }) else barrier uf 1) ∧
        (s.act.arrivals.any here = false → exec (.barw tier i t) far = barrier s (if took then 3 else 1)) ∧
        (∀ y, s.act.arrivals.find? here = some y →
          (took = false → exec (.barw tier i t) far = barrier s 1) ∧
          (took = true → gen ≠ y.gen →
            exec (.barw tier i t) far = ends (s.onAct fun a => { a with arrivals := a.arrivals.erase y })) ∧
          (took = true → gen = y.gen → x.gen = y.gen →
            exec (.barw tier i t) far = waitsAt s (.barrier tier unit i.toNat y.gen) (s.act.pc + 8)) ∧
          (took = true → gen = y.gen → x.gen ≠ y.gen → exec (.barw tier i t) far = asks s .look))) ∧
    (s.ownsBarrier tier i.toNat = true → s.homeLost tier = false → s.farBarrier tier = false →
      (x.isOpen = true → 0 < x.arr → 0 < n → n ≤ barrierCap tier → exec (.bari tier i b t) s = barrier s 2) ∧
      (0 < n → n ≤ barrierCap tier → (x.isOpen = true → x.arr = 0) →
        let y : Barrier := { x with isOpen := true, n := n, arr := 0 }
        exec (.bari tier i b t) s = ends (if y = x then s else s.setBarrier k y)) ∧
      (s.act.arrivals.any here = true → exec (.barr tier i t) s = barrier s 5) ∧
      (s.act.arrivals.any here = false → 4 ≤ s.act.arrivals.length → exec (.barr tier i t) s = barrier s 6) ∧
      (s.act.arrivals.any here = false → s.act.arrivals.length < 4 → x.isOpen = false →
        exec (.barr tier i t) s = barrier u 1) ∧
      (s.act.arrivals.any here = false → s.act.arrivals.length < 4 → x.isOpen = true →
        exec (.barr tier i t) s = ends v ∧
        (x.arr + 1 = x.n → exec (.barrw tier i t) s =
          ends (v.onAct fun a => { a with arrivals := a.arrivals.erase e })) ∧
        (x.arr + 1 ≠ x.n → exec (.barrw tier i t) s =
          waitsAt v (.barrier tier unit i.toNat x.gen) (s.act.pc + 8))) ∧
      (x.isOpen = false → exec (.barw tier i t) s = barrier s 1) ∧
      (x.isOpen = true → s.act.arrivals.any here = false → exec (.barw tier i t) s = barrier s 3) ∧
      (x.isOpen = true → ∀ y, s.act.arrivals.find? here = some y →
        (x.gen = y.gen → exec (.barw tier i t) s = waitsAt s (.barrier tier unit i.toNat y.gen) (s.act.pc + 8)) ∧
        (x.gen ≠ y.gen → exec (.barw tier i t) s =
          ends (s.onAct fun a => { a with arrivals := a.arrivals.erase y }))))

/-- R203, R206 to R209; that a slot number at or above the slots of the class takes SLOT 4 is log entry 56, and that SLOT 4 goes before
ALIGN at mlds log entry 65. For an instruction that begins at its first byte (MPEND clear). -/
def Obligations.MatrixModesAndSlots : Prop :=
  ∀ (s : State) (op : Bool) (code : BitVec 2) (n : BitVec 6) (d a b : Reg) (t : Ctl), Ready s → s.act.csr.mpend = false →
    let mat := s.act.mat
    let pc := s.act.pc + 8
    let m := 8 * 2 ^ code.toNat
    let k := (s.g a).toNat
    let base := (s.g b).toNat
    let all := if s.act.core % 2 = 0 then 32 else 16
    let big : Prop := m = 64 ∧ s.act.core % 2 = 1
    let free (f : Nat) : Prop := f + n.toNat ≤ all ∧ ∀ i, i < n.toNat → mat.slots.get? (f + i) = none
    let slotTrap (i : Instr) (x : Nat) : Prop := exec i s = .next (s.takeTrap (matTrap .slot x 0) pc)
    let ends (i : Instr) (x : Matrix) : Prop := exec i s = continues { s with act := { s.act with mat := x } } pc
    (big → exec (.msmode op code t) s = traps s .illegal s.ir.1 pc) ∧
    (s.act.hdr.slots = 0 → (¬big → slotTrap (.msmode op code t) 8) ∧ slotTrap (.mclaim d n t) 8 ∧ slotTrap (.mrel a t) 8 ∧
      slotTrap (.mlds a b t) 8) ∧
    (s.act.hdr.slots ≠ 0 → mat.seq ≠ .suspended →
      (¬big → ends (.msmode op code t)
        (if m = mat.mvl then { mat with op := op, latch := none }
         else { mat with op := op, latch := none, mvl := m, z := Vector.replicate 4 0, tail := Vector.replicate 4 0,
                         isInt := Vector.replicate 4 0, row := Vector.replicate 4 0 })) ∧
      (all < n.toNat → slotTrap (.mclaim d n t) 2) ∧
      (n.toNat ≤ all → (s.act.hdr.slots < mat.slots.length + n.toNat ∨ ∀ f, ¬free f) → slotTrap (.mclaim d n t) 1) ∧
      (∀ f, mat.slots.length + n.toNat ≤ s.act.hdr.slots → free f → (∀ e, e < f → ¬free e) →
        ∃ x : NMap OpSlot, exec (.mclaim d n t) s =
            continues (({ s with act := { s.act with mat := { mat with slots := x } } }).setG d (BitVec.ofNat 64 f)) pc ∧
          (mat.slots.rising → ∀ j, x.get? j =
            if f ≤ j ∧ j < f + n.toNat then some { st := .empty, run := f, image := 0, poison := [] } else mat.slots.get? j)) ∧
      (mat.slots.get? k = none → slotTrap (.mrel a t) 4 ∧ slotTrap (.mlds a b t) 4) ∧
      ∀ x, mat.slots.get? k = some x →
        (x.run ≠ k → slotTrap (.mrel a t) 3) ∧
        (x.run = k → ∃ y : NMap OpSlot, ends (.mrel a t) { mat with slots := y } ∧
          (mat.slots.rising → ∀ j, y.get? j = (mat.slots.get? j).filter fun z => z.run != k)) ∧
        (base % 128 ≠ 0 → exec (.mlds a b t) s = .next (s.takeTrap (matTrap .align base 0) pc)) ∧
        (base % 128 = 0 →
          ∀ loc : Nat → Nat, (∀ l, l < 65 → (∃ lf, s.access ((base + 128 * l) % 2 ^ 64) (min 128 (8256 - 128 * l)) 1 .read false false =
              (.ok (.at_ (loc l) lf), s)) ∧ s.readSync (s.coreDie s.act.core) (loc l) = s) →
            ∃ u y, exec (.mlds a b t) s = .next u ∧ u.act.mat.slots.get? k = some y ∧ y.st = .filled ∧ y.run = x.run ∧
              (∀ g ∈ y.poison, 516 ≤ g) ∧
              (∀ j, j < 8256 → BitVec.ofNat 8 (lane y.image 8 j) = s.byteAt (s.coreDie s.act.core) (loc (j / 128) + j % 128)) ∧
              u.mem = s.mem ∧ u.act.g = s.act.g ∧ u.act.v = s.act.v ∧ u.act.csr = s.act.csr ∧ u.act.pc = pc))

/-- R217 and R224, for a holder with no stream bound and MPEND clear. -/
def Obligations.MatrixTiles : Prop :=
  ∀ (s : State) (d a : ZReg) (x b : Reg) (p : KReg) (t : Ctl), Ready s → s.act.csr.mpend = false → s.act.hdr.slots ≠ 0 →
    s.act.mat.seq ≠ .suspended →
    let mat := s.act.mat
    let pc := s.act.pc + 8
    let m := mat.mvl
    let n := min s.vl m
    let i := (s.g b).toNat
    let cell (r c : Nat) := lane (s.z a) 32 (cellAt r c)
    let rest (r c : Nat) := lane (s.tails a) 32 (cellAt r c)
    let merge (r c : Nat) : FRes := mergeCell (s.fmt == .i32) (cell r c) (rest r c)
    let tiles (j : Instr) (u : State) : Prop :=
      exec j s = .next u ∧
      u = { s with act := { s.act with pc := pc, mat := { mat with z := u.act.mat.z, tail := u.act.mat.tail,
                                                                   isInt := u.act.mat.isInt, row := u.act.mat.row } } } ∧
      ∀ e, e ≠ d → u.z e = s.z e ∧ u.tails e = s.tails e ∧ u.ints e = s.ints e ∧ u.cursor e = s.cursor e
    let reads (j : Instr) (l : List Reg) (f : Nat → Nat → Nat) (fl : FFlags) : Prop :=
      ∃ u, exec j s = .next u ∧
        u = { s with act := { s.act with pc := pc, v := u.act.v, vok := u.act.vok,
                                         csr := { s.act.csr with fflags := s.act.csr.fflags ||| fl } } } ∧
        (∀ r, r ∉ l → u.v r = s.v r ∧ u.vok r = s.vok r) ∧
        ∀ k r, l[k]? = some r → ∀ e, e < 512 →
          lane (u.v r) 32 e = if e < n then (if i < m then f k e else 0) % 2 ^ 32 else lane (s.v r) 32 e
    let sets (j : Instr) (f : Nat → Bool) : Prop :=
      ∃ y : BitVec 256, exec j s = continues (s.setK p y) pc ∧ ∀ q, q < 256 → y.getLsbD q = f q
    let real : Prop := s.fmt = .fp32 ∨ s.fmt = .i32
    (∃ u, tiles (.mzero d t) u ∧ u.z d = 0 ∧ u.tails d = 0 ∧ u.cursor d = 0) ∧
    (m ≤ 64 → ∃ u, tiles (.mtrs d a t) u ∧ u.cursor d = 0 ∧ ∀ r c, r < m → c < m →
      lane (u.z d) 32 (cellAt r c) = cell c r ∧ lane (u.tails d) 32 (cellAt r c) = rest c r) ∧
    (¬real → ∀ j, j ∈ [Instr.mwrz d x b t, .mrdzMerge x a b t, .mcol x a b t] → exec j s = traps s .typeCombo s.ir.1 pc) ∧
    (x.toNat = 31 → exec (.mrdzSplit x a b t) s = traps s .illegal s.ir.1 pc) ∧
    (x.toNat ≤ 30 → ¬real → exec (.mrdzSplit x a b t) s = traps s .typeCombo s.ir.1 pc) ∧
    (real → s.act.streams = [] → m ≤ 64 →
      (∃ u, tiles (.mwrz d x b t) u ∧ u.cursor d = s.cursor d ∧ ∀ r c, r < 64 → c < 64 →
        if r = i ∧ i < m ∧ c < n then
          lane (u.z d) 32 (cellAt r c) = lane (s.v x) 32 c ∧ lane (u.tails d) 32 (cellAt r c) = 0
        else
          lane (u.z d) 32 (cellAt r c) = lane (s.z d) 32 (cellAt r c) ∧
          lane (u.tails d) 32 (cellAt r c) = lane (s.tails d) 32 (cellAt r c)) ∧
      (x.toNat ≤ 30 → reads (.mrdzSplit x a b t) [x, x + 1] (fun k e => if k = 0 then cell i e else rest i e) 0) ∧
      reads (.mrdzMerge x a b t) [x] (fun _ e => (merge i e).bits)
        (if i < m then unionFlags ((List.range n).map fun e => (merge i e).flags) else 0) ∧
      reads (.mcol x a b t) [x] (fun _ e => (merge e i).bits)
        (if i < m then unionFlags ((List.range n).map fun e => (merge e i).flags) else 0)) ∧
    (real → (s.act.streams.get? x.toNat).isSome → exec (.mrdzMerge x a b t) s = .next (s.takeTrap (matTrap .stream 2 0) pc) ∧
      exec (.mcol x a b t) s = .next (s.takeTrap (matTrap .stream 2 0) pc) ∧
      (x.toNat ≤ 30 → exec (.mrdzSplit x a b t) s = .next (s.takeTrap (matTrap .stream 2 0) pc))) ∧
    (sets (.kset p b t) (fun q => (s.kr p).getLsbD q || q == i % 256) ∧
      sets (.kclr p b t) (fun q => (s.kr p).getLsbD q && q != i % 256) ∧
      exec (.ktst x p b t) s = continues (s.setG x (if (s.kr p).getLsbD (i % 256) then 1 else 0)) pc ∧
      (i % 32 ≠ 0 → exec (.kld p b t) s = .next (s.takeTrap (matTrap .align i 0) pc)) ∧
      ∀ loc lf, s.access i 32 32 .read false false = (.ok (.at_ loc lf), s) → s.readSync (s.coreDie s.act.core) loc = s →
        exec (.kld p b t) s = continues (s.setK p (BitVec.ofNat 256 (leNat (s.bytesAt (s.coreDie s.act.core) loc 32)))) pc)

/-- R210 to R214; slot numbers past the class are log entry 56, the levels of fidelity log entry 22; that the `tval` of POISON at mldw is free is
the model's choice (DESIGN CHOICE, log entry 61); the rail of a kernel of FID 0
and its events are log entry 33. For a holder with no stream bound and MPEND clear. -/
def Obligations.MatrixProducts : Prop :=
  ∀ (s : State) (d : ZReg) (a b : Reg) (fs : FmtSpec) (t : Ctl), Ready s → s.act.csr.mpend = false → s.act.hdr.slots ≠ 0 →
    s.act.mat.seq ≠ .suspended → s.act.streams = [] →
    let mat := s.act.mat
    let pc := s.act.pc + 8
    let m := mat.mvl
    let rows := s.vl / m
    let size := if s.act.csr.reproEn then 32 else if s.act.core % 2 = 0 then 8 else 4
    let slotTrap (i : Instr) (x : Nat) : Prop := exec i s = .next (s.takeTrap (matTrap .slot x 0) pc)
    let combo (i : Instr) : Prop := exec i s = traps s .typeCombo s.ir.1 pc
    let starts (n : Nat) : List Nat := (List.range ((n + size - 1) / size)).map (· * size)
    let add (int : Bool) (x : Nat) (l : List (MElem × MElem)) : Nat :=
      if int then (((x : Int) + l.foldl (fun (acc : Int) (p : MElem × MElem) => acc + p.1.i * p.2.i) 0) % 2 ^ 32).toNat
      else (chunkCell x l (sumDy (l.map prodDy))).bits % 2 ^ 32
    let result (i : Instr) (int np : Bool) (row : Nat) (chunks : Nat → Nat → List (List (MElem × MElem))) : Prop :=
      ∃ u, exec i s = .next u ∧
        u = { s with
          cores := u.cores, mill := u.mill, freeCount := u.freeCount, mgmt := u.mgmt
          act := { s.act with
            pc := pc, csr := { s.act.csr with fflags := u.act.csr.fflags }
            mat := { mat with z := u.act.mat.z, tail := u.act.mat.tail, isInt := u.act.mat.isInt, row := u.act.mat.row } } } ∧
        (∀ e, e ≠ d → u.z e = s.z e ∧ u.tails e = s.tails e ∧ u.cursor e = s.cursor e) ∧ u.cursor d = row ∧
        (np = false → u.cores = s.cores ∧ u.mill = s.mill ∧ u.freeCount = s.freeCount ∧ u.mgmt = s.mgmt) ∧ (int = true → u.tails d = s.tails d) ∧
        (np = false ∨ s.act.csr.fidHdr = 0 ∨ s.act.csr.reproEn = true → ∀ r c, r < m → c < m →
          lane (u.z d) 32 (cellAt r c) = (chunks r c).foldl (add int) (lane (s.z d) 32 (cellAt r c)))
    (fs.fmt ∉ [Fmt.np, .bf16, .fp16, .i8] → combo (.mldw a fs t)) ∧
    (fs.fmt ∈ [Fmt.np, .bf16, .fp16, .i8] →
      (mat.op = true → slotTrap (.mldw a fs t) 6) ∧
      (mat.op = false → mat.slots.get? (s.g a).toNat = none → slotTrap (.mldw a fs t) 4) ∧
      (mat.op = false → ∀ x, mat.slots.get? (s.g a).toNat = some x →
        (x.st ≠ .filled → slotTrap (.mldw a fs t) 5) ∧
        (x.st = .filled → x.poison ≠ [] → exec (.mldw a fs t) s = .next
          ({ s with freeCount := s.freeCount + 1 }.takeTrap (matTrap .poison (Config.free s.freeCount % 2 ^ 64) 0) pc)) ∧
        (x.st = .filled → x.poison = [] → exec (.mldw a fs t) s = continues
          { s with act := { s.act with mat := { mat with latch := some { fs := fs, image := x.image }, row := Vector.replicate 4 0 } } }
          pc))) ∧
    (fs.fmt ≠ s.fmt → combo (.mstrm d a fs t)) ∧
    (s.fmt ≠ .np → s.vl % m ≠ 0 → combo (.mstrm d a fs t) ∧ combo (.mxprod d a b t)) ∧
    (s.fmt ∉ [Fmt.np, .fp32, .bf16, .fp16, .i8] → combo (.mxprod d a b t)) ∧
    (s.fmt = .np → a.toNat = 31 → exec (.mxprod d a b t) s = traps s .illegal s.ir.1 pc ∧
      (fs.fmt = .np → exec (.mstrm d a fs t) s = traps s .illegal s.ir.1 pc)) ∧
    (fs.fmt = s.fmt → (fs.fmt = .np → fs.km1.toNat + 1 = s.npk ∧ a.toNat ≤ 30) → s.vl = 0 →
      (match mat.latch with | some w => wsCombo w.fs.fmt fs.fmt | none => fs.fmt ∈ [Fmt.np, .bf16, .fp16, .i8]) →
      exec (.mstrm d a fs t) s = continues s pc) ∧
    (s.fmt ∈ [Fmt.np, .fp32, .bf16, .fp16, .i8] → (s.fmt = .np → a.toNat ≤ 30 ∧ b.toNat ≤ 30) → s.vl = 0 →
      exec (.mxprod d a b t) s = continues s pc) ∧
    (fs.fmt = s.fmt → (fs.fmt = .np → fs.km1.toNat + 1 = s.npk ∧ a.toNat ≤ 30) → s.vl % m = 0 → s.vl ≠ 0 → 0 < m → m ≤ 64 →
      (mat.latch = none → fs.fmt ∈ [Fmt.np, .bf16, .fp16, .i8] →
        slotTrap (.mstrm d a fs t) (if mat.op then 6 else 7)) ∧
      ∀ w, mat.latch = some w →
        (wsCombo w.fs.fmt fs.fmt = false → combo (.mstrm d a fs t)) ∧
        (wsCombo w.fs.fmt fs.fmt = true → mat.op = true → slotTrap (.mstrm d a fs t) 6) ∧
        (wsCombo w.fs.fmt fs.fmt = true → mat.op = false →
          result (.mstrm d a fs t) (fs.fmt == .i8) (w.fs.fmt == .np && fs.fmt == .np) ((s.cursor d + rows) % m)
            (fun r c => ((List.range rows).filter fun q => (s.cursor d + q) % m == r).flatMap fun q => (starts m).map fun k =>
              (List.range (min size (m - k))).map fun i => (w.elem m (k + i) c, s.srcM a (q * m + k + i))))) ∧
    (s.fmt ∈ [Fmt.np, .fp32, .bf16, .fp16, .i8] → (s.fmt = .np → a.toNat ≤ 30 ∧ b.toNat ≤ 30) → s.vl % m = 0 → s.vl ≠ 0 → 0 < m → m ≤ 64 →
      (mat.op = false → slotTrap (.mxprod d a b t) 6) ∧
      (mat.op = true →
        result (.mxprod d a b t) (s.fmt == .i8) (s.fmt == .np) (s.cursor d)
          (fun r c => (starts rows).map fun p => (List.range (min size (rows - p))).map fun i =>
            (s.srcM a ((p + i) * m + r), s.srcM b ((p + i) * m + c)))))

/-- R218 to R223, for a holder and MPEND clear; `s1` is the state after the record is read. One word of a replay a step is the
model's choice (log entry 19), and so is which code a bad record takes, and when msts.cmp raises the flags of its conversion (log
entry 65). -/
def Obligations.TileStoresAndSequencer : Prop :=
  ∀ (s : State) (a c : Reg) (b : ZReg) (k : KReg) (t : Ctl), Ready s → s.act.csr.mpend = false → s.act.hdr.slots ≠ 0 →
    let mat := s.act.mat
    let pc := s.act.pc + 8
    let va := (s.g c).toNat
    let matOf (u : State) (e : Cause) (x : Nat) : Out := .next (u.takeTrap (matTrap e x 0) pc)
    let at_ := (s.g a).toNat
    let stores : List Instr := [.msts a b c t, .mstsCmp a b c t, .mstsCmpTrap a b c t]
    let ends (i : Instr) (u : State) : Prop := exec i s = .next (u.done s.act.g pc)
    (mat.seq ≠ .suspended →
      (∀ i ∈ stores, va % 64 ≠ 0 → exec i s = matOf s .align va) ∧
      (va % 64 = 0 → ∀ bs s1, s.elemRead .read va 64 64 .plain false = (.ok bs, s1) →
        (storeRec s1.mvl s1.rmode bs = none → exec (.msts a b c t) s = matOf s1 .illegal va) ∧
        ∀ x, storeRec s1.mvl s1.rmode bs = some x →
          ∀ u, State.storeRows (s.g a).toNat b x (List.range x.rows) s1 = .ok () u → ends (.msts a b c t) u.matDone) ∧
      (va % 64 = 0 → ∀ l s1, s.access va 64 64 .atomic false false = (.ok l, s1) → s1.far l.addr = true →
        let die := s1.coreDie s1.act.core
        let u := s1.closeBatch die
        let tag := u.links.nextMsg
        let home := homeDie l.addr
        let asks (i : Instr) (traps : Bool) : Prop :=
          let v := u.sendMsg die home (.atomic home die l.addr 64 (.record s.mvl s.rmode (s.imageSizes b) traps) (u.dieAt die).vec tag)
          exec i s = waitsAt (v.onErrand (some { tag := tag, home := home, answer := none })) (.home home tag) pc
        asks (.mstsCmp a b c t) false ∧ asks (.mstsCmpTrap a b c t) true) ∧
      (va % 64 = 0 → ∀ l s1, s.access va 64 64 .atomic false false = (.ok l, s1) → s1.far l.addr = false →
        let s2 := s1.atomicSync (s1.coreDie s1.act.core) l.addr
        let new := storeRec s2.mvl s2.rmode (s2.bytesAt (homeDie l.addr) l.addr 64)
        let put (x : StoreRec) (next fail : Nat) (f : FFlags) : State :=
          (s2.atomicWrite (s2.coreDie s2.act.core) (quadOf s2.act.core) (l.addr + 16)
            (leBytes 8 next ++ leBytes 8 x.limit ++ leBytes 8 (x.tcnt + 1) ++ leBytes 8 fail)).raise f
        (new = none → exec (.mstsCmp a b c t) s = matOf s2 .illegal va ∧ exec (.mstsCmpTrap a b c t) s = matOf s2 .illegal va) ∧
        ∀ x, new = some x →
          let img := s2.tileImage b x.fmt x.mode
          let n := img.1.length
          (x.fail.testBit 63 = true ∨ x.limit < x.next + n →
            exec (.mstsCmpTrap a b c t) s = matOf s2 .cmpFull n ∧
            ends (.mstsCmp a b c t)
              (put x x.next (if x.fail.testBit 63 then x.fail else 2 ^ 63 + n % 2 ^ 31 * 2 ^ 32 + x.tcnt % 2 ^ 32) img.2).matDone) ∧
          (x.fail.testBit 63 = false → x.next + n ≤ x.limit →
            ∀ u, ((put x (x.next + n) x.fail img.2).reservedAt (some (x.next, packStore x.fmt x.mode))).writeImage
                a b x.next x.fmt x.mode 0 = .ok () u →
              ends (.mstsCmp a b c t) u.matDone ∧ ends (.mstsCmpTrap a b c t) u.matDone)) ∧
      ((at_ % 64 ≠ 0 → exec (.seqdef a t) s = matOf s .align at_) ∧
        (at_ % 64 = 0 → ∀ bs s1, State.readPieces at_ 12 s = (.ok bs, s1) →
          (∀ x, seqBad bs = some x → exec (.seqdef a t) s = matOf s1 .seq x) ∧
          (seqBad bs = none → ends (.seqdef a t)
            { s1 with act := { s1.act with mat := { s1.act.mat with seq := .defined, seqRec := bs } } }.matDone)))) ∧
    (mat.seq = .empty → exec (.seqrun k t) s = matOf s .seq 1) ∧
    (mat.seq = .suspended → exec (.seqrun k t) s = matOf s .seq 2) ∧
    (mat.seq = .defined →
      let r := mat.seqRec
      let nl := recNat r 1 1
      let zero := List.replicate nl 0
      (((List.range nl).any fun l => seqCount r l == 0) = true → exec (.seqrun k t) s = continues s pc) ∧
      (((List.range nl).any fun l => seqCount r l == 0) = false → ∀ op, seqOp (seqWordAt r 0) = some op →
        seqSkip r zero (s.kr k) 0 = false →
        ∀ u, State.seqExec { s with ir := (seqWordAt r 0, none), act := { s.act with g := seqG r zero s.act.g } } op = .ok () u →
          let v : State := { u with ir := s.ir, act := { u.act with g := s.act.g } }
          let goesOn (x : State) : Prop := exec (.seqrun k t) s = .next (x.stall s.act.g pc .pause)
          (1 < recNat r 0 1 → goesOn (v.seqAt zero 1 0)) ∧
          (recNat r 0 1 ≤ 1 → match nextVec zero ((List.range nl).map (seqCount r)) with
            | some j => goesOn (v.seqAt j 0 0)
            | none => ends (.seqrun k t) v.seqEnd)))

/-- R225 to R228. That an implicit guard of an arm or a loop keeps an element out is read from R56 and R151 (log entry 15). -/
def Obligations.OptimiserAndSparsity : Prop :=
  ∀ (s : State) (a b c e : Reg) (d : MReg) (n : BitVec 4) (t : Ctl), Fresh s → s.act.streams = [] →
    let pc := s.act.pc + 8
    let opt (i : Instr) (k : Opt) : Prop :=
      (s.fmt ≠ .fp32 → exec i s = traps s .typeCombo s.ir.1 pc) ∧
      (s.fmt = .fp32 → s.actives t = [] → exec i s = queueEnds s pc) ∧
      (s.fmt = .fp32 → s.actives t ≠ [] →
        (∀ x va s1, s.optOpen a e = (.bad x va, s1) →
          exec i s = .next (s1.takeTrap (Trap.posted x (BitVec.ofNat 64 va) 0) pc)) ∧
        ∀ tn par s1, s.optOpen a e = (.ok (tn, par), s1) →
          ∀ u, State.optBlocks { k := k, t := tn, par := par, grad := b, state := (s.g c).toNat, act := s.actives t } none
              (blocksOf s.vl (s.actives t)) none [] s1 = .ok () u →
            exec i s = queueEnds u pc)
    let key (i : Nat) := lane (s.v a) 16 i
    let better (i j : Nat) : Prop := j / 8 = i / 8 ∧ s.active t j = true ∧ (key i < key j ∨ key i = key j ∧ j < i)
    opt (.voptSgd a b c e t) .sgd ∧ opt (.voptMsgd a b c e t) .msgd ∧ opt (.voptAdam a b c e t) .adam ∧
    elementwise s (.vsal a b c t) (s.fmt == .bf16) t a [b, c] pc (fun i => plainRes (saliency (lane (s.v b) 16 i) (lane (s.v c) 16 i))) ∧
    (s.fmt ≠ .bf16 → exec (.vnms d a n t) s = traps s .typeCombo s.ir.1 pc) ∧
    (s.fmt = .bf16 → d ≠ 0 → ∃ u, exec (.vnms d a n t) s = .next u ∧ VectorFrame s u pc ∧ u.act.v = s.act.v ∧
      u.act.vok = s.act.vok ∧ u.act.w = s.act.w ∧ u.act.csr.fflags = s.act.csr.fflags ∧ (∀ r, r ≠ d → u.m r = s.m r) ∧
      ∀ i, i < 2048 →
        (s.active t i = false → (u.m d).getLsbD i = (s.m d).getLsbD i) ∧
        (s.active t i = true → ((u.m d).getLsbD i = true ↔
          ∀ l : List Nat, l.Nodup → (∀ j ∈ l, better i j) → l.length < n.toNat)))

/-- R238, R250 to R252. The order in which the traps of one instruction are looked for (QUERY 5, ALIGN, QUERY 1 to 4, PERM) is the model's
(log entry 20). -/
def Obligations.Queries : Prop :=
  ∀ (s : State) (d a b c : Reg) (t : Ctl), Ready s →
    let pc := s.act.pc + 8
    let key (x : Nat) := 16 * (s.act.core / 8) + 4 * (s.act.core / 2 % 4) + x % 4
    let trap (i : Instr) (e : Cause) (v : Nat) : Prop := exec i s = .next (s.takeTrap (Trap.posted e (BitVec.ofNat 64 v) 0) pc)
    let ends (i : Instr) (u : State) : Prop := exec i s = continues u.queueDone pc
    let x := (s.g a).toNat
    let y := (s.g b).toNat
    let z := (s.g c).toNat
    let ctx (k : Nat) := s.queries.get? k
    let other (i : Instr) (k : Nat) : Prop := ∀ q, ctx k = some q →
      (q.sid ≠ s.act.sid → trap i .query 1) ∧ (q.sid = s.act.sid → q.st ≠ .building → trap i .query 3)
    let mine (k : Nat) (q : QCtx) : Prop :=
      (ctx k = some q ∧ q.sid = s.act.sid ∧ q.st = .building) ∨
      (ctx k = none ∧ q = { st := .building, sid := s.act.sid, part := s.act.part, core := s.act.core, terms := [], vec := none, area := 0,
                            k := 0, ctr := none, epc := 0, order := 0, err := 0, errAddr := 0, count := 0, lines := [], saved := [], unsaved := false })
    let sets (k : Nat) (q : QCtx) : State := { s with queries := NMap.set k q s.queries }
    (s.act.core % 2 = 0 → ∀ i, i ∈ [Instr.qterm a b c t, .qvec a b c t, .qexec a b t, .qstat d a t] →
      exec i s = traps s .illegal s.ir.1 pc) ∧
    (s.act.core % 2 = 1 →
      (4 ≤ x ∨ 3 * 2 ^ 16 ≤ z → trap (.qterm a b c t) .query 5) ∧
      (x < 4 → z < 3 * 2 ^ 16 → y % 128 ≠ 0 → trap (.qterm a b c t) .align y) ∧
      (x < 4 → z < 3 * 2 ^ 16 → y % 128 = 0 → other (.qterm a b c t) (key x) ∧ ∀ q, mine (key x) q →
        (16 ≤ q.terms.length → trap (.qterm a b c t) .query 2) ∧
        (q.terms.length < 16 → ∀ r, roleOf (z / 2 ^ 16) = some r → ends (.qterm a b c t)
          (sets (key x) { q with terms := q.terms ++ [{ list := y, weight := z % 2 ^ 16, role := r }] }))) ∧
      (4 ≤ x ∨ 2 ^ 32 ≤ z → trap (.qvec a b c t) .query 5) ∧
      (x < 4 → z < 2 ^ 32 → y % 64 ≠ 0 → trap (.qvec a b c t) .align y) ∧
      (x < 4 → z < 2 ^ 32 → y % 64 = 0 → other (.qvec a b c t) (key x) ∧ ∀ q, mine (key x) q →
        ends (.qvec a b c t)
          (sets (key x) { q with vec := some { recAddr := y, alpha := z % 2 ^ 16, beta := z / 2 ^ 16, read := none } })) ∧
      (2 ^ 28 ≤ y ∨ (s.g b).getLsbD 17 = true → trap (.qexec a b t) .query 5) ∧
      (y < 2 ^ 28 → (s.g b).getLsbD 17 = false → x % 128 ≠ 0 → trap (.qexec a b t) .align x) ∧
      (y < 2 ^ 28 → (s.g b).getLsbD 17 = false → x % 128 = 0 →
        (ctx (key (y / 2 ^ 18)) = none → trap (.qexec a b t) .query 4) ∧ other (.qexec a b t) (key (y / 2 ^ 18)) ∧
        ∀ q, ctx (key (y / 2 ^ 18)) = some q → q.sid = s.act.sid → q.st = .building →
          (q.terms = [] → q.vec = none → trap (.qexec a b t) .query 4) ∧
          let older : Prop := ∃ o ∈ s.engines, o.2.sid = s.act.sid ∧ o.2.st = .posted
          (q.terms ≠ [] ∨ q.vec ≠ none → older → exec (.qexec a b t) s = waitsAt s .issue pc) ∧
          (q.terms ≠ [] ∨ q.vec ≠ none → ¬older →
            ((s.g b).getLsbD 16 = true → s.ownCtr s.act.part (y % 2 ^ 16) = false → trap (.qexec a b t) .perm (y % 2 ^ 17)) ∧
            (((s.g b).getLsbD 16 = true → s.ownCtr s.act.part (y % 2 ^ 16) = true) →
              ∃ u, exec (.qexec a b t) s = .next u ∧ u.act.g = s.act.g ∧ u.act.pc = pc ∧
                u.queries = NMap.set (key (y / 2 ^ 18)) { q with
                  st := .queued, area := x, k := y / 2 ^ 20 % 2 ^ 8 + 1
                  ctr := if (s.g b).getLsbD 16 then some (y % 2 ^ 16) else none, epc := s.act.pc, order := s.nextOp } s.queries))) ∧
      (4 ≤ x % 256 ∨ 512 ≤ x → trap (.qstat d a t) .query 5) ∧
      (x % 256 < 4 → x < 512 →
        (ctx (key x) = none → ends (.qstat d a t) (s.setG d 0)) ∧
        ∀ q, ctx (key x) = some q →
          let own := q.sid == s.act.sid
          let u := s.setG d (q.status own)
          (x < 256 ∨ own = false ∨ (q.st ≠ .done ∧ q.st ≠ .failed) → ends (.qstat d a t) u) ∧
          (256 ≤ x → own = true → q.st = .done ∨ q.st = .failed →
            ends (.qstat d a t) { u with queries := NMap.del (key x) s.queries })))

/-- R181, R193, R201, R251, R274, R297, R305, R308, R309, R320, R370. What a posted instruction waits for stands in `wait`, what the
scalar part waits for in `hold`; a scalar part that waits for posted work (`queue`) goes on when that work is woken (R58). That a strand
waits for the home of a barrier object of the domain, and goes on where that home is lost, is the model's (log entry 57), as is that one
whose partition has used its budget waits (log entry 36), and what runs, and waits, behind a waiting `barw` (log entry 2). -/
def Obligations.WaitsEnd : Prop :=
  (∀ (s : State) (tier : Tier) (d a : Reg) (t : Ctl) (r : Word), s.act.woke = some r →
    exec (.gsplit tier d a t) s = .next ((s.setG d r).queueDone.done s.act.g (s.act.pc + 8))) ∧
  (∀ (s : State) (x : Split), s.mill.splits.find? (fun x => s.roundComplete (s.splitMembers x) x) = some x →
    (x.arrived.map (·.1)).Nodup →
    ∃ u, exec .gsplitRoundComplete s = .next u ∧ u.mill.splits = s.mill.splits.erase x ∧ u.mem = s.mem ∧
      ∀ k ∈ x.arrived, ∀ b c, s.strand? k.1 = some b → b.wait = some (.split x.tier c) →
        ∃ v, u.strand? k.1 = some v ∧ v.wait = none ∧ v.woke = some (splitResult x k) ∧ v.g = b.g ∧ v.pc = b.pc) ∧
  ∀ (s : State) (sid : Nat) (a : Strand), s.strand? sid = some a → a.life = .running →
    let woken : Strand := { a with wait := none, hold := none, woke := some 0 }
    let to_ (i : Instr) (b : Strand) : Prop :=
      ∃ u, exec i s = .next u ∧ u.mem = s.mem ∧ u.strand? sid = some b ∧ ∀ k, k ≠ sid → u.strand? k = s.strand? k
    let ends (i : Instr) (c : Bool) : Prop := to_ i (if c then woken else a)
    let times (i : Instr) (left : Nat) : Prop :=
      ∃ u n, exec i s = .next u ∧ u.strand? sid = some woken ∧ u.mem = s.mem ∧
        (u.core a.core).cyc = (s.core a.core).cyc + BitVec.ofNat 64 (left + n)
    let lost := (s.core (if a.core % 2 = 0 then a.core + 1 else a.core - 1)).lost
    ((∀ q ∈ a.posted, q.wait = none) → a.hold = none ∨ a.hold = some .queue →
      (∀ n, a.wait = some (.sleep n) → times (.sleepExpiry sid) n) ∧
      (∀ x old n, a.wait = some (.waitt x old n) →
        (s.watched a.core x ≠ old → to_ (.waittEnd sid) woken) ∧ (s.watched a.core x = old → times (.waittEnd sid) n)) ∧
      (a.wait = some .lput → ends (.leatSlotFreed sid) (decide (0 < s.leatFree (a.core / 2)) || lost)) ∧
      (a.wait = some .lget → ends (.leatEntryArrives sid) (!(s.pair (a.core / 2)).leat.isEmpty || lost)) ∧
      (∀ x full, a.wait = some (.fe x full) → ends (.feWaitSatisfied sid) (s.isFull x == full)) ∧
      (∀ tier unit i gen, a.wait = some (.barrier tier unit i gen) →
        ends (.barrierRelease sid) ((s.barrier (barrierKey tier unit i)).gen != gen || s.homeLost tier)) ∧
      (∀ i, a.wait = some (.barHome i) → ends (.barrierRelease sid) (s.homeLost .domain)) ∧
      (∀ pair gate, a.wait = some (.pgate pair gate) → ends (.pgateWaitEnd sid)
        ((s.core (2 * pair + 1)).lost || (if gate then (s.pair pair).gate == .gated else (s.pair pair).gate == .on))) ∧
      (a.wait = some .engine →
        ends (.postStallResume sid) (decide ((s.engines.filter fun o => o.2.core == a.core).length < 16))) ∧
      (a.wait = some .issue →
        ends (.postStallResume sid) (s.engines.all fun o => !(o.2.sid == a.sid && o.2.st == .posted))) ∧
      (a.wait = some .budget → ends (.postStallResume sid)
        (decide (s.mill.used.getD a.part 0 < 4 * (s.millRec a.part).schedBud))) ∧
      (∀ sel, a.wait = some (.ewait sel) → ends (.ewaitRetire sid) ((s.watches sid sel).all (·.ended))) ∧
      ∀ line, a.wait = some (.snoop line) → ∃ u, exec (.bisnpResponse line) s = .next u ∧
        u.dom = { s.dom with hostLines := NSet.del line s.dom.hostLines } ∧ u.strand? sid = some woken) ∧
    ((∀ q ∈ a.posted, q.wait = none) → a.wait = none →
      (∀ x full, a.hold = some (.fe x full) →
        to_ (.feWaitSatisfied sid) (if s.isFull x = full then { a with hold := none } else a)) ∧
      (a.hold = some .engine → to_ (.postStallResume sid)
        (if (s.engines.filter fun o => o.2.core == a.core).length < 16 then { a with hold := none } else a))) ∧
    ∀ (k : Nat) (q : Posted), a.posted[k]? = some q → (∀ j p, j ≠ k → a.posted[j]? = some p → p.wait = none) →
      (∀ w, a.wait = some w ∨ a.hold = some w → w = .queue ∨ (∃ i, w = .barHome i) ∨ ∃ tier unit i gen, w = .barrier tier unit i gen) →
      let after (c : Bool) : Strand := if c then { a with posted := a.posted.set k { q with wait := none, woke := some 0 } } else a
      (q.wait = some .lput → to_ (.leatSlotFreed sid) (after (decide (0 < s.leatFree (a.core / 2)) || lost))) ∧
      (q.wait = some .lget → to_ (.leatEntryArrives sid) (after (!(s.pair (a.core / 2)).leat.isEmpty || lost))) ∧
      ∀ x full, q.wait = some (.fe x full) → to_ (.feWaitSatisfied sid) (after (s.isFull x == full))

/-- R191 to R200, R248, R249, R262, R376 to R378, R420. An operation whose strand has ended is not kept. What goes in a block, that
participants with other element formats disagree, and a write to a line that the host holds waits (R370) are log entries 21 and 35; that a
scatter of small elements is held until its list is translated is log entry 70, that the lines of another package's home are asked for log
entry 24; that a
query which cannot write its header yet keeps its error is log entry 20. -/
def Obligations.EngineAndQueryEvents : Prop :=
  (∀ (s : State) (k u : Nat) (e : EngOp), s.op? k = some e →
    let runs (i : Instr) : Prop := exec i s = .next (s.setOp k { e with st := .running })
    (e.st = .posted →
      (∀ dst src len, e.job = .cpy dst src len → len.getLsbD 63 = false → runs (.engineIssue k)) ∧
      (∀ dst src idx sz n, e.job = .gath dst src idx sz n ∨ e.job = .scat dst src idx sz n → runs (.engineIssue k)) ∧
      ∀ kind f dst src len rank p tag g c, e.job = .coll kind f dst src len rank p tag g c →
        (∀ o ∈ s.engines, (o.2.st = .running ∨ o.2.st = .suspended) → ∀ kind f dst src len own p g c,
          o.2.job = .coll kind f dst src len own p tag g c → c = true ∧ o.2.senders.get? rank = none) →
        (64 ≤ (s.collsOf e.core).length → exec (.engineIssue k) s = .next (s.setOp k e)) ∧
        ((s.collsOf e.core).length < 64 → rank < p → s.links.badTags.getD tag 0 = 0 →
          exec (.engineIssue k) s = .next (s.setOp k { e with
            st := .running, job := .coll kind f dst src len rank p tag k (p == 1) }))) ∧
    (e.st = .running →
      (∀ e' t, s.opMove e u = .put e' t → exec (.engineDone k u) s = .next (t.setOp k e')) ∧
      (∀ t, s.opMove e u = .ask t → exec (.engineDone k u) s = .next t) ∧
      (s.opMove e u = .finish → s.gone e.sid = false →
        ∃ t, exec (.engineDone k u) s = .next t ∧ t.op? k = some { e with st := .done }) ∧
      (∀ va, s.opMove e u = .bad .dataXlt va → ∃ t, exec (.engineSuspend k u) s = .next t ∧ t.mem = s.mem ∧ t.act = s.act ∧
        t.op? k = some { e with st := .suspended, cause := 0x08, tval := BitVec.ofNat 64 va } ∧
        t.mill.faults.length = s.mill.faults.length + 1) ∧
      (∀ c va, s.opMove e u = .bad c va → c ≠ .dataXlt → s.gone e.sid = false → ∃ t, exec (.engineFail k u) s = .next t ∧
        t.op? k = some { e with st := .failed, out := [], cause := c.code, tval := BitVec.ofNat 64 va } ∧
        t.mill.faults.length = s.mill.faults.length + 1) ∧
      (∀ dst src idx sz n, e.job = .gath dst src idx sz n ∨ e.job = .scat dst src idx sz n →
        (∀ d o g m l v, .listReq d k o g m l v ∉ s.links.inbox) →
        ∃ t e', exec (.gatherSubrequest k) s = .next t ∧ t.op? k = some e' ∧ e'.job = e.job ∧ e.sent ≤ e'.sent ∧
          e'.sent ≤ e.sent + 64 ∧ t.act = s.act) ∧
      ∀ kind f dst src len own p tag g c, e.job = .coll kind f dst src len own p tag g c → own < p →
        ((∀ m ∈ s.links.inbox, m.block? = none) → e.own = none →
          ∀ bs t, s.engRead e.core e.part src (collNeed kind len p) = (.ok bs, t) →
            ∃ v e', exec (.collBlock k own) s = .next v ∧ v.op? k = some e' ∧ e'.own = some bs ∧
              e'.got = NMap.set own (collShare kind len p own bs) e.got ∧ e'.st = .running) ∧
        ∀ from_ f' p' len' rank data r, s.links.inbox = .block from_ kind f' p' len' tag rank own false data :: r →
          (∀ m ∈ r, m.block? = none) → rank < p → rank ≠ own →
          (∀ o ∈ s.engines, (o.2.st = .running ∨ o.2.st = .suspended) → ∀ kind f dst src len p t c, o.2.job ≠ .coll kind f dst src len rank p t g c) →
          (NSet.has from_ s.dom.lost = false → f' = f → p' = p → len' = len → e.senders.get? rank = none → e.got.get? rank = none →
            data.length = (if kind = .ar then partLen len p own else len) →
            ∃ v e', exec (.collBlock k rank) s = .next v ∧ v.op? k = some e' ∧ e'.got = NMap.set rank data e.got ∧
              v.links.inbox = r ∧ v.mem = s.mem) ∧
          (p' = 0 ∨ NSet.has from_ s.dom.lost = true ∨ (∃ j, e.senders.get? rank = some j ∧ j ≠ from_) ∨ (e.senders.get? rank = none ∧ (f' ≠ f ∨ p' ≠ p ∨ len' ≠ len)) → s.engines.rising → s.gone e.sid = false →
            ∃ v e', exec (.collBlock k rank) s = .next v ∧ v.op? k = some e' ∧ e'.st = .failed ∧
              e'.cause = Cause.peer.code ∧ e'.tval = BitVec.ofNat 64 tag)) ∧
    (e.st = .running ∨ e.st = .suspended → ∀ owner r dst src idx sz n, e.out.find? (fun r => r.owner == owner) = some r →
      e.job = .gath dst src idx sz n ∨ e.job = .scat dst src idx sz n → owner / 8 = s.dom.pkg →
      let m : Nat := 2 ^ sz
      let gathers : Bool := match e.job with | .gath _ _ _ _ _ => true | _ => false
      let near (x : ReqElem) : Nat × Nat := if m < 16 then (x.dst / 16 * 16, 16) else (x.dst, m)
      let clear (x : ReqElem) : Prop := s.away x.src = false ∧ s.away x.dst = false ∧ x.dst % m = 0 ∧ x.idx < n ∧
        s.lent (near x).1 (near x).2 = false ∧ s.poisonHit (near x).1 (near x).2 false = false ∧
        (gathers = true → s.poisonHit x.src m false = false)
      let whole : Prop := gathers = true ∨ 16 ≤ m ∨ n ≤ e.sent
      (¬whole → exec (.gatherReply k owner) s = .next s) ∧
      (whole → (∀ x ∈ r.elems, clear x) → (∀ b ∈ e.got, b.2.length = m) → ∃ t e', exec (.gatherReply k owner) s = .next t ∧ t.op? k = some e' ∧
        e'.out = e.out.erase r ∧ e'.st = e.st ∧ e'.job = e.job ∧ e'.sent = e.sent ∧ t.act = s.act) ∧
      ∀ x l, r.elems = x :: l → whole → s.away x.src = false → s.away x.dst = false → s.gone e.sid = false →
        (if gathers then s.poisonHit x.src m false = true else m < 16 ∧ s.poisonHit x.dst m false = true) →
        ∃ t e', exec (.gatherReply k owner) s = .next t ∧ t.op? k = some e' ∧ e'.st = .failed ∧
          e'.cause = Cause.poison.code ∧ e'.tval = BitVec.ofNat 64 (if gathers then x.srcVa else x.dstVa))) ∧
  (∀ (s : State) (sid granule : Nat) (r : Reg) (a : Strand) (q : Stream), s.strand? sid = some a → a.life = .running →
    a.streams.get? r.toNat = some q →
    let va := q.base / 128 * 128 + 16 * granule
    ∀ f s1, s.leafOf a.core a.part .read q.base = (.ok f, s1) → f.pl = 0 →
    va < q.base + q.len → q.ahead.get? va = none → ∀ bs t, s.engRead a.core a.part va 16 = (.ok bs, t) →
      ∃ v b p, exec (.streamRefill sid r granule) s = .next v ∧ v.strand? sid = some b ∧ b.streams.get? r.toNat = some p ∧
        p.pos = q.pos ∧ p.base = q.base ∧ p.len = q.len ∧ (∀ i, i < bs.length → p.ahead.get? (va + i) = bs[i]?) ∧ b.g = a.g ∧ b.v = a.v) ∧
  ∀ (s : State) (quad c : Nat) (x : QCtx), s.queries.get? (16 * quad + c) = some x →
    let k := 16 * quad + c
    (c < 16 → x.st = .queued → s.queries.rising → (∀ q ∈ s.quadCtxs quad .saved, q.2.unsaved = false) → s.quadCtxs quad .queued = [(k, x)] → (s.quadCtxs quad .running).length < 4 →
      ∃ t y, exec (.queryStart quad) s = .next t ∧ t.queries.get? k = some y ∧ y.st = .running ∧ y.terms = x.terms) ∧
    (x.st = .running →
      (∀ y t, s.qFinish k x = (.ok y, t) → t.gone y.sid = false →
        ∃ v, exec (.queryDone quad c) s = .next v ∧ v.queries.get? k = some y ∧ y.st = .done) ∧
      (∀ va t, s.qFinish k x = (.error (.suspend va), t) → ∃ v, exec (.querySuspend quad c) s = .next v ∧
        v.queries.get? k = some { (t.queries.get? k).getD x with st := .suspended, errAddr := BitVec.ofNat 64 va } ∧
        v.mill.faults.length = t.mill.faults.length + 1) ∧
      (∀ err va t, s.qFinish k x = (.error (.fail err va), t) → t.gone x.sid = false →
        (∀ u, t.qFail? k x err (BitVec.ofNat 64 va) = .ok u → ∃ v, exec (.queryFail quad c) s = .next v ∧ (err ≠ 6 → v = u) ∧
          v.queries.get? k = some { x with st := .failed, err := err, errAddr := BitVec.ofNat 64 va, count := 0, lines := [] }) ∧
        ∀ u, t.qFail? k x err (BitVec.ofNat 64 va) = .error u → exec (.queryFail quad c) s = .next u)) ∧
    (x.st = .suspended → x.err ≠ 0 → s.gone x.sid = false → ∀ u, s.qFail? k x x.err x.errAddr = .ok u →
      ∃ v, exec (.queryFail quad c) s = .next v ∧ ∃ y, v.queries.get? k = some y ∧ y.st = .failed ∧ y.err = x.err)

/-- R256, R257, R262 to R264, R287 to R298, R302, R379, R393. Where a reel lies and what its tag covers is log entry 25, that a
whole group migrates log entry 26, that each strand of a group waits for its own core log entry 27, what a period of an arbiter is and that
a group counts as one operation log entries 29 and 36, NREP outside its range and the order of the checks on a record log entry 37, and that the
Millrace asks for the lines of other packages' homes that it reads, and begins again when they have come, log entry 24. -/
def Obligations.StrandAndNodeEvents : Prop :=
  (∀ (s0 : State) (core part prio q : Nat) (credit : NMap Nat) (n : Nat) (x : NodeRun) (plan : List Seat),
    let s := s0.saveAway
    s.missing (s.dispatch core) = none →
    s.quadPart (quadOf core) = some part → (s.part part).st = .running → s.budgetLeft part = true →
    ((List.range 8).reverse.findSome? fun p => (s.serve part core p (List.range 16)).map fun r => (p, r)) = some (prio, q, credit) →
    s.offer part core (q % 16) = some (n, x, plan) →
    ∃ t y, exec (.strandDispatch core) s0 = .next t ∧ t.node? n = some y ∧ y.st = .running ∧ n ∉ t.mill.pool ∧
      (x.members = [] → ∀ p ∈ plan, ∃ a ∈ t.strands, a.node = n ∧ a.core = p.core ∧ a.life = .running ∧ a.index = p.want.idx ∧
        a.pc = BitVec.ofNat 64 x.kernel + BitVec.ofNat 64 x.hdr.entry)) ∧
  (∀ (s : State) (n : Nat), s.victim = some n → ∃ t, exec .priorityPreemption s = .next t ∧ t.mem = s.mem ∧
    ∀ a ∈ t.strands, a.node = n → a.life ≠ .running) ∧
  (∀ (s : State) (part q : Nat), (s.queueHead part q).isSome → s.queuePrio part q < 7 → ∃ t, exec (.queueAging part q) s = .next t ∧
    t.queuePrio part q = s.queuePrio part q + 1 ∧ t.mem = s.mem) ∧
  (∀ (s : State) (sid : Nat) (a : Strand), s.strand? sid = some a →
    (a.life = .running → ∃ t, exec (.preemptionRequest sid) s = .next t ∧ t.mem = s.mem ∧
      ∀ b ∈ t.strands, b.node = a.node → b.life ≠ .running) ∧
    (a.life = .stopping → a.asks = true → exec (.strandStopped sid) s = .next s) ∧
    (a.life = .stopping → a.asks = false → ∃ t b, exec (.strandStopped sid) s = .next t ∧ t.strand? sid = some b ∧ b.life = .saved ∧ b.clMap = 0 ∧
      b.g = a.g ∧ b.pc = a.pc ∧ b.csr = a.csr ∧ b.posted = a.posted ∧ t.engines = s.engines ∧ t.queries = s.queries) ∧
    (a.life = .trapped → ∃ t b, exec (.trappedSave sid) s = .next t ∧ t.strand? sid = some b ∧ b.life = .trappedSaved ∧ b.clMap = 0 ∧
      b.g = a.g ∧ b.pc = a.pc ∧ b.csr = a.csr ∧ b.posted = a.posted ∧ t.engines = s.engines ∧ t.queries = s.queries ∧ t.mill = s.mill) ∧
    (a.life = .saved → s.leatsEmpty a.node = true →
      (∀ b ∈ s.strands, b.node = a.node → b.life ≠ .halted → b.life = .saved ∧ b.arrivals = [] ∧ ∀ i, b.wait ≠ some (.barHome i)) →
      ∃ t, exec (.migrationSelect sid) s = .next t ∧ a.node ∉ t.mill.pool ∧
        ∀ k b, s.strand? k = some b → b.node = a.node → b.life ≠ .halted →
          ∃ c, t.strand? k = some c ∧ c.life = .migrating ∧ c.g = b.g) ∧
    (a.life = .migrating → s.opsEnded sid = true → s.links.reels.get? sid = none → s.links.away.get? sid = none →
      (∀ n pkg, s.node? a.node = some n → pkg ≠ s.dom.pkg → NSet.has pkg s.dom.members = true → NSet.has pkg s.dom.lost = false →
        s.sameWay a.node (some pkg) = true → s.links.held = [] →
        ((s.route s.millDie (8 * pkg)).isSome → ∃ t l b n' o q dev tag vec, exec (.reelTransfer sid pkg) s = .next t ∧
          t.links.reels.get? sid = some pkg ∧ t.links.sent = s.links.sent ++ l ++ [(pkg, .reel s.dom.pkg b n' o q dev tag vec)] ∧
          t.strand? sid = some a) ∧
        (s.route s.millDie (8 * pkg) = none → ∃ t b, exec (.reelTransfer sid pkg) s = .next t ∧
          t.links.reels.get? sid = none ∧ t.strand? sid = some b ∧ b.life = .saved ∧ b.g = a.g)) ∧
      (∀ core x, (∀ src b n o q dev tag vec, .reel src b n o q dev tag vec ∈ s.links.inbox → b.sid ≠ sid) → s.node? a.node = some x →
        s.reelFits x a.node sid core = true → s.queriesFit sid core = true → s.sameWay a.node none = true →
        ∃ t b, exec (.reelArrived sid core) s = .next t ∧ t.strand? sid = some b ∧ b.life = .ready ∧ b.core = core ∧ b.g = a.g))) ∧
  (∀ (s : State) (f : FaultRec), s.mill.faults.find? s.writable = some f → ∃ t, exec .faultRecordWrite s = .next t ∧
    t.mill.faults = s.mill.faults.erase f ∧
    (f.toFirmware = true → t.mgmt.records = s.mgmt.records ++ [f]) ∧
    (f.toFirmware = false → ∃ i, s.faultSlot f.part = some i ∧ t.mill.slots.get? (256 * f.part + i) = some f ∧
      (t.part f.part).record.fcount = (s.part f.part).record.fcount + 1)) ∧
  (∀ (s : State) (part slot sid : Nat) (f : FaultRec) (a : Strand), s.mill.slots.get? (256 * part + slot) = some f →
    f.owner = .strand sid → s.strand? sid = some a → a.life = .trapped →
    (s.ctr ((s.part part).record.ctrBase + 1 + slot)).st = .fired →
    s.lacks s.millDie ((s.part part).record.faultArea + 64 * slot) = false →
    s.readSync s.millDie ((s.part part).record.faultArea + 64 * slot) = s →
    let b := s.bytesAt s.millDie ((s.part part).record.faultArea + 64 * slot) 64
    (field b 56 8 = 1 → ∃ t c, exec (.faultReply part slot) s = .next t ∧ t.strand? sid = some c ∧
      c.life = (if s.groupAway sid then .stopping else .running) ∧ c.pc = BitVec.ofNat 64 (field b 16 8) ∧ c.csr.epc = BitVec.ofNat 64 (field b 0 8) ∧ c.g = a.g) ∧
    (field b 56 8 ≠ 1 → ∃ t, exec (.faultReply part slot) s = .next t ∧ ∀ c, t.strand? sid = some c → c.life = .halted)) ∧
  (∀ (s : State) (n : Nat) (x : NodeRun), s.node? n = some x → s.mill.nodes.rising →
    (x.st = .running → x.members ≠ [] → x.due = [] → s.nodeLive n = false → x.replay = none → s.missing (s.nodeComplete n) = none →
      (x.killed = false → ((s.performNode x).addErrs x).isSome → ∃ t, exec (.nodeComplete n) s = .next t ∧ t.node? n = none) ∧
      (x.killed = true → ∃ t, exec (.nodeComplete n) s = .next t ∧ t.node? n = none ∧ t.mill.ctrs = s.mill.ctrs)) ∧
    (x.verified = false → x.members = [] → x.st = .waiting → x.replay = none →
      (∀ r t, s.verify x.part x.kernel x.user = (.error r, t) → s.missing t = none → ∃ u, exec (.spawnedKernelReject n) s = .next u ∧ u.node? n = none ∧
        u.mill.faults.length = t.mill.faults.length + 1) ∧
      ∀ k t, s.verify x.part x.kernel x.user = (.ok k, t) → s.missing t = none → ∃ u y, exec (.spawnedKernelReject n) s = .next u ∧ u.node? n = some y ∧
        y.verified = true ∧ y.hdr = k.hdr)) ∧
  (∀ (s : State) (n : Nat),
    (s.mill.outside.find? fun n => match s.node? n with | some x => s.poolRoom x.part | none => false) = some n →
    ∃ t y, exec .readyPoolEntry s = .next t ∧ t.node? n = some y ∧ y.st = .ready ∧ t.mill.pool = s.mill.pool ++ [n] ∧
      n ∉ t.mill.outside ∧ t.mem = s.mem) ∧
  (∀ (s : State) (id : Nat) (r : Replay), s.mill.replays.get? id = some r → r.st = .pending → s.mill.replays.rising →
    (∀ o ∈ s.mill.replays, o.1 < id → o.2.st = .pending → ¬(o.2.part = r.part ∧ o.2.graph = r.graph)) →
    ∀ b s1, s.agentRead s.millDie r.part r.graph 64 = (.ok b, s1) →
      let g := graphOf b
      (s1.freeSlot id r (max 1 (min 4 g.nrep)) = none → exec (.replayBind id) s = .next s) ∧
      ∀ slot, s1.freeSlot id r (max 1 (min 4 g.nrep)) = some slot →
        (r.errand = none → s1.dirty r ≠ 0 → s1.genHeld id r ((g.gen + 1) % 4) = true → exec (.replayBind id) s = .next s) ∧
        (r.errand ≠ none ∨ s1.dirty r = 0 ∨ s1.genHeld id r ((g.gen + 1) % 4) = false → ∀ gen s2, s1.snapshot r g = (.ok gen, s2) →
          (graphBad b = true → s.missing s2 = none → ∃ t, exec (.replayBind id) s = .next t ∧ t.mill.replays.get? id = none ∧
            t.mill.faults.length = s2.mill.faults.length + 1) ∧
          (graphBad b = false → ∀ ns s3, s2.readNodes r.part g.nodes g.nn 0 = (.ok ns, s3) →
            ∀ ks s4, s3.readKernels r.user ns = (.ok ks, s4) → s.missing s4 = none →
            (∀ i, i < g.nn → s4.ownCtr r.part (g.cbase + slot * g.nn + i) = true ∧
              s4.faultCtr r.part (g.cbase + slot * g.nn + i) = false) →
            ∃ t q, exec (.replayBind id) s = .next t ∧ t.mill.replays.get? id = some q ∧ q.st = .live ∧ q.slot = slot ∧
              q.gen = gen))) ∧
  ∀ s : State,
    let k := Config.free s.freeCount % 129
    ∃ t, exec .arbiterPeriod s = .next t ∧ t.mem = s.mem ∧ t.act = s.act ∧
      (k = 128 → t.mill.inForce = [] ∧ t.mgmt = s.mgmt ∧ (s.mill.updates = [] → t.mill.used = []) ∧
        ∀ p c n, s.mill.updates = [(p, c, n)] → 0 < (s.part p).record.schedBud → (s.ctr c).st = .idle → s.mill.ctrs.rising →
          (t.ctr c).count = (s.ctr c).count - n ∧ t.mill.updates = [] ∧ t.mill.used = [(p, 1)]) ∧
      (k ≠ 128 → t.mgmt.corrected = NMap.del k s.mgmt.corrected ∧ t.mill = s.mill)

/-- R117, R317, R375, R395, R398, R401; memory is log entry 7. -/
def Obligations.ResetState : Prop :=
  let s := State.reset
  s.act.life = .halted ∧ s.parked = [] ∧ (∀ p, (s.part p).st = .absent) ∧ s.mgmt.owner = .vacant ∧ s.mgmt.up = false ∧
  (∀ c, (s.core c).cyc = 0 ∧ (s.core c).ecnt = Vector.replicate 4 0) ∧
  (∀ k, s.barriers.getD k Barrier.free = { isOpen := false, n := 0, arr := 0, gen := 0 }) ∧
  (∀ p, (s.links.ports.getD p Port.reset).st = .down) ∧ s.engines = [] ∧ s.queries = [] ∧ s.mill.replays = [] ∧
  ∀ d a, s.byteAt d a = 0

/-- R204. Every slot is FREE: none is listed. A core of even number is a mill core (R9). -/
def Obligations.LaunchMatrixState : Prop :=
  ∀ (sid core slot part node index : Nat) (base : Word) (h : Header) (cl : BitVec 8) (cb : List (BitVec 32)),
    let a := Strand.launch sid core slot part node index base h cl cb
    a.mat.op = false ∧ a.mat.mvl = (if core % 2 = 0 then 64 else 32) ∧ a.mat.latch = none ∧
    (∀ d : ZReg, (∀ r c, r < 64 → c < 64 → lane a.mat.z[d.toNat] 32 (cellAt r c) = 0 ∧ lane a.mat.tail[d.toNat] 32 (cellAt r c) = 0) ∧
      a.mat.row[d.toNat] = 0) ∧
    (∀ (k : KReg) (i : Nat), a.mat.k[k.toNat].getLsbD i = false) ∧
    (∀ k, a.mat.slots.get? k = none) ∧ a.mat.seq = .empty ∧ a.csr.mstart = 0

/-- The invariant of `StepKeepsMemory` holds at reset (R401). -/
def Obligations.InvariantAtReset : Prop := State.reset.Inv

/-- An invariant that every step keeps, over all states: memory as equal data (log entry 7). -/
def Obligations.StepKeepsMemory : Prop :=
  ∀ s t : State, s.Inv → step s = .next t → t.Inv

/-- R256, R260 to R262: a strand that stops is in a state of its life cycle, and the machine goes on. -/
def Obligations.EveryStepAnswersNext : Prop := ∀ s : State, ∃ t, step s = .next t

/-- R71 to R90: the two directions. An event has no encoding. -/
def Obligations.EncodeAndDecodeAgree : Prop :=
  (∀ (i : Instr) (w : Word) (l : Option Word), i.wf = true → encode i = some (w, l) →
    l.isSome = needsLit w ∧ decode w l = .instr i) ∧
  ∀ (i : Instr) (w : Word) (l : Option Word), l.isSome = needsLit w → decode w l = .instr i →
    i.wf = true ∧ encode i = some (w, l)

/-- The table "Worked encodings" of 04_encoding.md. -/
def Obligations.WorkedEncodings : Prop :=
  let t : Ctl := { mg := 0, wg := none, chA := false, chB := false, chC := false, hint := 0, eo := false, nv := false, sy := false }
  decode 0x0010280000100000 none = .instr (.add 5 0 (.imm 4) t) ∧
  decode 0x0E90088FC0000000 none = .instr (.vfma 1 2 1 (.imm 0x3F000) t) ∧
  decode 0x0E90088200000002 (some 0x800000003DCCCCCD) = .instr (.vfma 1 2 1 (.lit 0x3DCCCCCD) t) ∧
  decode 0x0EA00882000C0000 none = .instr (.vfma 1 2 1 (.cb 3) t) ∧
  decode 0x1D40009200000100 none = .instr (.vst 2 9 0 .plain 0 { t with chA := true }) ∧
  decode 0x0A800081FFFC0000 none = .instr (.bEq 2 0 0x7FFF t) ∧
  decode 0x1F50000000000000 none = .instr (.fenceC .quad t) ∧
  decode 0x4018E000C242C008 none = .instr (.pairWord { rop := 0x00, d := 3, a := 3, i := true, imm := 1 }
    { rop := 0x21, d := 4, a := 5, i := true, imm := 8 }) ∧
  decode 0x1F50000000020000 none = .bad .illegal ∧ decode 0x800000003DCCCCCD none = .bad .litExec ∧
  decode 0xC000000000000000 none = .bad .wordKind

/-- R49, R58, R71, R72, R89, R108, R260. `tick` counts the cycles of the acting core (R118). Which words may run ahead, what runs behind a
waiting `barw` (R321), and that units go on before a strand where the agenda names nothing, is log entry 2; a line of another package is asked
for (R346; log entry 24); a line that the host may hold is not written (R370; log entry 35). -/
def Obligations.StepRunsTheDecodedInstruction : Prop :=
  ∀ s : State,
    let kept (t : State) : Prop := ∀ l ∈ s.dom.hostLines, NSet.has l t.dom.hostLines = true
    let runs (o : Out) (late : Wait → State) : Prop :=
      ((∀ t, o = .next t → kept t) → step s = o) ∧
      ∀ t l, o = .next t → s.dom.hostLines.find? (fun l => !NSet.has l t.dom.hostLines) = some l → step s = .next (late (.snoop l))
    let scalar (w : Wait) : State := s.onAct fun a => { a with hold := some w }
    let queue (w : Wait) : State := s.onAct fun a => { a with wait := some w }
    let happens (i : Instr) (u : State) : Prop :=
      ((∃ l, i = .bisnpResponse l) ∨ (∀ t, exec i u = .next t → kept t) → step s = exec i u) ∧
      ∀ t, (∀ l, i ≠ .bisnpResponse l) → exec i u = .next t → ¬kept t → step s = .next u
    (s.agenda = [] → s.unitEvent = none → s.act.canRun = true → s.act.posted = [] →
      (∀ w t, s.tick.fetch = .ok w t →
        (∀ i, decode w.1 w.2 = .instr i → runs (exec i { t with ir := w }) scalar) ∧
        ∀ e, decode w.1 w.2 = .bad e →
          let u : State := { t with ir := w }
          runs (.next (u.takeTrap (u.decodeTrap e) u.afterIr)) scalar) ∧
      (∀ x t, s.tick.fetch = .trap x t → runs (.next (t.takeTrap x (s.act.pc + 8))) scalar) ∧
      ∀ x t, s.tick.fetch = .wait x t → ∃ l, x = .own (.far l) ∧ runs (.next { t with act := { t.act with
        hold := some (.far l), late := none, prog := { Progress.none with errand := t.act.prog.errand } } }) scalar) ∧
    (s.agenda = [] → s.unitEvent = none → s.act.canDrain = true → ∀ p r, s.act.posted = p :: r →
      (∀ w, p.wait = some w → step s = .next (s.onAct fun a => { a with posted := { p with wait := none } :: r, wait := some w })) ∧
      ∀ i, p.wait = none → decode p.word p.lit = .instr i → runs (exec i (State.begin { s with act := { s.act with posted := r } } p)) queue) ∧
    (s.agenda = [] → s.unitEvent = none → s.act.canGo = true → s.act.canDrain = false → s.act.posted ≠ [] → s.act.atBarrier = false →
      ∀ w t i, s.tick.fetch = .ok w t → decode w.1 w.2 = .instr i →
        let u : State := { t with ir := w }
        (u.mayPost = true → runs (.next u.post) scalar) ∧
        (u.mayPost = false → u.irAhead = true → anyTrap u (exec i u) = false → sendsAtomic (exec i u) = false → runs (exec i u) scalar)) ∧
    (s.agenda = [] → s.unitEvent = none → s.act.canGo = true → s.act.atBarrier = true → ∀ p q r i, s.act.posted = p :: q :: r →
      s.act.pastBarrier q.word = true → q.wait = none → decode q.word q.lit = .instr i →
      let s0 := s.onAct fun a => { a with posted := r, wait := none, csr := { a.csr with vpend := false } }
      ∀ t, exec i (s0.begin q) = .next t → tookTrap s0 t = false →
        (t.act.posted = r → step s = .next (s.behind t (p :: r))) ∧
        ∀ q' l w, t.act.posted ≠ r → t.act.posted = q' :: l → t.act.wait = some w →
          step s = .next (s.behind t (p :: { q' with wait := some w } :: r))) ∧
    (∀ i, s.agenda = [] → s.unitEvent = some i → happens i s) ∧
    (∀ r p l i, s.agenda = .drain :: r → s.act.canDrain = true → s.act.posted = p :: l → p.wait = none → decode p.word p.lit = .instr i →
      runs (exec i (State.begin { s with agenda := r, act := { s.act with posted := l } } p)) fun w => { queue w with agenda := r }) ∧
    (∀ r w t i, s.agenda = .post :: r → s.act.canGo = true → s.act.posted = [] →
      (State.tick { s with agenda := r }).fetch = .ok w t → decode w.1 w.2 = .instr i →
      let u : State := { t with ir := w }
      runs (if u.mayPost then .next u.post else exec i u) fun w => { scalar w with agenda := r }) ∧
    ∀ i r, s.agenda = .event i :: r → happens i { s with agenda := r }

/-- R317, R321, R345, R346, R349, R354, R370, R371, R380, R397, R420. That a home closes its batch before it answers, and the numbers of
the places that are no memory, are the model's (log entries 24 and 58), and so are what messages batches, reads, atomics and their replies
are, when each is taken, and which dies a batch's data goes to (24), the messages about barrier objects (57), the event of the host port and the lines that the host holds (35), and that the 257th
correction is the one reported (29). -/
def Obligations.FabricEvents : Prop :=
  (∀ (s : State) (d : Nat), d ∈ s.allDies → (s.dieAt d).pending ≠ [] →
    ∃ t b, exec (.batchTimeout d) s = .next t ∧ t.flight = s.flight ++ [b] ∧ b.writes = (s.dieAt d).pending ∧ b.src = d ∧
      b.seq = (s.dieAt d).vec.getD d 0 + 1 ∧ (t.dieAt d).pending = [] ∧ t.mem = s.mem ∧
      ∀ e ∈ s.allDies, e / 8 ≠ s.dom.pkg → ∃ data, (e / 8, .batchHead e d b.seq b.vec data) ∈ t.links.sent ∧
        (data = true → (e / 8, .batchData e d b.seq b.writes) ∈ t.links.sent) ∧
        ((∃ w ∈ b.writes, ∃ l ∈ linesOf w.addr w.data.length, homeDie (128 * l) = e) → data = true)) ∧
  (∀ (s : State) (d src : Nat) (b : Batch), d ∈ s.allDies →
    (b ∈ s.flight → b.src = src → b.here d = false →
      ∃ t c data, exec (.batchArrive d src) s = .next t ∧ c ∈ s.flight ∧ c.src = src ∧
        NSet.has d (if data = true then c.arrived else c.headed) = false ∧ t.mem = s.mem ∧ t.dies = s.dies ∧ t.act = s.act ∧ t.links = s.links ∧
        t.flight = s.flight.map (fun y => if y.src = c.src ∧ y.seq = c.seq then
          (if data = true then { y with arrived := NSet.add d y.arrived } else { y with headed := NSet.add d y.headed }) else y)) ∧
    ((∀ e seq vec data, .batchHead e src seq vec data ∉ s.links.inbox) →
      s.flight.find? (fun b => b.src == src && b.here d && s.mayApply d b) = some b →
      ∃ t, exec (.batchApply d src) s = .next t ∧ (t.dieAt d).vec.getD src 0 = b.seq ∧ t.act = s.act ∧
        (b.writes = [] → t.mem = s.mem) ∧
        ∀ w, b.writes = [w] → d / 8 = s.dom.pkg → homeDie w.addr = d → s.mem.wf = true → ∀ y, t.mem.read y =
          if w.addr ≤ y then ((w.data[y - w.addr]?).join).getD (s.mem.read y) else s.mem.read y) ∧
    ∀ (vec : NMap Nat) (ws : List Wr) (data : Nat → Bool) (r : List Msg), d / 8 = s.dom.pkg → src / 8 ≠ s.dom.pkg → s.flight = [] → (∀ m ∈ r, m.vc ≠ 0) →
      s.links.inbox = ((List.range 8).flatMap fun i => .batchHead (8 * s.dom.pkg + i) src b.seq vec (data i) ::
        if data i then [.batchData (8 * s.dom.pkg + i) src b.seq ws] else []) ++ r →
      s.mayApply d { b with src := src, vec := vec, writes := ws, applied := [] } = true →
      ∃ t, exec (.batchApply d src) s = .next t ∧ t.links.inbox = r ∧ (t.dieAt d).vec.getD src 0 = b.seq ∧ t.act = s.act ∧
        ∀ w, ws = [w] → data (d % 8) = true → homeDie w.addr = d → s.mem.wf = true → ∀ y, t.mem.read y =
          if w.addr ≤ y then ((w.data[y - w.addr]?).join).getD (s.mem.read y) else s.mem.read y) ∧
  (∀ (s : State) (d src addr n : Nat) (vec : NMap Nat) (r : List Msg), s.links.inbox = .read d src addr n vec :: r → d / 8 = s.dom.pkg →
    s.flight = [] → s.reaches d vec = true →
    let v := ((s.closeBatch d).dieAt d).vec
    ∃ t l, exec (.remoteReadRequest d) s = .next t ∧ t.links.inbox = r ∧ t.mem = s.mem ∧ t.links.sent = s.links.sent ++ l ++
        [(src / 8, if s.unreachable addr then .reply src addr [] v [] (some .peer) none
          else .reply src addr (s.bytesAt d addr n) v (s.marksOf addr n) none none)] ∧
      (s.unreachable addr = false → (t.dieAt src).copies.get? (addr / 128) = some (s.bytesAt d addr n))) ∧
  (∀ (s : State) (d addr : Nat) (data : List Byte) (vec : NMap Nat) (marks : NSet) (denied : Option Denial) (r : List Msg),
    d / 8 = s.dom.pkg → s.flight = [] → s.reaches d vec = true →
    let line := addr / 128
    let x := s.dieAt d
    (s.links.inbox = .reply d addr data vec marks denied none :: r → NSet.has line x.asked = true →
      ∃ t, exec (.readReply d) s = .next t ∧ t.links.inbox = r ∧ t.mem = s.mem ∧
        (x.asked.rising → NSet.has line (t.dieAt d).asked = false) ∧ (∀ g ∈ marks, NSet.has g t.poison = true) ∧
        (denied = none → x.copies.get? line = none → (∀ b ∈ x.own, b.1 / 128 ≠ line) →
          (t.dieAt d).copies.get? line = some ((List.range 128).map fun i => data.getD i 0)) ∧
        (denied ≠ none → (t.dieAt d).copies = x.copies ∧ NSet.has line (t.dieAt d).refused = true) ∧
        ∀ sid a, s.strand? sid = some a → a.life = .running → a.wait = some (.far line) → (∀ q ∈ a.posted, q.wait = none) →
          a.hold = none ∨ a.hold = some .queue → t.strand? sid = some { a with wait := none, hold := none, woke := some 0 }) ∧
    ∀ k, s.links.inbox = .reply d addr data vec marks denied (some k) :: r →
      ∃ t, exec (.readReply d) s = .next t ∧ t.links.inbox = r ∧ t.mem = s.mem ∧ t.dies = s.dies ∧
        (∀ sid a p l e, s.strand? sid = some a → a.posted = p :: l → p.prog.errand = some e → e.tag = k →
          ∃ b q m, t.strand? sid = some b ∧ b.posted = q :: m ∧ q.prog.errand = some { e with answer := some (data, denied) } ∧
            (a.life = .running → a.wait = some (.home (homeDie addr) k) → b.wait = none)) ∧
        ∀ sid a e, s.strand? sid = some a → a.prog.errand = some e → e.tag = k →
          ∃ b, t.strand? sid = some b ∧ b.prog.errand = some { e with answer := some (data, denied) } ∧
            (a.life = .running → a.hold = some (.home (homeDie addr) k) → b.hold = none)) ∧
  (∀ (s : State) (d src addr n tag : Nat) (op : RemoteOp) (vec : NMap Nat) (r : List Msg),
    s.links.inbox = .atomic d src addr n op vec tag :: r → (∀ d' src' a' n' op' v' k', .atomic d' src' a' n' op' v' k' ∉ r) → d / 8 = s.dom.pkg →
    s.flight = [] → s.mem.wf = true → homeDie addr = d → addr < 2 ^ 52 → s.reaches d vec = true →
    let old := s.bytesAt d addr n
    (∀ off x, op.writes old = some (off, x) → addr % 256 + off + x.length ≤ 256) →
    (s.lent addr n = true → exec (.remoteAtomic d) s = .next s) ∧
    (s.lent addr n = false →
      let denied : Option Denial := if s.unreachable addr then some .peer else if s.poisonHit addr n false then some .poison else none
      ∃ t l v, exec (.remoteAtomic d) s = .next t ∧ t.links.inbox = r ∧
        t.links.sent = s.links.sent ++ l ++ [(src / 8, .reply src addr (if denied.isSome then [] else old) v [] denied (some tag))] ∧
        ∀ y, t.byteAt d y =
          match denied, op.writes old with
          | none, some (off, x) => if addr + off ≤ y ∧ y < addr + off + x.length then x.getD (y - addr - off) 0 else s.byteAt d y
          | _, _ => s.byteAt d y)) ∧
  (∀ (s : State) (sid pkg : Nat) (a : Strand), s.strand? sid = some a → a.life = .running → pkg ≠ s.dom.pkg → (∀ q ∈ a.posted, q.wait = none) →
    a.hold = none ∨ a.hold = some .queue →
    ∃ t, exec (.remoteAccessTimeout sid pkg) s = .next t ∧ t.mem = s.mem ∧
      ((∃ line, a.wait = some (.far line) ∧ 128 * line / 2 ^ 48 = pkg) ∨ (∃ die k, a.wait = some (.home die k) ∧ die / 8 = pkg) →
        t.strand? sid = some { a with wait := none, hold := none, woke := some 0, late := some pkg }) ∧
      (a.wait = none → t.strand? sid = some { a with late := some pkg })) ∧
  (∀ (s : State) (src sid i : Nat) (op : BarOp) (r : List Msg), s.links.inbox = .barrier src sid i op :: r → s.barrierHome = true →
    let k := barrierKey .domain 0 i
    let b := s.barrier k
    let y : Bool × Barrier := match op with
      | .arrive => if b.isOpen then (true, if b.arr + 1 = b.n then { b with gen := b.gen + 1, arr := 0 } else { b with arr := b.arr + 1 })
        else (false, b)
      | .init n => if b.isOpen = true ∧ 0 < b.arr then (false, b) else (true, { b with isOpen := true, n := n, arr := 0 })
      | .look => (b.isOpen, b)
    ∃ t, exec .domainBarrierArrival s = .next t ∧ t.links.inbox = r ∧ t.mem = s.mem ∧ t.barrier k = y.2 ∧
      t.links.sent = s.links.sent ++ (src, .barrierReply sid y.1 b.gen) ::
        (if y.2.gen = b.gen then [] else (s.dom.members.filter fun p => p != s.dom.pkg && !NSet.has p s.dom.lost).map fun p => (p, .barrierGen i y.2.gen))) ∧
  (∀ (s : State) (sid i : Nat) (ok : Bool) (gen : BitVec 32) (r : List Msg) (a : Strand),
    s.links.inbox = .barrierReply sid ok gen :: r → s.strand? sid = some a → a.wait = some (.barHome i) →
    a.hold = none ∨ a.hold = some .queue → (∀ q ∈ a.posted, q.wait = none) → ∃ t, exec .domainBarrierArrival s = .next t ∧ t.links.inbox = r ∧ t.mem = s.mem ∧
      t.strand? sid = some { a with wait := none, hold := none, woke := some (BitVec.ofNat 64 (2 ^ 40 + 2 * gen.toNat + ok.toNat)) }) ∧
  (∀ (s : State) (i : Nat) (gen : BitVec 32) (r : List Msg), s.links.inbox = .barrierGen i gen :: r →
    gen = 0 ∨ 0 < (gen - (s.barrier (barrierKey .domain 0 i)).gen).toInt → ∃ t, exec .domainBarrierArrival s = .next t ∧ t.links.inbox = r ∧
      (t.barrier (barrierKey .domain 0 i)).gen = gen ∧ t.act = s.act ∧ t.mem = s.mem) ∧
  (∀ (s : State) (src part i n : Nat) (vec : NMap Nat) (r : List Msg), s.links.inbox = .counter src part i n vec :: r →
    s.ownCtr part i = true → 0 < n → s.flight = [] → s.reaches s.millDie vec = true → s.budgetLeft part = true →
    (s.ctr i).st = .idle → s.mill.ctrs.rising → ∃ t l v, exec .remoteCounterUpdate s = .next t ∧ t.links.inbox = r ∧
      (t.ctr i).count = (s.ctr i).count - n ∧ t.mill.used.getD part 0 = s.mill.used.getD part 0 + 1 ∧ t.mem = s.mem ∧
      t.links.sent = s.links.sent ++ l ++ [(src / 8, .counterDone src s.millDie v)]) ∧
  (∀ (s : State) (pkg : Nat), pkg ≠ s.dom.pkg → NSet.has pkg s.dom.members = true → NSet.has pkg s.dom.lost = false →
    ∃ t, exec (.peerLoss pkg) s = .next t ∧ NSet.has pkg t.dom.lost = true ∧ t.dom.members = s.dom.members ∧
      ∀ src a n o q dev tag vec, .reel src a n o q dev tag vec ∈ t.links.inbox → src ≠ pkg) ∧
  (∀ s : State,
    (s.dom.hostUp = true → ∃ t, exec .hostPortDown s = .next t ∧ t.dom = { s.dom with hostUp := false } ∧
      t.mgmt.events = s.mgmt.events ++ [.hostPort] ∧ t.mem = s.mem) ∧
    exec .hostPortUp s = .next { s with dom := { s.dom with hostUp := true } }) ∧
  (∀ (s : State) (host addr n : Nat), s.hostReach addr n = true → s.inReset addr n = false →
    ∃ t, exec (.hostMemRead host addr n) s = .next t ∧ t.mem = s.mem ∧
      t.mgmt.answers = s.mgmt.answers ++ [(host, if s.poisonHit addr n false then .poisoned
        else .bytes ((List.range n).map fun i => s.mem.read (addr + i)))]) ∧
  (∀ (s : State) (host addr : Nat) (data : List Byte) (r : List (Nat × Cmd)), s.mgmt.mailbox = (host, .memWrite addr data) :: r →
    s.hostReach addr data.length = true → s.inReset addr data.length = false → s.mem.wf = true → s.flight = [] →
    (∀ e, (s.dieAt e).pending = []) →
    let bad := s.hostTears addr data.length
    ∃ t, exec (.hostMemWrite host addr) s = .next t ∧ t.mgmt.mailbox = r ∧
      t.mgmt.answers = s.mgmt.answers ++ [(host, if bad then .poisoned else .ok)] ∧
      ∀ y, t.mem.read y = if bad = false ∧ addr ≤ y ∧ y < addr + data.length then data.getD (y - addr) 0 else s.mem.read y) ∧
  (∀ (s : State) (c : Nat), c < 64 ∨ (c < 128 ∧ s.mgmt.remap.get? (c - 64) = none) → ∃ t, exec (.eccCorrected c) s = .next t ∧ t.mem = s.mem ∧
    t.mgmt.corrected.getD c 0 = s.mgmt.corrected.getD c 0 + 1 ∧
    t.mgmt.events = s.mgmt.events ++ (if s.mgmt.corrected.getD c 0 = 256 then [.corrected c] else [])) ∧
  ∀ (s : State) (addr held : Nat),
    (32 ≤ held → addr < 2 ^ 53 → ∃ t, exec (.eccUncorrectable addr held) s = .next t ∧ t.mem = s.mem ∧
      t.mgmt.events = s.mgmt.events ++ [.poisonedLine (addr / 128)] ∧ ∀ i, i < 8 → NSet.has (8 * (addr / 128) + i) t.poison = true) ∧
    (∀ p i e, 32 ≤ held → p < 256 → i < 16 → addr = 2 ^ 53 + 16 * p + i → (s.pair p).leat[i]? = some e →
      ∃ t, exec (.eccUncorrectable addr held) s = .next t ∧ (t.pair p).leat[i]? = some { e with poison := true } ∧ t.act = s.act ∧
        t.mem = s.mem) ∧
    (∀ core slot g sid a x, 32 ≤ held → slot < 32 → g < 1024 → addr = 2 ^ 54 + 1024 * (32 * core + slot) + g →
      s.strand? sid = some a → a.onCore = true → a.core = core → a.mat.slots.get? slot = some x →
      ∃ t b y, exec (.eccUncorrectable addr held) s = .next t ∧ t.strand? sid = some b ∧ b.mat.slots.get? slot = some y ∧
        (∀ i, i < 8 → NSet.has (g / 8 * 8 + i) y.poison = true) ∧ y.image = x.image ∧ t.mem = s.mem) ∧
    (held < 32 → (s.part held).st = .running → ∃ t, exec (.eccUncorrectable addr held) s = .next t ∧ (t.part held).st = .resetting)

/-- R372, R374, R375. That a port offers credits when it joins, that flits count as acknowledged by a replay request or when 128 more
have been sent, how messages lie in payloads, and what training and retraining find are log entry 30. That a flit which is not the expected one
is a copy or comes after a gap by the half of the numbers that its SEQ lies in, that a copy is dropped and a gap asks for a replay, what a replay
request sends again, and that a credit-only flit has its turn as a data flit has, are the model's (log entry 31, DEDUCED); R372 states none
of them. -/
def Obligations.PortEvents : Prop :=
  ∀ (s : State) (p : Nat), p < 12 →
    let x := s.port p
    let after (i : Instr) (f : State → Prop) : Prop := ∃ t, exec i s = .next t ∧ t.mem = s.mem ∧ t.act.g = s.act.g ∧ t.act.pc = s.act.pc ∧ f t
    let down (t : State) : Prop := (t.port p).st = .down ∧ t.mgmt.events = s.mgmt.events ++ [.port p]
    (∀ f, s.headFlit p = some f →
      (flitGood f = false → after (.flitData p) fun t => (t.port p).arrived = x.arrived.tail ∧
        (t.port p).out = x.out ++ [flitOf 3 7 x.expected (List.replicate 232 0) 0] ∧ (t.port p).expected = x.expected) ∧
      (flitGood f = true → flitType f = 1 → flitSeq f = x.expected → after (.flitData p) fun t =>
        (t.port p).arrived = x.arrived.tail ∧ (t.port p).expected = (x.expected + 1) % 65536 ∧
        ((messages (x.payload.getD (flitVc f) [] ++ flitPayload f)).1 = [] → t.links.inbox = s.links.inbox) ∧
        ∀ m, (messages (x.payload.getD (flitVc f) [] ++ flitPayload f)).1 = [m] →
          ((m.pkg, m.num) ∈ s.links.seen ∨ m.dst / 8 ≠ s.dom.pkg → t.links.inbox = s.links.inbox) ∧
          ((m.pkg, m.num) ∉ s.links.seen → m.dst / 8 = s.dom.pkg → (∀ b, m.msg ≠ .manage b) →
            t.links.inbox = s.links.inbox ++ [m.msg] ∧ (m.pkg, m.num) ∈ t.links.seen)) ∧
      (flitGood f = true → flitType f = 1 ∨ flitType f = 2 → flitSeq f ≠ x.expected →
        after (if flitType f = 1 then .flitData p else .flitCredit p) fun t =>
        (t.port p).arrived = x.arrived.tail ∧ (t.port p).expected = x.expected ∧ t.links.inbox = s.links.inbox ∧
        (t.port p).out = x.out ++ (if (flitSeq f + 65536 - x.expected) % 65536 < 32768 then
          [flitOf 3 7 x.expected (List.replicate 232 0) 0] else [])) ∧
      (flitGood f = true → flitType f = 2 → flitSeq f = x.expected → x.queue = [] → after (.flitCredit p) fun t =>
        (t.port p).arrived = x.arrived.tail ∧ (t.port p).expected = (x.expected + 1) % 65536 ∧
        ∀ vc, vc < 8 → (t.port p).credits.getD vc 0 = x.credits.getD vc 0 + flitCredit f vc) ∧
      (flitGood f = true → flitType f = 3 → (∀ r ∈ x.replays, r.2 < 7) → x.replays.rising →
        let again := x.sent.dropWhile fun g => decide (32768 ≤ (g.1 + 65536 - flitSeq f) % 65536)
        (x.sent.map (·.1)).Nodup → after (.flitReplayRequest p) fun t => (t.port p).out = x.out ++ again.map (·.2) ∧ (t.port p).sent = again ∧
          (t.port p).st = x.st)) ∧
    (x.st = .down → after (.portEnable p) fun t => (t.port p).st = .training) ∧
    (x.st = .training →
      (4 ≤ x.lanes.length → x.attested = true → x.sameDomain = true →
        after (.portTrained p) fun t => (t.port p).st = if x.lanes.length = 8 then .up else .degraded) ∧
      (x.lanes.length < 4 ∨ x.attested = false ∨ x.sameDomain = false → after (.trainingTimeout p) down)) ∧
    (∀ lane, x.st = .up ∨ x.st = .degraded → NSet.has lane x.lanes = true → after (.laneFail p lane) fun t =>
      (t.port p).lanes = NSet.del lane x.lanes ∧
      (t.port p).st = if (NSet.del lane x.lanes).length < 4 then .retrain else .degraded) ∧
    (x.st = .retrain →
      (let n := ((List.range 8).filter fun i => ((s.draw 256).1).testBit i).length
       after (.retrainDone p) fun t => (t.port p).st = if n = 8 then .up else if 4 ≤ n then .degraded else .retrain) ∧
      after (.retrainFail p) down) ∧
    (x.st ≠ .down → after (.portDisable p) fun t => (t.port p).st = .down)

/-- R236, R382, R383, R385 to R388. What a window measures, what firmware sets the cap to and which lanes fail are free values; what
quiet windows are, FIDSAT once a window, a kernel of FID 0 and blind quads are log entry 33. -/
def Obligations.PowerEvents : Prop :=
  (∀ (s : State) (q p : Nat), q < 64 → p < 22 → (s.quad q).blind = false ∨ p = 0 → p ≠ (s.quad q).point →
    ∃ t, exec (.dvfsTransition q p) s = .next t ∧ (t.quad q).point = p ∧ (t.quad q).sensors = (s.quad q).sensors ∧
      t.mem = s.mem ∧ t.act.g = s.act.g ∧ t.act.pc = s.act.pc) ∧
  (∀ s : State, ∃ t, exec .powerWindow s = .next t ∧ t.mem = s.mem ∧
    (t.power.cap = s.power.cap ∨ (0 < t.power.cap ∧ ∀ r, s.board.form.rating = some r → t.power.cap ≤ r)) ∧
    (95 * t.power.cap ≤ 100 * t.power.watts → t.power.quiet = 0) ∧
    ∀ q, q < 64 → (t.quad q).blind = true → (t.quad q).point = 0) ∧
  (∀ (s : State) (c : Nat), c < 512 →
    let x := s.core c
    (2 ^ 24 ≤ x.cyc.toNat - x.windowStart → ∃ t, exec (.railWindow c) s = .next t ∧ (t.core c).railCount = 0 ∧
      (t.core c).fidSat = false ∧ (t.core c).windowStart = x.windowStart + 2 ^ 24 ∧ t.mem = s.mem ∧ t.act = s.act ∧
      ((∀ e, s.ebud? c = some e → x.railCount ≤ e) → t.mgmt = s.mgmt ∧ (t.core c).railStep ≤ x.railStep ∧
        x.railStep ≤ (t.core c).railStep + 1) ∧
      ∀ e, s.ebud? c = some e →
        (x.railCount ≤ e / 4 → 15 ≤ x.railQuiet → x.railFid ≠ 0 → railFloor x.railFid < x.railStep →
          (t.core c).railStep + 1 = x.railStep ∧ (t.core c).railQuiet = 0) ∧
        (e / 4 < x.railCount → (t.core c).railQuiet = 0) ∧
        (e < x.railCount → x.railStep < 15 → (t.core c).railStep = x.railStep + 1) ∧
        (e < x.railCount → 15 ≤ x.railStep → x.fidSat = false → t.mgmt.events = s.mgmt.events ++ [.fidSat c])) ∧
    (∀ e, s.ebud? c = some e → e < x.railCount →
      (x.railStep < 15 → exec (.railStepRaise c) s =
        .next (s.onCore c fun y => { y with railStep := y.railStep + 1, railCount := 0 })) ∧
      (15 ≤ x.railStep → x.fidSat = false → ∃ t, exec (.railStepRaise c) s = .next t ∧ (t.core c).fidSat = true ∧
        t.mgmt.events = s.mgmt.events ++ [.fidSat c])) ∧
    ((∃ a ∈ s.strands, a.onCore = true ∧ a.core = c) → ∃ t, exec (.laneTrim c) s = .next t ∧ (t.core c).trimDue = true ∧
      ∀ k a, t.strand? k = some a → a.core = c → a.life ≠ .running ∧ a.life ≠ .trapped) ∧
    ((∀ a ∈ s.strands, a.onCore = true → a.core ≠ c) → ∃ t, exec (.laneTrim c) s = .next t ∧ t.mem = s.mem ∧ t.act = s.act ∧ (t.core c).trimDue = false ∧
      (∀ i, NSet.has i x.badLanes = true → NSet.has i (t.core c).badLanes = true) ∧
      ∀ k, k < 8 → (NSet.has k (t.core c).lostClusters = true ↔ 2 ≤ ((t.core c).badLanes.filter fun i => i / 5 == k).length))) ∧
  (∀ (s : State) (q : Nat), q < 64 → exec (.ballast q) s = .next (s.onQuad q fun x => { x with ballast := !x.ballast })) ∧
  ∀ (s : State) (p : Nat),
    ((s.pair p).gate = .draining → (∀ a ∈ s.strands, a.onCore = true → a.core ≠ 2 * p + 1) →
      exec (.gateDrained p) s = .next ((s.onQuad (p / 4) fun x => { x with ballast := true }).onPair p fun x => { x with gate := .gated })) ∧
    ((s.pair p).gate = .waking → ∃ t, exec (.wakeDone p) s = .next t ∧ (t.pair p).request = false ∧
      ((s.pair p).request = false → (t.pair p).gate = .on ∧ t.mem = s.mem))

/-- R3, R23, R24, R391, R398, R400. A CLAIM by the owner, a HANDOVER in PENDING and what is served before bring-up are log entry 38. `u` is the state without the command in its mailbox. -/
def Obligations.Ownership : Prop :=
  (∀ (s : State) (h : Nat) (c : Cmd) (r : List (Nat × Cmd)), s.mgmt.mailbox = (h, c) :: r → c.isCommand = true → s.mgmt.up = true →
    let u : State := { s with mgmt := { s.mgmt with mailbox := r } }
    let tells (i : Instr) (t : State) (a : Answer) : Prop := exec i s = .next (t.answer h a)
    let owned : Prop := s.mgmt.owner = .owned h ∨ ∃ t, s.mgmt.owner = .pending h t
    let to_ (o : Owner) : State := { u with mgmt := { u.mgmt with owner := o } }
    let denied (i : Instr) : Prop := ¬owned → tells i u .denied
    (c = .claim → (s.mgmt.owner = .vacant → tells (.claim h) (to_ (.owned h)) .ok) ∧
      (s.mgmt.owner ≠ .vacant → denied (.claim h)) ∧ (owned → tells (.claim h) u .ok)) ∧
    (c = .renew → denied (.renew h) ∧ (owned → tells (.renew h) u .ok)) ∧
    (∀ d, c = .handover d → denied (.handover h d) ∧ (s.mgmt.owner = .owned h → tells (.handover h d) (to_ (.pending h d)) .ok) ∧
      (∀ x, s.mgmt.owner = .pending h x → tells (.handover h d) u (.refused 0))) ∧
    (c = .accept → (∀ o, s.mgmt.owner = .pending o h → tells (.accept h) (to_ (.owned h)) .ok) ∧
      (∀ o d, s.mgmt.owner = .pending o d → d ≠ h → tells (.accept h) (to_ (.owned o)) .denied) ∧
      ((∀ o d, s.mgmt.owner ≠ .pending o d) → tells (.accept h) u .denied)) ∧
    (c = .read → tells (.read h) u (.state
      { up := true, owner := s.mgmt.owner, events := s.mgmt.events, board := s.board
        totals := { sramStacks := 4, quads := 64, pairs := 256, cores := 512, clusters := 4096, lanes := 16384, vregs := 32, operand := 96
                    scratchpad := 512, l2 := 256, llc := 2048, poolNodes := 16384, counters := 65536, partitions := 32, ports := 12 }
        lost := (s.cores.filter fun c => !c.2.lostClusters.isEmpty).map fun c => (c.1, c.2.lostClusters) })) ∧
    (∀ n p, c = .attest n p → tells (.attest h) u (.bytes (u.attestation n p))) ∧
    (∀ n p, c = .spdm n p → tells (.spdmMeasurement h) u (.bytes (u.attestation n p)))) ∧
  (∀ (s : State) (h : Nat), s.mgmt.owner = .owned h → exec .leaseLapse s =
    .next { s with mgmt := { s.mgmt with owner := .vacant, events := s.mgmt.events ++ [.leaseLapsed] } }) ∧
  ∀ (s : State) (h d : Nat), s.mgmt.owner = .pending h d →
    exec .handoverTimeout s = .next { s with mgmt := { s.mgmt with owner := .owned h } }

/-- R18, R390 to R401. The reason 0 of a refusal is log entry 38; what a device reset keeps is log entry 23; a
START that reads lines of another package's home waits until they have come (log entry 24).
`u` is the state without the command in its mailbox. -/
def Obligations.PartitionCommands : Prop :=
  (∀ (s : State) (h : Nat) (c : Cmd) (r : List (Nat × Cmd)), s.mgmt.mailbox = (h, c) :: r → c.isCommand = true → s.mgmt.up = true →
    let u : State := { s with mgmt := { s.mgmt with mailbox := r } }
    let tells (i : Instr) (t : State) (a : Answer) : Prop := exec i s = .next (t.answer h a)
    let owned : Prop := s.mgmt.owner = .owned h ∨ ∃ t, s.mgmt.owner = .pending h t
    let denied (i : Instr) : Prop := ¬owned → tells i u .denied
    let quiet : Prop := s.pins = [] ∧ s.queries = []
    let ends (i : Instr) (f : State → Prop) : Prop :=
      ∃ t, exec i s = .next t ∧ f t ∧ t.mgmt.answers = s.mgmt.answers ++ [(h, .ok)] ∧ (quiet → t.mem = s.mem)
    (∀ b, c = .create b → denied (.create h) ∧
      (owned → (s.part (field b 0 1)).st = .absent → s.valid (field b 0 1) b (recordOf b 0) = true →
        ends (.create h) fun t => (t.part (field b 0 1)).st = .stopped ∧ (t.part (field b 0 1)).record = recordOf b 0) ∧
      (owned → (s.part (field b 0 1)).st ≠ .absent ∨ s.valid (field b 0 1) b (recordOf b 0) = false →
        tells (.create h) u (.refused 0))) ∧
    (∀ b, c = .modify b → denied (.modify h) ∧
      (let p := s.part (field b 0 1)
       let o := p.record
       let n := recordOf b o.fcount
       let fixed : Prop := n.quads = o.quads ∧ n.ptroot = o.ptroot ∧ n.ctrBase = o.ctrBase ∧ n.ctrLast = o.ctrLast
       owned →
        (p.st = .running → ¬fixed → tells (.modify h) u .denied) ∧
        (p.st = .running → fixed → s.valid (field b 0 1) b n = true → ends (.modify h) fun t =>
          (t.part (field b 0 1)).st = .running ∧ (t.part (field b 0 1)).record = n) ∧
        (p.st = .stopped → s.valid (field b 0 1) b n = true → ends (.modify h) fun t =>
          (t.part (field b 0 1)).st = .stopped ∧ (t.part (field b 0 1)).record = n))) ∧
    (∀ p base, c = .start p base → denied (.start h) ∧ (owned → (s.part p).st = .stopped →
      (∀ x t, u.verify p base false = (.error x, t) → s.missing t = none → ∃ v, exec (.start h) s = .next v ∧ (v.part p).st = .stopped ∧
        v.mgmt.answers = t.mgmt.answers ++ [(h, .refused x)]) ∧
      ∀ k t, u.verify p base false = (.ok k, t) →
        (k.hdr.ctrl = false → ∃ v, exec (.start h) s = .next v ∧ v.parts = s.parts ∧
          v.mgmt.answers = s.mgmt.answers ++ [(h, .refused 12)]) ∧
        (k.hdr.ctrl = true → s.missing t = none → ∃ v y, exec (.start h) s = .next v ∧
          (v.part p).st = .running ∧ v.node? t.mill.nextId = some y ∧ y.boot = true ∧ (y.st = .ready ∨ y.st = .outside) ∧
          v.mgmt.answers = t.mgmt.answers ++ [(h, .ok)]))) ∧
    (∀ p, c = .reset p → denied (.reset h p) ∧ (owned → (s.part p).st = .running → ∃ v, exec (.reset h p) s = .next v ∧
      (v.part p).st = .resetting ∧ v.mgmt.answers = s.mgmt.answers ++ [(h, .ok)])) ∧
    (∀ p, c = .destroy p → denied (.destroy h p) ∧ (owned → (s.part p).st = .stopped → s.parts.rising →
      ends (.destroy h p) fun v => (v.part p).st = .absent)) ∧
    (∀ im sg v, c = .fwupdate im sg v → denied (.fwupdate h) ∧ (owned → tells (.fwupdate h)
      (if s.imageGood im sg v then { u with mgmt := { u.mgmt with fwPending := some (im, sg, v) } } else u)
      (if s.imageGood im sg v then .ok else .refused 0)))) ∧
  (∀ (s : State) (p : Nat), (s.part p).st = .resetting → ∃ t, exec (.resetComplete p) s = .next t ∧ (t.part p).st = .stopped ∧
    t.mgmt.events = s.mgmt.events ++ [.stopped p] ∧ t.mem = s.mem) ∧
  ∀ s : State, ∃ t, exec .deviceReset s = .next t ∧ t.act.life = .halted ∧ t.parked = [] ∧ t.parts = [] ∧ t.engines = [] ∧
    t.mgmt.owner = .vacant ∧ t.mem = s.mem.filter (fun c => c.1 < 2 ^ 52) ∧
    ∀ im sg v, s.mgmt.fwPending = some (im, sg, v) ∨ (s.mgmt.fwPending = none ∧ im = s.mgmt.fwImage ∧ sg = s.mgmt.fwSig ∧ v = s.mgmt.fwVersion) →
      t.mgmt.fwImage = im ∧ t.mgmt.fwVersion = v ∧ t.mgmt.fwPending = none ∧
      (s.imageGood im sg v = true → t.mgmt.fwDigest = sha512 im) ∧
      (s.imageGood im sg v = false → t.mgmt.up = false ∧ t.mgmt.events = [.bringUp 1])
end

