-- ==== Sys2Proof/Laws/Memory.lean ====
section
/-!
SUPPORT. Tables and memory: what is read after a write, and that every operation keeps the canonical form.
-/

namespace Sys2Proof.Machine

/-! Tables. -/

theorem NMap.rising_cons {α : Type} (a : Nat × α) (l : NMap α) :
    NMap.rising (a :: l) = true ↔ (∀ b ∈ l, a.1 < b.1) ∧ NMap.rising l = true := by
  induction l generalizing a with
  | nil => simp [NMap.rising]
  | cons b r ih =>
    have hb := ih b
    simp only [NMap.rising, Bool.and_eq_true, decide_eq_true_eq, List.mem_cons, forall_eq_or_imp]
    constructor
    · rintro ⟨hab, hr⟩
      exact ⟨⟨hab, fun c hc => Nat.lt_trans hab ((hb.1 hr).1 c hc)⟩, hr⟩
    · rintro ⟨⟨hab, -⟩, hr⟩
      exact ⟨hab, hr⟩

theorem NMap.get?_eq_none {α : Type} (k : Nat) (l : NMap α) (h : ∀ b ∈ l, b.1 ≠ k) : NMap.get? k l = none := by
  induction l with
  | nil => rfl
  | cons b r ih => simp_all [NMap.get?]

theorem NMap.mem_of_get? {α : Type} {k : Nat} {v : α} {l : NMap α} (h : NMap.get? k l = some v) : (k, v) ∈ l := by
  induction l with
  | nil => simp [NMap.get?] at h
  | cons b r ih =>
    obtain ⟨i, x⟩ := b
    by_cases hi : i = k
    · simp_all [NMap.get?]
    · simp only [NMap.get?, hi, if_false] at h
      exact List.mem_cons_of_mem _ (ih h)

theorem NMap.mem_set {α : Type} {k : Nat} {v : α} {l : NMap α} {c : Nat × α} (h : c ∈ NMap.set k v l) : c = (k, v) ∨ c ∈ l := by
  induction l with
  | nil => simpa [NMap.set] using h
  | cons b r ih =>
    simp only [NMap.set] at h
    split at h
    · simpa using h
    · split at h
      · exact (List.mem_cons.1 h).imp id fun h => List.mem_cons_of_mem _ h
      · rcases List.mem_cons.1 h with rfl | h
        · exact .inr (List.mem_cons_self ..)
        · exact (ih h).imp id fun h => List.mem_cons_of_mem _ h

theorem NMap.mem_del {α : Type} {k : Nat} {l : NMap α} {c : Nat × α} (h : c ∈ NMap.del k l) : c ∈ l := by
  induction l with
  | nil => simp [NMap.del] at h
  | cons b r ih =>
    simp only [NMap.del] at h
    split at h
    · exact List.mem_cons_of_mem _ h
    · simp only [List.mem_cons] at h ⊢
      exact h.imp id ih

theorem NMap.rising_set {α : Type} (k : Nat) (v : α) (l : NMap α) (h : l.rising = true) : (NMap.set k v l).rising = true := by
  induction l with
  | nil => rfl
  | cons b r ih =>
    have ⟨hb, hr⟩ := (NMap.rising_cons b r).1 h
    simp only [NMap.set]
    split
    · refine (NMap.rising_cons _ _).2 ⟨?_, h⟩
      intro c hc
      rcases List.mem_cons.1 hc with rfl | hc
      · assumption
      · have := hb c hc; simp only at *; omega
    · split
      · rename_i e; subst e
        exact (NMap.rising_cons _ _).2 ⟨hb, hr⟩
      · refine (NMap.rising_cons _ _).2 ⟨?_, ih hr⟩
        intro c hc
        rcases NMap.mem_set hc with rfl | hc
        · simp only at *; omega
        · exact hb c hc

theorem NMap.rising_del {α : Type} (k : Nat) (l : NMap α) (h : l.rising = true) : (NMap.del k l).rising = true := by
  induction l with
  | nil => rfl
  | cons b r ih =>
    have ⟨hb, hr⟩ := (NMap.rising_cons b r).1 h
    simp only [NMap.del]
    split
    · exact hr
    · exact (NMap.rising_cons _ _).2 ⟨fun c hc => hb c (NMap.mem_del hc), ih hr⟩

theorem NMap.rising_filter {α : Type} (p : Nat × α → Bool) (l : NMap α) (h : l.rising = true) :
    NMap.rising (l.filter p) = true := by
  induction l with
  | nil => rfl
  | cons b r ih =>
    have ⟨hb, hr⟩ := (NMap.rising_cons b r).1 h
    simp only [List.filter_cons]
    split
    · exact (NMap.rising_cons _ _).2 ⟨fun c hc => hb c (List.mem_filter.1 hc).1, ih hr⟩
    · exact ih hr

@[simp] theorem NMap.get?_set_self {α : Type} (k : Nat) (v : α) (l : NMap α) : NMap.get? k (NMap.set k v l) = some v := by
  induction l with
  | nil => simp [NMap.set, NMap.get?]
  | cons b r ih =>
    simp only [NMap.set]
    split
    · simp [NMap.get?]
    · split
      · simp [NMap.get?]
      · rename_i h; simp [NMap.get?, Ne.symm h, ih]

theorem NMap.get?_set_ne {α : Type} {j k : Nat} (v : α) (l : NMap α) (h : j ≠ k) :
    NMap.get? j (NMap.set k v l) = NMap.get? j l := by
  induction l with
  | nil => simp [NMap.set, NMap.get?, h.symm]
  | cons b r ih =>
    simp only [NMap.set]
    split
    · simp [NMap.get?, h.symm]
    · split
      · rename_i e; subst e; simp [NMap.get?, h.symm]
      · simp [NMap.get?, ih]

theorem NMap.get?_del_ne {α : Type} {j k : Nat} (l : NMap α) (h : j ≠ k) : NMap.get? j (NMap.del k l) = NMap.get? j l := by
  induction l with
  | nil => rfl
  | cons b r ih =>
    simp only [NMap.del]
    split
    · rename_i e; simp [NMap.get?, e, h.symm]
    · simp [NMap.get?, ih]

theorem NMap.get?_del_self {α : Type} (k : Nat) (l : NMap α) (h : l.rising = true) : NMap.get? k (NMap.del k l) = none := by
  induction l with
  | nil => rfl
  | cons b r ih =>
    have ⟨hb, hr⟩ := (NMap.rising_cons b r).1 h
    simp only [NMap.del]
    split
    · rename_i e; exact NMap.get?_eq_none _ _ fun c hc => by have := hb c hc; omega
    · rename_i e; simp [NMap.get?, e, ih hr]

theorem NMap.getD_set {α : Type} (l : NMap α) (j k : Nat) (v d : α) :
    NMap.getD (NMap.set k v l) j d = if j = k then v else l.getD j d := by
  unfold NMap.getD
  split
  · rename_i h; subst h; simp
  · rename_i h; rw [NMap.get?_set_ne _ _ h]

theorem NMap.getD_upd {α : Type} (l : NMap α) (j k : Nat) (d : α) (f : α → α) :
    (NMap.upd l k d f).getD j d = if j = k then f (l.getD k d) else l.getD j d := by
  rw [NMap.upd, NMap.getD_set]

theorem NMap.rising_upd {α : Type} (l : NMap α) (k : Nat) (d : α) (f : α → α) (h : l.rising = true) :
    (NMap.upd l k d f).rising = true := NMap.rising_set _ _ _ h

theorem NMap.get?_of_mem {α : Type} {l : NMap α} (h : l.rising = true) {c : Nat × α} (hc : c ∈ l) : NMap.get? c.1 l = some c.2 := by
  induction l with
  | nil => simp at hc
  | cons b r ih =>
    have ⟨hb, hr⟩ := (NMap.rising_cons b r).1 h
    rcases List.mem_cons.1 hc with rfl | hc
    · simp [NMap.get?]
    · have := hb c hc
      simp [NMap.get?, show b.1 ≠ c.1 by omega, ih hr hc]

theorem NMap.getD_filter {α : Type} (p : Nat → Bool) (l : NMap α) (k : Nat) (d : α) :
    NMap.getD (l.filter fun c => p c.1) k d = if p k then NMap.getD l k d else d := by
  induction l with
  | nil => simp [NMap.getD, NMap.get?]
  | cons b r ih =>
    obtain ⟨i, x⟩ := b
    simp only [NMap.getD] at ih
    by_cases hi : i = k
    · subst hi
      cases hp : p i
      · simpa [List.filter_cons, NMap.getD, hp] using ih
      · simp [NMap.getD, NMap.get?, hp]
    · cases hp : p i
      · simpa [List.filter_cons, NMap.getD, NMap.get?, hp, hi] using ih
      · simpa [List.filter_cons, NMap.getD, NMap.get?, hp, hi] using ih

/-! Sets of numbers. -/

theorem NSet.has_iff (k : Nat) (t : NSet) : NSet.has k t = true ↔ k ∈ t := by
  simp [NSet.has]

theorem NSet.mem_add (j k : Nat) (t : NSet) : j ∈ NSet.add k t ↔ j = k ∨ j ∈ t := by
  induction t with
  | nil => simp [NSet.add]
  | cons b r ih =>
    simp only [NSet.add]
    split
    · simp
    · split
      · rename_i h; subst h; simp
      · simp only [List.mem_cons, ih, or_left_comm]

theorem NSet.mem_del {j k : Nat} {t : NSet} (h : j ∈ NSet.del k t) : j ∈ t := by
  induction t with
  | nil => simp [NSet.del] at h
  | cons b r ih =>
    simp only [NSet.del] at h
    split at h
    · exact List.mem_cons_of_mem _ h
    · simp only [List.mem_cons] at h ⊢; exact h.imp id ih

theorem NSet.mem_del_ne {j k : Nat} {t : NSet} (hjk : j ≠ k) : j ∈ NSet.del k t ↔ j ∈ t := by
  induction t with
  | nil => simp [NSet.del]
  | cons b r ih =>
    simp only [NSet.del]
    split
    · rename_i h; subst h; simp [hjk]
    · simp [ih]

/-! Memory. -/

theorem Memory.wf_iff (m : Memory) : m.wf = true ↔ NMap.rising m = true ∧ ∀ c ∈ m, c.2 ≠ Memory.blank := by
  simp [Memory.wf]

theorem Memory.wf_nil : Memory.wf [] = true := rfl

theorem Memory.write_wf (m : Memory) (a : Nat) (b : BitVec 8) (h : m.wf = true) : (m.write a b).wf = true := by
  obtain ⟨hr, hn⟩ := (Memory.wf_iff m).1 h
  rw [Memory.wf_iff]
  unfold Memory.write
  split
  · exact ⟨NMap.rising_del _ _ hr, fun c hc => hn c (NMap.mem_del hc)⟩
  · rename_i hb
    refine ⟨NMap.rising_set _ _ _ hr, fun c hc => ?_⟩
    rcases NMap.mem_set hc with rfl | hc
    · exact hb
    · exact hn c hc

theorem Memory.writeL_wf (m : Memory) (a : Nat) (l : List (BitVec 8)) (h : m.wf = true) : (m.writeL a l).wf = true := by
  induction l generalizing m a with
  | nil => exact h
  | cons b r ih => exact ih _ _ (Memory.write_wf m a b h)

theorem Memory.writeO_wf (m : Memory) (a : Nat) (l : List (Option (BitVec 8))) (h : m.wf = true) : (m.writeO a l).wf = true := by
  induction l generalizing m a with
  | nil => exact h
  | cons b r ih =>
    cases b with
    | none => exact ih _ _ h
    | some b => exact ih _ _ (Memory.write_wf m a b h)

theorem Memory.filter_wf (m : Memory) (p : Host.Cell → Bool) (h : m.wf = true) : Memory.wf (m.filter p) = true := by
  obtain ⟨hr, hn⟩ := (Memory.wf_iff m).1 h
  exact (Memory.wf_iff _).2 ⟨NMap.rising_filter _ _ hr, fun c hc => hn c (List.mem_filter.1 hc).1⟩

/-- A byte read after a write. -/
theorem Memory.read_write (m : Memory) (a x : Nat) (b : BitVec 8) (h : m.wf = true) :
    (m.write a b).read x = if x = a then b else m.read x := by
  obtain ⟨hr, -⟩ := (Memory.wf_iff m).1 h
  unfold Memory.read Memory.write NMap.getD
  split
  · rename_i hb
    split
    · rename_i hx; subst hx; rw [NMap.get?_del_self _ _ hr]; exact hb.symm
    · rename_i hx; rw [NMap.get?_del_ne _ hx]
  · split
    · rename_i hx; subst hx; simp
    · rename_i hx; rw [NMap.get?_set_ne _ _ hx]

/-- A byte read elsewhere than it was written, in any memory. -/
theorem Memory.read_write_ne (m : Memory) {a x : Nat} (b : BitVec 8) (h : x ≠ a) : (m.write a b).read x = m.read x := by
  unfold Memory.read Memory.write NMap.getD
  split
  · rw [NMap.get?_del_ne _ h]
  · rw [NMap.get?_set_ne _ _ h]

/-- A byte read after a range is written. -/
theorem Memory.read_writeL (m : Memory) (a x : Nat) (l : List (BitVec 8)) (h : m.wf = true) :
    (m.writeL a l).read x = if a ≤ x ∧ x < a + l.length then l.getD (x - a) 0 else m.read x := by
  induction l generalizing m a with
  | nil => rw [if_neg (by simp)]; rfl
  | cons b r ih =>
    rw [Memory.writeL, ih _ _ (Memory.write_wf m a b h), Memory.read_write m a x b h]
    by_cases hx : x = a
    · subst hx; rw [if_neg (by omega), if_pos rfl, if_pos (by simp)]; simp
    · by_cases hr : a + 1 ≤ x ∧ x < a + 1 + r.length
      · rw [if_pos hr, if_pos (by simp only [List.length_cons]; omega), show x - a = (x - (a + 1)) + 1 by omega]; simp
      · rw [if_neg hr, if_neg hx, if_neg (by simp only [List.length_cons]; omega)]

/-- A byte read after the bytes that are present are written. -/
theorem Memory.read_writeO (m : Memory) (a x : Nat) (l : List (Option (BitVec 8))) (h : m.wf = true) :
    (m.writeO a l).read x = if a ≤ x then ((l[x - a]?).join).getD (m.read x) else m.read x := by
  induction l generalizing m a with
  | nil => simp [Memory.writeO]
  | cons b r ih =>
    cases b with
    | none =>
      rw [Memory.writeO, ih _ _ h]
      by_cases hx : x = a
      · subst hx; rw [if_neg (by omega)]; simp
      · by_cases hr : a ≤ x
        · rw [if_pos (by omega), if_pos hr, show x - a = (x - (a + 1)) + 1 by omega]; simp
        · rw [if_neg (by omega), if_neg hr]
    | some b =>
      rw [Memory.writeO, ih _ _ (Memory.write_wf m a b h), Memory.read_write m a x b h]
      by_cases hx : x = a
      · subst hx; rw [if_neg (by omega)]; simp
      · by_cases hr : a ≤ x
        · rw [if_pos (by omega), if_pos hr, if_neg hx, show x - a = (x - (a + 1)) + 1 by omega]; simp
        · rw [if_neg (by omega), if_neg hr, if_neg hx]

/-- Bytes outside a range are as they were, in any memory. -/
theorem Memory.read_writeO_outside (m : Memory) (a x : Nat) (l : List (Option (BitVec 8))) (h : x < a ∨ a + l.length ≤ x) :
    (m.writeO a l).read x = m.read x := by
  induction l generalizing m a with
  | nil => rfl
  | cons b r ih =>
    simp only [List.length_cons] at h
    cases b with
    | none => exact ih _ _ (by omega)
    | some b => rw [Memory.writeO, ih _ _ (by omega), Memory.read_write_ne _ _ (by omega)]

theorem Memory.read_filter (m : Memory) (p : Nat → Bool) (x : Nat) :
    Memory.read (m.filter fun c => p c.1) x = if p x then m.read x else 0 := NMap.getD_filter p m x 0

/-- Memories in the canonical form that read alike are the same list. -/
theorem Memory.eq_of_read (m n : Memory) (hm : m.wf = true) (hn : n.wf = true) (h : ∀ a, m.read a = n.read a) : m = n := by
  have key : ∀ (m n : Memory), m.wf = true → n.wf = true → (∀ a, m.read a = n.read a) → ∀ c ∈ m, c ∈ n := by
    intro m n hm hn h c hc
    obtain ⟨hr, hb⟩ := (Memory.wf_iff m).1 hm
    have h1 : NMap.get? c.1 m = some c.2 := NMap.get?_of_mem hr hc
    have h2 := h c.1
    simp only [Memory.read, NMap.getD, h1, Option.getD_some] at h2
    cases h3 : NMap.get? c.1 n with
    | none => rw [h3] at h2; exact absurd h2 (hb c hc)
    | some y => rw [h3] at h2; simp only [Option.getD_some] at h2; exact (h2 ▸ NMap.mem_of_get? h3 : (c.1, c.2) ∈ n)
  have sorted : ∀ m : Memory, NMap.rising m = true → m.Pairwise fun a b => a.1 < b.1 := by
    intro m hm
    induction m with
    | nil => exact .nil
    | cons b r ih => have ⟨hb, hr⟩ := (NMap.rising_cons b r).1 hm; exact .cons hb (ih hr)
  have sm := sorted m ((Memory.wf_iff m).1 hm).1
  have sn := sorted n ((Memory.wf_iff n).1 hn).1
  induction m generalizing n with
  | nil =>
    cases n with
    | nil => rfl
    | cons b r => exact absurd (key _ _ hn hm (fun a => (h a).symm) b (by simp)) (by simp)
  | cons b r ih =>
    cases n with
    | nil => exact absurd (key _ _ hm hn h b (by simp)) (by simp)
    | cons c q =>
      have hb := List.mem_cons.1 (key _ _ hm hn h b (by simp))
      have hc := List.mem_cons.1 (key _ _ hn hm (fun a => (h a).symm) c (by simp))
      have p1 := List.pairwise_cons.1 sm
      have p2 := List.pairwise_cons.1 sn
      have e : b = c := by
        rcases hb with e | hb
        · exact e
        · rcases hc with e | hc
          · exact e.symm
          · have := p1.1 c hc; have := p2.1 b hb; omega
      subst e
      have hwr : Memory.wf r = true := by
        obtain ⟨x, y⟩ := (Memory.wf_iff _).1 hm
        exact (Memory.wf_iff _).2 ⟨((NMap.rising_cons _ _).1 x).2, fun c hc => y c (by simp [hc])⟩
      have hwq : Memory.wf q = true := by
        obtain ⟨x, y⟩ := (Memory.wf_iff _).1 hn
        exact (Memory.wf_iff _).2 ⟨((NMap.rising_cons _ _).1 x).2, fun c hc => y c (by simp [hc])⟩
      have hread : ∀ a, Memory.read r a = Memory.read q a := by
        intro a
        have ha := h a
        simp only [Memory.read, NMap.getD, NMap.get?] at ha ⊢
        by_cases e : b.1 = a
        · rw [NMap.get?_eq_none a r fun c hc => by have := p1.1 c hc; omega,
            NMap.get?_eq_none a q fun c hc => by have := p2.1 c hc; omega]
        · simpa [e] using ha
      rw [ih q hwr hwq hread p1.2 p2.2]

/-! Bytes of numbers. -/

@[simp] theorem leBytes_length (n x : Nat) : (leBytes n x).length = n := by
  induction n generalizing x with
  | zero => rfl
  | succ n ih => simp [leBytes, ih]

/-- A number read back from its bytes. -/
theorem leNat_leBytes (n x : Nat) : leNat (leBytes n x) = x % 256 ^ n := by
  induction n generalizing x with
  | zero => simp [leBytes, leNat, Nat.mod_one]
  | succ n ih =>
    simp only [leBytes, leNat, ih, BitVec.toNat_ofNat, Nat.reducePow]
    rw [Nat.pow_succ, Nat.mul_comm (256 ^ n), Nat.mod_mul]

end Sys2Proof.Machine
end

