-- ==== Sys2Proof/Laws/State.lean ====
section
/-!
SUPPORT. What each update of a field changes and what it leaves alone: one lemma for each field of State, and for each field
of the acting strand where the update is one of it.
-/

namespace Sys2Proof.Machine

/-! `onAct`. -/

@[simp] theorem State.onAct_act (s : State) (f : Strand → Strand) : (s.onAct f).act = f s.act := rfl
@[simp] theorem State.onAct_parked (s : State) (f : Strand → Strand) : (s.onAct f).parked = s.parked := rfl
@[simp] theorem State.onAct_ir (s : State) (f : Strand → Strand) : (s.onAct f).ir = s.ir := rfl
@[simp] theorem State.onAct_mem (s : State) (f : Strand → Strand) : (s.onAct f).mem = s.mem := rfl
@[simp] theorem State.onAct_full (s : State) (f : Strand → Strand) : (s.onAct f).full = s.full := rfl
@[simp] theorem State.onAct_poison (s : State) (f : Strand → Strand) : (s.onAct f).poison = s.poison := rfl
@[simp] theorem State.onAct_dies (s : State) (f : Strand → Strand) : (s.onAct f).dies = s.dies := rfl
@[simp] theorem State.onAct_flight (s : State) (f : Strand → Strand) : (s.onAct f).flight = s.flight := rfl
@[simp] theorem State.onAct_dom (s : State) (f : Strand → Strand) : (s.onAct f).dom = s.dom := rfl
@[simp] theorem State.onAct_cores (s : State) (f : Strand → Strand) : (s.onAct f).cores = s.cores := rfl
@[simp] theorem State.onAct_pairs (s : State) (f : Strand → Strand) : (s.onAct f).pairs = s.pairs := rfl
@[simp] theorem State.onAct_l2tlb (s : State) (f : Strand → Strand) : (s.onAct f).l2tlb = s.l2tlb := rfl
@[simp] theorem State.onAct_pins (s : State) (f : Strand → Strand) : (s.onAct f).pins = s.pins := rfl
@[simp] theorem State.onAct_barriers (s : State) (f : Strand → Strand) : (s.onAct f).barriers = s.barriers := rfl
@[simp] theorem State.onAct_engines (s : State) (f : Strand → Strand) : (s.onAct f).engines = s.engines := rfl
@[simp] theorem State.onAct_nextOp (s : State) (f : Strand → Strand) : (s.onAct f).nextOp = s.nextOp := rfl
@[simp] theorem State.onAct_queries (s : State) (f : Strand → Strand) : (s.onAct f).queries = s.queries := rfl
@[simp] theorem State.onAct_mill (s : State) (f : Strand → Strand) : (s.onAct f).mill = s.mill := rfl
@[simp] theorem State.onAct_quads (s : State) (f : Strand → Strand) : (s.onAct f).quads = s.quads := rfl
@[simp] theorem State.onAct_power (s : State) (f : Strand → Strand) : (s.onAct f).power = s.power := rfl
@[simp] theorem State.onAct_links (s : State) (f : Strand → Strand) : (s.onAct f).links = s.links := rfl
@[simp] theorem State.onAct_mgmt (s : State) (f : Strand → Strand) : (s.onAct f).mgmt = s.mgmt := rfl
@[simp] theorem State.onAct_parts (s : State) (f : Strand → Strand) : (s.onAct f).parts = s.parts := rfl
@[simp] theorem State.onAct_board (s : State) (f : Strand → Strand) : (s.onAct f).board = s.board := rfl
@[simp] theorem State.onAct_agenda (s : State) (f : Strand → Strand) : (s.onAct f).agenda = s.agenda := rfl
@[simp] theorem State.onAct_budget (s : State) (f : Strand → Strand) : (s.onAct f).budget = s.budget := rfl
@[simp] theorem State.onAct_freeCount (s : State) (f : Strand → Strand) : (s.onAct f).freeCount = s.freeCount := rfl

/-! `onCsr`. -/

@[simp] theorem State.onCsr_parked (s : State) (f : Csrs → Csrs) : (s.onCsr f).parked = s.parked := rfl
@[simp] theorem State.onCsr_ir (s : State) (f : Csrs → Csrs) : (s.onCsr f).ir = s.ir := rfl
@[simp] theorem State.onCsr_mem (s : State) (f : Csrs → Csrs) : (s.onCsr f).mem = s.mem := rfl
@[simp] theorem State.onCsr_full (s : State) (f : Csrs → Csrs) : (s.onCsr f).full = s.full := rfl
@[simp] theorem State.onCsr_poison (s : State) (f : Csrs → Csrs) : (s.onCsr f).poison = s.poison := rfl
@[simp] theorem State.onCsr_dies (s : State) (f : Csrs → Csrs) : (s.onCsr f).dies = s.dies := rfl
@[simp] theorem State.onCsr_flight (s : State) (f : Csrs → Csrs) : (s.onCsr f).flight = s.flight := rfl
@[simp] theorem State.onCsr_dom (s : State) (f : Csrs → Csrs) : (s.onCsr f).dom = s.dom := rfl
@[simp] theorem State.onCsr_cores (s : State) (f : Csrs → Csrs) : (s.onCsr f).cores = s.cores := rfl
@[simp] theorem State.onCsr_pairs (s : State) (f : Csrs → Csrs) : (s.onCsr f).pairs = s.pairs := rfl
@[simp] theorem State.onCsr_l2tlb (s : State) (f : Csrs → Csrs) : (s.onCsr f).l2tlb = s.l2tlb := rfl
@[simp] theorem State.onCsr_pins (s : State) (f : Csrs → Csrs) : (s.onCsr f).pins = s.pins := rfl
@[simp] theorem State.onCsr_barriers (s : State) (f : Csrs → Csrs) : (s.onCsr f).barriers = s.barriers := rfl
@[simp] theorem State.onCsr_engines (s : State) (f : Csrs → Csrs) : (s.onCsr f).engines = s.engines := rfl
@[simp] theorem State.onCsr_nextOp (s : State) (f : Csrs → Csrs) : (s.onCsr f).nextOp = s.nextOp := rfl
@[simp] theorem State.onCsr_queries (s : State) (f : Csrs → Csrs) : (s.onCsr f).queries = s.queries := rfl
@[simp] theorem State.onCsr_mill (s : State) (f : Csrs → Csrs) : (s.onCsr f).mill = s.mill := rfl
@[simp] theorem State.onCsr_quads (s : State) (f : Csrs → Csrs) : (s.onCsr f).quads = s.quads := rfl
@[simp] theorem State.onCsr_power (s : State) (f : Csrs → Csrs) : (s.onCsr f).power = s.power := rfl
@[simp] theorem State.onCsr_links (s : State) (f : Csrs → Csrs) : (s.onCsr f).links = s.links := rfl
@[simp] theorem State.onCsr_mgmt (s : State) (f : Csrs → Csrs) : (s.onCsr f).mgmt = s.mgmt := rfl
@[simp] theorem State.onCsr_parts (s : State) (f : Csrs → Csrs) : (s.onCsr f).parts = s.parts := rfl
@[simp] theorem State.onCsr_board (s : State) (f : Csrs → Csrs) : (s.onCsr f).board = s.board := rfl
@[simp] theorem State.onCsr_agenda (s : State) (f : Csrs → Csrs) : (s.onCsr f).agenda = s.agenda := rfl
@[simp] theorem State.onCsr_budget (s : State) (f : Csrs → Csrs) : (s.onCsr f).budget = s.budget := rfl
@[simp] theorem State.onCsr_freeCount (s : State) (f : Csrs → Csrs) : (s.onCsr f).freeCount = s.freeCount := rfl
@[simp] theorem State.onCsr_act_sid (s : State) (f : Csrs → Csrs) : (s.onCsr f).act.sid = s.act.sid := rfl
@[simp] theorem State.onCsr_act_core (s : State) (f : Csrs → Csrs) : (s.onCsr f).act.core = s.act.core := rfl
@[simp] theorem State.onCsr_act_hwSlot (s : State) (f : Csrs → Csrs) : (s.onCsr f).act.hwSlot = s.act.hwSlot := rfl
@[simp] theorem State.onCsr_act_part (s : State) (f : Csrs → Csrs) : (s.onCsr f).act.part = s.act.part := rfl
@[simp] theorem State.onCsr_act_node (s : State) (f : Csrs → Csrs) : (s.onCsr f).act.node = s.act.node := rfl
@[simp] theorem State.onCsr_act_index (s : State) (f : Csrs → Csrs) : (s.onCsr f).act.index = s.act.index := rfl
@[simp] theorem State.onCsr_act_life (s : State) (f : Csrs → Csrs) : (s.onCsr f).act.life = s.act.life := rfl
@[simp] theorem State.onCsr_act_priv (s : State) (f : Csrs → Csrs) : (s.onCsr f).act.priv = s.act.priv := rfl
@[simp] theorem State.onCsr_act_base (s : State) (f : Csrs → Csrs) : (s.onCsr f).act.base = s.act.base := rfl
@[simp] theorem State.onCsr_act_hdr (s : State) (f : Csrs → Csrs) : (s.onCsr f).act.hdr = s.act.hdr := rfl
@[simp] theorem State.onCsr_act_clMap (s : State) (f : Csrs → Csrs) : (s.onCsr f).act.clMap = s.act.clMap := rfl
@[simp] theorem State.onCsr_act_pc (s : State) (f : Csrs → Csrs) : (s.onCsr f).act.pc = s.act.pc := rfl
@[simp] theorem State.onCsr_act_g (s : State) (f : Csrs → Csrs) : (s.onCsr f).act.g = s.act.g := rfl
@[simp] theorem State.onCsr_act_v (s : State) (f : Csrs → Csrs) : (s.onCsr f).act.v = s.act.v := rfl
@[simp] theorem State.onCsr_act_vok (s : State) (f : Csrs → Csrs) : (s.onCsr f).act.vok = s.act.vok := rfl
@[simp] theorem State.onCsr_act_m (s : State) (f : Csrs → Csrs) : (s.onCsr f).act.m = s.act.m := rfl
@[simp] theorem State.onCsr_act_w (s : State) (f : Csrs → Csrs) : (s.onCsr f).act.w = s.act.w := rfl
@[simp] theorem State.onCsr_act_cb (s : State) (f : Csrs → Csrs) : (s.onCsr f).act.cb = s.act.cb := rfl
@[simp] theorem State.onCsr_act_csr (s : State) (f : Csrs → Csrs) : (s.onCsr f).act.csr = f s.act.csr := rfl
@[simp] theorem State.onCsr_act_arms (s : State) (f : Csrs → Csrs) : (s.onCsr f).act.arms = s.act.arms := rfl
@[simp] theorem State.onCsr_act_loop (s : State) (f : Csrs → Csrs) : (s.onCsr f).act.loop = s.act.loop := rfl
@[simp] theorem State.onCsr_act_streams (s : State) (f : Csrs → Csrs) : (s.onCsr f).act.streams = s.act.streams := rfl
@[simp] theorem State.onCsr_act_posted (s : State) (f : Csrs → Csrs) : (s.onCsr f).act.posted = s.act.posted := rfl
@[simp] theorem State.onCsr_act_resume (s : State) (f : Csrs → Csrs) : (s.onCsr f).act.resume = s.act.resume := rfl
@[simp] theorem State.onCsr_act_wait (s : State) (f : Csrs → Csrs) : (s.onCsr f).act.wait = s.act.wait := rfl
@[simp] theorem State.onCsr_act_hold (s : State) (f : Csrs → Csrs) : (s.onCsr f).act.hold = s.act.hold := rfl
@[simp] theorem State.onCsr_act_woke (s : State) (f : Csrs → Csrs) : (s.onCsr f).act.woke = s.act.woke := rfl
@[simp] theorem State.onCsr_act_late (s : State) (f : Csrs → Csrs) : (s.onCsr f).act.late = s.act.late := rfl
@[simp] theorem State.onCsr_act_frame (s : State) (f : Csrs → Csrs) : (s.onCsr f).act.frame = s.act.frame := rfl
@[simp] theorem State.onCsr_act_arrivals (s : State) (f : Csrs → Csrs) : (s.onCsr f).act.arrivals = s.act.arrivals := rfl
@[simp] theorem State.onCsr_act_prog (s : State) (f : Csrs → Csrs) : (s.onCsr f).act.prog = s.act.prog := rfl
@[simp] theorem State.onCsr_act_mat (s : State) (f : Csrs → Csrs) : (s.onCsr f).act.mat = s.act.mat := rfl

/-! `goto`. -/

@[simp] theorem State.goto_parked (s : State) (pc : Word) : (s.goto pc).parked = s.parked := rfl
@[simp] theorem State.goto_ir (s : State) (pc : Word) : (s.goto pc).ir = s.ir := rfl
@[simp] theorem State.goto_mem (s : State) (pc : Word) : (s.goto pc).mem = s.mem := rfl
@[simp] theorem State.goto_full (s : State) (pc : Word) : (s.goto pc).full = s.full := rfl
@[simp] theorem State.goto_poison (s : State) (pc : Word) : (s.goto pc).poison = s.poison := rfl
@[simp] theorem State.goto_dies (s : State) (pc : Word) : (s.goto pc).dies = s.dies := rfl
@[simp] theorem State.goto_flight (s : State) (pc : Word) : (s.goto pc).flight = s.flight := rfl
@[simp] theorem State.goto_dom (s : State) (pc : Word) : (s.goto pc).dom = s.dom := rfl
@[simp] theorem State.goto_cores (s : State) (pc : Word) : (s.goto pc).cores = s.cores := rfl
@[simp] theorem State.goto_pairs (s : State) (pc : Word) : (s.goto pc).pairs = s.pairs := rfl
@[simp] theorem State.goto_l2tlb (s : State) (pc : Word) : (s.goto pc).l2tlb = s.l2tlb := rfl
@[simp] theorem State.goto_pins (s : State) (pc : Word) : (s.goto pc).pins = s.pins := rfl
@[simp] theorem State.goto_barriers (s : State) (pc : Word) : (s.goto pc).barriers = s.barriers := rfl
@[simp] theorem State.goto_engines (s : State) (pc : Word) : (s.goto pc).engines = s.engines := rfl
@[simp] theorem State.goto_nextOp (s : State) (pc : Word) : (s.goto pc).nextOp = s.nextOp := rfl
@[simp] theorem State.goto_queries (s : State) (pc : Word) : (s.goto pc).queries = s.queries := rfl
@[simp] theorem State.goto_mill (s : State) (pc : Word) : (s.goto pc).mill = s.mill := rfl
@[simp] theorem State.goto_quads (s : State) (pc : Word) : (s.goto pc).quads = s.quads := rfl
@[simp] theorem State.goto_power (s : State) (pc : Word) : (s.goto pc).power = s.power := rfl
@[simp] theorem State.goto_links (s : State) (pc : Word) : (s.goto pc).links = s.links := rfl
@[simp] theorem State.goto_mgmt (s : State) (pc : Word) : (s.goto pc).mgmt = s.mgmt := rfl
@[simp] theorem State.goto_parts (s : State) (pc : Word) : (s.goto pc).parts = s.parts := rfl
@[simp] theorem State.goto_board (s : State) (pc : Word) : (s.goto pc).board = s.board := rfl
@[simp] theorem State.goto_agenda (s : State) (pc : Word) : (s.goto pc).agenda = s.agenda := rfl
@[simp] theorem State.goto_budget (s : State) (pc : Word) : (s.goto pc).budget = s.budget := rfl
@[simp] theorem State.goto_freeCount (s : State) (pc : Word) : (s.goto pc).freeCount = s.freeCount := rfl
@[simp] theorem State.goto_act_sid (s : State) (pc : Word) : (s.goto pc).act.sid = s.act.sid := rfl
@[simp] theorem State.goto_act_core (s : State) (pc : Word) : (s.goto pc).act.core = s.act.core := rfl
@[simp] theorem State.goto_act_hwSlot (s : State) (pc : Word) : (s.goto pc).act.hwSlot = s.act.hwSlot := rfl
@[simp] theorem State.goto_act_part (s : State) (pc : Word) : (s.goto pc).act.part = s.act.part := rfl
@[simp] theorem State.goto_act_node (s : State) (pc : Word) : (s.goto pc).act.node = s.act.node := rfl
@[simp] theorem State.goto_act_index (s : State) (pc : Word) : (s.goto pc).act.index = s.act.index := rfl
@[simp] theorem State.goto_act_life (s : State) (pc : Word) : (s.goto pc).act.life = s.act.life := rfl
@[simp] theorem State.goto_act_priv (s : State) (pc : Word) : (s.goto pc).act.priv = s.act.priv := rfl
@[simp] theorem State.goto_act_base (s : State) (pc : Word) : (s.goto pc).act.base = s.act.base := rfl
@[simp] theorem State.goto_act_hdr (s : State) (pc : Word) : (s.goto pc).act.hdr = s.act.hdr := rfl
@[simp] theorem State.goto_act_clMap (s : State) (pc : Word) : (s.goto pc).act.clMap = s.act.clMap := rfl
@[simp] theorem State.goto_act_pc (s : State) (pc : Word) : (s.goto pc).act.pc = pc := rfl
@[simp] theorem State.goto_act_g (s : State) (pc : Word) : (s.goto pc).act.g = s.act.g := rfl
@[simp] theorem State.goto_act_v (s : State) (pc : Word) : (s.goto pc).act.v = s.act.v := rfl
@[simp] theorem State.goto_act_vok (s : State) (pc : Word) : (s.goto pc).act.vok = s.act.vok := rfl
@[simp] theorem State.goto_act_m (s : State) (pc : Word) : (s.goto pc).act.m = s.act.m := rfl
@[simp] theorem State.goto_act_w (s : State) (pc : Word) : (s.goto pc).act.w = s.act.w := rfl
@[simp] theorem State.goto_act_cb (s : State) (pc : Word) : (s.goto pc).act.cb = s.act.cb := rfl
@[simp] theorem State.goto_act_csr (s : State) (pc : Word) : (s.goto pc).act.csr = s.act.csr := rfl
@[simp] theorem State.goto_act_arms (s : State) (pc : Word) : (s.goto pc).act.arms = s.act.arms := rfl
@[simp] theorem State.goto_act_loop (s : State) (pc : Word) : (s.goto pc).act.loop = s.act.loop := rfl
@[simp] theorem State.goto_act_streams (s : State) (pc : Word) : (s.goto pc).act.streams = s.act.streams := rfl
@[simp] theorem State.goto_act_posted (s : State) (pc : Word) : (s.goto pc).act.posted = s.act.posted := rfl
@[simp] theorem State.goto_act_resume (s : State) (pc : Word) : (s.goto pc).act.resume = s.act.resume := rfl
@[simp] theorem State.goto_act_wait (s : State) (pc : Word) : (s.goto pc).act.wait = s.act.wait := rfl
@[simp] theorem State.goto_act_hold (s : State) (pc : Word) : (s.goto pc).act.hold = s.act.hold := rfl
@[simp] theorem State.goto_act_woke (s : State) (pc : Word) : (s.goto pc).act.woke = s.act.woke := rfl
@[simp] theorem State.goto_act_late (s : State) (pc : Word) : (s.goto pc).act.late = s.act.late := rfl
@[simp] theorem State.goto_act_frame (s : State) (pc : Word) : (s.goto pc).act.frame = s.act.frame := rfl
@[simp] theorem State.goto_act_arrivals (s : State) (pc : Word) : (s.goto pc).act.arrivals = s.act.arrivals := rfl
@[simp] theorem State.goto_act_prog (s : State) (pc : Word) : (s.goto pc).act.prog = s.act.prog := rfl
@[simp] theorem State.goto_act_mat (s : State) (pc : Word) : (s.goto pc).act.mat = s.act.mat := rfl

/-! `raise`. -/

@[simp] theorem State.raise_parked (s : State) (f : FFlags) : (s.raise f).parked = s.parked := rfl
@[simp] theorem State.raise_ir (s : State) (f : FFlags) : (s.raise f).ir = s.ir := rfl
@[simp] theorem State.raise_mem (s : State) (f : FFlags) : (s.raise f).mem = s.mem := rfl
@[simp] theorem State.raise_full (s : State) (f : FFlags) : (s.raise f).full = s.full := rfl
@[simp] theorem State.raise_poison (s : State) (f : FFlags) : (s.raise f).poison = s.poison := rfl
@[simp] theorem State.raise_dies (s : State) (f : FFlags) : (s.raise f).dies = s.dies := rfl
@[simp] theorem State.raise_flight (s : State) (f : FFlags) : (s.raise f).flight = s.flight := rfl
@[simp] theorem State.raise_dom (s : State) (f : FFlags) : (s.raise f).dom = s.dom := rfl
@[simp] theorem State.raise_cores (s : State) (f : FFlags) : (s.raise f).cores = s.cores := rfl
@[simp] theorem State.raise_pairs (s : State) (f : FFlags) : (s.raise f).pairs = s.pairs := rfl
@[simp] theorem State.raise_l2tlb (s : State) (f : FFlags) : (s.raise f).l2tlb = s.l2tlb := rfl
@[simp] theorem State.raise_pins (s : State) (f : FFlags) : (s.raise f).pins = s.pins := rfl
@[simp] theorem State.raise_barriers (s : State) (f : FFlags) : (s.raise f).barriers = s.barriers := rfl
@[simp] theorem State.raise_engines (s : State) (f : FFlags) : (s.raise f).engines = s.engines := rfl
@[simp] theorem State.raise_nextOp (s : State) (f : FFlags) : (s.raise f).nextOp = s.nextOp := rfl
@[simp] theorem State.raise_queries (s : State) (f : FFlags) : (s.raise f).queries = s.queries := rfl
@[simp] theorem State.raise_mill (s : State) (f : FFlags) : (s.raise f).mill = s.mill := rfl
@[simp] theorem State.raise_quads (s : State) (f : FFlags) : (s.raise f).quads = s.quads := rfl
@[simp] theorem State.raise_power (s : State) (f : FFlags) : (s.raise f).power = s.power := rfl
@[simp] theorem State.raise_links (s : State) (f : FFlags) : (s.raise f).links = s.links := rfl
@[simp] theorem State.raise_mgmt (s : State) (f : FFlags) : (s.raise f).mgmt = s.mgmt := rfl
@[simp] theorem State.raise_parts (s : State) (f : FFlags) : (s.raise f).parts = s.parts := rfl
@[simp] theorem State.raise_board (s : State) (f : FFlags) : (s.raise f).board = s.board := rfl
@[simp] theorem State.raise_agenda (s : State) (f : FFlags) : (s.raise f).agenda = s.agenda := rfl
@[simp] theorem State.raise_budget (s : State) (f : FFlags) : (s.raise f).budget = s.budget := rfl
@[simp] theorem State.raise_freeCount (s : State) (f : FFlags) : (s.raise f).freeCount = s.freeCount := rfl
@[simp] theorem State.raise_act_sid (s : State) (f : FFlags) : (s.raise f).act.sid = s.act.sid := rfl
@[simp] theorem State.raise_act_core (s : State) (f : FFlags) : (s.raise f).act.core = s.act.core := rfl
@[simp] theorem State.raise_act_hwSlot (s : State) (f : FFlags) : (s.raise f).act.hwSlot = s.act.hwSlot := rfl
@[simp] theorem State.raise_act_part (s : State) (f : FFlags) : (s.raise f).act.part = s.act.part := rfl
@[simp] theorem State.raise_act_node (s : State) (f : FFlags) : (s.raise f).act.node = s.act.node := rfl
@[simp] theorem State.raise_act_index (s : State) (f : FFlags) : (s.raise f).act.index = s.act.index := rfl
@[simp] theorem State.raise_act_life (s : State) (f : FFlags) : (s.raise f).act.life = s.act.life := rfl
@[simp] theorem State.raise_act_priv (s : State) (f : FFlags) : (s.raise f).act.priv = s.act.priv := rfl
@[simp] theorem State.raise_act_base (s : State) (f : FFlags) : (s.raise f).act.base = s.act.base := rfl
@[simp] theorem State.raise_act_hdr (s : State) (f : FFlags) : (s.raise f).act.hdr = s.act.hdr := rfl
@[simp] theorem State.raise_act_clMap (s : State) (f : FFlags) : (s.raise f).act.clMap = s.act.clMap := rfl
@[simp] theorem State.raise_act_pc (s : State) (f : FFlags) : (s.raise f).act.pc = s.act.pc := rfl
@[simp] theorem State.raise_act_g (s : State) (f : FFlags) : (s.raise f).act.g = s.act.g := rfl
@[simp] theorem State.raise_act_v (s : State) (f : FFlags) : (s.raise f).act.v = s.act.v := rfl
@[simp] theorem State.raise_act_vok (s : State) (f : FFlags) : (s.raise f).act.vok = s.act.vok := rfl
@[simp] theorem State.raise_act_m (s : State) (f : FFlags) : (s.raise f).act.m = s.act.m := rfl
@[simp] theorem State.raise_act_w (s : State) (f : FFlags) : (s.raise f).act.w = s.act.w := rfl
@[simp] theorem State.raise_act_cb (s : State) (f : FFlags) : (s.raise f).act.cb = s.act.cb := rfl
@[simp] theorem State.raise_act_csr (s : State) (f : FFlags) : (s.raise f).act.csr = { s.act.csr with fflags := s.act.csr.fflags ||| f } :=
  rfl
@[simp] theorem State.raise_act_arms (s : State) (f : FFlags) : (s.raise f).act.arms = s.act.arms := rfl
@[simp] theorem State.raise_act_loop (s : State) (f : FFlags) : (s.raise f).act.loop = s.act.loop := rfl
@[simp] theorem State.raise_act_streams (s : State) (f : FFlags) : (s.raise f).act.streams = s.act.streams := rfl
@[simp] theorem State.raise_act_posted (s : State) (f : FFlags) : (s.raise f).act.posted = s.act.posted := rfl
@[simp] theorem State.raise_act_resume (s : State) (f : FFlags) : (s.raise f).act.resume = s.act.resume := rfl
@[simp] theorem State.raise_act_wait (s : State) (f : FFlags) : (s.raise f).act.wait = s.act.wait := rfl
@[simp] theorem State.raise_act_hold (s : State) (f : FFlags) : (s.raise f).act.hold = s.act.hold := rfl
@[simp] theorem State.raise_act_woke (s : State) (f : FFlags) : (s.raise f).act.woke = s.act.woke := rfl
@[simp] theorem State.raise_act_late (s : State) (f : FFlags) : (s.raise f).act.late = s.act.late := rfl
@[simp] theorem State.raise_act_frame (s : State) (f : FFlags) : (s.raise f).act.frame = s.act.frame := rfl
@[simp] theorem State.raise_act_arrivals (s : State) (f : FFlags) : (s.raise f).act.arrivals = s.act.arrivals := rfl
@[simp] theorem State.raise_act_prog (s : State) (f : FFlags) : (s.raise f).act.prog = s.act.prog := rfl
@[simp] theorem State.raise_act_mat (s : State) (f : FFlags) : (s.raise f).act.mat = s.act.mat := rfl

/-! `setV`. -/

@[simp] theorem State.setV_parked (s : State) (r : Reg) (x : BitVec 16384) : (s.setV r x).parked = s.parked := rfl
@[simp] theorem State.setV_ir (s : State) (r : Reg) (x : BitVec 16384) : (s.setV r x).ir = s.ir := rfl
@[simp] theorem State.setV_mem (s : State) (r : Reg) (x : BitVec 16384) : (s.setV r x).mem = s.mem := rfl
@[simp] theorem State.setV_full (s : State) (r : Reg) (x : BitVec 16384) : (s.setV r x).full = s.full := rfl
@[simp] theorem State.setV_poison (s : State) (r : Reg) (x : BitVec 16384) : (s.setV r x).poison = s.poison := rfl
@[simp] theorem State.setV_dies (s : State) (r : Reg) (x : BitVec 16384) : (s.setV r x).dies = s.dies := rfl
@[simp] theorem State.setV_flight (s : State) (r : Reg) (x : BitVec 16384) : (s.setV r x).flight = s.flight := rfl
@[simp] theorem State.setV_dom (s : State) (r : Reg) (x : BitVec 16384) : (s.setV r x).dom = s.dom := rfl
@[simp] theorem State.setV_cores (s : State) (r : Reg) (x : BitVec 16384) : (s.setV r x).cores = s.cores := rfl
@[simp] theorem State.setV_pairs (s : State) (r : Reg) (x : BitVec 16384) : (s.setV r x).pairs = s.pairs := rfl
@[simp] theorem State.setV_l2tlb (s : State) (r : Reg) (x : BitVec 16384) : (s.setV r x).l2tlb = s.l2tlb := rfl
@[simp] theorem State.setV_pins (s : State) (r : Reg) (x : BitVec 16384) : (s.setV r x).pins = s.pins := rfl
@[simp] theorem State.setV_barriers (s : State) (r : Reg) (x : BitVec 16384) : (s.setV r x).barriers = s.barriers := rfl
@[simp] theorem State.setV_engines (s : State) (r : Reg) (x : BitVec 16384) : (s.setV r x).engines = s.engines := rfl
@[simp] theorem State.setV_nextOp (s : State) (r : Reg) (x : BitVec 16384) : (s.setV r x).nextOp = s.nextOp := rfl
@[simp] theorem State.setV_queries (s : State) (r : Reg) (x : BitVec 16384) : (s.setV r x).queries = s.queries := rfl
@[simp] theorem State.setV_mill (s : State) (r : Reg) (x : BitVec 16384) : (s.setV r x).mill = s.mill := rfl
@[simp] theorem State.setV_quads (s : State) (r : Reg) (x : BitVec 16384) : (s.setV r x).quads = s.quads := rfl
@[simp] theorem State.setV_power (s : State) (r : Reg) (x : BitVec 16384) : (s.setV r x).power = s.power := rfl
@[simp] theorem State.setV_links (s : State) (r : Reg) (x : BitVec 16384) : (s.setV r x).links = s.links := rfl
@[simp] theorem State.setV_mgmt (s : State) (r : Reg) (x : BitVec 16384) : (s.setV r x).mgmt = s.mgmt := rfl
@[simp] theorem State.setV_parts (s : State) (r : Reg) (x : BitVec 16384) : (s.setV r x).parts = s.parts := rfl
@[simp] theorem State.setV_board (s : State) (r : Reg) (x : BitVec 16384) : (s.setV r x).board = s.board := rfl
@[simp] theorem State.setV_agenda (s : State) (r : Reg) (x : BitVec 16384) : (s.setV r x).agenda = s.agenda := rfl
@[simp] theorem State.setV_budget (s : State) (r : Reg) (x : BitVec 16384) : (s.setV r x).budget = s.budget := rfl
@[simp] theorem State.setV_freeCount (s : State) (r : Reg) (x : BitVec 16384) : (s.setV r x).freeCount = s.freeCount := rfl
@[simp] theorem State.setV_act_sid (s : State) (r : Reg) (x : BitVec 16384) : (s.setV r x).act.sid = s.act.sid := rfl
@[simp] theorem State.setV_act_core (s : State) (r : Reg) (x : BitVec 16384) : (s.setV r x).act.core = s.act.core := rfl
@[simp] theorem State.setV_act_hwSlot (s : State) (r : Reg) (x : BitVec 16384) : (s.setV r x).act.hwSlot = s.act.hwSlot := rfl
@[simp] theorem State.setV_act_part (s : State) (r : Reg) (x : BitVec 16384) : (s.setV r x).act.part = s.act.part := rfl
@[simp] theorem State.setV_act_node (s : State) (r : Reg) (x : BitVec 16384) : (s.setV r x).act.node = s.act.node := rfl
@[simp] theorem State.setV_act_index (s : State) (r : Reg) (x : BitVec 16384) : (s.setV r x).act.index = s.act.index := rfl
@[simp] theorem State.setV_act_life (s : State) (r : Reg) (x : BitVec 16384) : (s.setV r x).act.life = s.act.life := rfl
@[simp] theorem State.setV_act_priv (s : State) (r : Reg) (x : BitVec 16384) : (s.setV r x).act.priv = s.act.priv := rfl
@[simp] theorem State.setV_act_base (s : State) (r : Reg) (x : BitVec 16384) : (s.setV r x).act.base = s.act.base := rfl
@[simp] theorem State.setV_act_hdr (s : State) (r : Reg) (x : BitVec 16384) : (s.setV r x).act.hdr = s.act.hdr := rfl
@[simp] theorem State.setV_act_clMap (s : State) (r : Reg) (x : BitVec 16384) : (s.setV r x).act.clMap = s.act.clMap := rfl
@[simp] theorem State.setV_act_pc (s : State) (r : Reg) (x : BitVec 16384) : (s.setV r x).act.pc = s.act.pc := rfl
@[simp] theorem State.setV_act_g (s : State) (r : Reg) (x : BitVec 16384) : (s.setV r x).act.g = s.act.g := rfl
@[simp] theorem State.setV_act_v (s : State) (r : Reg) (x : BitVec 16384) : (s.setV r x).act.v = s.act.v.set r.toNat x := rfl
@[simp] theorem State.setV_act_vok (s : State) (r : Reg) (x : BitVec 16384) : (s.setV r x).act.vok = s.act.vok := rfl
@[simp] theorem State.setV_act_m (s : State) (r : Reg) (x : BitVec 16384) : (s.setV r x).act.m = s.act.m := rfl
@[simp] theorem State.setV_act_w (s : State) (r : Reg) (x : BitVec 16384) : (s.setV r x).act.w = s.act.w := rfl
@[simp] theorem State.setV_act_cb (s : State) (r : Reg) (x : BitVec 16384) : (s.setV r x).act.cb = s.act.cb := rfl
@[simp] theorem State.setV_act_csr (s : State) (r : Reg) (x : BitVec 16384) : (s.setV r x).act.csr = s.act.csr := rfl
@[simp] theorem State.setV_act_arms (s : State) (r : Reg) (x : BitVec 16384) : (s.setV r x).act.arms = s.act.arms := rfl
@[simp] theorem State.setV_act_loop (s : State) (r : Reg) (x : BitVec 16384) : (s.setV r x).act.loop = s.act.loop := rfl
@[simp] theorem State.setV_act_streams (s : State) (r : Reg) (x : BitVec 16384) : (s.setV r x).act.streams = s.act.streams :=
  rfl
@[simp] theorem State.setV_act_posted (s : State) (r : Reg) (x : BitVec 16384) : (s.setV r x).act.posted = s.act.posted := rfl
@[simp] theorem State.setV_act_resume (s : State) (r : Reg) (x : BitVec 16384) : (s.setV r x).act.resume = s.act.resume := rfl
@[simp] theorem State.setV_act_wait (s : State) (r : Reg) (x : BitVec 16384) : (s.setV r x).act.wait = s.act.wait := rfl
@[simp] theorem State.setV_act_hold (s : State) (r : Reg) (x : BitVec 16384) : (s.setV r x).act.hold = s.act.hold := rfl
@[simp] theorem State.setV_act_woke (s : State) (r : Reg) (x : BitVec 16384) : (s.setV r x).act.woke = s.act.woke := rfl
@[simp] theorem State.setV_act_late (s : State) (r : Reg) (x : BitVec 16384) : (s.setV r x).act.late = s.act.late := rfl
@[simp] theorem State.setV_act_frame (s : State) (r : Reg) (x : BitVec 16384) : (s.setV r x).act.frame = s.act.frame := rfl
@[simp] theorem State.setV_act_arrivals (s : State) (r : Reg) (x : BitVec 16384) : (s.setV r x).act.arrivals = s.act.arrivals :=
  rfl
@[simp] theorem State.setV_act_prog (s : State) (r : Reg) (x : BitVec 16384) : (s.setV r x).act.prog = s.act.prog := rfl
@[simp] theorem State.setV_act_mat (s : State) (r : Reg) (x : BitVec 16384) : (s.setV r x).act.mat = s.act.mat := rfl

/-! `setVok`. -/

@[simp] theorem State.setVok_parked (s : State) (r : Reg) (x : BitVec 16) : (s.setVok r x).parked = s.parked := rfl
@[simp] theorem State.setVok_ir (s : State) (r : Reg) (x : BitVec 16) : (s.setVok r x).ir = s.ir := rfl
@[simp] theorem State.setVok_mem (s : State) (r : Reg) (x : BitVec 16) : (s.setVok r x).mem = s.mem := rfl
@[simp] theorem State.setVok_full (s : State) (r : Reg) (x : BitVec 16) : (s.setVok r x).full = s.full := rfl
@[simp] theorem State.setVok_poison (s : State) (r : Reg) (x : BitVec 16) : (s.setVok r x).poison = s.poison := rfl
@[simp] theorem State.setVok_dies (s : State) (r : Reg) (x : BitVec 16) : (s.setVok r x).dies = s.dies := rfl
@[simp] theorem State.setVok_flight (s : State) (r : Reg) (x : BitVec 16) : (s.setVok r x).flight = s.flight := rfl
@[simp] theorem State.setVok_dom (s : State) (r : Reg) (x : BitVec 16) : (s.setVok r x).dom = s.dom := rfl
@[simp] theorem State.setVok_cores (s : State) (r : Reg) (x : BitVec 16) : (s.setVok r x).cores = s.cores := rfl
@[simp] theorem State.setVok_pairs (s : State) (r : Reg) (x : BitVec 16) : (s.setVok r x).pairs = s.pairs := rfl
@[simp] theorem State.setVok_l2tlb (s : State) (r : Reg) (x : BitVec 16) : (s.setVok r x).l2tlb = s.l2tlb := rfl
@[simp] theorem State.setVok_pins (s : State) (r : Reg) (x : BitVec 16) : (s.setVok r x).pins = s.pins := rfl
@[simp] theorem State.setVok_barriers (s : State) (r : Reg) (x : BitVec 16) : (s.setVok r x).barriers = s.barriers := rfl
@[simp] theorem State.setVok_engines (s : State) (r : Reg) (x : BitVec 16) : (s.setVok r x).engines = s.engines := rfl
@[simp] theorem State.setVok_nextOp (s : State) (r : Reg) (x : BitVec 16) : (s.setVok r x).nextOp = s.nextOp := rfl
@[simp] theorem State.setVok_queries (s : State) (r : Reg) (x : BitVec 16) : (s.setVok r x).queries = s.queries := rfl
@[simp] theorem State.setVok_mill (s : State) (r : Reg) (x : BitVec 16) : (s.setVok r x).mill = s.mill := rfl
@[simp] theorem State.setVok_quads (s : State) (r : Reg) (x : BitVec 16) : (s.setVok r x).quads = s.quads := rfl
@[simp] theorem State.setVok_power (s : State) (r : Reg) (x : BitVec 16) : (s.setVok r x).power = s.power := rfl
@[simp] theorem State.setVok_links (s : State) (r : Reg) (x : BitVec 16) : (s.setVok r x).links = s.links := rfl
@[simp] theorem State.setVok_mgmt (s : State) (r : Reg) (x : BitVec 16) : (s.setVok r x).mgmt = s.mgmt := rfl
@[simp] theorem State.setVok_parts (s : State) (r : Reg) (x : BitVec 16) : (s.setVok r x).parts = s.parts := rfl
@[simp] theorem State.setVok_board (s : State) (r : Reg) (x : BitVec 16) : (s.setVok r x).board = s.board := rfl
@[simp] theorem State.setVok_agenda (s : State) (r : Reg) (x : BitVec 16) : (s.setVok r x).agenda = s.agenda := rfl
@[simp] theorem State.setVok_budget (s : State) (r : Reg) (x : BitVec 16) : (s.setVok r x).budget = s.budget := rfl
@[simp] theorem State.setVok_freeCount (s : State) (r : Reg) (x : BitVec 16) : (s.setVok r x).freeCount = s.freeCount := rfl
@[simp] theorem State.setVok_act_sid (s : State) (r : Reg) (x : BitVec 16) : (s.setVok r x).act.sid = s.act.sid := rfl
@[simp] theorem State.setVok_act_core (s : State) (r : Reg) (x : BitVec 16) : (s.setVok r x).act.core = s.act.core := rfl
@[simp] theorem State.setVok_act_hwSlot (s : State) (r : Reg) (x : BitVec 16) : (s.setVok r x).act.hwSlot = s.act.hwSlot := rfl
@[simp] theorem State.setVok_act_part (s : State) (r : Reg) (x : BitVec 16) : (s.setVok r x).act.part = s.act.part := rfl
@[simp] theorem State.setVok_act_node (s : State) (r : Reg) (x : BitVec 16) : (s.setVok r x).act.node = s.act.node := rfl
@[simp] theorem State.setVok_act_index (s : State) (r : Reg) (x : BitVec 16) : (s.setVok r x).act.index = s.act.index := rfl
@[simp] theorem State.setVok_act_life (s : State) (r : Reg) (x : BitVec 16) : (s.setVok r x).act.life = s.act.life := rfl
@[simp] theorem State.setVok_act_priv (s : State) (r : Reg) (x : BitVec 16) : (s.setVok r x).act.priv = s.act.priv := rfl
@[simp] theorem State.setVok_act_base (s : State) (r : Reg) (x : BitVec 16) : (s.setVok r x).act.base = s.act.base := rfl
@[simp] theorem State.setVok_act_hdr (s : State) (r : Reg) (x : BitVec 16) : (s.setVok r x).act.hdr = s.act.hdr := rfl
@[simp] theorem State.setVok_act_clMap (s : State) (r : Reg) (x : BitVec 16) : (s.setVok r x).act.clMap = s.act.clMap := rfl
@[simp] theorem State.setVok_act_pc (s : State) (r : Reg) (x : BitVec 16) : (s.setVok r x).act.pc = s.act.pc := rfl
@[simp] theorem State.setVok_act_g (s : State) (r : Reg) (x : BitVec 16) : (s.setVok r x).act.g = s.act.g := rfl
@[simp] theorem State.setVok_act_v (s : State) (r : Reg) (x : BitVec 16) : (s.setVok r x).act.v = s.act.v := rfl
@[simp] theorem State.setVok_act_vok (s : State) (r : Reg) (x : BitVec 16) : (s.setVok r x).act.vok = s.act.vok.set r.toNat x :=
  rfl
@[simp] theorem State.setVok_act_m (s : State) (r : Reg) (x : BitVec 16) : (s.setVok r x).act.m = s.act.m := rfl
@[simp] theorem State.setVok_act_w (s : State) (r : Reg) (x : BitVec 16) : (s.setVok r x).act.w = s.act.w := rfl
@[simp] theorem State.setVok_act_cb (s : State) (r : Reg) (x : BitVec 16) : (s.setVok r x).act.cb = s.act.cb := rfl
@[simp] theorem State.setVok_act_csr (s : State) (r : Reg) (x : BitVec 16) : (s.setVok r x).act.csr = s.act.csr := rfl
@[simp] theorem State.setVok_act_arms (s : State) (r : Reg) (x : BitVec 16) : (s.setVok r x).act.arms = s.act.arms := rfl
@[simp] theorem State.setVok_act_loop (s : State) (r : Reg) (x : BitVec 16) : (s.setVok r x).act.loop = s.act.loop := rfl
@[simp] theorem State.setVok_act_streams (s : State) (r : Reg) (x : BitVec 16) : (s.setVok r x).act.streams = s.act.streams :=
  rfl
@[simp] theorem State.setVok_act_posted (s : State) (r : Reg) (x : BitVec 16) : (s.setVok r x).act.posted = s.act.posted := rfl
@[simp] theorem State.setVok_act_resume (s : State) (r : Reg) (x : BitVec 16) : (s.setVok r x).act.resume = s.act.resume := rfl
@[simp] theorem State.setVok_act_wait (s : State) (r : Reg) (x : BitVec 16) : (s.setVok r x).act.wait = s.act.wait := rfl
@[simp] theorem State.setVok_act_hold (s : State) (r : Reg) (x : BitVec 16) : (s.setVok r x).act.hold = s.act.hold := rfl
@[simp] theorem State.setVok_act_woke (s : State) (r : Reg) (x : BitVec 16) : (s.setVok r x).act.woke = s.act.woke := rfl
@[simp] theorem State.setVok_act_late (s : State) (r : Reg) (x : BitVec 16) : (s.setVok r x).act.late = s.act.late := rfl
@[simp] theorem State.setVok_act_frame (s : State) (r : Reg) (x : BitVec 16) : (s.setVok r x).act.frame = s.act.frame := rfl
@[simp] theorem State.setVok_act_arrivals (s : State) (r : Reg) (x : BitVec 16) : (s.setVok r x).act.arrivals = s.act.arrivals :=
  rfl
@[simp] theorem State.setVok_act_prog (s : State) (r : Reg) (x : BitVec 16) : (s.setVok r x).act.prog = s.act.prog := rfl
@[simp] theorem State.setVok_act_mat (s : State) (r : Reg) (x : BitVec 16) : (s.setVok r x).act.mat = s.act.mat := rfl

/-! `setW`. -/

@[simp] theorem State.setW_parked (s : State) (r : WReg) (x : BitVec 32768) : (s.setW r x).parked = s.parked := rfl
@[simp] theorem State.setW_ir (s : State) (r : WReg) (x : BitVec 32768) : (s.setW r x).ir = s.ir := rfl
@[simp] theorem State.setW_mem (s : State) (r : WReg) (x : BitVec 32768) : (s.setW r x).mem = s.mem := rfl
@[simp] theorem State.setW_full (s : State) (r : WReg) (x : BitVec 32768) : (s.setW r x).full = s.full := rfl
@[simp] theorem State.setW_poison (s : State) (r : WReg) (x : BitVec 32768) : (s.setW r x).poison = s.poison := rfl
@[simp] theorem State.setW_dies (s : State) (r : WReg) (x : BitVec 32768) : (s.setW r x).dies = s.dies := rfl
@[simp] theorem State.setW_flight (s : State) (r : WReg) (x : BitVec 32768) : (s.setW r x).flight = s.flight := rfl
@[simp] theorem State.setW_dom (s : State) (r : WReg) (x : BitVec 32768) : (s.setW r x).dom = s.dom := rfl
@[simp] theorem State.setW_cores (s : State) (r : WReg) (x : BitVec 32768) : (s.setW r x).cores = s.cores := rfl
@[simp] theorem State.setW_pairs (s : State) (r : WReg) (x : BitVec 32768) : (s.setW r x).pairs = s.pairs := rfl
@[simp] theorem State.setW_l2tlb (s : State) (r : WReg) (x : BitVec 32768) : (s.setW r x).l2tlb = s.l2tlb := rfl
@[simp] theorem State.setW_pins (s : State) (r : WReg) (x : BitVec 32768) : (s.setW r x).pins = s.pins := rfl
@[simp] theorem State.setW_barriers (s : State) (r : WReg) (x : BitVec 32768) : (s.setW r x).barriers = s.barriers := rfl
@[simp] theorem State.setW_engines (s : State) (r : WReg) (x : BitVec 32768) : (s.setW r x).engines = s.engines := rfl
@[simp] theorem State.setW_nextOp (s : State) (r : WReg) (x : BitVec 32768) : (s.setW r x).nextOp = s.nextOp := rfl
@[simp] theorem State.setW_queries (s : State) (r : WReg) (x : BitVec 32768) : (s.setW r x).queries = s.queries := rfl
@[simp] theorem State.setW_mill (s : State) (r : WReg) (x : BitVec 32768) : (s.setW r x).mill = s.mill := rfl
@[simp] theorem State.setW_quads (s : State) (r : WReg) (x : BitVec 32768) : (s.setW r x).quads = s.quads := rfl
@[simp] theorem State.setW_power (s : State) (r : WReg) (x : BitVec 32768) : (s.setW r x).power = s.power := rfl
@[simp] theorem State.setW_links (s : State) (r : WReg) (x : BitVec 32768) : (s.setW r x).links = s.links := rfl
@[simp] theorem State.setW_mgmt (s : State) (r : WReg) (x : BitVec 32768) : (s.setW r x).mgmt = s.mgmt := rfl
@[simp] theorem State.setW_parts (s : State) (r : WReg) (x : BitVec 32768) : (s.setW r x).parts = s.parts := rfl
@[simp] theorem State.setW_board (s : State) (r : WReg) (x : BitVec 32768) : (s.setW r x).board = s.board := rfl
@[simp] theorem State.setW_agenda (s : State) (r : WReg) (x : BitVec 32768) : (s.setW r x).agenda = s.agenda := rfl
@[simp] theorem State.setW_budget (s : State) (r : WReg) (x : BitVec 32768) : (s.setW r x).budget = s.budget := rfl
@[simp] theorem State.setW_freeCount (s : State) (r : WReg) (x : BitVec 32768) : (s.setW r x).freeCount = s.freeCount := rfl
@[simp] theorem State.setW_act_sid (s : State) (r : WReg) (x : BitVec 32768) : (s.setW r x).act.sid = s.act.sid := rfl
@[simp] theorem State.setW_act_core (s : State) (r : WReg) (x : BitVec 32768) : (s.setW r x).act.core = s.act.core := rfl
@[simp] theorem State.setW_act_hwSlot (s : State) (r : WReg) (x : BitVec 32768) : (s.setW r x).act.hwSlot = s.act.hwSlot := rfl
@[simp] theorem State.setW_act_part (s : State) (r : WReg) (x : BitVec 32768) : (s.setW r x).act.part = s.act.part := rfl
@[simp] theorem State.setW_act_node (s : State) (r : WReg) (x : BitVec 32768) : (s.setW r x).act.node = s.act.node := rfl
@[simp] theorem State.setW_act_index (s : State) (r : WReg) (x : BitVec 32768) : (s.setW r x).act.index = s.act.index := rfl
@[simp] theorem State.setW_act_life (s : State) (r : WReg) (x : BitVec 32768) : (s.setW r x).act.life = s.act.life := rfl
@[simp] theorem State.setW_act_priv (s : State) (r : WReg) (x : BitVec 32768) : (s.setW r x).act.priv = s.act.priv := rfl
@[simp] theorem State.setW_act_base (s : State) (r : WReg) (x : BitVec 32768) : (s.setW r x).act.base = s.act.base := rfl
@[simp] theorem State.setW_act_hdr (s : State) (r : WReg) (x : BitVec 32768) : (s.setW r x).act.hdr = s.act.hdr := rfl
@[simp] theorem State.setW_act_clMap (s : State) (r : WReg) (x : BitVec 32768) : (s.setW r x).act.clMap = s.act.clMap := rfl
@[simp] theorem State.setW_act_pc (s : State) (r : WReg) (x : BitVec 32768) : (s.setW r x).act.pc = s.act.pc := rfl
@[simp] theorem State.setW_act_g (s : State) (r : WReg) (x : BitVec 32768) : (s.setW r x).act.g = s.act.g := rfl
@[simp] theorem State.setW_act_v (s : State) (r : WReg) (x : BitVec 32768) : (s.setW r x).act.v = s.act.v := rfl
@[simp] theorem State.setW_act_vok (s : State) (r : WReg) (x : BitVec 32768) : (s.setW r x).act.vok = s.act.vok := rfl
@[simp] theorem State.setW_act_m (s : State) (r : WReg) (x : BitVec 32768) : (s.setW r x).act.m = s.act.m := rfl
@[simp] theorem State.setW_act_w (s : State) (r : WReg) (x : BitVec 32768) : (s.setW r x).act.w = s.act.w.set r.toNat x := rfl
@[simp] theorem State.setW_act_cb (s : State) (r : WReg) (x : BitVec 32768) : (s.setW r x).act.cb = s.act.cb := rfl
@[simp] theorem State.setW_act_csr (s : State) (r : WReg) (x : BitVec 32768) : (s.setW r x).act.csr = s.act.csr := rfl
@[simp] theorem State.setW_act_arms (s : State) (r : WReg) (x : BitVec 32768) : (s.setW r x).act.arms = s.act.arms := rfl
@[simp] theorem State.setW_act_loop (s : State) (r : WReg) (x : BitVec 32768) : (s.setW r x).act.loop = s.act.loop := rfl
@[simp] theorem State.setW_act_streams (s : State) (r : WReg) (x : BitVec 32768) : (s.setW r x).act.streams = s.act.streams :=
  rfl
@[simp] theorem State.setW_act_posted (s : State) (r : WReg) (x : BitVec 32768) : (s.setW r x).act.posted = s.act.posted := rfl
@[simp] theorem State.setW_act_resume (s : State) (r : WReg) (x : BitVec 32768) : (s.setW r x).act.resume = s.act.resume := rfl
@[simp] theorem State.setW_act_wait (s : State) (r : WReg) (x : BitVec 32768) : (s.setW r x).act.wait = s.act.wait := rfl
@[simp] theorem State.setW_act_hold (s : State) (r : WReg) (x : BitVec 32768) : (s.setW r x).act.hold = s.act.hold := rfl
@[simp] theorem State.setW_act_woke (s : State) (r : WReg) (x : BitVec 32768) : (s.setW r x).act.woke = s.act.woke := rfl
@[simp] theorem State.setW_act_late (s : State) (r : WReg) (x : BitVec 32768) : (s.setW r x).act.late = s.act.late := rfl
@[simp] theorem State.setW_act_frame (s : State) (r : WReg) (x : BitVec 32768) : (s.setW r x).act.frame = s.act.frame := rfl
@[simp] theorem State.setW_act_arrivals (s : State) (r : WReg) (x : BitVec 32768) : (s.setW r x).act.arrivals = s.act.arrivals :=
  rfl
@[simp] theorem State.setW_act_prog (s : State) (r : WReg) (x : BitVec 32768) : (s.setW r x).act.prog = s.act.prog := rfl
@[simp] theorem State.setW_act_mat (s : State) (r : WReg) (x : BitVec 32768) : (s.setW r x).act.mat = s.act.mat := rfl

/-! `setG`. -/

@[simp] theorem State.setG_parked (s : State) (r : Reg) (x : Word) : (s.setG r x).parked = s.parked :=
  by unfold State.setG; split <;> rfl
@[simp] theorem State.setG_ir (s : State) (r : Reg) (x : Word) : (s.setG r x).ir = s.ir := by unfold State.setG; split <;> rfl
@[simp] theorem State.setG_mem (s : State) (r : Reg) (x : Word) : (s.setG r x).mem = s.mem :=
  by unfold State.setG; split <;> rfl
@[simp] theorem State.setG_full (s : State) (r : Reg) (x : Word) : (s.setG r x).full = s.full :=
  by unfold State.setG; split <;> rfl
@[simp] theorem State.setG_poison (s : State) (r : Reg) (x : Word) : (s.setG r x).poison = s.poison :=
  by unfold State.setG; split <;> rfl
@[simp] theorem State.setG_dies (s : State) (r : Reg) (x : Word) : (s.setG r x).dies = s.dies :=
  by unfold State.setG; split <;> rfl
@[simp] theorem State.setG_flight (s : State) (r : Reg) (x : Word) : (s.setG r x).flight = s.flight :=
  by unfold State.setG; split <;> rfl
@[simp] theorem State.setG_dom (s : State) (r : Reg) (x : Word) : (s.setG r x).dom = s.dom :=
  by unfold State.setG; split <;> rfl
@[simp] theorem State.setG_cores (s : State) (r : Reg) (x : Word) : (s.setG r x).cores = s.cores :=
  by unfold State.setG; split <;> rfl
@[simp] theorem State.setG_pairs (s : State) (r : Reg) (x : Word) : (s.setG r x).pairs = s.pairs :=
  by unfold State.setG; split <;> rfl
@[simp] theorem State.setG_l2tlb (s : State) (r : Reg) (x : Word) : (s.setG r x).l2tlb = s.l2tlb :=
  by unfold State.setG; split <;> rfl
@[simp] theorem State.setG_pins (s : State) (r : Reg) (x : Word) : (s.setG r x).pins = s.pins :=
  by unfold State.setG; split <;> rfl
@[simp] theorem State.setG_barriers (s : State) (r : Reg) (x : Word) : (s.setG r x).barriers = s.barriers :=
  by unfold State.setG; split <;> rfl
@[simp] theorem State.setG_engines (s : State) (r : Reg) (x : Word) : (s.setG r x).engines = s.engines :=
  by unfold State.setG; split <;> rfl
@[simp] theorem State.setG_nextOp (s : State) (r : Reg) (x : Word) : (s.setG r x).nextOp = s.nextOp :=
  by unfold State.setG; split <;> rfl
@[simp] theorem State.setG_queries (s : State) (r : Reg) (x : Word) : (s.setG r x).queries = s.queries :=
  by unfold State.setG; split <;> rfl
@[simp] theorem State.setG_mill (s : State) (r : Reg) (x : Word) : (s.setG r x).mill = s.mill :=
  by unfold State.setG; split <;> rfl
@[simp] theorem State.setG_quads (s : State) (r : Reg) (x : Word) : (s.setG r x).quads = s.quads :=
  by unfold State.setG; split <;> rfl
@[simp] theorem State.setG_power (s : State) (r : Reg) (x : Word) : (s.setG r x).power = s.power :=
  by unfold State.setG; split <;> rfl
@[simp] theorem State.setG_links (s : State) (r : Reg) (x : Word) : (s.setG r x).links = s.links :=
  by unfold State.setG; split <;> rfl
@[simp] theorem State.setG_mgmt (s : State) (r : Reg) (x : Word) : (s.setG r x).mgmt = s.mgmt :=
  by unfold State.setG; split <;> rfl
@[simp] theorem State.setG_parts (s : State) (r : Reg) (x : Word) : (s.setG r x).parts = s.parts :=
  by unfold State.setG; split <;> rfl
@[simp] theorem State.setG_board (s : State) (r : Reg) (x : Word) : (s.setG r x).board = s.board :=
  by unfold State.setG; split <;> rfl
@[simp] theorem State.setG_agenda (s : State) (r : Reg) (x : Word) : (s.setG r x).agenda = s.agenda :=
  by unfold State.setG; split <;> rfl
@[simp] theorem State.setG_budget (s : State) (r : Reg) (x : Word) : (s.setG r x).budget = s.budget :=
  by unfold State.setG; split <;> rfl
@[simp] theorem State.setG_freeCount (s : State) (r : Reg) (x : Word) : (s.setG r x).freeCount = s.freeCount :=
  by unfold State.setG; split <;> rfl
@[simp] theorem State.setG_act_sid (s : State) (r : Reg) (x : Word) : (s.setG r x).act.sid = s.act.sid :=
  by unfold State.setG; split <;> rfl
@[simp] theorem State.setG_act_core (s : State) (r : Reg) (x : Word) : (s.setG r x).act.core = s.act.core :=
  by unfold State.setG; split <;> rfl
@[simp] theorem State.setG_act_hwSlot (s : State) (r : Reg) (x : Word) : (s.setG r x).act.hwSlot = s.act.hwSlot :=
  by unfold State.setG; split <;> rfl
@[simp] theorem State.setG_act_part (s : State) (r : Reg) (x : Word) : (s.setG r x).act.part = s.act.part :=
  by unfold State.setG; split <;> rfl
@[simp] theorem State.setG_act_node (s : State) (r : Reg) (x : Word) : (s.setG r x).act.node = s.act.node :=
  by unfold State.setG; split <;> rfl
@[simp] theorem State.setG_act_index (s : State) (r : Reg) (x : Word) : (s.setG r x).act.index = s.act.index :=
  by unfold State.setG; split <;> rfl
@[simp] theorem State.setG_act_life (s : State) (r : Reg) (x : Word) : (s.setG r x).act.life = s.act.life :=
  by unfold State.setG; split <;> rfl
@[simp] theorem State.setG_act_priv (s : State) (r : Reg) (x : Word) : (s.setG r x).act.priv = s.act.priv :=
  by unfold State.setG; split <;> rfl
@[simp] theorem State.setG_act_base (s : State) (r : Reg) (x : Word) : (s.setG r x).act.base = s.act.base :=
  by unfold State.setG; split <;> rfl
@[simp] theorem State.setG_act_hdr (s : State) (r : Reg) (x : Word) : (s.setG r x).act.hdr = s.act.hdr :=
  by unfold State.setG; split <;> rfl
@[simp] theorem State.setG_act_clMap (s : State) (r : Reg) (x : Word) : (s.setG r x).act.clMap = s.act.clMap :=
  by unfold State.setG; split <;> rfl
@[simp] theorem State.setG_act_pc (s : State) (r : Reg) (x : Word) : (s.setG r x).act.pc = s.act.pc :=
  by unfold State.setG; split <;> rfl
@[simp] theorem State.setG_act_v (s : State) (r : Reg) (x : Word) : (s.setG r x).act.v = s.act.v :=
  by unfold State.setG; split <;> rfl
@[simp] theorem State.setG_act_vok (s : State) (r : Reg) (x : Word) : (s.setG r x).act.vok = s.act.vok :=
  by unfold State.setG; split <;> rfl
@[simp] theorem State.setG_act_m (s : State) (r : Reg) (x : Word) : (s.setG r x).act.m = s.act.m :=
  by unfold State.setG; split <;> rfl
@[simp] theorem State.setG_act_w (s : State) (r : Reg) (x : Word) : (s.setG r x).act.w = s.act.w :=
  by unfold State.setG; split <;> rfl
@[simp] theorem State.setG_act_cb (s : State) (r : Reg) (x : Word) : (s.setG r x).act.cb = s.act.cb :=
  by unfold State.setG; split <;> rfl
@[simp] theorem State.setG_act_csr (s : State) (r : Reg) (x : Word) : (s.setG r x).act.csr = s.act.csr :=
  by unfold State.setG; split <;> rfl
@[simp] theorem State.setG_act_arms (s : State) (r : Reg) (x : Word) : (s.setG r x).act.arms = s.act.arms :=
  by unfold State.setG; split <;> rfl
@[simp] theorem State.setG_act_loop (s : State) (r : Reg) (x : Word) : (s.setG r x).act.loop = s.act.loop :=
  by unfold State.setG; split <;> rfl
@[simp] theorem State.setG_act_streams (s : State) (r : Reg) (x : Word) : (s.setG r x).act.streams = s.act.streams :=
  by unfold State.setG; split <;> rfl
@[simp] theorem State.setG_act_posted (s : State) (r : Reg) (x : Word) : (s.setG r x).act.posted = s.act.posted :=
  by unfold State.setG; split <;> rfl
@[simp] theorem State.setG_act_resume (s : State) (r : Reg) (x : Word) : (s.setG r x).act.resume = s.act.resume :=
  by unfold State.setG; split <;> rfl
@[simp] theorem State.setG_act_wait (s : State) (r : Reg) (x : Word) : (s.setG r x).act.wait = s.act.wait :=
  by unfold State.setG; split <;> rfl
@[simp] theorem State.setG_act_hold (s : State) (r : Reg) (x : Word) : (s.setG r x).act.hold = s.act.hold :=
  by unfold State.setG; split <;> rfl
@[simp] theorem State.setG_act_woke (s : State) (r : Reg) (x : Word) : (s.setG r x).act.woke = s.act.woke :=
  by unfold State.setG; split <;> rfl
@[simp] theorem State.setG_act_late (s : State) (r : Reg) (x : Word) : (s.setG r x).act.late = s.act.late :=
  by unfold State.setG; split <;> rfl
@[simp] theorem State.setG_act_frame (s : State) (r : Reg) (x : Word) : (s.setG r x).act.frame = s.act.frame :=
  by unfold State.setG; split <;> rfl
@[simp] theorem State.setG_act_arrivals (s : State) (r : Reg) (x : Word) : (s.setG r x).act.arrivals = s.act.arrivals :=
  by unfold State.setG; split <;> rfl
@[simp] theorem State.setG_act_prog (s : State) (r : Reg) (x : Word) : (s.setG r x).act.prog = s.act.prog :=
  by unfold State.setG; split <;> rfl
@[simp] theorem State.setG_act_mat (s : State) (r : Reg) (x : Word) : (s.setG r x).act.mat = s.act.mat :=
  by unfold State.setG; split <;> rfl

/-! `setM`. -/

@[simp] theorem State.setM_parked (s : State) (r : MReg) (x : BitVec 2048) : (s.setM r x).parked = s.parked :=
  by unfold State.setM; split <;> rfl
@[simp] theorem State.setM_ir (s : State) (r : MReg) (x : BitVec 2048) : (s.setM r x).ir = s.ir :=
  by unfold State.setM; split <;> rfl
@[simp] theorem State.setM_mem (s : State) (r : MReg) (x : BitVec 2048) : (s.setM r x).mem = s.mem :=
  by unfold State.setM; split <;> rfl
@[simp] theorem State.setM_full (s : State) (r : MReg) (x : BitVec 2048) : (s.setM r x).full = s.full :=
  by unfold State.setM; split <;> rfl
@[simp] theorem State.setM_poison (s : State) (r : MReg) (x : BitVec 2048) : (s.setM r x).poison = s.poison :=
  by unfold State.setM; split <;> rfl
@[simp] theorem State.setM_dies (s : State) (r : MReg) (x : BitVec 2048) : (s.setM r x).dies = s.dies :=
  by unfold State.setM; split <;> rfl
@[simp] theorem State.setM_flight (s : State) (r : MReg) (x : BitVec 2048) : (s.setM r x).flight = s.flight :=
  by unfold State.setM; split <;> rfl
@[simp] theorem State.setM_dom (s : State) (r : MReg) (x : BitVec 2048) : (s.setM r x).dom = s.dom :=
  by unfold State.setM; split <;> rfl
@[simp] theorem State.setM_cores (s : State) (r : MReg) (x : BitVec 2048) : (s.setM r x).cores = s.cores :=
  by unfold State.setM; split <;> rfl
@[simp] theorem State.setM_pairs (s : State) (r : MReg) (x : BitVec 2048) : (s.setM r x).pairs = s.pairs :=
  by unfold State.setM; split <;> rfl
@[simp] theorem State.setM_l2tlb (s : State) (r : MReg) (x : BitVec 2048) : (s.setM r x).l2tlb = s.l2tlb :=
  by unfold State.setM; split <;> rfl
@[simp] theorem State.setM_pins (s : State) (r : MReg) (x : BitVec 2048) : (s.setM r x).pins = s.pins :=
  by unfold State.setM; split <;> rfl
@[simp] theorem State.setM_barriers (s : State) (r : MReg) (x : BitVec 2048) : (s.setM r x).barriers = s.barriers :=
  by unfold State.setM; split <;> rfl
@[simp] theorem State.setM_engines (s : State) (r : MReg) (x : BitVec 2048) : (s.setM r x).engines = s.engines :=
  by unfold State.setM; split <;> rfl
@[simp] theorem State.setM_nextOp (s : State) (r : MReg) (x : BitVec 2048) : (s.setM r x).nextOp = s.nextOp :=
  by unfold State.setM; split <;> rfl
@[simp] theorem State.setM_queries (s : State) (r : MReg) (x : BitVec 2048) : (s.setM r x).queries = s.queries :=
  by unfold State.setM; split <;> rfl
@[simp] theorem State.setM_mill (s : State) (r : MReg) (x : BitVec 2048) : (s.setM r x).mill = s.mill :=
  by unfold State.setM; split <;> rfl
@[simp] theorem State.setM_quads (s : State) (r : MReg) (x : BitVec 2048) : (s.setM r x).quads = s.quads :=
  by unfold State.setM; split <;> rfl
@[simp] theorem State.setM_power (s : State) (r : MReg) (x : BitVec 2048) : (s.setM r x).power = s.power :=
  by unfold State.setM; split <;> rfl
@[simp] theorem State.setM_links (s : State) (r : MReg) (x : BitVec 2048) : (s.setM r x).links = s.links :=
  by unfold State.setM; split <;> rfl
@[simp] theorem State.setM_mgmt (s : State) (r : MReg) (x : BitVec 2048) : (s.setM r x).mgmt = s.mgmt :=
  by unfold State.setM; split <;> rfl
@[simp] theorem State.setM_parts (s : State) (r : MReg) (x : BitVec 2048) : (s.setM r x).parts = s.parts :=
  by unfold State.setM; split <;> rfl
@[simp] theorem State.setM_board (s : State) (r : MReg) (x : BitVec 2048) : (s.setM r x).board = s.board :=
  by unfold State.setM; split <;> rfl
@[simp] theorem State.setM_agenda (s : State) (r : MReg) (x : BitVec 2048) : (s.setM r x).agenda = s.agenda :=
  by unfold State.setM; split <;> rfl
@[simp] theorem State.setM_budget (s : State) (r : MReg) (x : BitVec 2048) : (s.setM r x).budget = s.budget :=
  by unfold State.setM; split <;> rfl
@[simp] theorem State.setM_freeCount (s : State) (r : MReg) (x : BitVec 2048) : (s.setM r x).freeCount = s.freeCount :=
  by unfold State.setM; split <;> rfl
@[simp] theorem State.setM_act_sid (s : State) (r : MReg) (x : BitVec 2048) : (s.setM r x).act.sid = s.act.sid :=
  by unfold State.setM; split <;> rfl
@[simp] theorem State.setM_act_core (s : State) (r : MReg) (x : BitVec 2048) : (s.setM r x).act.core = s.act.core :=
  by unfold State.setM; split <;> rfl
@[simp] theorem State.setM_act_hwSlot (s : State) (r : MReg) (x : BitVec 2048) : (s.setM r x).act.hwSlot = s.act.hwSlot :=
  by unfold State.setM; split <;> rfl
@[simp] theorem State.setM_act_part (s : State) (r : MReg) (x : BitVec 2048) : (s.setM r x).act.part = s.act.part :=
  by unfold State.setM; split <;> rfl
@[simp] theorem State.setM_act_node (s : State) (r : MReg) (x : BitVec 2048) : (s.setM r x).act.node = s.act.node :=
  by unfold State.setM; split <;> rfl
@[simp] theorem State.setM_act_index (s : State) (r : MReg) (x : BitVec 2048) : (s.setM r x).act.index = s.act.index :=
  by unfold State.setM; split <;> rfl
@[simp] theorem State.setM_act_life (s : State) (r : MReg) (x : BitVec 2048) : (s.setM r x).act.life = s.act.life :=
  by unfold State.setM; split <;> rfl
@[simp] theorem State.setM_act_priv (s : State) (r : MReg) (x : BitVec 2048) : (s.setM r x).act.priv = s.act.priv :=
  by unfold State.setM; split <;> rfl
@[simp] theorem State.setM_act_base (s : State) (r : MReg) (x : BitVec 2048) : (s.setM r x).act.base = s.act.base :=
  by unfold State.setM; split <;> rfl
@[simp] theorem State.setM_act_hdr (s : State) (r : MReg) (x : BitVec 2048) : (s.setM r x).act.hdr = s.act.hdr :=
  by unfold State.setM; split <;> rfl
@[simp] theorem State.setM_act_clMap (s : State) (r : MReg) (x : BitVec 2048) : (s.setM r x).act.clMap = s.act.clMap :=
  by unfold State.setM; split <;> rfl
@[simp] theorem State.setM_act_pc (s : State) (r : MReg) (x : BitVec 2048) : (s.setM r x).act.pc = s.act.pc :=
  by unfold State.setM; split <;> rfl
@[simp] theorem State.setM_act_g (s : State) (r : MReg) (x : BitVec 2048) : (s.setM r x).act.g = s.act.g :=
  by unfold State.setM; split <;> rfl
@[simp] theorem State.setM_act_v (s : State) (r : MReg) (x : BitVec 2048) : (s.setM r x).act.v = s.act.v :=
  by unfold State.setM; split <;> rfl
@[simp] theorem State.setM_act_vok (s : State) (r : MReg) (x : BitVec 2048) : (s.setM r x).act.vok = s.act.vok :=
  by unfold State.setM; split <;> rfl
@[simp] theorem State.setM_act_w (s : State) (r : MReg) (x : BitVec 2048) : (s.setM r x).act.w = s.act.w :=
  by unfold State.setM; split <;> rfl
@[simp] theorem State.setM_act_cb (s : State) (r : MReg) (x : BitVec 2048) : (s.setM r x).act.cb = s.act.cb :=
  by unfold State.setM; split <;> rfl
@[simp] theorem State.setM_act_csr (s : State) (r : MReg) (x : BitVec 2048) : (s.setM r x).act.csr = s.act.csr :=
  by unfold State.setM; split <;> rfl
@[simp] theorem State.setM_act_arms (s : State) (r : MReg) (x : BitVec 2048) : (s.setM r x).act.arms = s.act.arms :=
  by unfold State.setM; split <;> rfl
@[simp] theorem State.setM_act_loop (s : State) (r : MReg) (x : BitVec 2048) : (s.setM r x).act.loop = s.act.loop :=
  by unfold State.setM; split <;> rfl
@[simp] theorem State.setM_act_streams (s : State) (r : MReg) (x : BitVec 2048) : (s.setM r x).act.streams = s.act.streams :=
  by unfold State.setM; split <;> rfl
@[simp] theorem State.setM_act_posted (s : State) (r : MReg) (x : BitVec 2048) : (s.setM r x).act.posted = s.act.posted :=
  by unfold State.setM; split <;> rfl
@[simp] theorem State.setM_act_resume (s : State) (r : MReg) (x : BitVec 2048) : (s.setM r x).act.resume = s.act.resume :=
  by unfold State.setM; split <;> rfl
@[simp] theorem State.setM_act_wait (s : State) (r : MReg) (x : BitVec 2048) : (s.setM r x).act.wait = s.act.wait :=
  by unfold State.setM; split <;> rfl
@[simp] theorem State.setM_act_hold (s : State) (r : MReg) (x : BitVec 2048) : (s.setM r x).act.hold = s.act.hold :=
  by unfold State.setM; split <;> rfl
@[simp] theorem State.setM_act_woke (s : State) (r : MReg) (x : BitVec 2048) : (s.setM r x).act.woke = s.act.woke :=
  by unfold State.setM; split <;> rfl
@[simp] theorem State.setM_act_late (s : State) (r : MReg) (x : BitVec 2048) : (s.setM r x).act.late = s.act.late :=
  by unfold State.setM; split <;> rfl
@[simp] theorem State.setM_act_frame (s : State) (r : MReg) (x : BitVec 2048) : (s.setM r x).act.frame = s.act.frame :=
  by unfold State.setM; split <;> rfl
@[simp] theorem State.setM_act_arrivals (s : State) (r : MReg) (x : BitVec 2048) : (s.setM r x).act.arrivals = s.act.arrivals :=
  by unfold State.setM; split <;> rfl
@[simp] theorem State.setM_act_prog (s : State) (r : MReg) (x : BitVec 2048) : (s.setM r x).act.prog = s.act.prog :=
  by unfold State.setM; split <;> rfl
@[simp] theorem State.setM_act_mat (s : State) (r : MReg) (x : BitVec 2048) : (s.setM r x).act.mat = s.act.mat :=
  by unfold State.setM; split <;> rfl

/-! `onMat`. -/

@[simp] theorem State.onMat_parked (s : State) (f : Matrix → Matrix) : (s.onMat f).parked = s.parked := rfl
@[simp] theorem State.onMat_ir (s : State) (f : Matrix → Matrix) : (s.onMat f).ir = s.ir := rfl
@[simp] theorem State.onMat_mem (s : State) (f : Matrix → Matrix) : (s.onMat f).mem = s.mem := rfl
@[simp] theorem State.onMat_full (s : State) (f : Matrix → Matrix) : (s.onMat f).full = s.full := rfl
@[simp] theorem State.onMat_poison (s : State) (f : Matrix → Matrix) : (s.onMat f).poison = s.poison := rfl
@[simp] theorem State.onMat_dies (s : State) (f : Matrix → Matrix) : (s.onMat f).dies = s.dies := rfl
@[simp] theorem State.onMat_flight (s : State) (f : Matrix → Matrix) : (s.onMat f).flight = s.flight := rfl
@[simp] theorem State.onMat_dom (s : State) (f : Matrix → Matrix) : (s.onMat f).dom = s.dom := rfl
@[simp] theorem State.onMat_cores (s : State) (f : Matrix → Matrix) : (s.onMat f).cores = s.cores := rfl
@[simp] theorem State.onMat_pairs (s : State) (f : Matrix → Matrix) : (s.onMat f).pairs = s.pairs := rfl
@[simp] theorem State.onMat_l2tlb (s : State) (f : Matrix → Matrix) : (s.onMat f).l2tlb = s.l2tlb := rfl
@[simp] theorem State.onMat_pins (s : State) (f : Matrix → Matrix) : (s.onMat f).pins = s.pins := rfl
@[simp] theorem State.onMat_barriers (s : State) (f : Matrix → Matrix) : (s.onMat f).barriers = s.barriers := rfl
@[simp] theorem State.onMat_engines (s : State) (f : Matrix → Matrix) : (s.onMat f).engines = s.engines := rfl
@[simp] theorem State.onMat_nextOp (s : State) (f : Matrix → Matrix) : (s.onMat f).nextOp = s.nextOp := rfl
@[simp] theorem State.onMat_queries (s : State) (f : Matrix → Matrix) : (s.onMat f).queries = s.queries := rfl
@[simp] theorem State.onMat_mill (s : State) (f : Matrix → Matrix) : (s.onMat f).mill = s.mill := rfl
@[simp] theorem State.onMat_quads (s : State) (f : Matrix → Matrix) : (s.onMat f).quads = s.quads := rfl
@[simp] theorem State.onMat_power (s : State) (f : Matrix → Matrix) : (s.onMat f).power = s.power := rfl
@[simp] theorem State.onMat_links (s : State) (f : Matrix → Matrix) : (s.onMat f).links = s.links := rfl
@[simp] theorem State.onMat_mgmt (s : State) (f : Matrix → Matrix) : (s.onMat f).mgmt = s.mgmt := rfl
@[simp] theorem State.onMat_parts (s : State) (f : Matrix → Matrix) : (s.onMat f).parts = s.parts := rfl
@[simp] theorem State.onMat_board (s : State) (f : Matrix → Matrix) : (s.onMat f).board = s.board := rfl
@[simp] theorem State.onMat_agenda (s : State) (f : Matrix → Matrix) : (s.onMat f).agenda = s.agenda := rfl
@[simp] theorem State.onMat_budget (s : State) (f : Matrix → Matrix) : (s.onMat f).budget = s.budget := rfl
@[simp] theorem State.onMat_freeCount (s : State) (f : Matrix → Matrix) : (s.onMat f).freeCount = s.freeCount := rfl
@[simp] theorem State.onMat_act_sid (s : State) (f : Matrix → Matrix) : (s.onMat f).act.sid = s.act.sid := rfl
@[simp] theorem State.onMat_act_core (s : State) (f : Matrix → Matrix) : (s.onMat f).act.core = s.act.core := rfl
@[simp] theorem State.onMat_act_hwSlot (s : State) (f : Matrix → Matrix) : (s.onMat f).act.hwSlot = s.act.hwSlot := rfl
@[simp] theorem State.onMat_act_part (s : State) (f : Matrix → Matrix) : (s.onMat f).act.part = s.act.part := rfl
@[simp] theorem State.onMat_act_node (s : State) (f : Matrix → Matrix) : (s.onMat f).act.node = s.act.node := rfl
@[simp] theorem State.onMat_act_index (s : State) (f : Matrix → Matrix) : (s.onMat f).act.index = s.act.index := rfl
@[simp] theorem State.onMat_act_life (s : State) (f : Matrix → Matrix) : (s.onMat f).act.life = s.act.life := rfl
@[simp] theorem State.onMat_act_priv (s : State) (f : Matrix → Matrix) : (s.onMat f).act.priv = s.act.priv := rfl
@[simp] theorem State.onMat_act_base (s : State) (f : Matrix → Matrix) : (s.onMat f).act.base = s.act.base := rfl
@[simp] theorem State.onMat_act_hdr (s : State) (f : Matrix → Matrix) : (s.onMat f).act.hdr = s.act.hdr := rfl
@[simp] theorem State.onMat_act_clMap (s : State) (f : Matrix → Matrix) : (s.onMat f).act.clMap = s.act.clMap := rfl
@[simp] theorem State.onMat_act_pc (s : State) (f : Matrix → Matrix) : (s.onMat f).act.pc = s.act.pc := rfl
@[simp] theorem State.onMat_act_g (s : State) (f : Matrix → Matrix) : (s.onMat f).act.g = s.act.g := rfl
@[simp] theorem State.onMat_act_v (s : State) (f : Matrix → Matrix) : (s.onMat f).act.v = s.act.v := rfl
@[simp] theorem State.onMat_act_vok (s : State) (f : Matrix → Matrix) : (s.onMat f).act.vok = s.act.vok := rfl
@[simp] theorem State.onMat_act_m (s : State) (f : Matrix → Matrix) : (s.onMat f).act.m = s.act.m := rfl
@[simp] theorem State.onMat_act_w (s : State) (f : Matrix → Matrix) : (s.onMat f).act.w = s.act.w := rfl
@[simp] theorem State.onMat_act_cb (s : State) (f : Matrix → Matrix) : (s.onMat f).act.cb = s.act.cb := rfl
@[simp] theorem State.onMat_act_csr (s : State) (f : Matrix → Matrix) : (s.onMat f).act.csr = s.act.csr := rfl
@[simp] theorem State.onMat_act_arms (s : State) (f : Matrix → Matrix) : (s.onMat f).act.arms = s.act.arms := rfl
@[simp] theorem State.onMat_act_loop (s : State) (f : Matrix → Matrix) : (s.onMat f).act.loop = s.act.loop := rfl
@[simp] theorem State.onMat_act_streams (s : State) (f : Matrix → Matrix) : (s.onMat f).act.streams = s.act.streams := rfl
@[simp] theorem State.onMat_act_posted (s : State) (f : Matrix → Matrix) : (s.onMat f).act.posted = s.act.posted := rfl
@[simp] theorem State.onMat_act_resume (s : State) (f : Matrix → Matrix) : (s.onMat f).act.resume = s.act.resume := rfl
@[simp] theorem State.onMat_act_wait (s : State) (f : Matrix → Matrix) : (s.onMat f).act.wait = s.act.wait := rfl
@[simp] theorem State.onMat_act_hold (s : State) (f : Matrix → Matrix) : (s.onMat f).act.hold = s.act.hold := rfl
@[simp] theorem State.onMat_act_woke (s : State) (f : Matrix → Matrix) : (s.onMat f).act.woke = s.act.woke := rfl
@[simp] theorem State.onMat_act_late (s : State) (f : Matrix → Matrix) : (s.onMat f).act.late = s.act.late := rfl
@[simp] theorem State.onMat_act_frame (s : State) (f : Matrix → Matrix) : (s.onMat f).act.frame = s.act.frame := rfl
@[simp] theorem State.onMat_act_arrivals (s : State) (f : Matrix → Matrix) : (s.onMat f).act.arrivals = s.act.arrivals := rfl
@[simp] theorem State.onMat_act_prog (s : State) (f : Matrix → Matrix) : (s.onMat f).act.prog = s.act.prog := rfl
@[simp] theorem State.onMat_act_mat (s : State) (f : Matrix → Matrix) : (s.onMat f).act.mat = f s.act.mat := rfl

/-! `onDie`. -/

@[simp] theorem State.onDie_act (s : State) (d : Nat) (f : Die → Die) : (s.onDie d f).act = s.act := rfl
@[simp] theorem State.onDie_parked (s : State) (d : Nat) (f : Die → Die) : (s.onDie d f).parked = s.parked := rfl
@[simp] theorem State.onDie_ir (s : State) (d : Nat) (f : Die → Die) : (s.onDie d f).ir = s.ir := rfl
@[simp] theorem State.onDie_mem (s : State) (d : Nat) (f : Die → Die) : (s.onDie d f).mem = s.mem := rfl
@[simp] theorem State.onDie_full (s : State) (d : Nat) (f : Die → Die) : (s.onDie d f).full = s.full := rfl
@[simp] theorem State.onDie_poison (s : State) (d : Nat) (f : Die → Die) : (s.onDie d f).poison = s.poison := rfl
@[simp] theorem State.onDie_dies (s : State) (d : Nat) (f : Die → Die) : (s.onDie d f).dies = s.dies.upd d Die.reset f := rfl
@[simp] theorem State.onDie_flight (s : State) (d : Nat) (f : Die → Die) : (s.onDie d f).flight = s.flight := rfl
@[simp] theorem State.onDie_dom (s : State) (d : Nat) (f : Die → Die) : (s.onDie d f).dom = s.dom := rfl
@[simp] theorem State.onDie_cores (s : State) (d : Nat) (f : Die → Die) : (s.onDie d f).cores = s.cores := rfl
@[simp] theorem State.onDie_pairs (s : State) (d : Nat) (f : Die → Die) : (s.onDie d f).pairs = s.pairs := rfl
@[simp] theorem State.onDie_l2tlb (s : State) (d : Nat) (f : Die → Die) : (s.onDie d f).l2tlb = s.l2tlb := rfl
@[simp] theorem State.onDie_pins (s : State) (d : Nat) (f : Die → Die) : (s.onDie d f).pins = s.pins := rfl
@[simp] theorem State.onDie_barriers (s : State) (d : Nat) (f : Die → Die) : (s.onDie d f).barriers = s.barriers := rfl
@[simp] theorem State.onDie_engines (s : State) (d : Nat) (f : Die → Die) : (s.onDie d f).engines = s.engines := rfl
@[simp] theorem State.onDie_nextOp (s : State) (d : Nat) (f : Die → Die) : (s.onDie d f).nextOp = s.nextOp := rfl
@[simp] theorem State.onDie_queries (s : State) (d : Nat) (f : Die → Die) : (s.onDie d f).queries = s.queries := rfl
@[simp] theorem State.onDie_mill (s : State) (d : Nat) (f : Die → Die) : (s.onDie d f).mill = s.mill := rfl
@[simp] theorem State.onDie_quads (s : State) (d : Nat) (f : Die → Die) : (s.onDie d f).quads = s.quads := rfl
@[simp] theorem State.onDie_power (s : State) (d : Nat) (f : Die → Die) : (s.onDie d f).power = s.power := rfl
@[simp] theorem State.onDie_links (s : State) (d : Nat) (f : Die → Die) : (s.onDie d f).links = s.links := rfl
@[simp] theorem State.onDie_mgmt (s : State) (d : Nat) (f : Die → Die) : (s.onDie d f).mgmt = s.mgmt := rfl
@[simp] theorem State.onDie_parts (s : State) (d : Nat) (f : Die → Die) : (s.onDie d f).parts = s.parts := rfl
@[simp] theorem State.onDie_board (s : State) (d : Nat) (f : Die → Die) : (s.onDie d f).board = s.board := rfl
@[simp] theorem State.onDie_agenda (s : State) (d : Nat) (f : Die → Die) : (s.onDie d f).agenda = s.agenda := rfl
@[simp] theorem State.onDie_budget (s : State) (d : Nat) (f : Die → Die) : (s.onDie d f).budget = s.budget := rfl
@[simp] theorem State.onDie_freeCount (s : State) (d : Nat) (f : Die → Die) : (s.onDie d f).freeCount = s.freeCount := rfl

/-! `onCore`. -/

@[simp] theorem State.onCore_act (s : State) (c : Nat) (f : Core → Core) : (s.onCore c f).act = s.act := rfl
@[simp] theorem State.onCore_parked (s : State) (c : Nat) (f : Core → Core) : (s.onCore c f).parked = s.parked := rfl
@[simp] theorem State.onCore_ir (s : State) (c : Nat) (f : Core → Core) : (s.onCore c f).ir = s.ir := rfl
@[simp] theorem State.onCore_mem (s : State) (c : Nat) (f : Core → Core) : (s.onCore c f).mem = s.mem := rfl
@[simp] theorem State.onCore_full (s : State) (c : Nat) (f : Core → Core) : (s.onCore c f).full = s.full := rfl
@[simp] theorem State.onCore_poison (s : State) (c : Nat) (f : Core → Core) : (s.onCore c f).poison = s.poison := rfl
@[simp] theorem State.onCore_dies (s : State) (c : Nat) (f : Core → Core) : (s.onCore c f).dies = s.dies := rfl
@[simp] theorem State.onCore_flight (s : State) (c : Nat) (f : Core → Core) : (s.onCore c f).flight = s.flight := rfl
@[simp] theorem State.onCore_dom (s : State) (c : Nat) (f : Core → Core) : (s.onCore c f).dom = s.dom := rfl
@[simp] theorem State.onCore_cores (s : State) (c : Nat) (f : Core → Core) : (s.onCore c f).cores = s.cores.upd c Core.reset f :=
  rfl
@[simp] theorem State.onCore_pairs (s : State) (c : Nat) (f : Core → Core) : (s.onCore c f).pairs = s.pairs := rfl
@[simp] theorem State.onCore_l2tlb (s : State) (c : Nat) (f : Core → Core) : (s.onCore c f).l2tlb = s.l2tlb := rfl
@[simp] theorem State.onCore_pins (s : State) (c : Nat) (f : Core → Core) : (s.onCore c f).pins = s.pins := rfl
@[simp] theorem State.onCore_barriers (s : State) (c : Nat) (f : Core → Core) : (s.onCore c f).barriers = s.barriers := rfl
@[simp] theorem State.onCore_engines (s : State) (c : Nat) (f : Core → Core) : (s.onCore c f).engines = s.engines := rfl
@[simp] theorem State.onCore_nextOp (s : State) (c : Nat) (f : Core → Core) : (s.onCore c f).nextOp = s.nextOp := rfl
@[simp] theorem State.onCore_queries (s : State) (c : Nat) (f : Core → Core) : (s.onCore c f).queries = s.queries := rfl
@[simp] theorem State.onCore_mill (s : State) (c : Nat) (f : Core → Core) : (s.onCore c f).mill = s.mill := rfl
@[simp] theorem State.onCore_quads (s : State) (c : Nat) (f : Core → Core) : (s.onCore c f).quads = s.quads := rfl
@[simp] theorem State.onCore_power (s : State) (c : Nat) (f : Core → Core) : (s.onCore c f).power = s.power := rfl
@[simp] theorem State.onCore_links (s : State) (c : Nat) (f : Core → Core) : (s.onCore c f).links = s.links := rfl
@[simp] theorem State.onCore_mgmt (s : State) (c : Nat) (f : Core → Core) : (s.onCore c f).mgmt = s.mgmt := rfl
@[simp] theorem State.onCore_parts (s : State) (c : Nat) (f : Core → Core) : (s.onCore c f).parts = s.parts := rfl
@[simp] theorem State.onCore_board (s : State) (c : Nat) (f : Core → Core) : (s.onCore c f).board = s.board := rfl
@[simp] theorem State.onCore_agenda (s : State) (c : Nat) (f : Core → Core) : (s.onCore c f).agenda = s.agenda := rfl
@[simp] theorem State.onCore_budget (s : State) (c : Nat) (f : Core → Core) : (s.onCore c f).budget = s.budget := rfl
@[simp] theorem State.onCore_freeCount (s : State) (c : Nat) (f : Core → Core) : (s.onCore c f).freeCount = s.freeCount := rfl

/-! `onPair`. -/

@[simp] theorem State.onPair_act (s : State) (p : Nat) (f : Pair → Pair) : (s.onPair p f).act = s.act := rfl
@[simp] theorem State.onPair_parked (s : State) (p : Nat) (f : Pair → Pair) : (s.onPair p f).parked = s.parked := rfl
@[simp] theorem State.onPair_ir (s : State) (p : Nat) (f : Pair → Pair) : (s.onPair p f).ir = s.ir := rfl
@[simp] theorem State.onPair_mem (s : State) (p : Nat) (f : Pair → Pair) : (s.onPair p f).mem = s.mem := rfl
@[simp] theorem State.onPair_full (s : State) (p : Nat) (f : Pair → Pair) : (s.onPair p f).full = s.full := rfl
@[simp] theorem State.onPair_poison (s : State) (p : Nat) (f : Pair → Pair) : (s.onPair p f).poison = s.poison := rfl
@[simp] theorem State.onPair_dies (s : State) (p : Nat) (f : Pair → Pair) : (s.onPair p f).dies = s.dies := rfl
@[simp] theorem State.onPair_flight (s : State) (p : Nat) (f : Pair → Pair) : (s.onPair p f).flight = s.flight := rfl
@[simp] theorem State.onPair_dom (s : State) (p : Nat) (f : Pair → Pair) : (s.onPair p f).dom = s.dom := rfl
@[simp] theorem State.onPair_cores (s : State) (p : Nat) (f : Pair → Pair) : (s.onPair p f).cores = s.cores := rfl
@[simp] theorem State.onPair_pairs (s : State) (p : Nat) (f : Pair → Pair) : (s.onPair p f).pairs = s.pairs.upd p Pair.reset f :=
  rfl
@[simp] theorem State.onPair_l2tlb (s : State) (p : Nat) (f : Pair → Pair) : (s.onPair p f).l2tlb = s.l2tlb := rfl
@[simp] theorem State.onPair_pins (s : State) (p : Nat) (f : Pair → Pair) : (s.onPair p f).pins = s.pins := rfl
@[simp] theorem State.onPair_barriers (s : State) (p : Nat) (f : Pair → Pair) : (s.onPair p f).barriers = s.barriers := rfl
@[simp] theorem State.onPair_engines (s : State) (p : Nat) (f : Pair → Pair) : (s.onPair p f).engines = s.engines := rfl
@[simp] theorem State.onPair_nextOp (s : State) (p : Nat) (f : Pair → Pair) : (s.onPair p f).nextOp = s.nextOp := rfl
@[simp] theorem State.onPair_queries (s : State) (p : Nat) (f : Pair → Pair) : (s.onPair p f).queries = s.queries := rfl
@[simp] theorem State.onPair_mill (s : State) (p : Nat) (f : Pair → Pair) : (s.onPair p f).mill = s.mill := rfl
@[simp] theorem State.onPair_quads (s : State) (p : Nat) (f : Pair → Pair) : (s.onPair p f).quads = s.quads := rfl
@[simp] theorem State.onPair_power (s : State) (p : Nat) (f : Pair → Pair) : (s.onPair p f).power = s.power := rfl
@[simp] theorem State.onPair_links (s : State) (p : Nat) (f : Pair → Pair) : (s.onPair p f).links = s.links := rfl
@[simp] theorem State.onPair_mgmt (s : State) (p : Nat) (f : Pair → Pair) : (s.onPair p f).mgmt = s.mgmt := rfl
@[simp] theorem State.onPair_parts (s : State) (p : Nat) (f : Pair → Pair) : (s.onPair p f).parts = s.parts := rfl
@[simp] theorem State.onPair_board (s : State) (p : Nat) (f : Pair → Pair) : (s.onPair p f).board = s.board := rfl
@[simp] theorem State.onPair_agenda (s : State) (p : Nat) (f : Pair → Pair) : (s.onPair p f).agenda = s.agenda := rfl
@[simp] theorem State.onPair_budget (s : State) (p : Nat) (f : Pair → Pair) : (s.onPair p f).budget = s.budget := rfl
@[simp] theorem State.onPair_freeCount (s : State) (p : Nat) (f : Pair → Pair) : (s.onPair p f).freeCount = s.freeCount := rfl

/-! `onQuad`. -/

@[simp] theorem State.onQuad_act (s : State) (q : Nat) (f : Quad → Quad) : (s.onQuad q f).act = s.act := rfl
@[simp] theorem State.onQuad_parked (s : State) (q : Nat) (f : Quad → Quad) : (s.onQuad q f).parked = s.parked := rfl
@[simp] theorem State.onQuad_ir (s : State) (q : Nat) (f : Quad → Quad) : (s.onQuad q f).ir = s.ir := rfl
@[simp] theorem State.onQuad_mem (s : State) (q : Nat) (f : Quad → Quad) : (s.onQuad q f).mem = s.mem := rfl
@[simp] theorem State.onQuad_full (s : State) (q : Nat) (f : Quad → Quad) : (s.onQuad q f).full = s.full := rfl
@[simp] theorem State.onQuad_poison (s : State) (q : Nat) (f : Quad → Quad) : (s.onQuad q f).poison = s.poison := rfl
@[simp] theorem State.onQuad_dies (s : State) (q : Nat) (f : Quad → Quad) : (s.onQuad q f).dies = s.dies := rfl
@[simp] theorem State.onQuad_flight (s : State) (q : Nat) (f : Quad → Quad) : (s.onQuad q f).flight = s.flight := rfl
@[simp] theorem State.onQuad_dom (s : State) (q : Nat) (f : Quad → Quad) : (s.onQuad q f).dom = s.dom := rfl
@[simp] theorem State.onQuad_cores (s : State) (q : Nat) (f : Quad → Quad) : (s.onQuad q f).cores = s.cores := rfl
@[simp] theorem State.onQuad_pairs (s : State) (q : Nat) (f : Quad → Quad) : (s.onQuad q f).pairs = s.pairs := rfl
@[simp] theorem State.onQuad_l2tlb (s : State) (q : Nat) (f : Quad → Quad) : (s.onQuad q f).l2tlb = s.l2tlb := rfl
@[simp] theorem State.onQuad_pins (s : State) (q : Nat) (f : Quad → Quad) : (s.onQuad q f).pins = s.pins := rfl
@[simp] theorem State.onQuad_barriers (s : State) (q : Nat) (f : Quad → Quad) : (s.onQuad q f).barriers = s.barriers := rfl
@[simp] theorem State.onQuad_engines (s : State) (q : Nat) (f : Quad → Quad) : (s.onQuad q f).engines = s.engines := rfl
@[simp] theorem State.onQuad_nextOp (s : State) (q : Nat) (f : Quad → Quad) : (s.onQuad q f).nextOp = s.nextOp := rfl
@[simp] theorem State.onQuad_queries (s : State) (q : Nat) (f : Quad → Quad) : (s.onQuad q f).queries = s.queries := rfl
@[simp] theorem State.onQuad_mill (s : State) (q : Nat) (f : Quad → Quad) : (s.onQuad q f).mill = s.mill := rfl
@[simp] theorem State.onQuad_quads (s : State) (q : Nat) (f : Quad → Quad) : (s.onQuad q f).quads = s.quads.upd q Quad.reset f :=
  rfl
@[simp] theorem State.onQuad_power (s : State) (q : Nat) (f : Quad → Quad) : (s.onQuad q f).power = s.power := rfl
@[simp] theorem State.onQuad_links (s : State) (q : Nat) (f : Quad → Quad) : (s.onQuad q f).links = s.links := rfl
@[simp] theorem State.onQuad_mgmt (s : State) (q : Nat) (f : Quad → Quad) : (s.onQuad q f).mgmt = s.mgmt := rfl
@[simp] theorem State.onQuad_parts (s : State) (q : Nat) (f : Quad → Quad) : (s.onQuad q f).parts = s.parts := rfl
@[simp] theorem State.onQuad_board (s : State) (q : Nat) (f : Quad → Quad) : (s.onQuad q f).board = s.board := rfl
@[simp] theorem State.onQuad_agenda (s : State) (q : Nat) (f : Quad → Quad) : (s.onQuad q f).agenda = s.agenda := rfl
@[simp] theorem State.onQuad_budget (s : State) (q : Nat) (f : Quad → Quad) : (s.onQuad q f).budget = s.budget := rfl
@[simp] theorem State.onQuad_freeCount (s : State) (q : Nat) (f : Quad → Quad) : (s.onQuad q f).freeCount = s.freeCount := rfl

/-! `onMill`. -/

@[simp] theorem State.onMill_act (s : State) (f : Millrace → Millrace) : (s.onMill f).act = s.act := rfl
@[simp] theorem State.onMill_parked (s : State) (f : Millrace → Millrace) : (s.onMill f).parked = s.parked := rfl
@[simp] theorem State.onMill_ir (s : State) (f : Millrace → Millrace) : (s.onMill f).ir = s.ir := rfl
@[simp] theorem State.onMill_mem (s : State) (f : Millrace → Millrace) : (s.onMill f).mem = s.mem := rfl
@[simp] theorem State.onMill_full (s : State) (f : Millrace → Millrace) : (s.onMill f).full = s.full := rfl
@[simp] theorem State.onMill_poison (s : State) (f : Millrace → Millrace) : (s.onMill f).poison = s.poison := rfl
@[simp] theorem State.onMill_dies (s : State) (f : Millrace → Millrace) : (s.onMill f).dies = s.dies := rfl
@[simp] theorem State.onMill_flight (s : State) (f : Millrace → Millrace) : (s.onMill f).flight = s.flight := rfl
@[simp] theorem State.onMill_dom (s : State) (f : Millrace → Millrace) : (s.onMill f).dom = s.dom := rfl
@[simp] theorem State.onMill_cores (s : State) (f : Millrace → Millrace) : (s.onMill f).cores = s.cores := rfl
@[simp] theorem State.onMill_pairs (s : State) (f : Millrace → Millrace) : (s.onMill f).pairs = s.pairs := rfl
@[simp] theorem State.onMill_l2tlb (s : State) (f : Millrace → Millrace) : (s.onMill f).l2tlb = s.l2tlb := rfl
@[simp] theorem State.onMill_pins (s : State) (f : Millrace → Millrace) : (s.onMill f).pins = s.pins := rfl
@[simp] theorem State.onMill_barriers (s : State) (f : Millrace → Millrace) : (s.onMill f).barriers = s.barriers := rfl
@[simp] theorem State.onMill_engines (s : State) (f : Millrace → Millrace) : (s.onMill f).engines = s.engines := rfl
@[simp] theorem State.onMill_nextOp (s : State) (f : Millrace → Millrace) : (s.onMill f).nextOp = s.nextOp := rfl
@[simp] theorem State.onMill_queries (s : State) (f : Millrace → Millrace) : (s.onMill f).queries = s.queries := rfl
@[simp] theorem State.onMill_mill (s : State) (f : Millrace → Millrace) : (s.onMill f).mill = f s.mill := rfl
@[simp] theorem State.onMill_quads (s : State) (f : Millrace → Millrace) : (s.onMill f).quads = s.quads := rfl
@[simp] theorem State.onMill_power (s : State) (f : Millrace → Millrace) : (s.onMill f).power = s.power := rfl
@[simp] theorem State.onMill_links (s : State) (f : Millrace → Millrace) : (s.onMill f).links = s.links := rfl
@[simp] theorem State.onMill_mgmt (s : State) (f : Millrace → Millrace) : (s.onMill f).mgmt = s.mgmt := rfl
@[simp] theorem State.onMill_parts (s : State) (f : Millrace → Millrace) : (s.onMill f).parts = s.parts := rfl
@[simp] theorem State.onMill_board (s : State) (f : Millrace → Millrace) : (s.onMill f).board = s.board := rfl
@[simp] theorem State.onMill_agenda (s : State) (f : Millrace → Millrace) : (s.onMill f).agenda = s.agenda := rfl
@[simp] theorem State.onMill_budget (s : State) (f : Millrace → Millrace) : (s.onMill f).budget = s.budget := rfl
@[simp] theorem State.onMill_freeCount (s : State) (f : Millrace → Millrace) : (s.onMill f).freeCount = s.freeCount := rfl

/-! `onLinks`. -/

@[simp] theorem State.onLinks_act (s : State) (f : Links → Links) : (s.onLinks f).act = s.act := rfl
@[simp] theorem State.onLinks_parked (s : State) (f : Links → Links) : (s.onLinks f).parked = s.parked := rfl
@[simp] theorem State.onLinks_ir (s : State) (f : Links → Links) : (s.onLinks f).ir = s.ir := rfl
@[simp] theorem State.onLinks_mem (s : State) (f : Links → Links) : (s.onLinks f).mem = s.mem := rfl
@[simp] theorem State.onLinks_full (s : State) (f : Links → Links) : (s.onLinks f).full = s.full := rfl
@[simp] theorem State.onLinks_poison (s : State) (f : Links → Links) : (s.onLinks f).poison = s.poison := rfl
@[simp] theorem State.onLinks_dies (s : State) (f : Links → Links) : (s.onLinks f).dies = s.dies := rfl
@[simp] theorem State.onLinks_flight (s : State) (f : Links → Links) : (s.onLinks f).flight = s.flight := rfl
@[simp] theorem State.onLinks_dom (s : State) (f : Links → Links) : (s.onLinks f).dom = s.dom := rfl
@[simp] theorem State.onLinks_cores (s : State) (f : Links → Links) : (s.onLinks f).cores = s.cores := rfl
@[simp] theorem State.onLinks_pairs (s : State) (f : Links → Links) : (s.onLinks f).pairs = s.pairs := rfl
@[simp] theorem State.onLinks_l2tlb (s : State) (f : Links → Links) : (s.onLinks f).l2tlb = s.l2tlb := rfl
@[simp] theorem State.onLinks_pins (s : State) (f : Links → Links) : (s.onLinks f).pins = s.pins := rfl
@[simp] theorem State.onLinks_barriers (s : State) (f : Links → Links) : (s.onLinks f).barriers = s.barriers := rfl
@[simp] theorem State.onLinks_engines (s : State) (f : Links → Links) : (s.onLinks f).engines = s.engines := rfl
@[simp] theorem State.onLinks_nextOp (s : State) (f : Links → Links) : (s.onLinks f).nextOp = s.nextOp := rfl
@[simp] theorem State.onLinks_queries (s : State) (f : Links → Links) : (s.onLinks f).queries = s.queries := rfl
@[simp] theorem State.onLinks_mill (s : State) (f : Links → Links) : (s.onLinks f).mill = s.mill := rfl
@[simp] theorem State.onLinks_quads (s : State) (f : Links → Links) : (s.onLinks f).quads = s.quads := rfl
@[simp] theorem State.onLinks_power (s : State) (f : Links → Links) : (s.onLinks f).power = s.power := rfl
@[simp] theorem State.onLinks_links (s : State) (f : Links → Links) : (s.onLinks f).links = f s.links := rfl
@[simp] theorem State.onLinks_mgmt (s : State) (f : Links → Links) : (s.onLinks f).mgmt = s.mgmt := rfl
@[simp] theorem State.onLinks_parts (s : State) (f : Links → Links) : (s.onLinks f).parts = s.parts := rfl
@[simp] theorem State.onLinks_board (s : State) (f : Links → Links) : (s.onLinks f).board = s.board := rfl
@[simp] theorem State.onLinks_agenda (s : State) (f : Links → Links) : (s.onLinks f).agenda = s.agenda := rfl
@[simp] theorem State.onLinks_budget (s : State) (f : Links → Links) : (s.onLinks f).budget = s.budget := rfl
@[simp] theorem State.onLinks_freeCount (s : State) (f : Links → Links) : (s.onLinks f).freeCount = s.freeCount := rfl

/-! `setPort`. -/

@[simp] theorem State.setPort_act (s : State) (p : Nat) (x : Port) : (s.setPort p x).act = s.act := by
  unfold State.setPort; split <;> rfl
@[simp] theorem State.setPort_parked (s : State) (p : Nat) (x : Port) : (s.setPort p x).parked = s.parked := by
  unfold State.setPort; split <;> rfl
@[simp] theorem State.setPort_ir (s : State) (p : Nat) (x : Port) : (s.setPort p x).ir = s.ir := by
  unfold State.setPort; split <;> rfl
@[simp] theorem State.setPort_mem (s : State) (p : Nat) (x : Port) : (s.setPort p x).mem = s.mem := by
  unfold State.setPort; split <;> rfl
@[simp] theorem State.setPort_full (s : State) (p : Nat) (x : Port) : (s.setPort p x).full = s.full := by
  unfold State.setPort; split <;> rfl
@[simp] theorem State.setPort_poison (s : State) (p : Nat) (x : Port) : (s.setPort p x).poison = s.poison := by
  unfold State.setPort; split <;> rfl
@[simp] theorem State.setPort_dies (s : State) (p : Nat) (x : Port) : (s.setPort p x).dies = s.dies := by
  unfold State.setPort; split <;> rfl
@[simp] theorem State.setPort_flight (s : State) (p : Nat) (x : Port) : (s.setPort p x).flight = s.flight := by
  unfold State.setPort; split <;> rfl
@[simp] theorem State.setPort_dom (s : State) (p : Nat) (x : Port) : (s.setPort p x).dom = s.dom := by
  unfold State.setPort; split <;> rfl
@[simp] theorem State.setPort_cores (s : State) (p : Nat) (x : Port) : (s.setPort p x).cores = s.cores := by
  unfold State.setPort; split <;> rfl
@[simp] theorem State.setPort_pairs (s : State) (p : Nat) (x : Port) : (s.setPort p x).pairs = s.pairs := by
  unfold State.setPort; split <;> rfl
@[simp] theorem State.setPort_l2tlb (s : State) (p : Nat) (x : Port) : (s.setPort p x).l2tlb = s.l2tlb := by
  unfold State.setPort; split <;> rfl
@[simp] theorem State.setPort_pins (s : State) (p : Nat) (x : Port) : (s.setPort p x).pins = s.pins := by
  unfold State.setPort; split <;> rfl
@[simp] theorem State.setPort_barriers (s : State) (p : Nat) (x : Port) : (s.setPort p x).barriers = s.barriers := by
  unfold State.setPort; split <;> rfl
@[simp] theorem State.setPort_engines (s : State) (p : Nat) (x : Port) : (s.setPort p x).engines = s.engines := by
  unfold State.setPort; split <;> rfl
@[simp] theorem State.setPort_nextOp (s : State) (p : Nat) (x : Port) : (s.setPort p x).nextOp = s.nextOp := by
  unfold State.setPort; split <;> rfl
@[simp] theorem State.setPort_queries (s : State) (p : Nat) (x : Port) : (s.setPort p x).queries = s.queries := by
  unfold State.setPort; split <;> rfl
@[simp] theorem State.setPort_mill (s : State) (p : Nat) (x : Port) : (s.setPort p x).mill = s.mill := by
  unfold State.setPort; split <;> rfl
@[simp] theorem State.setPort_quads (s : State) (p : Nat) (x : Port) : (s.setPort p x).quads = s.quads := by
  unfold State.setPort; split <;> rfl
@[simp] theorem State.setPort_power (s : State) (p : Nat) (x : Port) : (s.setPort p x).power = s.power := by
  unfold State.setPort; split <;> rfl
@[simp] theorem State.setPort_mgmt (s : State) (p : Nat) (x : Port) : (s.setPort p x).mgmt = s.mgmt := by
  unfold State.setPort; split <;> rfl
@[simp] theorem State.setPort_parts (s : State) (p : Nat) (x : Port) : (s.setPort p x).parts = s.parts := by
  unfold State.setPort; split <;> rfl
@[simp] theorem State.setPort_board (s : State) (p : Nat) (x : Port) : (s.setPort p x).board = s.board := by
  unfold State.setPort; split <;> rfl
@[simp] theorem State.setPort_agenda (s : State) (p : Nat) (x : Port) : (s.setPort p x).agenda = s.agenda := by
  unfold State.setPort; split <;> rfl
@[simp] theorem State.setPort_budget (s : State) (p : Nat) (x : Port) : (s.setPort p x).budget = s.budget := by
  unfold State.setPort; split <;> rfl
@[simp] theorem State.setPort_freeCount (s : State) (p : Nat) (x : Port) : (s.setPort p x).freeCount = s.freeCount := by
  unfold State.setPort; split <;> rfl

/-! `event`. -/

@[simp] theorem State.event_act (s : State) (e : MgmtEvent) : (s.event e).act = s.act := rfl
@[simp] theorem State.event_parked (s : State) (e : MgmtEvent) : (s.event e).parked = s.parked := rfl
@[simp] theorem State.event_ir (s : State) (e : MgmtEvent) : (s.event e).ir = s.ir := rfl
@[simp] theorem State.event_mem (s : State) (e : MgmtEvent) : (s.event e).mem = s.mem := rfl
@[simp] theorem State.event_full (s : State) (e : MgmtEvent) : (s.event e).full = s.full := rfl
@[simp] theorem State.event_poison (s : State) (e : MgmtEvent) : (s.event e).poison = s.poison := rfl
@[simp] theorem State.event_dies (s : State) (e : MgmtEvent) : (s.event e).dies = s.dies := rfl
@[simp] theorem State.event_flight (s : State) (e : MgmtEvent) : (s.event e).flight = s.flight := rfl
@[simp] theorem State.event_dom (s : State) (e : MgmtEvent) : (s.event e).dom = s.dom := rfl
@[simp] theorem State.event_cores (s : State) (e : MgmtEvent) : (s.event e).cores = s.cores := rfl
@[simp] theorem State.event_pairs (s : State) (e : MgmtEvent) : (s.event e).pairs = s.pairs := rfl
@[simp] theorem State.event_l2tlb (s : State) (e : MgmtEvent) : (s.event e).l2tlb = s.l2tlb := rfl
@[simp] theorem State.event_pins (s : State) (e : MgmtEvent) : (s.event e).pins = s.pins := rfl
@[simp] theorem State.event_barriers (s : State) (e : MgmtEvent) : (s.event e).barriers = s.barriers := rfl
@[simp] theorem State.event_engines (s : State) (e : MgmtEvent) : (s.event e).engines = s.engines := rfl
@[simp] theorem State.event_nextOp (s : State) (e : MgmtEvent) : (s.event e).nextOp = s.nextOp := rfl
@[simp] theorem State.event_queries (s : State) (e : MgmtEvent) : (s.event e).queries = s.queries := rfl
@[simp] theorem State.event_mill (s : State) (e : MgmtEvent) : (s.event e).mill = s.mill := rfl
@[simp] theorem State.event_quads (s : State) (e : MgmtEvent) : (s.event e).quads = s.quads := rfl
@[simp] theorem State.event_power (s : State) (e : MgmtEvent) : (s.event e).power = s.power := rfl
@[simp] theorem State.event_links (s : State) (e : MgmtEvent) : (s.event e).links = s.links := rfl
@[simp] theorem State.event_mgmt (s : State) (e : MgmtEvent) :
    (s.event e).mgmt = { s.mgmt with events := s.mgmt.events ++ [e] } := rfl
@[simp] theorem State.event_parts (s : State) (e : MgmtEvent) : (s.event e).parts = s.parts := rfl
@[simp] theorem State.event_board (s : State) (e : MgmtEvent) : (s.event e).board = s.board := rfl
@[simp] theorem State.event_agenda (s : State) (e : MgmtEvent) : (s.event e).agenda = s.agenda := rfl
@[simp] theorem State.event_budget (s : State) (e : MgmtEvent) : (s.event e).budget = s.budget := rfl
@[simp] theorem State.event_freeCount (s : State) (e : MgmtEvent) : (s.event e).freeCount = s.freeCount := rfl

/-! `onMgmt`. -/

@[simp] theorem State.onMgmt_act (s : State) (f : Mgmt → Mgmt) : (s.onMgmt f).act = s.act := rfl
@[simp] theorem State.onMgmt_parked (s : State) (f : Mgmt → Mgmt) : (s.onMgmt f).parked = s.parked := rfl
@[simp] theorem State.onMgmt_ir (s : State) (f : Mgmt → Mgmt) : (s.onMgmt f).ir = s.ir := rfl
@[simp] theorem State.onMgmt_mem (s : State) (f : Mgmt → Mgmt) : (s.onMgmt f).mem = s.mem := rfl
@[simp] theorem State.onMgmt_full (s : State) (f : Mgmt → Mgmt) : (s.onMgmt f).full = s.full := rfl
@[simp] theorem State.onMgmt_poison (s : State) (f : Mgmt → Mgmt) : (s.onMgmt f).poison = s.poison := rfl
@[simp] theorem State.onMgmt_dies (s : State) (f : Mgmt → Mgmt) : (s.onMgmt f).dies = s.dies := rfl
@[simp] theorem State.onMgmt_flight (s : State) (f : Mgmt → Mgmt) : (s.onMgmt f).flight = s.flight := rfl
@[simp] theorem State.onMgmt_dom (s : State) (f : Mgmt → Mgmt) : (s.onMgmt f).dom = s.dom := rfl
@[simp] theorem State.onMgmt_cores (s : State) (f : Mgmt → Mgmt) : (s.onMgmt f).cores = s.cores := rfl
@[simp] theorem State.onMgmt_pairs (s : State) (f : Mgmt → Mgmt) : (s.onMgmt f).pairs = s.pairs := rfl
@[simp] theorem State.onMgmt_l2tlb (s : State) (f : Mgmt → Mgmt) : (s.onMgmt f).l2tlb = s.l2tlb := rfl
@[simp] theorem State.onMgmt_pins (s : State) (f : Mgmt → Mgmt) : (s.onMgmt f).pins = s.pins := rfl
@[simp] theorem State.onMgmt_barriers (s : State) (f : Mgmt → Mgmt) : (s.onMgmt f).barriers = s.barriers := rfl
@[simp] theorem State.onMgmt_engines (s : State) (f : Mgmt → Mgmt) : (s.onMgmt f).engines = s.engines := rfl
@[simp] theorem State.onMgmt_nextOp (s : State) (f : Mgmt → Mgmt) : (s.onMgmt f).nextOp = s.nextOp := rfl
@[simp] theorem State.onMgmt_queries (s : State) (f : Mgmt → Mgmt) : (s.onMgmt f).queries = s.queries := rfl
@[simp] theorem State.onMgmt_mill (s : State) (f : Mgmt → Mgmt) : (s.onMgmt f).mill = s.mill := rfl
@[simp] theorem State.onMgmt_quads (s : State) (f : Mgmt → Mgmt) : (s.onMgmt f).quads = s.quads := rfl
@[simp] theorem State.onMgmt_power (s : State) (f : Mgmt → Mgmt) : (s.onMgmt f).power = s.power := rfl
@[simp] theorem State.onMgmt_links (s : State) (f : Mgmt → Mgmt) : (s.onMgmt f).links = s.links := rfl
@[simp] theorem State.onMgmt_mgmt (s : State) (f : Mgmt → Mgmt) : (s.onMgmt f).mgmt = f s.mgmt := rfl
@[simp] theorem State.onMgmt_parts (s : State) (f : Mgmt → Mgmt) : (s.onMgmt f).parts = s.parts := rfl
@[simp] theorem State.onMgmt_board (s : State) (f : Mgmt → Mgmt) : (s.onMgmt f).board = s.board := rfl
@[simp] theorem State.onMgmt_agenda (s : State) (f : Mgmt → Mgmt) : (s.onMgmt f).agenda = s.agenda := rfl
@[simp] theorem State.onMgmt_budget (s : State) (f : Mgmt → Mgmt) : (s.onMgmt f).budget = s.budget := rfl
@[simp] theorem State.onMgmt_freeCount (s : State) (f : Mgmt → Mgmt) : (s.onMgmt f).freeCount = s.freeCount := rfl

/-! `setOp`. -/

@[simp] theorem State.setOp_act (s : State) (k : Nat) (e : EngOp) : (s.setOp k e).act = s.act := rfl
@[simp] theorem State.setOp_parked (s : State) (k : Nat) (e : EngOp) : (s.setOp k e).parked = s.parked := rfl
@[simp] theorem State.setOp_ir (s : State) (k : Nat) (e : EngOp) : (s.setOp k e).ir = s.ir := rfl
@[simp] theorem State.setOp_mem (s : State) (k : Nat) (e : EngOp) : (s.setOp k e).mem = s.mem := rfl
@[simp] theorem State.setOp_full (s : State) (k : Nat) (e : EngOp) : (s.setOp k e).full = s.full := rfl
@[simp] theorem State.setOp_poison (s : State) (k : Nat) (e : EngOp) : (s.setOp k e).poison = s.poison := rfl
@[simp] theorem State.setOp_dies (s : State) (k : Nat) (e : EngOp) : (s.setOp k e).dies = s.dies := rfl
@[simp] theorem State.setOp_flight (s : State) (k : Nat) (e : EngOp) : (s.setOp k e).flight = s.flight := rfl
@[simp] theorem State.setOp_dom (s : State) (k : Nat) (e : EngOp) : (s.setOp k e).dom = s.dom := rfl
@[simp] theorem State.setOp_cores (s : State) (k : Nat) (e : EngOp) : (s.setOp k e).cores = s.cores := rfl
@[simp] theorem State.setOp_pairs (s : State) (k : Nat) (e : EngOp) : (s.setOp k e).pairs = s.pairs := rfl
@[simp] theorem State.setOp_l2tlb (s : State) (k : Nat) (e : EngOp) : (s.setOp k e).l2tlb = s.l2tlb := rfl
@[simp] theorem State.setOp_pins (s : State) (k : Nat) (e : EngOp) : (s.setOp k e).pins = s.pins := rfl
@[simp] theorem State.setOp_barriers (s : State) (k : Nat) (e : EngOp) : (s.setOp k e).barriers = s.barriers := rfl
@[simp] theorem State.setOp_engines (s : State) (k : Nat) (e : EngOp) : (s.setOp k e).engines = NMap.set k e s.engines := rfl
@[simp] theorem State.setOp_nextOp (s : State) (k : Nat) (e : EngOp) : (s.setOp k e).nextOp = s.nextOp := rfl
@[simp] theorem State.setOp_queries (s : State) (k : Nat) (e : EngOp) : (s.setOp k e).queries = s.queries := rfl
@[simp] theorem State.setOp_mill (s : State) (k : Nat) (e : EngOp) : (s.setOp k e).mill = s.mill := rfl
@[simp] theorem State.setOp_quads (s : State) (k : Nat) (e : EngOp) : (s.setOp k e).quads = s.quads := rfl
@[simp] theorem State.setOp_power (s : State) (k : Nat) (e : EngOp) : (s.setOp k e).power = s.power := rfl
@[simp] theorem State.setOp_links (s : State) (k : Nat) (e : EngOp) : (s.setOp k e).links = s.links := rfl
@[simp] theorem State.setOp_mgmt (s : State) (k : Nat) (e : EngOp) : (s.setOp k e).mgmt = s.mgmt := rfl
@[simp] theorem State.setOp_parts (s : State) (k : Nat) (e : EngOp) : (s.setOp k e).parts = s.parts := rfl
@[simp] theorem State.setOp_board (s : State) (k : Nat) (e : EngOp) : (s.setOp k e).board = s.board := rfl
@[simp] theorem State.setOp_agenda (s : State) (k : Nat) (e : EngOp) : (s.setOp k e).agenda = s.agenda := rfl
@[simp] theorem State.setOp_budget (s : State) (k : Nat) (e : EngOp) : (s.setOp k e).budget = s.budget := rfl
@[simp] theorem State.setOp_freeCount (s : State) (k : Nat) (e : EngOp) : (s.setOp k e).freeCount = s.freeCount := rfl

/-! `setBarrier`. -/

@[simp] theorem State.setBarrier_act (s : State) (k : Nat) (b : Barrier) : (s.setBarrier k b).act = s.act := rfl
@[simp] theorem State.setBarrier_parked (s : State) (k : Nat) (b : Barrier) : (s.setBarrier k b).parked = s.parked := rfl
@[simp] theorem State.setBarrier_ir (s : State) (k : Nat) (b : Barrier) : (s.setBarrier k b).ir = s.ir := rfl
@[simp] theorem State.setBarrier_mem (s : State) (k : Nat) (b : Barrier) : (s.setBarrier k b).mem = s.mem := rfl
@[simp] theorem State.setBarrier_full (s : State) (k : Nat) (b : Barrier) : (s.setBarrier k b).full = s.full := rfl
@[simp] theorem State.setBarrier_poison (s : State) (k : Nat) (b : Barrier) : (s.setBarrier k b).poison = s.poison := rfl
@[simp] theorem State.setBarrier_dies (s : State) (k : Nat) (b : Barrier) : (s.setBarrier k b).dies = s.dies := rfl
@[simp] theorem State.setBarrier_flight (s : State) (k : Nat) (b : Barrier) : (s.setBarrier k b).flight = s.flight := rfl
@[simp] theorem State.setBarrier_dom (s : State) (k : Nat) (b : Barrier) : (s.setBarrier k b).dom = s.dom := rfl
@[simp] theorem State.setBarrier_cores (s : State) (k : Nat) (b : Barrier) : (s.setBarrier k b).cores = s.cores := rfl
@[simp] theorem State.setBarrier_pairs (s : State) (k : Nat) (b : Barrier) : (s.setBarrier k b).pairs = s.pairs := rfl
@[simp] theorem State.setBarrier_l2tlb (s : State) (k : Nat) (b : Barrier) : (s.setBarrier k b).l2tlb = s.l2tlb := rfl
@[simp] theorem State.setBarrier_pins (s : State) (k : Nat) (b : Barrier) : (s.setBarrier k b).pins = s.pins := rfl
@[simp] theorem State.setBarrier_barriers (s : State) (k : Nat) (b : Barrier) : (s.setBarrier k b).barriers = NMap.set k b s.barriers :=
  rfl
@[simp] theorem State.setBarrier_engines (s : State) (k : Nat) (b : Barrier) : (s.setBarrier k b).engines = s.engines := rfl
@[simp] theorem State.setBarrier_nextOp (s : State) (k : Nat) (b : Barrier) : (s.setBarrier k b).nextOp = s.nextOp := rfl
@[simp] theorem State.setBarrier_queries (s : State) (k : Nat) (b : Barrier) : (s.setBarrier k b).queries = s.queries := rfl
@[simp] theorem State.setBarrier_mill (s : State) (k : Nat) (b : Barrier) : (s.setBarrier k b).mill = s.mill := rfl
@[simp] theorem State.setBarrier_quads (s : State) (k : Nat) (b : Barrier) : (s.setBarrier k b).quads = s.quads := rfl
@[simp] theorem State.setBarrier_power (s : State) (k : Nat) (b : Barrier) : (s.setBarrier k b).power = s.power := rfl
@[simp] theorem State.setBarrier_links (s : State) (k : Nat) (b : Barrier) : (s.setBarrier k b).links = s.links := rfl
@[simp] theorem State.setBarrier_mgmt (s : State) (k : Nat) (b : Barrier) : (s.setBarrier k b).mgmt = s.mgmt := rfl
@[simp] theorem State.setBarrier_parts (s : State) (k : Nat) (b : Barrier) : (s.setBarrier k b).parts = s.parts := rfl
@[simp] theorem State.setBarrier_board (s : State) (k : Nat) (b : Barrier) : (s.setBarrier k b).board = s.board := rfl
@[simp] theorem State.setBarrier_agenda (s : State) (k : Nat) (b : Barrier) : (s.setBarrier k b).agenda = s.agenda := rfl
@[simp] theorem State.setBarrier_budget (s : State) (k : Nat) (b : Barrier) : (s.setBarrier k b).budget = s.budget := rfl
@[simp] theorem State.setBarrier_freeCount (s : State) (k : Nat) (b : Barrier) : (s.setBarrier k b).freeCount = s.freeCount :=
  rfl

/-! `setCtx`. -/

@[simp] theorem State.setCtx_act (s : State) (k : Nat) (x : QCtx) : (s.setCtx k x).act = s.act := rfl
@[simp] theorem State.setCtx_parked (s : State) (k : Nat) (x : QCtx) : (s.setCtx k x).parked = s.parked := rfl
@[simp] theorem State.setCtx_ir (s : State) (k : Nat) (x : QCtx) : (s.setCtx k x).ir = s.ir := rfl
@[simp] theorem State.setCtx_mem (s : State) (k : Nat) (x : QCtx) : (s.setCtx k x).mem = s.mem := rfl
@[simp] theorem State.setCtx_full (s : State) (k : Nat) (x : QCtx) : (s.setCtx k x).full = s.full := rfl
@[simp] theorem State.setCtx_poison (s : State) (k : Nat) (x : QCtx) : (s.setCtx k x).poison = s.poison := rfl
@[simp] theorem State.setCtx_dies (s : State) (k : Nat) (x : QCtx) : (s.setCtx k x).dies = s.dies := rfl
@[simp] theorem State.setCtx_flight (s : State) (k : Nat) (x : QCtx) : (s.setCtx k x).flight = s.flight := rfl
@[simp] theorem State.setCtx_dom (s : State) (k : Nat) (x : QCtx) : (s.setCtx k x).dom = s.dom := rfl
@[simp] theorem State.setCtx_cores (s : State) (k : Nat) (x : QCtx) : (s.setCtx k x).cores = s.cores := rfl
@[simp] theorem State.setCtx_pairs (s : State) (k : Nat) (x : QCtx) : (s.setCtx k x).pairs = s.pairs := rfl
@[simp] theorem State.setCtx_l2tlb (s : State) (k : Nat) (x : QCtx) : (s.setCtx k x).l2tlb = s.l2tlb := rfl
@[simp] theorem State.setCtx_pins (s : State) (k : Nat) (x : QCtx) : (s.setCtx k x).pins = s.pins := rfl
@[simp] theorem State.setCtx_barriers (s : State) (k : Nat) (x : QCtx) : (s.setCtx k x).barriers = s.barriers := rfl
@[simp] theorem State.setCtx_engines (s : State) (k : Nat) (x : QCtx) : (s.setCtx k x).engines = s.engines := rfl
@[simp] theorem State.setCtx_nextOp (s : State) (k : Nat) (x : QCtx) : (s.setCtx k x).nextOp = s.nextOp := rfl
@[simp] theorem State.setCtx_queries (s : State) (k : Nat) (x : QCtx) : (s.setCtx k x).queries = NMap.set k x s.queries := rfl
@[simp] theorem State.setCtx_mill (s : State) (k : Nat) (x : QCtx) : (s.setCtx k x).mill = s.mill := rfl
@[simp] theorem State.setCtx_quads (s : State) (k : Nat) (x : QCtx) : (s.setCtx k x).quads = s.quads := rfl
@[simp] theorem State.setCtx_power (s : State) (k : Nat) (x : QCtx) : (s.setCtx k x).power = s.power := rfl
@[simp] theorem State.setCtx_links (s : State) (k : Nat) (x : QCtx) : (s.setCtx k x).links = s.links := rfl
@[simp] theorem State.setCtx_mgmt (s : State) (k : Nat) (x : QCtx) : (s.setCtx k x).mgmt = s.mgmt := rfl
@[simp] theorem State.setCtx_parts (s : State) (k : Nat) (x : QCtx) : (s.setCtx k x).parts = s.parts := rfl
@[simp] theorem State.setCtx_board (s : State) (k : Nat) (x : QCtx) : (s.setCtx k x).board = s.board := rfl
@[simp] theorem State.setCtx_agenda (s : State) (k : Nat) (x : QCtx) : (s.setCtx k x).agenda = s.agenda := rfl
@[simp] theorem State.setCtx_budget (s : State) (k : Nat) (x : QCtx) : (s.setCtx k x).budget = s.budget := rfl
@[simp] theorem State.setCtx_freeCount (s : State) (k : Nat) (x : QCtx) : (s.setCtx k x).freeCount = s.freeCount := rfl

/-! `report`. -/

@[simp] theorem State.report_act (s : State) (f : FaultRec) : (s.report f).act = s.act := rfl
@[simp] theorem State.report_parked (s : State) (f : FaultRec) : (s.report f).parked = s.parked := rfl
@[simp] theorem State.report_ir (s : State) (f : FaultRec) : (s.report f).ir = s.ir := rfl
@[simp] theorem State.report_mem (s : State) (f : FaultRec) : (s.report f).mem = s.mem := rfl
@[simp] theorem State.report_full (s : State) (f : FaultRec) : (s.report f).full = s.full := rfl
@[simp] theorem State.report_poison (s : State) (f : FaultRec) : (s.report f).poison = s.poison := rfl
@[simp] theorem State.report_dies (s : State) (f : FaultRec) : (s.report f).dies = s.dies := rfl
@[simp] theorem State.report_flight (s : State) (f : FaultRec) : (s.report f).flight = s.flight := rfl
@[simp] theorem State.report_dom (s : State) (f : FaultRec) : (s.report f).dom = s.dom := rfl
@[simp] theorem State.report_cores (s : State) (f : FaultRec) : (s.report f).cores = s.cores := rfl
@[simp] theorem State.report_pairs (s : State) (f : FaultRec) : (s.report f).pairs = s.pairs := rfl
@[simp] theorem State.report_l2tlb (s : State) (f : FaultRec) : (s.report f).l2tlb = s.l2tlb := rfl
@[simp] theorem State.report_pins (s : State) (f : FaultRec) : (s.report f).pins = s.pins := rfl
@[simp] theorem State.report_barriers (s : State) (f : FaultRec) : (s.report f).barriers = s.barriers := rfl
@[simp] theorem State.report_engines (s : State) (f : FaultRec) : (s.report f).engines = s.engines := rfl
@[simp] theorem State.report_nextOp (s : State) (f : FaultRec) : (s.report f).nextOp = s.nextOp := rfl
@[simp] theorem State.report_queries (s : State) (f : FaultRec) : (s.report f).queries = s.queries := rfl
@[simp] theorem State.report_quads (s : State) (f : FaultRec) : (s.report f).quads = s.quads := rfl
@[simp] theorem State.report_power (s : State) (f : FaultRec) : (s.report f).power = s.power := rfl
@[simp] theorem State.report_links (s : State) (f : FaultRec) : (s.report f).links = s.links := rfl
@[simp] theorem State.report_mgmt (s : State) (f : FaultRec) : (s.report f).mgmt = s.mgmt := rfl
@[simp] theorem State.report_parts (s : State) (f : FaultRec) : (s.report f).parts = s.parts := rfl
@[simp] theorem State.report_board (s : State) (f : FaultRec) : (s.report f).board = s.board := rfl
@[simp] theorem State.report_agenda (s : State) (f : FaultRec) : (s.report f).agenda = s.agenda := rfl
@[simp] theorem State.report_budget (s : State) (f : FaultRec) : (s.report f).budget = s.budget := rfl
@[simp] theorem State.report_freeCount (s : State) (f : FaultRec) : (s.report f).freeCount = s.freeCount := rfl

/-! `onErrand`. -/

@[simp] theorem State.onErrand_parked (s : State) (e : Option Errand) : (s.onErrand e).parked = s.parked := rfl
@[simp] theorem State.onErrand_ir (s : State) (e : Option Errand) : (s.onErrand e).ir = s.ir := rfl
@[simp] theorem State.onErrand_mem (s : State) (e : Option Errand) : (s.onErrand e).mem = s.mem := rfl
@[simp] theorem State.onErrand_full (s : State) (e : Option Errand) : (s.onErrand e).full = s.full := rfl
@[simp] theorem State.onErrand_poison (s : State) (e : Option Errand) : (s.onErrand e).poison = s.poison := rfl
@[simp] theorem State.onErrand_dies (s : State) (e : Option Errand) : (s.onErrand e).dies = s.dies := rfl
@[simp] theorem State.onErrand_flight (s : State) (e : Option Errand) : (s.onErrand e).flight = s.flight := rfl
@[simp] theorem State.onErrand_dom (s : State) (e : Option Errand) : (s.onErrand e).dom = s.dom := rfl
@[simp] theorem State.onErrand_cores (s : State) (e : Option Errand) : (s.onErrand e).cores = s.cores := rfl
@[simp] theorem State.onErrand_pairs (s : State) (e : Option Errand) : (s.onErrand e).pairs = s.pairs := rfl
@[simp] theorem State.onErrand_l2tlb (s : State) (e : Option Errand) : (s.onErrand e).l2tlb = s.l2tlb := rfl
@[simp] theorem State.onErrand_pins (s : State) (e : Option Errand) : (s.onErrand e).pins = s.pins := rfl
@[simp] theorem State.onErrand_barriers (s : State) (e : Option Errand) : (s.onErrand e).barriers = s.barriers := rfl
@[simp] theorem State.onErrand_engines (s : State) (e : Option Errand) : (s.onErrand e).engines = s.engines := rfl
@[simp] theorem State.onErrand_nextOp (s : State) (e : Option Errand) : (s.onErrand e).nextOp = s.nextOp := rfl
@[simp] theorem State.onErrand_queries (s : State) (e : Option Errand) : (s.onErrand e).queries = s.queries := rfl
@[simp] theorem State.onErrand_mill (s : State) (e : Option Errand) : (s.onErrand e).mill = s.mill := rfl
@[simp] theorem State.onErrand_quads (s : State) (e : Option Errand) : (s.onErrand e).quads = s.quads := rfl
@[simp] theorem State.onErrand_power (s : State) (e : Option Errand) : (s.onErrand e).power = s.power := rfl
@[simp] theorem State.onErrand_links (s : State) (e : Option Errand) : (s.onErrand e).links = s.links := rfl
@[simp] theorem State.onErrand_mgmt (s : State) (e : Option Errand) : (s.onErrand e).mgmt = s.mgmt := rfl
@[simp] theorem State.onErrand_parts (s : State) (e : Option Errand) : (s.onErrand e).parts = s.parts := rfl
@[simp] theorem State.onErrand_board (s : State) (e : Option Errand) : (s.onErrand e).board = s.board := rfl
@[simp] theorem State.onErrand_agenda (s : State) (e : Option Errand) : (s.onErrand e).agenda = s.agenda := rfl
@[simp] theorem State.onErrand_budget (s : State) (e : Option Errand) : (s.onErrand e).budget = s.budget := rfl
@[simp] theorem State.onErrand_freeCount (s : State) (e : Option Errand) : (s.onErrand e).freeCount = s.freeCount := rfl
@[simp] theorem State.onErrand_act_sid (s : State) (e : Option Errand) : (s.onErrand e).act.sid = s.act.sid := rfl
@[simp] theorem State.onErrand_act_core (s : State) (e : Option Errand) : (s.onErrand e).act.core = s.act.core := rfl
@[simp] theorem State.onErrand_act_hwSlot (s : State) (e : Option Errand) : (s.onErrand e).act.hwSlot = s.act.hwSlot := rfl
@[simp] theorem State.onErrand_act_part (s : State) (e : Option Errand) : (s.onErrand e).act.part = s.act.part := rfl
@[simp] theorem State.onErrand_act_node (s : State) (e : Option Errand) : (s.onErrand e).act.node = s.act.node := rfl
@[simp] theorem State.onErrand_act_index (s : State) (e : Option Errand) : (s.onErrand e).act.index = s.act.index := rfl
@[simp] theorem State.onErrand_act_life (s : State) (e : Option Errand) : (s.onErrand e).act.life = s.act.life := rfl
@[simp] theorem State.onErrand_act_priv (s : State) (e : Option Errand) : (s.onErrand e).act.priv = s.act.priv := rfl
@[simp] theorem State.onErrand_act_base (s : State) (e : Option Errand) : (s.onErrand e).act.base = s.act.base := rfl
@[simp] theorem State.onErrand_act_hdr (s : State) (e : Option Errand) : (s.onErrand e).act.hdr = s.act.hdr := rfl
@[simp] theorem State.onErrand_act_clMap (s : State) (e : Option Errand) : (s.onErrand e).act.clMap = s.act.clMap := rfl
@[simp] theorem State.onErrand_act_pc (s : State) (e : Option Errand) : (s.onErrand e).act.pc = s.act.pc := rfl
@[simp] theorem State.onErrand_act_g (s : State) (e : Option Errand) : (s.onErrand e).act.g = s.act.g := rfl
@[simp] theorem State.onErrand_act_v (s : State) (e : Option Errand) : (s.onErrand e).act.v = s.act.v := rfl
@[simp] theorem State.onErrand_act_vok (s : State) (e : Option Errand) : (s.onErrand e).act.vok = s.act.vok := rfl
@[simp] theorem State.onErrand_act_m (s : State) (e : Option Errand) : (s.onErrand e).act.m = s.act.m := rfl
@[simp] theorem State.onErrand_act_w (s : State) (e : Option Errand) : (s.onErrand e).act.w = s.act.w := rfl
@[simp] theorem State.onErrand_act_cb (s : State) (e : Option Errand) : (s.onErrand e).act.cb = s.act.cb := rfl
@[simp] theorem State.onErrand_act_csr (s : State) (e : Option Errand) : (s.onErrand e).act.csr = s.act.csr := rfl
@[simp] theorem State.onErrand_act_arms (s : State) (e : Option Errand) : (s.onErrand e).act.arms = s.act.arms := rfl
@[simp] theorem State.onErrand_act_loop (s : State) (e : Option Errand) : (s.onErrand e).act.loop = s.act.loop := rfl
@[simp] theorem State.onErrand_act_streams (s : State) (e : Option Errand) : (s.onErrand e).act.streams = s.act.streams := rfl
@[simp] theorem State.onErrand_act_posted (s : State) (e : Option Errand) : (s.onErrand e).act.posted = s.act.posted := rfl
@[simp] theorem State.onErrand_act_resume (s : State) (e : Option Errand) : (s.onErrand e).act.resume = s.act.resume := rfl
@[simp] theorem State.onErrand_act_wait (s : State) (e : Option Errand) : (s.onErrand e).act.wait = s.act.wait := rfl
@[simp] theorem State.onErrand_act_hold (s : State) (e : Option Errand) : (s.onErrand e).act.hold = s.act.hold := rfl
@[simp] theorem State.onErrand_act_woke (s : State) (e : Option Errand) : (s.onErrand e).act.woke = s.act.woke := rfl
@[simp] theorem State.onErrand_act_late (s : State) (e : Option Errand) : (s.onErrand e).act.late = s.act.late := rfl
@[simp] theorem State.onErrand_act_frame (s : State) (e : Option Errand) : (s.onErrand e).act.frame = s.act.frame := rfl
@[simp] theorem State.onErrand_act_arrivals (s : State) (e : Option Errand) : (s.onErrand e).act.arrivals = s.act.arrivals :=
  rfl
@[simp] theorem State.onErrand_act_prog (s : State) (e : Option Errand) : (s.onErrand e).act.prog = { s.act.prog with errand := e } :=
  rfl
@[simp] theorem State.onErrand_act_mat (s : State) (e : Option Errand) : (s.onErrand e).act.mat = s.act.mat := rfl

/-! Registers: what is read after a write. -/

@[simp] theorem State.g_zero (s : State) : s.g 0 = 0 := rfl

/-- A register read after a write; `g0` takes none (R92). -/
theorem State.g_setG (s : State) (d r : Reg) (x : Word) : (s.setG d x).g r = if d ≠ 0 ∧ r = d then x else s.g r := by
  unfold State.g State.setG
  by_cases hd : d = 0
  · rw [if_pos hd, if_neg (c := d ≠ 0 ∧ r = d) fun h => h.1 hd]
  · rw [if_neg hd]
    by_cases hr : r = 0
    · rw [if_pos hr, if_pos hr, if_neg fun h => hd (h.2.symm.trans hr)]
    · rw [if_neg hr, if_neg hr]
      by_cases e : r = d
      · subst e; rw [if_pos ⟨hd, rfl⟩]; exact Vector.getElem_set_self ..
      · rw [if_neg fun h => e h.2]
        exact Vector.getElem_set_ne d.isLt _ fun h => e (BitVec.eq_of_toNat_eq h.symm)

@[simp] theorem State.setG_zero (s : State) (x : Word) : s.setG 0 x = s := rfl

/-- A vector register read after a write. -/
theorem State.v_setV (s : State) (d r : Reg) (x : BitVec 16384) : (s.setV d x).v r = if r = d then x else s.v r := by
  unfold State.v State.setV
  by_cases e : r = d
  · subst e; simp
  · have : d.toNat ≠ r.toNat := fun h => e (BitVec.eq_of_toNat_eq h.symm)
    simp [e, Vector.getElem_set_ne, this]

/-- Block-validity bits read after a write. -/
theorem State.vok_setVok (s : State) (d r : Reg) (x : BitVec 16) : (s.setVok d x).vok r = if r = d then x else s.vok r := by
  unfold State.vok State.setVok
  by_cases e : r = d
  · subst e; simp
  · have : d.toNat ≠ r.toNat := fun h => e (BitVec.eq_of_toNat_eq h.symm)
    simp [e, Vector.getElem_set_ne, this]

/-- A weight register read after a write. -/
theorem State.w_setW (s : State) (d r : WReg) (x : BitVec 32768) : (s.setW d x).w r = if r = d then x else s.w r := by
  unfold State.w State.setW
  by_cases e : r = d
  · subst e; simp
  · have : d.toNat ≠ r.toNat := fun h => e (BitVec.eq_of_toNat_eq h.symm)
    simp [e, Vector.getElem_set_ne, this]

@[simp] theorem State.m_zero (s : State) : s.m 0 = BitVec.allOnes 2048 := rfl

/-- A mask register read after a write; `m0` takes none (R56). -/
theorem State.m_setM (s : State) (d r : MReg) (x : BitVec 2048) : (s.setM d x).m r = if d ≠ 0 ∧ r = d then x else s.m r := by
  unfold State.m State.setM
  by_cases hd : d = 0
  · rw [if_pos hd, if_neg (c := d ≠ 0 ∧ r = d) fun h => h.1 hd]
  · rw [if_neg hd]
    by_cases hr : r = 0
    · rw [if_pos hr, if_pos hr, if_neg fun h => hd (h.2.symm.trans hr)]
    · rw [if_neg hr, if_neg hr]
      by_cases e : r = d
      · subst e; rw [if_pos ⟨hd, rfl⟩]; exact Vector.getElem_set_self ..
      · rw [if_neg fun h => e h.2]
        exact Vector.getElem_set_ne d.isLt _ fun h => e (BitVec.eq_of_toNat_eq h.symm)

/-! Units: what is read after a change. -/

theorem State.core_onCore (s : State) (c k : Nat) (f : Core → Core) :
    (s.onCore c f).core k = if k = c then f (s.core c) else s.core k := NMap.getD_upd ..

theorem State.pair_onPair (s : State) (p k : Nat) (f : Pair → Pair) :
    (s.onPair p f).pair k = if k = p then f (s.pair p) else s.pair k := NMap.getD_upd ..

theorem State.quad_onQuad (s : State) (q k : Nat) (f : Quad → Quad) :
    (s.onQuad q f).quad k = if k = q then f (s.quad q) else s.quad k := NMap.getD_upd ..

theorem State.dieAt_onDie (s : State) (d k : Nat) (f : Die → Die) :
    (s.onDie d f).dieAt k = if k = d then f (s.dieAt d) else s.dieAt k := NMap.getD_upd ..

theorem State.port_setPort (s : State) (p k : Nat) (x : Port) (h : p < 12) :
    (s.setPort p x).port k = if k = p then x else s.port k := by
  rw [State.setPort, if_pos h]; exact NMap.getD_set ..

end Sys2Proof.Machine
end

