-- ==== Sys2Proof/Laws/Ops.lean ====
section
/-!
SUPPORT. What the shared operations do: how an instruction ends, what a trap leaves, the return from one, free values.
-/

namespace Sys2Proof.Machine

/-! The end of an instruction. -/

@[simp] theorem Res.fin_ok (u : Unit) (s s0 : State) (nx : Word) : (Res.ok u s).fin s0 nx = .next (s.done s0.act.g nx) := rfl
@[simp] theorem Res.fin_trap (x : Trap) (s s0 : State) (nx : Word) :
    (Res.trap x s : Res Unit).fin s0 nx = .next (s.takeTrap x nx) := rfl
@[simp] theorem Res.fin_wait (w : Wait) (s s0 : State) (nx : Word) :
    (Res.wait w s : Res Unit).fin s0 nx = .next (s.stall s0.act.g nx w) := rfl

@[simp] theorem Res.bind_ok {α β : Type} (a : α) (s : State) (f : α → State → Res β) : (Res.ok a s).bind f = f a s := rfl
@[simp] theorem Res.bind_trap {α β : Type} (x : Trap) (s : State) (f : α → State → Res β) :
    (Res.trap x s : Res α).bind f = .trap x s := rfl
@[simp] theorem Res.bind_wait {α β : Type} (w : Wait) (s : State) (f : α → State → Res β) :
    (Res.wait w s : Res α).bind f = .wait w s := rfl

/-- Every way in which an instruction ends is a next state. -/
theorem Res.fin_next (r : Res Unit) (s0 : State) (nx : Word) : ∃ t, r.fin s0 nx = .next t := by
  cases r <;> exact ⟨_, rfl⟩

theorem Res.finQ_next (r : Res Unit) (s0 : State) : ∃ t, r.finQ s0 = .next t := Res.fin_next ..

theorem State.withSrc_next (s : State) (src : Src) (k : Res Unit) : ∃ t, s.withSrc src k = .next t := Res.fin_next ..

/-- The end of an instruction of a strand that executes its own next word: it goes on and nothing else changes. -/
theorem State.done_of_own (s : State) (g : Vector Word 32) (nx : Word) (hr : s.act.resume = none) (hw : s.act.woke = none)
    (hl : s.act.late = none) (hp : s.act.prog = Progress.none) : s.done g nx = s.goto nx := by
  simp only [State.done, hr, State.goto, hw, hl, ite_self]
  rw [← hp]

/-- The same from the hypothesis of the statements, for a state that differs in none of the four fields. -/
theorem State.done_of_ready (s t : State) (g : Vector Word 32) (nx : Word) (h : Ready s) (hr : t.act.resume = s.act.resume)
    (hw : t.act.woke = s.act.woke) (hl : t.act.late = s.act.late) (hp : t.act.prog = s.act.prog) : t.done g nx = t.goto nx :=
  t.done_of_own g nx (hr.trans h.resume) (hw.trans h.woke) (hl.trans h.late) (hp.trans h.prog)

/-- An instruction that ends in `.ok` from a ready strand. -/
theorem Res.fin_ok_of_ready (u : Unit) (s t : State) (nx : Word) (h : Ready s) (hr : t.act.resume = s.act.resume)
    (hw : t.act.woke = s.act.woke) (hl : t.act.late = s.act.late) (hp : t.act.prog = s.act.prog) :
    (Res.ok u t).fin s nx = continues t nx := by
  rw [Res.fin_ok, State.done_of_ready s t _ nx h hr hw hl hp]; rfl

/-- The end of an instruction changes the acting strand only. -/
theorem State.done_outside (s : State) (g : Vector Word 32) (nx : Word) : sameOutside s (s.done g nx) := by
  unfold sameOutside State.done State.giveBack; split <;> rfl

theorem State.stall_outside (s : State) (g : Vector Word 32) (nx : Word) (w : Wait) : sameOutside s (s.stall g nx w) := by
  unfold sameOutside State.stall State.giveBack; split
  · rfl
  · simp only; split <;> rfl

@[simp] theorem State.done_mem (s : State) (g : Vector Word 32) (nx : Word) : (s.done g nx).mem = s.mem := by
  unfold State.done State.giveBack; split <;> rfl
@[simp] theorem State.stall_mem (s : State) (g : Vector Word 32) (nx : Word) (w : Wait) : (s.stall g nx w).mem = s.mem := by
  have h := s.stall_outside g nx w
  unfold sameOutside at h; rw [h]

/-! Taking a trap (R260, R262, R267). -/

theorem State.trapPoint_outside (s : State) (x : Trap) (nx : Word) : sameOutside s (s.trapPoint x nx) := rfl

/-- A trap changes the acting strand, and adds a fault record where the strand stops. -/
theorem State.takeTrap_eq (s : State) (x : Trap) (nx : Word) :
    s.takeTrap x nx = { s with act := (s.takeTrap x nx).act, mill := (s.takeTrap x nx).mill } := by
  unfold State.takeTrap; simp only; split <;> rfl

@[simp] theorem State.takeTrap_mem (s : State) (x : Trap) (nx : Word) : (s.takeTrap x nx).mem = s.mem := by
  rw [State.takeTrap_eq]

@[simp] theorem State.trapPoint_priv (s : State) (x : Trap) (nx : Word) : (s.trapPoint x nx).act.priv = s.act.priv := by
  unfold State.trapPoint; simp only; split
  · rfl
  · split
    · rfl
    · split <;> rfl

@[simp] theorem State.trapPoint_frame (s : State) (x : Trap) (nx : Word) : (s.trapPoint x nx).act.frame = s.act.frame := by
  unfold State.trapPoint; simp only; split
  · rfl
  · split
    · rfl
    · split <;> rfl

/-- R262: a user strand is TRAPPED, and its record waits for the Millrace. -/
theorem State.takeTrap_user (s : State) (x : Trap) (nx : Word) (h : s.act.priv = .user) :
    s.takeTrap x nx =
      ({ s.trapPoint x nx with act := { (s.trapPoint x nx).act with life := .trapped } }).report
        ((s.trapPoint x nx).act.faultRec false) := by
  have hp := (s.trapPoint_priv x nx).trans h
  unfold State.takeTrap; simp only [hp]

/-- R267: a control strand with an empty frame continues at its handler, with its SPC and posted work in the frame. -/
theorem State.takeTrap_control (s : State) (x : Trap) (nx : Word) (h : s.act.priv = .control) (hf : s.act.frame = none) :
    s.takeTrap x nx =
      let u := s.trapPoint x nx
      { u with act := { u.act with
          frame := some { spc := u.act.pc, posted := u.act.posted }, posted := [], csr := { u.act.csr with pprv := 1 }
          pc := u.act.base + BitVec.ofNat 64 u.act.hdr.handler } } := by
  have hp := (s.trapPoint_priv x nx).trans h
  have hq := (s.trapPoint_frame x nx).trans hf
  unfold State.takeTrap; simp only [hp, hq]

/-- R267: a control strand whose frame is occupied stops, and the record has CTRL. -/
theorem State.takeTrap_again (s : State) (x : Trap) (nx : Word) (f : Frame) (h : s.act.priv = .control) (hf : s.act.frame = some f) :
    s.takeTrap x nx =
      ({ s.trapPoint x nx with act := { (s.trapPoint x nx).act with life := .trapped } }).report
        ((s.trapPoint x nx).act.faultRec true) := by
  have hp := (s.trapPoint_priv x nx).trans h
  have hq := (s.trapPoint_frame x nx).trans hf
  unfold State.takeTrap; simp only [hp, hq]

/-- The point of a scalar trap of a strand's own word: its own address, with the cause and `tval`. -/
theorem State.trapPoint_scalar (s : State) (c : Cause) (tval nx : Word) (h : s.act.resume = none) :
    s.trapPoint (Trap.scalar c tval) nx =
      { s with act := { s.act with
          csr := s.act.csr.trapped (Trap.scalar c tval) s.act.pc, posted := s.act.posted.map Posted.release
          wait := none, hold := none, woke := none, late := none, prog := Progress.none } } := by
  unfold State.trapPoint; simp [h, Trap.scalar, Trap.isPosted]

/-! The return from a trap (R273). -/

theorem State.trapReturn_outside (s : State) : sameOutside s s.trapReturn := by
  unfold sameOutside State.trapReturn; simp only; split <;> rfl

@[simp] theorem State.trapReturn_frame (s : State) : s.trapReturn.act.frame = none := by
  unfold State.trapReturn; simp only; split
  · rfl
  · assumption

/-! Free values, cycles. -/

theorem State.draw_lt (s : State) {n : Nat} (h : 0 < n) : (s.draw n).1 < n := Nat.mod_lt _ h

theorem State.draw_eq (s : State) (n : Nat) : (s.draw n).2 = { s with freeCount := s.freeCount + 1 } := rfl

@[simp] theorem State.pass_mem (s : State) (c k : Nat) : (s.pass c k).mem = s.mem := rfl
@[simp] theorem State.tick_mem (s : State) : s.tick.mem = s.mem := rfl

/-! Operands. -/

/-- An instruction with a legal last source is its effect and nothing else. -/
theorem State.withSrc_ok (s : State) (src : Src) (k : Res Unit) (h : s.srcOk src = true) :
    s.withSrc src k = k.fin s (s.act.pc + src.bytes) := by
  unfold State.withSrc; rw [if_pos h]

/-- R82: a constant-bank index outside the bank is ILLEGAL. -/
theorem State.withSrc_illegal (s : State) (src : Src) (k : Res Unit) (h : s.srcOk src = false) :
    s.withSrc src k = .next (s.takeTrap s.illegal (s.act.pc + src.bytes)) := by
  unfold State.withSrc; rw [if_neg (by simp [h])]; rfl

theorem State.privileged_user (s : State) (k : Res Unit) (h : s.act.priv = .user) : s.privileged k = .trap s.privTrap s := if_pos h

theorem State.privileged_of_ne (s : State) (k : Res Unit) (h : s.act.priv ≠ .user) : s.privileged k = k := if_neg h

/-- The result of a two-source instruction of a ready strand, whatever it writes to gD. -/
theorem State.withSrc_setG (s : State) (src : Src) (d : Reg) (v : Word) (h : Ready s) (hs : s.srcOk src = true) :
    s.withSrc src (.ok () (s.setG d v)) = continues (s.setG d v) (s.act.pc + src.bytes) := by
  rw [State.withSrc_ok _ _ _ hs]
  exact Res.fin_ok_of_ready () s _ _ h (by simp) (by simp) (by simp) (by simp)

end Sys2Proof.Machine
end

