-- ==== Sys2Proof/Laws/Sites.lean ====
section
/-!
SUPPORT. Memory behind the sites: every operation over it keeps the canonical form and touches memory, dies and batches alone;
translation and checks change the caches of translations besides; a write is read back at its home.
-/

namespace Sys2Proof.Machine

/-! What the operations may touch. -/

/-- Two states agree in all but memory, the dies, the batches in flight, the lines that the host may hold, which a batch that reaches one
takes back (R370), and the messages to other packages with the free values of their links (R345, R346). -/
def fabricOnly (s t : State) : Prop :=
  t = { s with mem := t.mem, dies := t.dies, flight := t.flight, dom := { s.dom with hostLines := t.dom.hostLines }
               links := t.links, freeCount := t.freeCount }

/-- Two states agree in all but these and the caches of translations. -/
def accessOnly (s t : State) : Prop :=
  t = { s with mem := t.mem, dies := t.dies, flight := t.flight, dom := { s.dom with hostLines := t.dom.hostLines }
               links := t.links, freeCount := t.freeCount, cores := t.cores, l2tlb := t.l2tlb }

theorem fabricOnly.rfl {s : State} : fabricOnly s s := Eq.refl s
theorem fabricOnly.trans {s t u : State} (h : fabricOnly s t) (k : fabricOnly t u) : fabricOnly s u := by
  unfold fabricOnly at *; rw [k, h]
theorem fabricOnly.act {s t : State} (h : fabricOnly s t) : t.act = s.act := by unfold fabricOnly at h; rw [h]
theorem fabricOnly.ite {s t u : State} {c : Prop} [Decidable c] (h : fabricOnly s t) (k : fabricOnly s u) :
    fabricOnly s (if c then t else u) := by split <;> assumption
theorem fabricOnly.foldl {α : Type} {f : State → α → State} (l : List α) {s : State} (h : ∀ s x, fabricOnly s (f s x)) :
    fabricOnly s (l.foldl f s) := by
  induction l generalizing s with
  | nil => exact fabricOnly.rfl
  | cons x r ih => exact (h s x).trans ih

theorem accessOnly.rfl {s : State} : accessOnly s s := Eq.refl s
theorem accessOnly.trans {s t u : State} (h : accessOnly s t) (k : accessOnly t u) : accessOnly s u := by
  unfold accessOnly at *; rw [k, h]
theorem accessOnly.act {s t : State} (h : accessOnly s t) : t.act = s.act := by unfold accessOnly at h; rw [h]
theorem fabricOnly.access {s t : State} (h : fabricOnly s t) : accessOnly s t := by
  unfold fabricOnly at h; unfold accessOnly; rw [h]

/-- A fold keeps the canonical form where each of its steps does. -/
theorem wf_foldl {α : Type} {f : State → α → State} (l : List α) {s : State} (h : s.mem.wf = true)
    (hf : ∀ s x, s.mem.wf = true → (f s x).mem.wf = true) : (l.foldl f s).mem.wf = true := by
  induction l generalizing s with
  | nil => exact h
  | cons x r ih => exact ih (hf s x h)

/-! Messages. -/

theorem State.onLinks_only (s : State) (f : Links → Links) : fabricOnly s (s.onLinks f) := Eq.refl _
theorem State.setPort_only (s : State) (p : Nat) (x : Port) : fabricOnly s (s.setPort p x) :=
  (s.onLinks_only _).ite fabricOnly.rfl
theorem State.onDie_only (s : State) (d : Nat) (f : Die → Die) : fabricOnly s (s.onDie d f) := Eq.refl _
theorem State.draw_only (s : State) (n : Nat) : fabricOnly s (s.draw n).2 := Eq.refl _

@[simp] theorem State.carry_mem (s : State) (p : Parcel) : (s.carry p).mem = s.mem := by
  unfold State.carry; split
  · rfl
  · simp only [State.setPort_mem]; rfl
theorem State.carry_only (s : State) (p : Parcel) : fabricOnly s (s.carry p) := by
  unfold State.carry; split
  · exact s.onLinks_only _
  · exact ((s.onLinks_only _).trans (State.draw_only _ 2)).trans (State.setPort_only _ _ _)

/-- A message is sent: the links and their free values change, nothing else. -/
@[simp] theorem State.sendMsg_mem (s : State) (src dst : Nat) (m : Msg) : (s.sendMsg src dst m).mem = s.mem := State.carry_mem _ _
theorem State.sendMsg_only (s : State) (src dst : Nat) (m : Msg) : fabricOnly s (s.sendMsg src dst m) :=
  (s.onLinks_only _).trans (State.carry_only _ _)

/-! Sites and batches. -/

theorem State.dataFor_mem (s : State) (e : Nat) (b : Batch) : (s.dataFor e b).2.mem = s.mem := by
  unfold State.dataFor; simp only; repeat' split
  all_goals rfl
theorem State.dataFor_only (s : State) (e : Nat) (b : Batch) : fabricOnly s (s.dataFor e b).2 := by
  unfold State.dataFor; simp only; repeat' split
  all_goals rfl

/-- A fold leaves memory as it was where each of its steps does. -/
theorem mem_foldl {α : Type} {f : State → α → State} (l : List α) {s : State} (h : ∀ s x, (f s x).mem = s.mem) : (l.foldl f s).mem = s.mem := by
  induction l generalizing s with
  | nil => rfl
  | cons x r ih => exact (ih (s := f s x)).trans (h s x)

@[simp] theorem State.sendBatch_mem (s : State) (b : Batch) : (s.sendBatch b).mem = s.mem :=
  mem_foldl _ fun s e => by
    simp only
    split <;> simp [State.dataFor_mem]
theorem State.sendBatch_only (s : State) (b : Batch) : fabricOnly s (s.sendBatch b) :=
  fabricOnly.foldl _ fun s e =>
    have h := (s.dataFor_only e b).trans (State.sendMsg_only _ _ _ _)
    (h.trans (State.sendMsg_only _ _ _ _)).ite h

@[simp] theorem State.closeBatch_mem (s : State) (d : Nat) : (s.closeBatch d).mem = s.mem := by
  unfold State.closeBatch; simp only; split
  · rfl
  · rw [State.sendBatch_mem]
theorem State.closeBatch_only (s : State) (d : Nat) : fabricOnly s (s.closeBatch d) := by
  unfold State.closeBatch; simp only; split
  · exact fabricOnly.rfl
  · refine fabricOnly.trans (t := { s with dies := _, flight := _ }) (Eq.refl _) (State.sendBatch_only _ _)

theorem State.applyWrite_wf (s : State) (d : Nat) (ahead : Bool) (w : Wr) (h : s.mem.wf = true) :
    (s.applyWrite d ahead w).mem.wf = true := by
  unfold State.applyWrite; simp only
  repeat' split
  · exact h
  · exact Memory.writeO_wf _ _ _ h
  · exact h
theorem State.applyWrite_only (s : State) (d : Nat) (ahead : Bool) (w : Wr) : fabricOnly s (s.applyWrite d ahead w) := by
  unfold State.applyWrite; simp only; repeat' split
  all_goals rfl

theorem State.applyBatch_wf (s : State) (e : Nat) (b : Batch) (h : s.mem.wf = true) : (s.applyBatch e b).mem.wf = true :=
  wf_foldl b.writes h fun s w h => s.applyWrite_wf e _ w h
theorem State.applyBatch_only (s : State) (e : Nat) (b : Batch) : fabricOnly s (s.applyBatch e b) := by
  have h : fabricOnly s (b.writes.foldl (fun s w => s.applyWrite e (!NSet.has (homeDie w.addr) b.applied) w) s) :=
    fabricOnly.foldl _ fun s w => s.applyWrite_only e _ w
  unfold State.applyBatch
  exact h.trans rfl

theorem State.catchUp_wf (s : State) (e : Nat) (v : NMap Nat) (h : s.mem.wf = true) : (s.catchUp e v).mem.wf = true :=
  wf_foldl s.flight h fun s b h => by
    split
    · exact s.applyBatch_wf e b h
    · exact h
theorem State.catchUp_only (s : State) (e : Nat) (v : NMap Nat) : fabricOnly s (s.catchUp e v) :=
  fabricOnly.foldl _ fun s b => (s.applyBatch_only e b).ite fabricOnly.rfl

theorem State.exchange_wf (s : State) (d h : Nat) (hw : s.mem.wf = true) : (s.exchange d h).mem.wf = true := by
  unfold State.exchange; simp only
  split
  · simpa using hw
  · exact State.catchUp_wf _ _ _ (State.catchUp_wf _ _ _ (by simpa using hw))
theorem State.exchange_only (s : State) (d h : Nat) : fabricOnly s (s.exchange d h) := by
  unfold State.exchange; simp only
  exact (s.closeBatch_only h).trans (fabricOnly.rfl.ite ((State.catchUp_only _ _ _).trans (State.catchUp_only _ _ _)))

theorem State.readSync_wf (s : State) (d a : Nat) (h : s.mem.wf = true) : (s.readSync d a).mem.wf = true := by
  unfold State.readSync; simp only; repeat' split
  all_goals first | exact h | exact s.exchange_wf _ _ h
theorem State.readSync_only (s : State) (d a : Nat) : fabricOnly s (s.readSync d a) := by
  unfold State.readSync; simp only; repeat' split
  all_goals first | exact fabricOnly.rfl | exact s.exchange_only _ _

/-- A die asks for a line: the dies and the messages change. -/
theorem State.ask_mem (s : State) (d a : Nat) : (s.ask d a).mem = s.mem := by
  unfold State.ask; simp only; split
  · rfl
  · rw [State.sendMsg_mem, State.onDie_mem]
theorem State.ask_only (s : State) (d a : Nat) : fabricOnly s (s.ask d a) := by
  unfold State.ask; simp only; split
  · exact fabricOnly.rfl
  · exact (s.onDie_only d _).trans (State.sendMsg_only _ _ _ _)

/-- A write joins the open batch or does not; memory is as it was. -/
theorem State.join_mem (c : Prop) [Decidable c] (s : State) (d : Nat) (f : Die → Die) (p : Prop) [Decidable p] :
    (if c then (if p then (s.onDie d f).closeBatch d else s.onDie d f) else s).mem = s.mem := by
  repeat' split
  all_goals first | rfl | rw [State.closeBatch_mem, State.onDie_mem]
theorem State.join_only (c : Prop) [Decidable c] (s : State) (d : Nat) (f : Die → Die) (p : Prop) [Decidable p] :
    fabricOnly s (if c then (if p then (s.onDie d f).closeBatch d else s.onDie d f) else s) := by
  have h : fabricOnly s (s.onDie d f) := rfl
  exact ((h.trans (State.closeBatch_only _ _)).ite h).ite fabricOnly.rfl

/-- What a write event does to memory: the bytes lie there at once in a scratchpad and at the home's own die. -/
theorem State.writeSome_mem (s : State) (d quad a : Nat) (l : List (Option Byte)) :
    (s.writeSome d quad a l).mem = if isPad a = true ∨ homeDie a = d then s.mem.writeO a l else s.mem := by
  unfold State.writeSome
  by_cases hp : isPad a = true
  · rw [if_pos hp, if_pos (.inl hp)]
  · rw [if_neg hp]
    simp only
    rw [State.join_mem]
    by_cases hd : homeDie a = d
    · rw [if_pos hd, if_pos (.inr hd)]; simp
    · rw [if_neg hd, if_neg (by simp [hp, hd])]; simp
theorem State.writeSome_only (s : State) (d quad a : Nat) (l : List (Option Byte)) : fabricOnly s (s.writeSome d quad a l) := by
  unfold State.writeSome
  split
  · rfl
  · simp only
    refine fabricOnly.trans ?_ (State.join_only _ _ _ _ _)
    split <;> rfl

theorem State.writeSome_wf (s : State) (d quad a : Nat) (l : List (Option Byte)) (h : s.mem.wf = true) :
    (s.writeSome d quad a l).mem.wf = true := by
  rw [State.writeSome_mem]; split
  · exact Memory.writeO_wf _ _ _ h
  · exact h

theorem State.write_wf (s : State) (d quad a : Nat) (l : List Byte) (h : s.mem.wf = true) : (s.write d quad a l).mem.wf = true :=
  s.writeSome_wf d quad a _ h
theorem State.write_only (s : State) (d quad a : Nat) (l : List Byte) : fabricOnly s (s.write d quad a l) := s.writeSome_only ..

@[simp] theorem State.room_mem (s : State) (d n : Nat) : (s.room d n).mem = s.mem := by
  unfold State.room; split
  · exact s.closeBatch_mem d
  · rfl

theorem State.reach_wf (s : State) (d h : Nat) (hw : s.mem.wf = true) : (s.reach d h).mem.wf = true := by
  unfold State.reach; split
  · exact hw
  · exact State.catchUp_wf _ _ _ (by simpa using hw)

theorem State.atomicSync_wf (s : State) (d a : Nat) (h : s.mem.wf = true) : (s.atomicSync d a).mem.wf = true := by
  unfold State.atomicSync; simp only
  split
  · simpa using h
  · exact State.exchange_wf _ _ _ (by simpa using h)
theorem State.atomicSync_only (s : State) (d a : Nat) : fabricOnly s (s.atomicSync d a) := by
  unfold State.atomicSync; simp only
  exact (s.closeBatch_only d).trans (fabricOnly.rfl.ite (State.exchange_only _ _ _))

theorem State.atomicWrite_wf (s : State) (d quad a : Nat) (l : List Byte) (h : s.mem.wf = true) :
    (s.atomicWrite d quad a l).mem.wf = true := by
  unfold State.atomicWrite; simp only
  split
  · exact s.write_wf _ _ _ _ h
  · exact State.catchUp_wf _ _ _ (by simpa using s.write_wf _ _ _ _ h)
theorem State.atomicWrite_only (s : State) (d quad a : Nat) (l : List Byte) : fabricOnly s (s.atomicWrite d quad a l) := by
  unfold State.atomicWrite; simp only
  split
  · exact s.write_only _ _ _ _
  · exact ((s.write_only _ _ _ _).trans (State.closeBatch_only _ _)).trans (State.catchUp_only _ _ _)

theorem State.performAt_wf (s : State) (d : Nat) (tier : Tier) (h : s.mem.wf = true) : (s.performAt d tier).mem.wf = true := by
  unfold State.performAt
  cases tier with
  | core => exact h
  | pair => exact h
  | quad => exact h
  | stack => exact State.catchUp_wf _ _ _ (State.catchUp_wf _ _ _ (by simpa using h))
  | domain => exact wf_foldl _ (by simpa using h) fun s e h => s.catchUp_wf e _ h
theorem State.performAt_only (s : State) (d : Nat) (tier : Tier) : fabricOnly s (s.performAt d tier) := by
  unfold State.performAt
  cases tier with
  | core => rfl
  | pair => rfl
  | quad => rfl
  | stack => exact ((s.closeBatch_only d).trans (State.catchUp_only _ _ _)).trans (State.catchUp_only _ _ _)
  | domain => exact (s.closeBatch_only d).trans (fabricOnly.foldl _ fun s e => s.catchUp_only e _)

theorem State.bringAlong_wf (s : State) (d e : Nat) (h : s.mem.wf = true) : (s.bringAlong d e).mem.wf = true := by
  unfold State.bringAlong; split
  · exact h
  · exact State.catchUp_wf _ _ _ (by simpa using h)

theorem State.physWrite_wf (s : State) (a : Nat) (l : List Byte) (h : s.mem.wf = true) : (s.physWrite a l).mem.wf = true :=
  State.performAt_wf _ _ _ (s.write_wf _ _ _ _ h)
theorem State.physWrite_only (s : State) (a : Nat) (l : List Byte) : fabricOnly s (s.physWrite a l) :=
  (s.write_only _ _ _ _).trans (State.performAt_only _ _ _)

theorem State.physRead_wf (s : State) (a n : Nat) (h : s.mem.wf = true) : (s.physRead a n).2.mem.wf = true :=
  wf_foldl _ h fun s _ h => s.readSync_wf _ _ h

/-! The reel of a saved strand. -/

theorem State.writeReel_wf (s : State) (a : Strand) (h : s.mem.wf = true) : (s.writeReel a).mem.wf = true :=
  State.physWrite_wf _ _ _ (State.physWrite_wf _ _ _ (State.physWrite_wf _ _ _ h))

/-- Writing a reel draws a free value and changes memory behind the sites; nothing else. -/
theorem State.writeReel_only (s : State) (a : Strand) : fabricOnly s (s.writeReel a) :=
  (((s.draw_only (2 ^ 64)).trans (State.physWrite_only _ _ _)).trans (State.physWrite_only _ _ _)).trans (State.physWrite_only _ _ _)

theorem State.reelSound_wf (s : State) (sid : Nat) (h : s.mem.wf = true) : (s.reelSound sid).2.mem.wf = true :=
  State.physRead_wf _ _ _ (s.physRead_wf _ _ h)

/-! Translation and checks. -/

theorem State.tableRead_wf (s : State) (d a n : Nat) (h : s.mem.wf = true) : (s.tableRead d a n).2.mem.wf = true := by
  unfold State.tableRead; repeat' split
  all_goals first | exact h | exact s.readSync_wf _ _ h | (simp only [State.ask_mem]; exact h)
theorem State.tableRead_only (s : State) (d a n : Nat) : fabricOnly s (s.tableRead d a n).2 := by
  unfold State.tableRead; repeat' split
  all_goals first | rfl | exact s.readSync_only _ _ | exact s.ask_only d a

theorem State.walk_keeps (d va n table level : Nat) (s : State) :
    fabricOnly s (s.walk d va n table level).2 ∧ (s.mem.wf = true → (s.walk d va n table level).2.mem.wf = true) := by
  induction n generalizing table level s with
  | zero => exact ⟨rfl, id⟩
  | succ n ih =>
    have ho := s.tableRead_only d (table + 8 * levelIndex va level) 8
    have hw := s.tableRead_wf d (table + 8 * levelIndex va level) 8
    simp only [State.walk]
    split <;> rename_i e <;> rw [e] at ho hw
    · exact ⟨ho, hw⟩
    · rename_i b u
      have hi := ih (((BitVec.ofNat 64 (leNat b)).extractLsb' 8 44).toNat * 256) (level + 1) u
      repeat' split
      all_goals first | exact ⟨ho, hw⟩ | exact ⟨ho.trans hi.1, fun h => hi.2 (hw h)⟩

theorem State.walk_wf (s : State) (d va n table level : Nat) (h : s.mem.wf = true) : (s.walk d va n table level).2.mem.wf = true :=
  (State.walk_keeps d va n table level s).2 h
theorem State.walk_only (s : State) (d va n table level : Nat) : fabricOnly s (s.walk d va n table level).2 :=
  (State.walk_keeps d va n table level s).1

theorem State.lookup_keeps (s : State) (core part va : Nat) :
    accessOnly s (s.lookup core part va).2 ∧ (s.mem.wf = true → (s.lookup core part va).2.mem.wf = true) := by
  have hw := State.walk_keeps (s.coreDie core) va 5 (s.part part).record.ptroot 0 s
  unfold State.lookup; simp only
  split
  · exact ⟨rfl, id⟩
  · split
    · exact ⟨rfl, id⟩
    · split <;> rename_i e <;> rw [e] at hw
      · exact ⟨hw.1.access, hw.2⟩
      · exact ⟨hw.1.access.trans rfl, hw.2⟩

/-- The checks change the caches of translations, and what a walk's reads make the sites apply; nothing else. -/
theorem State.check_keeps (s : State) (core part va n algn : Nat) (k : Kind) (fe whole : Bool) :
    accessOnly s (s.check core part va n algn k fe whole).2 ∧
      (s.mem.wf = true → (s.check core part va n algn k fe whole).2.mem.wf = true) := by
  have hl := s.lookup_keeps core part va
  unfold State.check; simp only
  split
  · exact ⟨rfl, id⟩
  · split
    · exact ⟨rfl, id⟩
    · split
      · repeat' split
        all_goals exact ⟨rfl, id⟩
      · split <;> rename_i e <;> rw [e] at hl
        · exact hl
        · simp only at hl ⊢
          repeat' split
          all_goals exact hl

/-- R330: a misaligned access gives ALIGN before anything else is looked at. -/
theorem State.check_align (s : State) (core part va n algn : Nat) (k : Kind) (fe whole : Bool) (h : va % algn ≠ 0) :
    s.check core part va n algn k fe whole = (.bad .align, s) := if_pos h

theorem State.access_keeps (s : State) (va n algn : Nat) (k : Kind) (fe whole : Bool) :
    accessOnly s (s.access va n algn k fe whole).2 ∧ (s.mem.wf = true → (s.access va n algn k fe whole).2.mem.wf = true) := by
  have h := s.check_keeps s.act.core s.act.part va n algn k fe whole
  unfold State.access
  split
  · rename_i e; rw [e] at h
    repeat' split
    · exact h
    · exact ⟨h.1.trans (State.ask_only _ _ _).access, fun hm => by simp only [State.ask_mem]; exact h.2 hm⟩
    · exact h
  · rename_i e; rw [e] at h; exact h
  · exact h

theorem State.access_wf (s : State) (va n algn : Nat) (k : Kind) (fe whole : Bool) (h : s.mem.wf = true) :
    (s.access va n algn k fe whole).2.mem.wf = true := (s.access_keeps va n algn k fe whole).2 h
theorem State.access_act (s : State) (va n algn : Nat) (k : Kind) (fe whole : Bool) :
    (s.access va n algn k fe whole).2.act = s.act := (s.access_keeps va n algn k fe whole).1.act

theorem State.agentCheck_wf (s : State) (d part va n : Nat) (k : Kind) (h : s.mem.wf = true) :
    (s.agentCheck d part va n k).2.mem.wf = true := by
  have hw := s.walk_wf d va 5 (s.part part).record.ptroot 0 h
  unfold State.agentCheck
  split
  · exact h
  · split <;> rename_i e <;> rw [e] at hw
    · exact hw
    · simp only at hw ⊢
      repeat' split
      all_goals first | exact hw | (simp only [State.ask_mem]; exact hw)

theorem State.agentLoc_wf (s : State) (d part va n : Nat) (k : Kind) (h : s.mem.wf = true) :
    (s.agentLoc d part va n k).2.mem.wf = true := by
  have hc := s.agentCheck_wf d part va n k h
  unfold State.agentLoc
  split
  · rename_i x u e; rw [e] at hc; show (u.miss x).mem.wf = true; unfold State.miss; split <;> exact hc
  · exact hc

theorem State.agentReadF_wf (d part : Nat) (fuel va n : Nat) (s : State) (h : s.mem.wf = true) :
    (State.agentReadF d part fuel va n s).2.mem.wf = true := by
  induction fuel generalizing va n s with
  | zero => exact h
  | succ fuel ih =>
    have hl := s.agentLoc_wf d part va (min n (16 - va % 16)) .read h
    simp only [State.agentReadF]
    split
    · exact h
    · split <;> rename_i e <;> rw [e] at hl
      · exact hl
      · rename_i a u
        have := ih (va + min n (16 - va % 16)) (n - min n (16 - va % 16)) (u.readSync d a) (u.readSync_wf d a hl)
        split
        · rename_i e; rw [e] at this; exact this
        · exact this

theorem State.agentRead_wf (s : State) (d part va n : Nat) (h : s.mem.wf = true) : (s.agentRead d part va n).2.mem.wf = true :=
  State.agentReadF_wf d part n va n s h

theorem State.agentWriteF_wf (d part quad : Nat) (fuel va : Nat) (l : List Byte) (s : State) (h : s.mem.wf = true) :
    (State.agentWriteF d part quad fuel va l s).2.mem.wf = true := by
  induction fuel generalizing va l s with
  | zero => exact h
  | succ fuel ih =>
    have hl := s.agentLoc_wf d part va (min l.length (16 - va % 16)) .write h
    simp only [State.agentWriteF]
    split
    · exact h
    · split <;> rename_i e <;> rw [e] at hl
      · exact hl
      · exact ih _ _ _ (State.write_wf _ _ _ _ _ hl)

theorem State.agentWrite_wf (s : State) (d part quad va : Nat) (l : List Byte) (h : s.mem.wf = true) :
    (s.agentWrite d part quad va l).2.mem.wf = true := State.agentWriteF_wf d part quad _ va l s h

/-- An atomic at its home: memory keeps its form. -/
theorem State.atomicNear_wf (s : State) (d quad a n : Nat) (op : RemoteOp) (h : s.mem.wf = true) :
    (s.atomicNear d quad a n op).2.mem.wf = true := by
  unfold State.atomicNear; simp only
  split
  · exact State.atomicWrite_wf _ _ _ _ _ (s.atomicSync_wf d a h)
  · exact s.atomicSync_wf d a h

/-- An atomic to another package: memory is as it was. -/
theorem State.atomicFar_mem (s : State) (d a n : Nat) (op : RemoteOp) (e : Option Errand) : (s.atomicFar d a n op e).2.mem = s.mem := by
  unfold State.atomicFar; cases e with
  | some e => rfl
  | none => simp

/-- An atomic of the acting strand that has been performed, here or at its home in another package, leaves none under way. -/
theorem State.atomicAt_cases (s : State) (va a n : Nat) (op : RemoteOp) :
    (∃ bs t, s.atomicAt va a n op = (.ok bs, t) ∧ (s.far a = true → t.act.prog.errand = none)) ∨
    (∃ x t, s.atomicAt va a n op = (.bad x va, t) ∧ s.far a = true ∧ t.act.prog.errand = none) ∨
    (∃ tag t, s.atomicAt va a n op = (.stall (.home (homeDie a) tag), t) ∧ s.far a = true ∧
      t.act.prog.errand = some { tag := tag, home := homeDie a, answer := none }) := by
  unfold State.atomicAt; simp only
  split <;> rename_i h
  · split
    · rename_i d _ _
      cases d with
      | none => exact .inl ⟨_, _, rfl, fun _ => rfl⟩
      | some x => exact .inr (.inl ⟨_, _, rfl, h, rfl⟩)
    · exact .inr (.inr ⟨_, _, rfl, h, rfl⟩)
  · exact .inl ⟨_, _, rfl, fun k => absurd k h⟩

theorem State.agentSwap_wf (s : State) (d part va x : Nat) (e : Option Errand) (h : s.mem.wf = true) :
    (s.agentSwap d part va x e).2.mem.wf = true := by
  have hl := s.agentLoc_wf d part va 8 .atomic h
  unfold State.agentSwap
  split <;> rename_i q <;> rw [q] at hl
  · exact hl
  · rename_i a u
    have hf := u.atomicFar_mem d a 8 (.amo .swap x 0) e
    split
    · split <;> rename_i q <;> rw [q] at hf <;> exact hf.symm ▸ hl
    · exact u.atomicNear_wf d noQuad a 8 (.amo .swap x 0) hl

/-! Waits for what another package or the host still has. -/

/-- A step that would take a line from the host is its wait for such a line instead; any other is as it was (R370). -/
theorem State.heed_cases (s : State) (o : Out) (k : Nat → Out) :
    s.heed o k = o ∨ ∃ t l, o = .next t ∧ l ∈ s.dom.hostLines ∧ NSet.has l t.dom.hostLines = false ∧ s.heed o k = k l := by
  unfold State.heed
  split
  · split
    · rename_i t _ l h
      have hl := List.find?_some h
      exact .inr ⟨t, l, rfl, List.mem_of_find?_eq_some h, by simpa using hl, rfl⟩
    · exact .inl rfl
  · exact .inl rfl

/-- What the Millrace does where it has missed no line is done; where it has missed one, its die asks for the lines alone (R346). -/
theorem State.onceThere_cases (s t : State) :
    (t.links.missed.length ≤ s.links.missed.length ∧ s.onceThere t = t) ∨
    ∃ l ls, s.onceThere t = (l :: ls).foldl (fun u l => u.ask u.millDie (128 * l)) s := by
  unfold State.onceThere State.missing
  rcases e : t.links.missed.take (t.links.missed.length - s.links.missed.length) with _ | ⟨l, ls⟩
  · refine .inl ⟨?_, rfl⟩
    rcases List.take_eq_nil_iff.1 e with h | h
    · omega
    · simp [h]
  · exact .inr ⟨l, ls, rfl⟩

/-! Reading back. -/

/-- A write by an agent of the home die changes the bytes written and no other byte of memory. -/
theorem State.write_read (s : State) (quad a x : Nat) (l : List Byte) (h : s.mem.wf = true) :
    (s.write (homeDie a) quad a l).mem.read x = if a ≤ x ∧ x < a + l.length then l.getD (x - a) 0 else s.mem.read x := by
  have hm : (s.write (homeDie a) quad a l).mem = s.mem.writeO a (l.map some) := by
    unfold State.write; rw [State.writeSome_mem, if_pos (.inr rfl)]
  rw [hm, Memory.read_writeO _ _ _ _ h]
  by_cases h1 : a ≤ x
  · by_cases h2 : x < a + l.length
    · have : x - a < l.length := by omega
      simp [h1, h2, this]
    · have : l.length ≤ x - a := by omega
      simp [h1, h2, this]
  · simp [h1]

/-! Scalar accesses: everything a load and a store can do. -/

/-- A load traps with the cause of its check and the address, holds the scalar part, or gives the bytes at its location once its
die has applied what the read needs. -/
theorem State.load_cases (s : State) (va n : Nat) (fq : Feq) :
    let u := (s.access va n n .read (fq != .plain) false).2
    (∃ c, (s.access va n n .read (fq != .plain) false).1 = .bad c ∧
      s.load va n fq = .trap (Trap.scalar c (BitVec.ofNat 64 va)) u) ∨
    (∃ w, (s.access va n n .read (fq != .plain) false).1 = .stall w ∧ s.load va n fq = .wait (.own w) u) ∨
    ∃ l, (s.access va n n .read (fq != .plain) false).1 = .ok l ∧
      ((∃ w, (u.feLoad fq l.addr false).1 = some w ∧ s.load va n fq = .wait (.own w) (u.feLoad fq l.addr false).2) ∨
        (u.feLoad fq l.addr false).1 = none ∧
          let t := (u.feLoad fq l.addr false).2.locSync s.act.core l
          s.load va n fq = .ok (leNat (t.locBytes s.act.core t.act.part l n)) t) := by
  unfold State.load
  generalize s.access va n n .read (fq != .plain) false = r
  obtain ⟨c, u⟩ := r
  cases c with
  | bad c => exact .inl ⟨c, rfl, rfl⟩
  | stall w => exact .inr (.inl ⟨w, rfl, rfl⟩)
  | ok l =>
    refine .inr (.inr ⟨l, rfl, ?_⟩)
    simp only
    generalize u.feLoad fq l.addr false = q
    obtain ⟨w, v⟩ := q
    cases w with
    | none => exact .inr ⟨rfl, rfl⟩
    | some w => exact .inl ⟨w, rfl, rfl⟩

/-- A store traps, holds the scalar part, or writes the low bytes of the value at its location. -/
theorem State.store_cases (s : State) (va n x : Nat) (fq : Feq) :
    let u := (s.access va n n .write (fq != .plain) false).2
    (∃ c, (s.access va n n .write (fq != .plain) false).1 = .bad c ∧
      s.store va n x fq = .trap (Trap.scalar c (BitVec.ofNat 64 va)) u) ∨
    (∃ w, (s.access va n n .write (fq != .plain) false).1 = .stall w ∧ s.store va n x fq = .wait (.own w) u) ∨
    ∃ l, (s.access va n n .write (fq != .plain) false).1 = .ok l ∧
      ((∃ w, (u.feStore fq l.addr false).1 = some w ∧ s.store va n x fq = .wait (.own w) (u.feStore fq l.addr false).2) ∨
        (u.feStore fq l.addr false).1 = none ∧
          let t := (u.feStore fq l.addr false).2
          s.store va n x fq = .ok () (t.write (t.coreDie s.act.core) (quadOf s.act.core) l.addr (leBytes n x))) := by
  unfold State.store
  generalize s.access va n n .write (fq != .plain) false = r
  obtain ⟨c, u⟩ := r
  cases c with
  | bad c => exact .inl ⟨c, rfl, rfl⟩
  | stall w => exact .inr (.inl ⟨w, rfl, rfl⟩)
  | ok l =>
    refine .inr (.inr ⟨l, rfl, ?_⟩)
    simp only
    generalize u.feStore fq l.addr false = q
    obtain ⟨w, v⟩ := q
    cases w with
    | none => exact .inr ⟨rfl, rfl⟩
    | some w => exact .inl ⟨w, rfl, rfl⟩

@[simp] theorem State.feLoad_mem (s : State) (fq : Feq) (a : Nat) (held : Bool) : (s.feLoad fq a held).2.mem = s.mem := by
  unfold State.feLoad; repeat' split
  all_goals rfl

@[simp] theorem State.feStore_mem (s : State) (fq : Feq) (a : Nat) (held : Bool) : (s.feStore fq a held).2.mem = s.mem := by
  unfold State.feStore; repeat' split
  all_goals rfl

end Sys2Proof.Machine
end

