-- ==== Sys2Proof/Tests/Slice0.lean ====
section
/-!
SUPPORT. Tests: ill-formed terms that WellFormed refuses, a word written out for every instruction, single steps with results
computed by hand from the spec, and for each statement a state and operands that meet its hypotheses.
-/

namespace Sys2Proof.Tests

open Sys2Proof Sys2Proof.Machine

set_option maxRecDepth 100000
set_option Elab.async false

/-- No guard and no control bit. -/
def t : Ctl := Ctl.none

/-! Ill-formed terms. -/

theorem test_wf_accepts :
    (Instr.add 1 2 (.reg 3) { t with sy := true }).wf = true ∧
    (Instr.vadd 1 2 (.reg 3) { t with mg := 3, wg := some { armB := true, w := 5 }, chA := true, chB := true }).wf = true ∧
    (Instr.vst 2 9 0 .plain 16 { t with hint := 3, eo := true, nv := true }).wf = true ∧
    (Instr.ffma .fp32 1 2 1 (.imm 4) t).wf = true ∧ (Instr.mldw 1 { fmt := .np, nm1 := 7, km1 := 7, rhu := true } t).wf = true := by
  decide +kernel

/-- R77: guards, wait-whole bits, hints and order bits where the table gives none. -/
theorem test_wf_refuses_control_fields :
    (Instr.add 1 2 (.reg 3) { t with mg := 1 }).wf = false ∧
    (Instr.add 1 2 (.reg 3) { t with wg := some { armB := false, w := 0 } }).wf = false ∧
    (Instr.mand 1 2 3 { t with chA := true }).wf = false ∧
    (Instr.vadd 1 2 (.imm 3) { t with chB := true }).wf = false ∧
    (Instr.vadd 1 2 (.reg 3) { t with chC := true }).wf = false ∧
    (Instr.vadd 1 2 (.reg 3) { t with hint := 1 }).wf = false ∧
    (Instr.ld64 1 2 0 .plain { t with eo := true }).wf = false ∧
    (Instr.ld64 1 2 0 .plain { t with nv := true }).wf = false := by decide +kernel

/-- R79, R83, R115, R166: operand forms. -/
theorem test_wf_refuses_operand_forms :
    (Instr.addpc 1 (.reg 2) t).wf = false ∧ (Instr.ffma .fp32 1 2 3 (.imm 4) t).wf = false ∧
    (Instr.vfma 1 2 3 (.imm 4) t).wf = false ∧ (Instr.csrw .vl 1 t).wf = false ∧ (Instr.setvl 1 2 .i32 3 t).wf = false ∧
    (Instr.vcmpEq 0 1 (.reg 2) t).wf = false ∧ (Instr.mand 0 1 2 t).wf = false ∧ (Instr.wcmp 0 1 t).wf = false := by decide +kernel

/-- R19, R61, R83, R90: ranges. -/
theorem test_wf_refuses_ranges :
    (Instr.joinb 30 1 2 3 4 t).wf = false ∧ (Instr.vld 1 2 0 .plain 17 false t).wf = false ∧ (Instr.strm 23 1 2 t).wf = false ∧
    (Instr.barr .core 16 t).wf = false ∧ (Instr.barr .quad 32 t).wf = false ∧ (Instr.mclaim 1 0 t).wf = false ∧
    (Instr.mclaim 1 33 t).wf = false ∧ (Instr.mldw 1 { fmt := .np, nm1 := 0, km1 := 0, rhu := false } t).wf = false ∧
    (Instr.mldw 1 { fmt := .np, nm1 := 3, km1 := 4, rhu := false } t).wf = false ∧
    (Instr.mldw 1 { fmt := .bf16, nm1 := 1, km1 := 0, rhu := false } t).wf = false ∧ (Instr.mrdzSplit 31 0 1 t).wf = false ∧
    (Instr.vnms 1 2 0 t).wf = false ∧ (Instr.vnms 1 2 9 t).wf = false ∧ (Instr.vnms 0 2 1 t).wf = false := by decide +kernel

/-- R86, R87: pair words. -/
theorem test_wf_refuses_pairs :
    let s (rop : BitVec 6) (d : Reg) : Slot := { rop := rop, d := d, a := 1, i := false, imm := 0 }
    (Instr.pairWord (s 0 2) (s 0 3)).wf = true ∧ (Instr.pairWord (s 0x0F 2) (s 0 3)).wf = false ∧
    (Instr.pairWord { s 0 2 with imm := 1 } (s 0 3)).wf = false ∧ (Instr.pairWord (s 0x20 2) (s 0 3)).wf = false ∧
    (Instr.pairWord (s 0 2) (s 0 4)).wf = false ∧ (Instr.pairWord (s 0x10 1) (s 0x11 5)).wf = false ∧
    (Instr.pairWord (s 0x10 1) (s 0x11 3)).wf = true := by decide +kernel

/-! Words written out from the fields of 04_encoding.md. -/

/-- A full word by its fields (R74): OP, FN, D, A, B, C, E, X, then bits 17:0. -/
def fullW (op : BitVec 8) (fn : BitVec 6) (d a b c e x : BitVec 5) (low : BitVec 18) : Word :=
  0#2 ++ op ++ fn ++ d ++ a ++ b ++ c ++ e ++ x ++ low

/-- A full word with no guard and no control bit. -/
def full (op : BitVec 8) (fn : BitVec 6) (d a b c e x : BitVec 5) : Word := fullW op fn d a b c e x 0

theorem test_decode_scalar_1 :
    decode (full 0x00 0x00 21 10 19 0 0 0) none = .instr (.add 21 10 (.reg 19) t) ∧
    decode (full 0x00 0x01 21 10 19 0 0 0) none = .instr (.sub 21 10 (.reg 19) t) ∧
    decode (full 0x00 0x02 21 10 19 0 0 0) none = .instr (.and 21 10 (.reg 19) t) ∧
    decode (full 0x00 0x03 21 10 19 0 0 0) none = .instr (.or 21 10 (.reg 19) t) ∧
    decode (full 0x00 0x04 21 10 19 0 0 0) none = .instr (.xor 21 10 (.reg 19) t) ∧
    decode (full 0x00 0x05 21 10 19 0 0 0) none = .instr (.shl 21 10 (.reg 19) t) ∧
    decode (full 0x00 0x06 21 10 19 0 0 0) none = .instr (.shr 21 10 (.reg 19) t) ∧
    decode (full 0x00 0x07 21 10 19 0 0 0) none = .instr (.sra 21 10 (.reg 19) t) ∧
    decode (full 0x00 0x08 21 10 19 0 0 0) none = .instr (.min 21 10 (.reg 19) t) ∧
    decode (full 0x00 0x09 21 10 19 0 0 0) none = .instr (.max 21 10 (.reg 19) t) ∧
    decode (full 0x00 0x0A 21 10 19 0 0 0) none = .instr (.minu 21 10 (.reg 19) t) ∧
    decode (full 0x00 0x0B 21 10 19 0 0 0) none = .instr (.maxu 21 10 (.reg 19) t) ∧
    decode (full 0x00 0x0C 21 10 19 0 0 0) none = .instr (.slt 21 10 (.reg 19) t) ∧
    decode (full 0x00 0x0D 21 10 19 0 0 0) none = .instr (.sltu 21 10 (.reg 19) t) ∧
    decode (full 0x00 0x0E 21 10 19 0 0 0) none = .instr (.seq 21 10 (.reg 19) t) ∧
    decode (full 0x01 0x20 21 10 0 0 1 19) none = .instr (.mul 21 10 (.cb 51) t) ∧
    decode (full 0x01 0x21 21 10 0 0 1 19) none = .instr (.mulh 21 10 (.cb 51) t) ∧
    decode (full 0x01 0x22 21 10 0 0 1 19) none = .instr (.mulhu 21 10 (.cb 51) t) ∧
    decode (full 0x01 0x23 21 10 0 0 1 19) none = .instr (.div 21 10 (.cb 51) t) ∧
    decode (full 0x01 0x24 21 10 0 0 1 19) none = .instr (.divu 21 10 (.cb 51) t) ∧
    decode (full 0x01 0x25 21 10 0 0 1 19) none = .instr (.rem 21 10 (.cb 51) t) ∧
    decode (full 0x01 0x26 21 10 0 0 1 19) none = .instr (.remu 21 10 (.cb 51) t) ∧
    decode (full 0x02 0x00 21 10 0 0 0 0) none = .instr (.clz 21 10 t) ∧
    decode (full 0x02 0x01 21 10 0 0 0 0) none = .instr (.ctz 21 10 t) := by decide +kernel

theorem test_decode_scalar_2 :
    decode (full 0x02 0x02 21 10 0 0 0 0) none = .instr (.popc 21 10 t) ∧
    decode (full 0x02 0x03 21 10 0 0 0 0) none = .instr (.bswap 21 10 t) ∧
    decode (full 0x02 0x04 21 10 0 0 0 0) none = .instr (.sxb 21 10 t) ∧
    decode (full 0x02 0x05 21 10 0 0 0 0) none = .instr (.sxh 21 10 t) ∧
    decode (full 0x02 0x06 21 10 0 0 0 0) none = .instr (.sxw 21 10 t) ∧
    decode (full 0x02 0x07 21 10 0 0 0 0) none = .instr (.zxb 21 10 t) ∧
    decode (full 0x02 0x08 21 10 0 0 0 0) none = .instr (.zxh 21 10 t) ∧
    decode (full 0x02 0x09 21 10 0 0 0 0) none = .instr (.zxw 21 10 t) ∧
    decode (full 0x03 0x10 21 0 8 0 0 5) none = .instr (.addpc 21 (.imm 0x40005) t) := by decide +kernel

theorem test_decode_float :
    decode (full 0x20 0x00 21 10 19 0 0 0) none = .instr (.fadd .fp32 21 10 (.reg 19) t) ∧
    decode (full 0x20 0x03 21 10 19 0 0 0) none = .instr (.fdiv .fp32 21 10 (.reg 19) t) ∧
    decode (full 0x20 0x06 21 10 0 0 0 0) none = .instr (.fsqrt .fp32 21 (.reg 10) t) ∧
    decode (full 0x20 0x09 21 10 19 0 0 0) none = .instr (.feq .fp32 21 10 (.reg 19) t) ∧
    decode (full 0x21 0x01 21 10 19 0 0 0) none = .instr (.fsub .bf16 21 10 (.reg 19) t) ∧
    decode (full 0x21 0x04 21 10 19 0 0 0) none = .instr (.fmin .bf16 21 10 (.reg 19) t) ∧
    decode (full 0x21 0x07 21 10 0 0 0 0) none = .instr (.fabs .bf16 21 (.reg 10) t) ∧
    decode (full 0x21 0x0A 21 10 19 0 0 0) none = .instr (.flt .bf16 21 10 (.reg 19) t) ∧
    decode (full 0x22 0x02 21 10 19 0 0 0) none = .instr (.fmul .fp16 21 10 (.reg 19) t) ∧
    decode (full 0x22 0x05 21 10 19 0 0 0) none = .instr (.fmax .fp16 21 10 (.reg 19) t) ∧
    decode (full 0x22 0x08 21 10 0 0 0 0) none = .instr (.fneg .fp16 21 (.reg 10) t) ∧
    decode (full 0x22 0x0B 21 10 19 0 0 0) none = .instr (.fle .fp16 21 10 (.reg 19) t) ∧
    decode (full 0x23 0x00 21 10 19 7 0 0) none = .instr (.ffma .fp32 21 10 19 (.reg 7) t) ∧
    decode (full 0x23 0x05 21 10 19 7 0 0) none = .instr (.ffms .bf16 21 10 19 (.reg 7) t) ∧
    decode (full 0x23 0x0A 21 10 19 7 0 0) none = .instr (.ffnma .fp16 21 10 19 (.reg 7) t) ∧
    decode (full 0x23 0x03 21 10 19 7 0 0) none = .instr (.ffnms .fp32 21 10 19 (.reg 7) t) ∧
    decode (full 0x24 0x00 21 10 10 2 9 0) none = .instr (.fcvt 21 10 .fp32 .i32 .rtz true t) := by decide +kernel

theorem test_decode_control :
    decode (full 0x28 0x00 21 0 16 0 0 3) none = .instr (.jal 21 0x80003 t) ∧
    decode (full 0x29 0x00 21 10 0 0 0 0) none = .instr (.jr 21 10 t) ∧
    decode (full 0x2A 0x00 0 10 19 16 1 2) none = .instr (.bEq 10 19 0x4022 t) ∧
    decode (full 0x2A 0x01 0 10 19 16 1 2) none = .instr (.bNe 10 19 0x4022 t) ∧
    decode (full 0x2A 0x02 0 10 19 16 1 2) none = .instr (.bLt 10 19 0x4022 t) ∧
    decode (full 0x2A 0x03 0 10 19 16 1 2) none = .instr (.bGe 10 19 0x4022 t) ∧
    decode (full 0x2A 0x04 0 10 19 16 1 2) none = .instr (.bLtu 10 19 0x4022 t) ∧
    decode (full 0x2A 0x05 0 10 19 16 1 2) none = .instr (.bGeu 10 19 0x4022 t) ∧
    decode (full 0x2B 0x00 21 10 0 16 1 2) none = .instr (.subbr 21 10 0x4022 t) := by decide +kernel

theorem test_decode_system :
    decode (full 0x30 0x00 21 0 0 0 0 0) none = .instr (.csrr 21 .vl t) ∧
    decode (full 0x30 0x01 0 10 0 0 0 16) none = .instr (.csrw .rmode 10 t) ∧
    decode (full 0x30 0x02 0 10 0 0 0 16) none = .instr (.csrs .rmode 10 t) ∧
    decode (full 0x30 0x03 0 10 0 0 0 16) none = .instr (.csrc .rmode 10 t) ∧
    decode (full 0x31 0x00 21 10 0 6 0 10) none = .instr (.setvl 21 10 .np 5 t) ∧
    decode (full 0x32 0x00 0 0 0 0 0 0) none = .instr (.halt t) ∧
    decode (full 0x32 0x01 0 0 0 0 0 0) none = .instr (.yield t) ∧
    decode (full 0x32 0x02 0 0 16 0 0 7) none = .instr (.trap 0x80007 t) ∧
    decode (full 0x32 0x03 0 0 0 0 0 0) none = .instr (.eret t) ∧
    decode (full 0x32 0x04 0 10 0 0 0 0) none = .instr (.sleep 10 t) ∧
    decode (full 0x32 0x05 0 10 19 0 0 0) none = .instr (.waitt 10 19 t) ∧
    decode (full 0x32 0x06 21 10 0 0 0 0) none = .instr (.grant 21 10 t) ∧
    decode (full 0x33 0x00 0 10 19 0 0 0) none = .instr (.pgate 10 19 t) ∧
    decode (full 0x34 0x00 0 10 0 0 0 0) none = .instr (.xlinvAddr 10 t) ∧
    decode (full 0x34 0x01 0 10 0 0 0 0) none = .instr (.xlinvPart 10 t) ∧
    decode (full 0x34 0x02 0 0 0 0 0 0) none = .instr (.xlinvAll t) ∧
    decode (full 0x35 0x00 21 10 0 0 0 0) none = .instr (.pgq 21 10 t) := by decide +kernel

theorem test_decode_vector_1 :
    decode (full 0x38 0x00 21 10 19 0 0 0) none = .instr (.vadd 21 10 (.reg 19) t) ∧
    decode (full 0x38 0x01 21 10 19 0 0 0) none = .instr (.vsub 21 10 (.reg 19) t) ∧
    decode (full 0x38 0x02 21 10 19 0 0 0) none = .instr (.vmul 21 10 (.reg 19) t) ∧
    decode (full 0x38 0x03 21 10 19 0 0 0) none = .instr (.vdiv 21 10 (.reg 19) t) ∧
    decode (full 0x38 0x04 21 10 19 0 0 0) none = .instr (.vmin 21 10 (.reg 19) t) ∧
    decode (full 0x38 0x05 21 10 19 0 0 0) none = .instr (.vmax 21 10 (.reg 19) t) ∧
    decode (full 0x38 0x06 21 10 19 0 0 0) none = .instr (.vand 21 10 (.reg 19) t) ∧
    decode (full 0x38 0x07 21 10 19 0 0 0) none = .instr (.vor 21 10 (.reg 19) t) ∧
    decode (full 0x38 0x08 21 10 19 0 0 0) none = .instr (.vxor 21 10 (.reg 19) t) ∧
    decode (full 0x38 0x09 21 10 19 0 0 0) none = .instr (.vshl 21 10 (.reg 19) t) ∧
    decode (full 0x38 0x0A 21 10 19 0 0 0) none = .instr (.vshr 21 10 (.reg 19) t) ∧
    decode (full 0x38 0x0B 21 10 19 0 0 0) none = .instr (.vsra 21 10 (.reg 19) t) ∧
    decode (full 0x38 0x0C 21 10 19 0 0 0) none = .instr (.vmulh 21 10 (.reg 19) t) ∧
    decode (full 0x38 0x0D 21 10 19 0 0 0) none = .instr (.vabsd 21 10 (.reg 19) t) ∧
    decode (full 0x38 0x0E 21 10 19 0 0 0) none = .instr (.vsgnj 21 10 (.reg 19) t) ∧
    decode (full 0x39 0x10 21 10 16 0 0 3) none = .instr (.vaddSat 21 10 (.imm 0x80003) t) ∧
    decode (full 0x39 0x11 21 10 16 0 0 3) none = .instr (.vsubSat 21 10 (.imm 0x80003) t) ∧
    decode (full 0x39 0x12 21 10 16 0 0 3) none = .instr (.vmulSat 21 10 (.imm 0x80003) t) ∧
    decode (full 0x3A 0x00 21 10 19 7 0 0) none = .instr (.vfma 21 10 19 (.reg 7) t) ∧
    decode (full 0x3A 0x01 21 10 19 7 0 0) none = .instr (.vfms 21 10 19 (.reg 7) t) ∧
    decode (full 0x3A 0x02 21 10 19 7 0 0) none = .instr (.vfnma 21 10 19 (.reg 7) t) ∧
    decode (full 0x3A 0x03 21 10 19 7 0 0) none = .instr (.vfnms 21 10 19 (.reg 7) t) ∧
    decode (full 0x3B 0x00 21 10 0 0 0 0) none = .instr (.vneg 21 10 t) ∧
    decode (full 0x3B 0x01 21 10 0 0 0 0) none = .instr (.vabs 21 10 t) := by decide +kernel

theorem test_decode_vector_2 :
    decode (full 0x3B 0x02 21 10 0 0 0 0) none = .instr (.vsqrt 21 10 t) ∧
    decode (full 0x3B 0x03 21 10 0 0 0 0) none = .instr (.vmov 21 10 t) ∧
    decode (full 0x3B 0x04 21 10 0 0 0 0) none = .instr (.vnot 21 10 t) ∧
    decode (full 0x3C 0x00 9 10 19 0 0 0) none = .instr (.vcmpEq 9 10 (.reg 19) t) ∧
    decode (full 0x3C 0x01 9 10 19 0 0 0) none = .instr (.vcmpNe 9 10 (.reg 19) t) ∧
    decode (full 0x3C 0x02 9 10 19 0 0 0) none = .instr (.vcmpLt 9 10 (.reg 19) t) ∧
    decode (full 0x3C 0x03 9 10 19 0 0 0) none = .instr (.vcmpLe 9 10 (.reg 19) t) ∧
    decode (full 0x3C 0x04 9 10 19 0 0 0) none = .instr (.vcmpGt 9 10 (.reg 19) t) ∧
    decode (full 0x3C 0x05 9 10 19 0 0 0) none = .instr (.vcmpGe 9 10 (.reg 19) t) ∧
    decode (full 0x3C 0x06 9 10 19 0 0 0) none = .instr (.vcmpUn 9 10 (.reg 19) t) ∧
    decode (full 0x3D 0x00 21 10 19 12 0 0) none = .instr (.vmerge 21 10 19 12 t) ∧
    decode (full 0x3E 0x00 21 10 12 9 4 3) none = .instr (.vcvt 21 10 .np .bf16 .sr false 3 t) ∧
    decode (full 0x3F 0x00 21 10 0 0 0 0) none = .instr (.vsfuExp 21 10 t) ∧
    decode (full 0x3F 0x01 21 10 0 0 0 0) none = .instr (.vsfuExp2 21 10 t) ∧
    decode (full 0x3F 0x02 21 10 0 0 0 0) none = .instr (.vsfuLog 21 10 t) ∧
    decode (full 0x3F 0x03 21 10 0 0 0 0) none = .instr (.vsfuLog2 21 10 t) ∧
    decode (full 0x3F 0x04 21 10 0 0 0 0) none = .instr (.vsfuRcp 21 10 t) ∧
    decode (full 0x3F 0x05 21 10 0 0 0 0) none = .instr (.vsfuRsqrt 21 10 t) ∧
    decode (full 0x3F 0x06 21 10 0 0 0 0) none = .instr (.vsfuSqrt 21 10 t) ∧
    decode (full 0x3F 0x07 21 10 0 0 0 0) none = .instr (.vsfuTanh 21 10 t) ∧
    decode (full 0x3F 0x08 21 10 0 0 0 0) none = .instr (.vsfuSig 21 10 t) ∧
    decode (full 0x3F 0x09 21 10 0 0 0 0) none = .instr (.vsfuGelu 21 10 t) ∧
    decode (full 0x3F 0x0A 21 10 0 0 0 0) none = .instr (.vsfuSin 21 10 t) ∧
    decode (full 0x3F 0x0B 21 10 0 0 0 0) none = .instr (.vsfuCos 21 10 t) := by decide +kernel

theorem test_decode_vector_3 :
    decode (full 0x40 0x00 21 10 19 0 0 0) none = .instr (.vredFsum 21 10 19 t) ∧
    decode (full 0x40 0x01 21 10 19 0 0 0) none = .instr (.vredFmax 21 10 19 t) ∧
    decode (full 0x40 0x02 21 10 19 0 0 0) none = .instr (.vredFmin 21 10 19 t) ∧
    decode (full 0x40 0x03 21 10 19 0 0 0) none = .instr (.vredIsum 21 10 19 t) ∧
    decode (full 0x40 0x04 21 10 19 0 0 0) none = .instr (.vredImax 21 10 19 t) ∧
    decode (full 0x40 0x05 21 10 19 0 0 0) none = .instr (.vredImin 21 10 19 t) ∧
    decode (full 0x40 0x06 21 10 19 0 0 0) none = .instr (.vredImaxu 21 10 19 t) ∧
    decode (full 0x40 0x07 21 10 19 0 0 0) none = .instr (.vredIminu 21 10 19 t) ∧
    decode (full 0x40 0x08 21 10 19 0 0 0) none = .instr (.vredAnd 21 10 19 t) ∧
    decode (full 0x40 0x09 21 10 19 0 0 0) none = .instr (.vredOr 21 10 19 t) ∧
    decode (full 0x40 0x0A 21 10 19 0 0 0) none = .instr (.vredXor 21 10 19 t) ∧
    decode (full 0x41 0x00 21 0 0 0 0 0) none = .instr (.vid 21 t) ∧
    decode (full 0x42 0x00 21 10 0 0 0 0) none = .instr (.vrngBits 21 10 t) ∧
    decode (full 0x42 0x01 21 10 0 0 0 0) none = .instr (.vrngUnit 21 10 t) ∧
    decode (full 0x43 0x00 21 10 19 0 0 0) none = .instr (.vdrop 21 10 19 t) ∧
    decode (full 0x60 0x00 21 10 19 0 0 0) none = .instr (.vperm 21 10 19 t) ∧
    decode (full 0x60 0x01 21 10 19 0 0 0) none = .instr (.vrot 21 10 (.reg 19) t) ∧
    decode (full 0x60 0x02 21 10 19 0 0 0) none = .instr (.vslideUp 21 10 (.reg 19) t) ∧
    decode (full 0x60 0x03 21 10 19 0 0 0) none = .instr (.vslideDn 21 10 (.reg 19) t) ∧
    decode (full 0x61 0x00 21 10 12 0 0 0) none = .instr (.vcomp 21 10 12 t) ∧
    decode (full 0x61 0x01 21 10 12 0 0 0) none = .instr (.vexp 21 10 12 t) := by decide +kernel

theorem test_decode_mask :
    decode (full 0x62 0x00 9 5 12 0 0 0) none = .instr (.mand 9 5 12 t) ∧
    decode (full 0x62 0x01 9 5 12 0 0 0) none = .instr (.mor 9 5 12 t) ∧
    decode (full 0x62 0x02 9 5 12 0 0 0) none = .instr (.mxor 9 5 12 t) ∧
    decode (full 0x62 0x03 9 5 12 0 0 0) none = .instr (.mandn 9 5 12 t) ∧
    decode (full 0x62 0x04 9 5 0 0 0 0) none = .instr (.mnot 9 5 t) ∧
    decode (full 0x63 0x00 21 5 0 0 0 0) none = .instr (.mcnt 21 5 t) ∧
    decode (full 0x63 0x01 21 5 0 0 0 0) none = .instr (.many 21 5 t) ∧
    decode (full 0x63 0x02 21 5 0 0 0 0) none = .instr (.mfirst 21 5 t) := by decide +kernel

theorem test_decode_arms :
    decode (full 0x68 0x00 3 10 0 0 0 0) none = .instr (.wset 3 (.reg 10) t) ∧
    decode (full 0x68 0x10 3 0 8 0 0 1) none = .instr (.wset 3 (.imm 0x40001) t) ∧
    decode (full 0x68 0x01 3 10 0 0 0 0) none = .instr (.wsigH 3 10 t) ∧
    decode (full 0x68 0x02 3 10 0 0 0 0) none = .instr (.wsigS 3 10 t) ∧
    decode (full 0x68 0x03 21 5 0 0 0 0) none = .instr (.wget 21 5 t) ∧
    decode (full 0x68 0x04 3 5 6 0 0 0) none = .instr (.wmul 3 5 6 t) ∧
    decode (full 0x68 0x05 9 5 0 0 0 0) none = .instr (.wcmp 9 5 t) ∧
    decode (full 0x69 0x00 0 5 0 16 1 2) none = .instr (.arm 5 0x4022 t) ∧
    decode (full 0x69 0x01 0 5 0 16 1 2) none = .instr (.armb 5 0x4022 t) ∧
    decode (full 0x69 0x02 0 0 0 0 0 0) none = .instr (.armend t) ∧
    decode (full 0x6A 0x00 21 10 19 6 0 0) none = .instr (.join 21 10 19 6 t) ∧
    decode (full 0x6A 0x01 21 10 19 7 6 0) none = .instr (.joinb 21 10 19 7 6 t) ∧
    decode (full 0x6B 0x00 3 10 0 16 1 2) none = .instr (.wloop 3 10 0x4022 t) ∧
    decode (full 0x6B 0x01 0 0 0 16 1 2) none = .instr (.wlend 0x4022 t) := by decide +kernel

theorem test_decode_memory_1 :
    decode (full 0x70 0x00 21 10 0 16 0 20) none = .instr (.ld8 21 10 0x1005 .plain t) ∧
    decode (full 0x70 0x01 21 10 0 16 0 21) none = .instr (.ld16 21 10 0x1005 .fe t) ∧
    decode (full 0x70 0x02 21 10 0 16 0 22) none = .instr (.ld32 21 10 0x1005 .fc t) ∧
    decode (full 0x70 0x03 21 10 0 16 0 20) none = .instr (.ld64 21 10 0x1005 .plain t) ∧
    decode (full 0x70 0x04 21 10 0 16 0 21) none = .instr (.ldz8 21 10 0x1005 .fe t) ∧
    decode (full 0x70 0x05 21 10 0 16 0 22) none = .instr (.ldz16 21 10 0x1005 .fc t) ∧
    decode (full 0x70 0x06 21 10 0 16 0 20) none = .instr (.ldz32 21 10 0x1005 .plain t) ∧
    decode (full 0x71 0x00 0 10 19 8 0 12) none = .instr (.st8 10 19 0x0803 .plain t) ∧
    decode (full 0x71 0x01 0 10 19 8 0 13) none = .instr (.st16 10 19 0x0803 .fe t) ∧
    decode (full 0x71 0x02 0 10 19 8 0 14) none = .instr (.st32 10 19 0x0803 .fc t) ∧
    decode (full 0x71 0x03 0 10 19 8 0 12) none = .instr (.st64 10 19 0x0803 .plain t) ∧
    decode (full 0x72 0x07 21 10 0 16 0 20) none = .instr (.vld 21 10 0x1005 .plain 3 true t) ∧
    decode (full 0x73 0x20 21 10 19 0 0 1) none = .instr (.vlds 21 10 19 .fe 16 false t) ∧
    decode (full 0x74 0x01 21 10 19 0 0 2) none = .instr (.vldx 21 10 19 .fc 0 true t) ∧
    decode (full 0x75 0x0A 0 10 19 16 0 22) none = .instr (.vst 10 19 0x1005 .fc 5 t) ∧
    decode (full 0x76 0x00 0 10 19 7 0 1) none = .instr (.vsts 10 19 7 .fe 0 t) ∧
    decode (full 0x77 0x04 0 10 19 7 0 0) none = .instr (.vstx 10 19 7 .plain 2 t) ∧
    decode (full 0x78 0x12 0 10 19 0 0 28) none = .instr (.vstp 10 19 7 .plain 9 t) ∧
    decode (full 0x78 0x13 0 10 19 0 0 28) none = .instr (.vstpPa 10 19 7 .plain 9 t) ∧
    decode (full 0x79 0x00 0 10 19 0 0 0) none = .instr (.feset 10 19 t) ∧
    decode (full 0x79 0x01 0 10 19 0 0 0) none = .instr (.feclr 10 19 t) ∧
    decode (full 0x7A 0x00 21 10 19 0 0 0) none = .instr (.amoAdd false 21 10 19 t) ∧
    decode (full 0x7B 0x10 21 10 19 7 0 0) none = .instr (.vamoAdd true 21 10 19 7 t) ∧
    decode (full 0x7A 0x11 21 10 19 0 0 0) none = .instr (.amoAnd true 21 10 19 t) := by decide +kernel

theorem test_decode_memory_2 :
    decode (full 0x7B 0x01 21 10 19 7 0 0) none = .instr (.vamoAnd false 21 10 19 7 t) ∧
    decode (full 0x7A 0x02 21 10 19 0 0 0) none = .instr (.amoOr false 21 10 19 t) ∧
    decode (full 0x7B 0x12 21 10 19 7 0 0) none = .instr (.vamoOr true 21 10 19 7 t) ∧
    decode (full 0x7A 0x13 21 10 19 0 0 0) none = .instr (.amoXor true 21 10 19 t) ∧
    decode (full 0x7B 0x03 21 10 19 7 0 0) none = .instr (.vamoXor false 21 10 19 7 t) ∧
    decode (full 0x7A 0x04 21 10 19 0 0 0) none = .instr (.amoMin false 21 10 19 t) ∧
    decode (full 0x7B 0x14 21 10 19 7 0 0) none = .instr (.vamoMin true 21 10 19 7 t) ∧
    decode (full 0x7A 0x15 21 10 19 0 0 0) none = .instr (.amoMax true 21 10 19 t) ∧
    decode (full 0x7B 0x05 21 10 19 7 0 0) none = .instr (.vamoMax false 21 10 19 7 t) ∧
    decode (full 0x7A 0x06 21 10 19 0 0 0) none = .instr (.amoMinu false 21 10 19 t) ∧
    decode (full 0x7B 0x16 21 10 19 7 0 0) none = .instr (.vamoMinu true 21 10 19 7 t) ∧
    decode (full 0x7A 0x17 21 10 19 0 0 0) none = .instr (.amoMaxu true 21 10 19 t) ∧
    decode (full 0x7B 0x07 21 10 19 7 0 0) none = .instr (.vamoMaxu false 21 10 19 7 t) ∧
    decode (full 0x7A 0x08 21 10 19 0 0 0) none = .instr (.amoSwap false 21 10 19 t) ∧
    decode (full 0x7B 0x18 21 10 19 7 0 0) none = .instr (.vamoSwap true 21 10 19 7 t) ∧
    decode (full 0x7A 0x19 21 10 19 7 0 0) none = .instr (.amoCas true 21 10 19 7 t) ∧
    decode (full 0x7B 0x09 21 10 19 7 0 0) none = .instr (.vamoCas false 21 10 19 7 t) ∧
    decode (full 0x7C 0x04 0 10 19 0 0 0) none = .instr (.amoacc .sr 10 19 t) ∧
    decode (full 0x7C 0x0F 21 10 0 0 0 0) none = .instr (.vldbfa .dyn 21 10 t) ∧
    decode (full 0x7D 0x00 0 0 0 0 0 0) none = .instr (.fenceC .core t) ∧
    decode (full 0x7D 0x09 0 0 0 0 0 0) none = .instr (.fenceS .pair t) ∧
    decode (full 0x7D 0x12 0 0 0 0 0 0) none = .instr (.fenceRec .quad t) ∧
    decode (full 0x7D 0x1B 0 0 0 0 0 0) none = .instr (.fenceHost .stack t) ∧
    decode (full 0x7D 0x24 0 0 0 0 0 0) none = .instr (.fenceEng .domain t) := by decide +kernel

theorem test_decode_memory_3 :
    decode (full 0x7E 0x00 25 10 19 0 0 0) none = .instr (.strm 25 10 19 t) ∧
    decode (full 0x7E 0x01 25 0 0 0 0 0) none = .instr (.strmx 25 t) ∧
    decode (full 0x7F 0x00 0 10 19 0 0 0) none = .instr (.stash 10 19 t) ∧
    decode (full 0x7F 0x01 0 10 19 0 0 0) none = .instr (.stflush 10 19 t) ∧
    decode (full 0x7F 0x02 0 10 19 0 0 0) none = .instr (.stinv 10 19 t) ∧
    decode (full 0x7F 0x03 0 10 19 0 0 0) none = .instr (.pref 10 19 t) ∧
    decode (full 0x80 0x00 0 10 19 0 0 0) none = .instr (.vcapp 10 19 t) := by decide +kernel

theorem test_decode_engines :
    decode (full 0x88 0x00 0 10 19 7 28 0) none = .instr (.cpy 10 19 7 28 t) ∧
    decode (full 0x89 0x00 0 10 19 7 28 0) none = .instr (.gath 10 19 7 28 t) ∧
    decode (full 0x89 0x01 0 10 19 7 28 0) none = .instr (.scat 10 19 7 28 t) ∧
    decode (full 0x8A 0x00 0 10 19 7 28 0) none = .instr (.collAg 10 19 7 28 t) ∧
    decode (full 0x8A 0x29 0 10 19 7 28 0) none = .instr (.collRs .fp32 10 19 7 28 t) ∧
    decode (full 0x8A 0x0E 0 10 19 7 28 0) none = .instr (.collAr .i64 10 19 7 28 t) ∧
    decode (full 0x8B 0x00 0 10 0 0 0 0) none = .instr (.ewait 10 t) ∧
    decode (full 0x90 0x00 0 10 19 0 0 0) none = .instr (.glaunch 10 19 t) ∧
    decode (full 0x90 0x01 0 10 19 0 0 0) none = .instr (.nspawn 10 19 t) ∧
    decode (full 0x90 0x02 0 10 19 0 0 0) none = .instr (.dcset 10 19 t) ∧
    decode (full 0x90 0x03 0 10 19 0 0 0) none = .instr (.dcdec 10 19 t) ∧
    decode (full 0x90 0x04 0 10 19 7 0 0) none = .instr (.npatch 10 19 7 t) ∧
    decode (full 0x91 0x18 21 0 0 0 0 0) none = .instr (.gid .stack 21 t) ∧
    decode (full 0x91 0x09 21 10 0 0 0 0) none = .instr (.gsplit .pair 21 10 t) ∧
    decode (full 0x92 0x00 0 10 0 0 0 0) none = .instr (.lput 10 t) ∧
    decode (full 0x92 0x01 21 0 0 0 0 0) none = .instr (.lget 21 t) ∧
    decode (full 0x92 0x02 21 0 0 0 0 0) none = .instr (.lfree 21 t) ∧
    decode (full 0x93 0x10 0 0 19 0 0 19) none = .instr (.bari .quad 19 19 t) ∧
    decode (full 0x93 0x21 0 0 0 0 1 31) none = .instr (.barr .domain 63 t) ∧
    decode (full 0x93 0x1A 0 0 0 0 1 31) none = .instr (.barw .stack 63 t) ∧
    decode (full 0x93 0x03 0 0 0 0 0 15) none = .instr (.barrw .core 15 t) := by decide +kernel

theorem test_decode_matrix_1 :
    decode (full 0x98 0x00 0 0 0 0 0 5) none = .instr (.msmode true 2 t) ∧
    decode (full 0x99 0x00 21 0 0 0 1 0) none = .instr (.mclaim 21 32 t) ∧
    decode (full 0x99 0x01 0 10 0 0 0 0) none = .instr (.mrel 10 t) ∧
    decode (full 0x9A 0x00 0 10 19 0 0 0) none = .instr (.mlds 10 19 t) ∧
    decode (full 0x9A 0x01 0 10 0 6 6 5) none = .instr (.mldw 10 { fmt := .np, nm1 := 6, km1 := 2, rhu := true } t) ∧
    decode (full 0x9B 0x00 2 10 0 6 6 5) none = .instr (.mstrm 2 10 { fmt := .np, nm1 := 6, km1 := 2, rhu := true } t) ∧
    decode (full 0x9C 0x00 2 10 19 0 0 0) none = .instr (.mxprod 2 10 19 t) ∧
    decode (full 0x9D 0x00 2 0 0 0 0 0) none = .instr (.mzero 2 t) ∧
    decode (full 0x9D 0x01 21 1 19 0 0 0) none = .instr (.mrdzSplit 21 1 19 t) ∧
    decode (full 0x9D 0x02 21 1 19 0 0 0) none = .instr (.mrdzMerge 21 1 19 t) ∧
    decode (full 0x9D 0x03 2 10 19 0 0 0) none = .instr (.mwrz 2 10 19 t) ∧
    decode (full 0x9D 0x04 21 1 19 0 0 0) none = .instr (.mcol 21 1 19 t) ∧
    decode (full 0x9D 0x05 2 1 0 0 0 0) none = .instr (.mtrs 2 1 t) ∧
    decode (full 0x9E 0x00 0 10 1 7 0 0) none = .instr (.msts 10 1 7 t) ∧
    decode (full 0x9E 0x01 0 10 1 7 0 0) none = .instr (.mstsCmp 10 1 7 t) ∧
    decode (full 0x9E 0x02 0 10 1 7 0 0) none = .instr (.mstsCmpTrap 10 1 7 t) ∧
    decode (full 0x9F 0x00 0 10 0 0 0 0) none = .instr (.seqdef 10 t) ∧
    decode (full 0x9F 0x01 0 6 0 0 0 0) none = .instr (.seqrun 6 t) ∧
    decode (full 0xA0 0x00 6 10 0 0 0 0) none = .instr (.kset 6 10 t) ∧
    decode (full 0xA0 0x01 6 10 0 0 0 0) none = .instr (.kclr 6 10 t) ∧
    decode (full 0xA0 0x02 6 10 0 0 0 0) none = .instr (.kld 6 10 t) ∧
    decode (full 0xA0 0x03 21 6 19 0 0 0) none = .instr (.ktst 21 6 19 t) ∧
    decode (full 0xB0 0x00 0 10 19 7 28 0) none = .instr (.voptSgd 10 19 7 28 t) ∧
    decode (full 0xB0 0x01 0 10 19 7 28 0) none = .instr (.voptMsgd 10 19 7 28 t) := by decide +kernel

theorem test_decode_matrix_2 :
    decode (full 0xB0 0x02 0 10 19 7 28 0) none = .instr (.voptAdam 10 19 7 28 t) ∧
    decode (full 0xB1 0x00 21 10 19 0 0 0) none = .instr (.vsal 21 10 19 t) ∧
    decode (full 0xB1 0x01 9 10 0 0 0 8) none = .instr (.vnms 9 10 8 t) := by decide +kernel

theorem test_decode_queries :
    decode (full 0xB8 0x00 0 10 19 7 0 0) none = .instr (.qterm 10 19 7 t) ∧
    decode (full 0xB9 0x00 0 10 19 7 0 0) none = .instr (.qvec 10 19 7 t) ∧
    decode (full 0xBA 0x00 0 10 19 0 0 0) none = .instr (.qexec 10 19 t) ∧
    decode (full 0xBB 0x00 21 10 0 0 0 0) none = .instr (.qstat 21 10 t) := by decide +kernel

/-- `add g5, g0, 4` of the worked encodings, bit by bit. -/
theorem test_decode_bits :
    decode 0b0000000000010000001010000000000000000000000100000000000000000000 none = .instr (.add 5 0 (.imm 4) t) := by decide +kernel

/-- Every control field (R75), the literal word (R81), the two slots of a pair (R85). -/
theorem test_decode_control_fields :
    decode (fullW 0x38 0 21 10 19 0 0 0 0b011111110110000001) none =
      .instr (.vadd 21 10 (.reg 19) { t with mg := 7, wg := some { armB := true, w := 6 }, chA := true, chB := true, sy := true }) ∧
    decode (fullW 0x75 0 0 10 19 0 0 0 0b000000000100111100) none =
      .instr (.vst 10 19 0 .plain 0 { t with chA := true, hint := 3, eo := true, nv := true }) ∧
    decode (fullW 0x38 0x10 21 10 0 0 0 0 0b10) (some 0x8000000089ABCDEF) = .instr (.vadd 21 10 (.lit 0x89ABCDEF) t) ∧
    decode (0b01#2 ++ 0x0A#6 ++ 6#5 ++ 7#5 ++ 1#1 ++ 0x3F80#14 ++ 0x17#6 ++ 9#5 ++ 12#5 ++ 0#1 ++ 0#14) none =
      .instr (.pairWord { rop := 0x0A, d := 6, a := 7, i := true, imm := 0x3F80 } { rop := 0x17, d := 9, a := 12, i := false, imm := 0 }) := by
  decide +kernel

/-- R71, R77, R78, R79, R81, R89, R90: words that are no instruction. -/
theorem test_decode_rejects :
    decode (full 0x04 0 0 0 0 0 0 0) none = .bad .illegal ∧ decode (full 0x00 15 0 0 0 0 0 0) none = .bad .illegal ∧
    decode (full 0x00 0x30 1 2 3 0 0 0) none = .bad .illegal ∧ decode (full 0x00 0 1 2 3 1 0 0) none = .bad .illegal ∧
    decode (fullW 0x00 0 1 2 3 0 0 0 0x4000) none = .bad .illegal ∧ decode (fullW 0x38 0 1 2 3 0 0 0 0x0200) none = .bad .illegal ∧
    decode (full 0x7D 0x28 0 0 0 0 0 0) none = .bad .illegal ∧ decode (full 0x31 0 1 2 0 5 16 0) none = .bad .illegal ∧
    decode (fullW 0x00 0x10 1 2 0 0 0 0 2) (some 0x8000000100000000) = .bad .illegal ∧
    decode 0x8000000000000000 none = .bad .litExec ∧ decode 0xC000000000000000 none = .bad .wordKind ∧
    decode (0b01#2 ++ 0#6 ++ 2#5 ++ 0#5 ++ 0#15 ++ 0#6 ++ 4#5 ++ 0#5 ++ 0#15) none = .bad .pairBank := by decide +kernel

/-! States. -/

/-- A user strand on core 0 of a running partition with one page; memory holds the tables alone. -/
def user : State := State.reset.place []
/-- The same with another privilege. -/
def ofPriv (p : Priv) : State := user.onAct fun a => { a with priv := p }
/-- The same with an element format and a vector length. -/
def vec (f : Fmt) (n : BitVec 12) : State := user.onCsr fun c => { c with vt := { fmt := f, np := if f = .np then 4 else 0 }, vl := n }
/-- The same with four values in g1 to g4. -/
def gs (s : State) (a b c d : Word) : State := (((s.setG 1 a).setG 2 b).setG 3 c).setG 4 d

/-- The acting strand is ready. -/
theorem ready_of {s : State} (h : s.act.resume = none ∧ s.act.woke = none ∧ s.act.late = none ∧ s.budget = none ∧
    s.act.prog = Progress.none) : Ready s := ⟨h.1, h.2.1, h.2.2.1, h.2.2.2.1, h.2.2.2.2⟩

/-- The results that hypotheses ask for. -/
def okR {α : Type} : Res α → Bool | .ok _ _ => true | _ => false
def trapR {α : Type} : Res α → Bool | .trap _ _ => true | _ => false
theorem okR_iff {α : Type} (r : Res α) : okR r = true ↔ ∃ a u, r = .ok a u := by cases r <;> simp [okR]
theorem trapR_iff {α : Type} (r : Res α) : trapR r = true ↔ ∃ a u, r = .trap a u := by cases r <;> simp [trapR]
/-- An access that is allowed at a location, the state being as it was. -/
def okC (s : State) (c : Chk × State) : Bool := match c.1 with | .ok _ => c.2 == s | _ => false

/-- An operation of the acting strand in a state. -/
def opOf (st : EngSt) (job : EngJob) : EngOp := { user.newOp job none with st := st }
def sOp (e : EngOp) : State := { user with engines := [(3, e)], nextOp := 4 }
/-- A collective's participant. -/
def collJob : EngJob := .coll .ar .i32 0x40000200 0x40000400 16 0 1 9 0 false

/-! Single steps, with results from the tables and examples of the spec. -/

/-- The next state meets a test. -/
def after (o : Out) (p : State → Bool) : Bool := match o with | .next u => p u | _ => false

/-- A vector register of 32-bit lanes. -/
def lanes32 (l : List Nat) : BitVec 16384 := l.reverse.foldl (fun acc x => acc <<< 32 ||| BitVec.ofNat 16384 x) 0

/-- R95: 64-bit arithmetic wraps, `sltu` is unsigned, a shift count is taken below 64. -/
theorem test_integer :
    let s := gs user (BitVec.allOnes 64) 1 65 0
    after (exec (.add 5 1 (.reg 2) t) s) (fun u => u.g 5 == 0 && u.act.pc == 0x40000088) = true ∧
    after (exec (.add 0 1 (.reg 2) t) s) (fun u => u.g 0 == 0 && u.g 1 == BitVec.allOnes 64) = true ∧
    after (exec (.slt 5 1 (.reg 2) t) s) (fun u => u.g 5 == 1) = true ∧ after (exec (.sltu 5 1 (.reg 2) t) s) (fun u => u.g 5 == 0) = true ∧
    after (exec (.shl 5 2 (.reg 3) t) s) (fun u => u.g 5 == 2) = true ∧ after (exec (.sra 5 1 (.reg 2) t) s) (fun u => u.g 5 == BitVec.allOnes 64) = true ∧
    after (exec (.sub 5 2 (.imm 0xFFFFF) t) s) (fun u => u.g 5 == 2) = true ∧
    after (exec (.mulh 5 1 (.reg 1) t) s) (fun u => u.g 5 == 0) = true ∧
    after (exec (.mulhu 5 1 (.reg 1) t) s) (fun u => u.g 5 == 0xFFFFFFFFFFFFFFFE) = true := by decide +kernel

/-- The table of R96. -/
theorem test_division :
    let s := gs user 0x8000000000000000 (BitVec.allOnes 64) 7 0
    after (exec (.div 5 3 (.reg 4) t) s) (fun u => u.g 5 == BitVec.allOnes 64) = true ∧
    after (exec (.remu 5 3 (.reg 4) t) s) (fun u => u.g 5 == 7) = true ∧
    after (exec (.div 5 1 (.reg 2) t) s) (fun u => u.g 5 == 0x8000000000000000) = true ∧
    after (exec (.rem 5 1 (.reg 2) t) s) (fun u => u.g 5 == 0) = true ∧
    after (exec (.rem 5 2 (.reg 3) t) s) (fun u => u.g 5 == BitVec.allOnes 64) = true := by decide +kernel

/-- R97, R98. -/
theorem test_bit_functions :
    let s := gs user 0x0123456789ABCDEF 0x80 0 0
    after (exec (.clz 5 1 t) s) (fun u => u.g 5 == 7) = true ∧ after (exec (.ctz 5 2 t) s) (fun u => u.g 5 == 7) = true ∧
    after (exec (.clz 5 0 t) s) (fun u => u.g 5 == 64) = true ∧ after (exec (.popc 5 1 t) s) (fun u => u.g 5 == 32) = true ∧
    after (exec (.bswap 5 1 t) s) (fun u => u.g 5 == 0xEFCDAB8967452301) = true ∧
    after (exec (.sxb 5 2 t) s) (fun u => u.g 5 == 0xFFFFFFFFFFFFFF80) = true ∧ after (exec (.zxh 5 1 t) s) (fun u => u.g 5 == 0xCDEF) = true ∧
    after (exec (.addpc 5 (.imm 0xFFFF8) t) s) (fun u => u.g 5 == 0x40000078) = true := by decide +kernel

/-- R99, R100, R30: 1 + 2, 1 / 0 with divide by zero, the comparison with a quiet NaN, an invalid conversion that saturates. -/
theorem test_float :
    let s := gs user 0x3F800000 0x40000000 0x7FC00000 0x4F800000
    after (exec (.fadd .fp32 5 1 (.reg 2) t) s) (fun u => u.g 5 == 0x40400000 && u.act.csr.fflags == 0) = true ∧
    after (exec (.fdiv .fp32 5 1 (.reg 0) t) s) (fun u => u.g 5 == 0x7F800000 && u.act.csr.fflags == 8) = true ∧
    after (exec (.flt .fp32 5 1 (.reg 3) t) s) (fun u => u.g 5 == 0 && u.act.csr.fflags == 16) = true ∧
    after (exec (.fcvt 5 4 .i32 .fp32 .rtz true t) s) (fun u => u.g 5 == 0x7FFFFFFF) = true ∧
    after (exec (.ffma .fp32 5 2 2 (.reg 1) t) s) (fun u => u.g 5 == 0x40A00000) = true := by decide +kernel

/-- R103 to R106. -/
theorem test_control :
    let s := gs user (BitVec.allOnes 64) 1 3 0x40000100
    after (exec (.jal 5 0xFFFFF t) s) (fun u => u.g 5 == 0x40000088 && u.act.pc == 0x40000078) = true ∧
    after (exec (.jr 4 4 t) s) (fun u => u.g 4 == 0x40000088 && u.act.pc == 0x40000100) = true ∧
    after (exec (.bLt 1 2 2 t) s) (fun u => u.act.pc == 0x40000090) = true ∧
    after (exec (.bLtu 1 2 2 t) s) (fun u => u.act.pc == 0x40000088) = true ∧
    after (exec (.subbr 3 2 0x7FFF t) s) (fun u => u.g 3 == 2 && u.act.pc == 0x40000078) = true := by decide +kernel

/-- R112, R115, R117: `setvl` at the `vlmax` of 8 clusters and 32 bits; a write of `vstart` by a user strand; `fflags`. -/
theorem test_csrs :
    let s := gs user 1000 0x1F 0 0
    after (exec (.setvl 5 1 .i32 0 t) s) (fun u => u.g 5 == 512 && u.vl == 512 && u.fmt == .i32) = true ∧
    after (exec (.csrw .vstart 1 t) s) (fun u => u.act.life == .trapped && u.act.csr.code == 0x15) = true ∧
    after (exec (.csrs .fflags 2 t) s) (fun u => u.act.csr.fflags == 0x1F) = true ∧
    after (exec (.csrr 5 .vtype t) s) (fun u => u.g 5 == 0x2A) = true := by decide +kernel

/-- R262, R267, R272, R273: a user strand stops with a record; a control strand goes to its handler and comes back. -/
theorem test_traps :
    after (exec (.trap 0x123 t) user)
      (fun u => u.act.life == .trapped && u.act.csr.code == 0x14 && u.act.csr.tval == 0x123 && u.act.csr.epc == 0x40000088 &&
        u.mill.faults.length == 1) = true ∧
    after (exec (.trap 0x123 t) (ofPriv .control))
      (fun u => u.act.pc == 0x40000080 && u.act.csr.pprv == 1 && u.mill.faults.isEmpty &&
        after (exec (.eret t) u) (fun v => v.act.pc == 0x40000088 && v.act.frame == none && v.act.priv == .control)) = true ∧
    after (exec (.eret t) user) (fun u => u.act.csr.code == 0x15) = true := by decide +kernel

/-- R87: slot 1 reads what stood before slot 0. -/
theorem test_pair :
    after (exec (.pairWord { rop := 0, d := 3, a := 3, i := true, imm := 1 } { rop := 1, d := 4, a := 3, i := true, imm := 1 })
      (gs user 0 0 10 0)) (fun u => u.g 3 == 11 && u.g 4 == 9 && u.act.pc == 0x40000088) = true := by decide +kernel

/-- R56, R124, R130: elements below `vl` under a mask; saturation. -/
theorem test_vector :
    let s := ((vec .i32 3).setV 1 (lanes32 [5, 6, 7, 8])).setV 2 (lanes32 [1, 0xFFFFFFFF, 3, 4])
    let s := (s.setV 3 (lanes32 [90, 91, 92, 93])).setM 1 5
    after (exec (.vadd 3 1 (.reg 2) t) s) (fun u => lane (u.v 3) 32 0 == 6 && lane (u.v 3) 32 1 == 5 && lane (u.v 3) 32 3 == 93) = true ∧
    after (exec (.vadd 3 1 (.reg 2) { t with mg := 1 }) s) (fun u => lane (u.v 3) 32 1 == 91 && lane (u.v 3) 32 2 == 10) = true ∧
    after (exec (.vcmpLt 2 2 (.reg 1) t) s) (fun u => (u.m 2).toNat == 7) = true ∧
    after (exec (.vredIsum 5 1 0 t) s) (fun u => u.g 5 == 18) = true ∧
    after (exec (.vslideUp 3 1 (.imm 1) t) s)
      (fun u => lane (u.v 3) 32 0 == 90 && lane (u.v 3) 32 1 == 5 && lane (u.v 3) 32 2 == 6) = true ∧
    after (exec (.vcomp 3 1 1 t) s) (fun u => lane (u.v 3) 32 0 == 5 && lane (u.v 3) 32 1 == 7 && lane (u.v 3) 32 2 == 0) = true ∧
    after (exec (.vadd 3 1 (.reg 2) t) (vec .uq15 1)) (fun u => u.act.csr.code == 0x05) = true := by decide +kernel

/-- R130: an I8 sum that saturates. -/
theorem test_vector_saturates :
    after (exec (.vaddSat 3 1 (.imm 100) t) ((vec .i8 1).setV 1 100)) (fun u => lane (u.v 3) 8 0 == 127) = true := by decide +kernel

/-- R148, R150, R166, R167: weights, an arm with no element, a loop that makes no pass. -/
theorem test_arms :
    let s := ((vec .fp32 2).setW 1 0x40008000).setW 2 0x80004000
    after (exec (.wmul 3 1 2 t) s) (fun u => lane (u.w 3) 16 0 == 0x4000 && lane (u.w 3) 16 1 == 0x4000) = true ∧
    after (exec (.wset 3 (.imm 0x9000) t) s) (fun u => lane (u.w 3) 16 1 == 0x8000) = true ∧
    after (exec (.arm 1 4 t) s) (fun u => u.act.pc == 0x40000088 && (u.act.arms.map (·.run.toNat)) == [3]) = true ∧
    after (exec (.arm 4 4 t) s) (fun u => u.act.pc == 0x400000A0 && u.act.arms.length == 1) = true ∧
    after (exec (.armend t) s) (fun u => u.act.csr.code == 0x0D && u.act.csr.tval == 2) = true ∧
    after (exec (.wloop 1 0 4 t) s) (fun u => u.act.pc == 0x400000A0 && u.act.loop == none) = true := by decide +kernel

/-- R171, R175, R180, R185: a store and the loads after it, a misaligned load, a full-empty load that waits, an atomic. -/
theorem test_memory :
    let s := gs user 0x40000200 0x1FFFFF000000000 0xFFFFFFFFFFFFFF85 0
    after (exec (.st32 3 1 4 .plain t) s)
      (fun u => u.mem.read 0x40000204 == 0x85 && u.mem.read 0x40000207 == 0xFF && u.mem.read 0x40000208 == 0 &&
        after (exec (.ld8 5 1 4 .plain t) u) (fun v => v.g 5 == 0xFFFFFFFFFFFFFF85) &&
        after (exec (.ldz16 5 1 4 .plain t) u) (fun v => v.g 5 == 0xFF85) &&
        after (exec (.ld64 5 1 1 .plain t) u) (fun v => v.act.csr.code == 0x0A && v.act.csr.tval == 0x40000201)) = true ∧
    after (exec (.ld64 5 2 0 .fe t) s) (fun u => u.act.hold == some (.fe (2 ^ 52) true) && u.act.pc == 0x40000080) = true ∧
    after (exec (.st64 3 2 0 .fe t) s) (fun u => after (exec (.ld64 5 2 0 .fc t) u)
      (fun v => v.g 5 == 0xFFFFFFFFFFFFFF85 && v.full.isEmpty)) = true ∧
    after (exec (.amoMaxu true 5 1 3 t) s) (fun u => u.g 5 == 0 && u.mem.read 0x40000203 == 0xFF && u.mem.read 0x40000204 == 0) = true := by
  decide +kernel

/-- R176: strided elements come in order; a fault names its element (R172). -/
theorem test_vector_memory :
    let s := (gs (vec .i32 2) 0x40000200 8 0x40000202 0).setV 1 (lanes32 [11, 22])
    after (exec (.vsts 1 1 2 .plain 0 t) s) (fun u => u.mem.read 0x40000200 == 11 && u.mem.read 0x40000208 == 22 &&
      after (exec (.vlds 2 1 2 .plain 0 false t) u) (fun v => lane (v.v 2) 32 0 == 11 && lane (v.v 2) 32 1 == 22)) = true ∧
    after (exec (.vld 2 3 0 .plain 0 false t) s)
      (fun u => u.act.csr.code == 0x0A && u.act.csr.vstart == 0 && u.act.csr.vpend && u.act.pc == 0x40000088) = true := by decide +kernel

/-- R182, R191, R193, R288: the full-empty range, a stream, a copy posted, an operation list that is not aligned, counters. -/
theorem test_units :
    let s := gs { user with parts := user.parts.upd 0 Part.absent fun p => { p with record := { p.record with ctrLast := 99, schedBud := 1 } } }
      0x1FFFFF000000000 32 0x40000200 5
    after (exec (.feset 1 2 t) s) (fun u => u.full == [2 ^ 48, 2 ^ 48 + 1]) = true ∧
    after (exec (.strm 24 3 2 t) s) (fun u => (u.act.streams.map (·.1)) == [24] &&
      after (exec (.strmx 24 t) u) (fun v => v.act.streams.isEmpty)) = true ∧
    after (exec (.cpy 3 3 2 0 t) s) (fun u => (u.engines.map (·.2.st)) == [.running] && u.act.pc == 0x40000088) = true ∧
    after (exec (.gath 3 3 4 0 t) s) (fun u => u.act.csr.code == 0x0A && u.act.csr.tval == 5) = true ∧
    after (exec (.dcset 4 2 t) s) (fun u => (u.ctr 5).count == 32 &&
      after (exec (.dcdec 4 4 t) u) (fun v => (v.ctr 5).count == 27)) = true := by decide +kernel

/-- R307 to R309, R315 to R317. -/
theorem test_leat_and_barriers :
    let s := (gs (vec .i32 2) 2 0 0 0).setV 1 (lanes32 [7, 8, 9])
    after (exec (.lput 1 t) s) (fun u => after (exec (.lget 2 t) u) (fun v => lane (v.v 2) 32 1 == 8 && lane (v.v 2) 32 2 == 0) &&
      after (exec (.lfree 5 t) u) (fun v => v.g 5 == 15)) = true ∧
    after (exec (.lget 2 t) s) (fun u => u.act.wait == some .lget) = true ∧
    after (exec (.bari .core 3 1 t) s) (fun u => after (exec (.barr .core 3 t) u) (fun v => v.act.arrivals.length == 1 &&
      after (exec (.barw .core 3 t) v) (fun w => w.act.wait.isSome))) = true ∧
    after (exec (.barr .core 3 t) s) (fun u => u.act.csr.code == 0x12 && u.act.csr.tval == 1) = true := by decide +kernel

/-- R206 to R208, R217, R224, R225 and the queries of a mill core (R11). -/
theorem test_matrix :
    let s := (gs (vec .fp32 4) 1 0 0 0).onAct fun a => { a with hdr := { a.hdr with slots := 4 } }
    let s := s.setV 1 (lanes32 [0x3F800000, 0x40000000, 0, 0])
    after (exec (.mclaim 5 2 t) s) (fun u => u.g 5 == 0 && (u.act.mat.slots.map (·.1)) == [0, 1] &&
      after (exec (.mclaim 5 3 t) u) (fun v => v.act.csr.code == 0x0F && v.act.csr.tval == 1)) = true ∧
    after (exec (.mclaim 5 2 t) user) (fun u => u.act.csr.code == 0x0F && u.act.csr.tval == 8) = true ∧
    after (exec (.kset 2 1 t) s) (fun u => after (exec (.ktst 5 2 1 t) u) (fun v => v.g 5 == 1)) = true ∧
    after (exec (.msmode true 0 t) s) (fun u => u.act.mat.op && u.act.mat.mvl == 8) = true ∧
    after (exec (.mwrz 2 1 1 t) s) (fun u => lane (u.z 2) 32 (cellAt 1 1) == 0x40000000) = true ∧
    after (exec (.qstat 5 1 t) s) (fun u => u.act.csr.code == 0x01) = true := by decide +kernel

/-- R271, R274, R275: a wait that has no time, one that has, fewer clusters, yielding. -/
theorem test_waits :
    let s := gs user 1000 2 0 0
    after (exec (.sleep 0 t) s) (fun u => u.act.pc == 0x40000088) = true ∧
    after (exec (.sleep 1 t) s) (fun u => u.act.wait == some (.sleep 3300) && u.act.pc == 0x40000088 && u.act.posted.length == 1) = true ∧
    after (exec (.grant 5 2 t) s) (fun u => u.g 5 == 2 && u.act.clMap == 3) = true ∧
    after (exec (.yield t) s) (fun u => u.act.life == .stopping) = true ∧ after (exec (.halt t) s) (fun u => u.act.life == .halted) = true := by
  decide +kernel

/-- R398: CLAIM of a vacant device, and of one that is owned. -/
theorem test_claim :
    let s : State := { State.reset with mgmt := { Mgmt.reset with up := true, mailbox := [(1, .claim), (2, .claim)] } }
    after (exec (.claim 1) s) (fun u => u.mgmt.owner == .owned 1 && u.mgmt.answers == [(1, .ok)] &&
      after (exec (.claim 2) u) (fun v => v.mgmt.answers == [(1, .ok), (2, .denied)])) = true := by decide +kernel

/-- The first instruction after a program is placed (log entry 13): `add g5, g0, 4`, and `vfma` with its literal word. -/
theorem test_step :
    after (step (State.reset.withFetchWord 64 0x0010280000100000)) (fun u => u.g 5 == 4 && u.act.pc == 0x40000088) = true ∧
    after (step (State.reset.withFetchWord 128 0x800000003DCCCCCD0E90088200000002)) (fun u => u.act.pc == 0x40000090) = true := by
  decide +kernel

/-! For each statement, states and operands that meet its hypotheses; one for each clause that has conditions of its own. -/

/-- The check of an access: allowed 0, refused with a cause 1, stalled 2. -/
def chk (c : Chk × State) : Nat := match c.1 with | .ok _ => 0 | .bad _ => 1 | .stall _ => 2
/-- An access that is allowed at a location and leaves the state as it was. -/
def okAt (s : State) (a : Nat) (c : Chk × State) : Bool := match c.1 with | .ok (.at_ x _) => x == a && c.2 == s | _ => false
/-- The first value of a pair is a result. -/
def okE {ε α : Type} (c : Except ε α × State) : Bool := match c.1 with | .ok _ => true | _ => false
/-- The translation of the one page is cached. -/
def warm (s : State) : State := (s.access 0x40000200 8 8 .read false false).2
/-- A control strand whose frame is occupied, with posted work or with none. -/
def framed (l : List Posted) : State := (ofPriv .control).onAct fun a => { a with frame := some { spc := 0, posted := l } }
/-- An arm pair at depth 1. -/
def arm0 : Arm :=
  { wreg := 1, wth := 0, armB := false, outer := 3, run := 3, pruned := 0, window := [], stores := 0, counted := none }
/-- With arm pairs and a loop. -/
def armed (s : State) (l : List Arm) (p : Option SoftLoop) : State := s.onAct fun a => { a with arms := l, loop := p }
/-- A soft loop whose record is at an address. -/
def loopAt (pc : Word) (depth : Nat) : SoftLoop := { addr := pc, wreg := 1, bound := 4, pass := 1, wth := 0, live := 3, depth := depth }
/-- The partition of the acting strand, changed. -/
def withPart (s : State) (f : PartRec → PartRec) : State :=
  { s with parts := s.parts.upd 0 Part.absent fun p => { p with record := f p.record } }

theorem witness_IntegerArithmetic : Ready user ∧ user.srcOk (.reg 0) = true := ⟨ready_of (by decide +kernel), by decide +kernel⟩

def sInt : State := gs user (BitVec.intMin 64) (BitVec.allOnes 64) 7 0
theorem witness_IntegerDivision : Ready sInt ∧ sInt.srcOk (.reg 4) = true ∧ sInt.srcInt (.reg 4) = 0 ∧
    (sInt.g 1 = BitVec.intMin 64 ∧ sInt.srcInt (.reg 2) = BitVec.allOnes 64) ∧ sInt.srcInt (.reg 3) ≠ 0 :=
  ⟨ready_of (by decide +kernel), by decide +kernel⟩

theorem witness_BitFunctions : Ready user := ready_of (by decide +kernel)

theorem witness_SourcesAndRegisters : user.act.cb.length ≤ (0 : BitVec 8).toNat := by decide +kernel

theorem witness_FloatArithmetic : Ready user ∧ user.srcOk (.lit 1) = true := ⟨ready_of (by decide +kernel), by decide +kernel⟩

def sFlt : State := gs user 0x7FC00000 0x7F800000 0xFF800000 0x3F800000
def fval (r : Reg) : FVal := FVal.ofBits (FloatFmt.ofFFmt .fp32) ((sFlt.g r).toNat % 2 ^ 32)
theorem witness_FloatSpecialCases : Ready sFlt ∧ (fval 1).isNaN = true ∧ fval 2 = .inf false ∧ fval 3 = .inf true ∧ (fval 2).isInf = true ∧
    (fval 0).isZero = true ∧ (match fval 4 with | .fin _ m _ => m != 0 | _ => false) = true :=
  ⟨ready_of (by decide +kernel), by decide +kernel⟩

theorem witness_FloatCompareAndConvert : Ready user ∧ user.srcOk (.reg 1) = true ∧ Fmt.np ∈ [Fmt.np, .bfa24] ∧ Fmt.i32 ∉ [Fmt.np, .bfa24] :=
  ⟨ready_of (by decide +kernel), by decide +kernel⟩

theorem witness_ControlTransfer : Ready user := ready_of (by decide +kernel)

theorem witness_CsrsAndVectorLength : Ready user ∧ Ready (ofPriv .control) ∧ user.act.priv = .user ∧ (ofPriv .control).act.priv ≠ .user ∧
    Csr.epc ∈ [Csr.epc, .cause, .tval, .status] ∧ Csr.ecnt3 ∈ [Csr.vstart, .mstart, .ecnt0, .ecnt1, .ecnt2, .ecnt3] ∧
    Csr.cyc ∈ [Csr.vl, .vtype, .grant, .fid, .mvl, .mmode, .cyc] ∧ user.act.csr.pprv ≠ 3 ∧
    (user.onCsr fun c => { c with reproLock := true }).act.csr.reproLock = true :=
  ⟨ready_of (by decide +kernel), ready_of (by decide +kernel), by decide +kernel⟩

theorem witness_TrapsAreTaken : Ready user ∧ Ready (ofPriv .firmware) ∧ Ready (ofPriv .control) ∧ Ready (framed []) ∧
    user.act.priv = .user ∧ (ofPriv .firmware).act.priv = .firmware ∧
    ((ofPriv .control).act.priv = .control ∧ (ofPriv .control).act.frame = none) ∧
    ((framed []).act.priv = .control ∧ (framed []).act.frame.isSome = true) :=
  ⟨ready_of (by decide +kernel), ready_of (by decide +kernel), ready_of (by decide +kernel), ready_of (by decide +kernel), by decide +kernel⟩

theorem witness_TrapInstructionAndReturn : Ready user ∧ Ready (ofPriv .control) ∧ Ready (framed []) ∧ Ready (framed [user.asPosted]) ∧
    ((framed [user.asPosted]).act.csr.vpend = false ∧ ((framed [user.asPosted]).onCsr fun c => { c with vpend := true }).act.csr.vpend = true) ∧
    (ofPriv .control).act.frame = none ∧ (framed [user.asPosted]).act.frame = some { spc := 0, posted := [user.asPosted] } :=
  ⟨ready_of (by decide +kernel), ready_of (by decide +kernel), ready_of (by decide +kernel), ready_of (by decide +kernel), by decide +kernel⟩

def sWait : State := gs user 0x40000200 1000 1001 0
theorem witness_StoppingAndWaiting : Ready user ∧ Ready (armed user [arm0] none) ∧ Ready (armed user [] (some (loopAt 0 0))) ∧
    (armed user [arm0] none).act.arms ≠ [] ∧ (armed user [] (some (loopAt 0 0))).act.loop.isSome = true ∧
    (user.act.arms = [] ∧ user.act.loop = none ∧ user.act.life = .running) ∧
    (sWait.act.resume = none ∧ sWait.act.late = none ∧ sWait.act.posted = [] ∧ sWait.act.woke = none ∧ sWait.act.prog = Progress.none) ∧
    (sWait.g 0).toInt ≤ 0 ∧ 0 < (sWait.g 2).toInt ∧ (sWait.g 3).toNat % 8 ≠ 0 ∧
    chk (sWait.access (sWait.g 1).toNat 8 8 .read false false) = 0 ∧ chk (sWait.access (sWait.g 0).toNat 8 8 .read false false) = 1 ∧
    (sWait.onAct fun a => { a with woke := some 0 }).act.woke.isSome = true :=
  ⟨ready_of (by decide +kernel), ready_of (by decide +kernel), ready_of (by decide +kernel), by decide +kernel⟩

def sGate : State := gs (withPart (ofPriv .control) fun r => { r with quads := 1 }) 3 2 0 0
theorem witness_GrantAndGate : Ready user ∧ Ready sGate ∧ Ready (ofPriv .control) ∧ Ready (ofPriv .firmware) ∧
    (sGate.act.priv = .control ∧ (sGate.part sGate.act.part).record.quads.getLsbD 0 = true ∧ (sGate.g 0).getLsbD 1 = false) ∧
    ((sGate.g 1).getLsbD 1 = true ∧ (sGate.g 2).getLsbD 1 = true ∧ sGate.act.core ≠ 2 * 0 + 1 ∧ (sGate.onAct fun a => { a with core := 1 }).act.core = 2 * 0 + 1 ∧
      (let u := sGate.gateRequest 0 true; (u.core 1).lost = false ∧ (u.pair 0).gate ≠ .gated) ∧ ((sGate.gateRequest 0 false).pair 0).gate = .on) ∧
    ((sGate.onCore 1 fun x => { x with lost := true }).core (2 * 0 + 1)).lost = true ∧
    ((ofPriv .control).part 0).record.quads.getLsbD 0 = false :=
  ⟨ready_of (by decide +kernel), ready_of (by decide +kernel), ready_of (by decide +kernel), ready_of (by decide +kernel), by decide +kernel⟩

theorem witness_TranslationInstructions : Ready user ∧ Ready (gs (ofPriv .control) 1 31 32 (2 ^ 57)) ∧ Ready (gs (ofPriv .firmware) 1 31 32 0) ∧
    (let s := gs (ofPriv .control) 1 31 32 (2 ^ 57)
     (s.g 1).toNat ≠ s.act.part ∧ (s.g 0).toNat = s.act.part ∧ 2 ^ 57 ≤ (s.g 4).toNat) ∧
    (let s := gs (ofPriv .firmware) 1 31 32 0
     s.act.priv = .firmware ∧ (s.g 2).toNat < 32 ∧ 32 ≤ (s.g 3).toNat) ∧
    (let s := ofPriv .control
     (s.flushReqs (· == 0)).asksOwners (· == 0) = false) ∧
    (let s : State := { ofPriv .control with engines := [(3, { opOf .running (.gath 0 0 0 3 1) with out := [{ owner := 9, elems := [] }] })] }
     (s.flushReqs (· == 0)).asksOwners (· == 0) = true) :=
  ⟨ready_of (by decide +kernel), ready_of (by decide +kernel), ready_of (by decide +kernel), by decide +kernel⟩

def slotAdd : Slot := { rop := 0, d := 3, a := 3, i := true, imm := 1 }
def slotMul : Slot := { rop := 0x12, d := 3, a := 3, i := false, imm := 0 }
def slotLoad : Slot := { rop := 0x20, d := 4, a := 3, i := true, imm := 1 }
theorem witness_PairWordSlots : Ready user ∧ Ready (vec .np 4) ∧ (slotAdd.rop = 0 ∧ slotAdd.d ≠ { slotAdd with d := 4 }.d) ∧
    (vec .np 4).slotCombo slotMul = true ∧ (vec .np 4).slotCombo slotAdd = false ∧
    (user.slotCombo slotAdd = false ∧ user.slotCombo slotLoad = false ∧ trapR (user.slot slotLoad) = true ∧ okR (user.slot slotAdd) = true) ∧
    (match user.slot slotAdd with | .ok _ u => trapR (({ u with act := user.act } : State).slot slotLoad) | _ => false) = true :=
  ⟨ready_of (by decide +kernel), ready_of (by decide +kernel), by decide +kernel⟩

/-- Register v1 is bound to a stream of 16 bytes. -/
def sBound : State := (vec .i32 3).onAct fun a => { a with streams := [(1, { base := 0x40000200, len := 16, pos := 0, ahead := [] })] }
theorem witness_VectorArithmetic : Ready (vec .i32 3) ∧ Ready sBound ∧ sBound.srcOk (.reg 2) = true ∧
    ((sBound.act.streams.get? 1).isSome = true ∧ (sBound.act.streams.get? 2).isSome = false) ∧
    (match State.deliverAll (fun j => (sBound.actives t).contains j) [] ([(1 : Reg), 2].map sBound.req) sBound with
     | .ok (none, _) _ => true | _ => false) = true ∧ (vec .i32 3).srcOk (.imm 1) = true ∧ (vec .i32 3).act.streams = [] ∧
    fmtInt (vec .i32 3).fmt = true ∧ fmtFloat (vec .fp32 3).fmt = true ∧ (vec .np 3).fmt = .np ∧ fmtInt (vec .uq15 3).fmt = false ∧
    fmtFloat (vec .uq15 3).fmt = false := ⟨ready_of (by decide +kernel), ready_of (by decide +kernel), by decide +kernel⟩

theorem witness_VectorFusedAndUnary : Ready (vec .bf16 3) ∧ (vec .bf16 3).srcOk (.reg 1) = true ∧ (vec .bf16 3).act.streams = [] ∧
    (vec .bf16 3).fmt ≠ .bfa24 := ⟨ready_of (by decide +kernel), by decide +kernel⟩

theorem witness_MasksFromVectors : Ready (vec .u8 3) ∧ (vec .u8 3).srcOk (.reg 1) = true ∧ (vec .u8 3).act.streams = [] ∧
    (vec .u8 3).fmt ≠ .bfa24 := ⟨ready_of (by decide +kernel), by decide +kernel⟩

theorem witness_VectorConvert : Ready (vec .np 3) ∧ (vec .np 3).act.streams = [] ∧
    (let s := vec .np 3
     let regs (q : Fmt) := s.cvtGroup q + if q = .np then 1 else 0
     ¬(31 + regs .np ≤ 32) ∧ (30 + regs .np ≤ 32 ∧ 31 + regs .bf16 ≤ 32 ∧ cvtPair .bf16 .np = true) ∧ cvtPair .bfa24 .fp32 = false ∧
     regs .bfa24 ≤ 32 ∧ s.vl ≤ regs .bf16 * s.perReg (fmtWidth .bf16) ∧ s.active t 2 = true) :=
  ⟨ready_of (by decide +kernel), by decide +kernel⟩

theorem witness_VectorReductions : Ready (vec .i16 3) ∧ Ready (vec .fp32 0) ∧ (vec .i16 3).act.streams = [] ∧ fmtInt (vec .i16 3).fmt = true ∧
    fmtFloat (vec .fp32 0).fmt = true ∧ (vec .fp32 0).actives t = [] := ⟨ready_of (by decide +kernel), ready_of (by decide +kernel), by decide +kernel⟩

theorem witness_VectorRandomAndPermute : Ready (vec .u32 3) ∧ (vec .u32 3).srcOk (.reg 1) = true ∧ (vec .u32 3).act.streams = [] ∧
    (vec .u32 3).fmt ≠ .bfa24 := ⟨ready_of (by decide +kernel), by decide +kernel⟩

theorem witness_WeightInstructions : Ready (vec .fp32 3) ∧ (vec .fp32 3).srcOk (.imm 1) = true ∧ (vec .fp32 3).act.streams = [] ∧
    (vec .fp32 3).fmt ≠ .bfa24 ∧ floatOf (vec .fp32 3).fmt = some fp32 ∧ fmtFloat (vec .i32 3).fmt = false :=
  ⟨ready_of (by decide +kernel), by decide +kernel⟩

theorem witness_ArmPairs : Ready (armed user [arm0, arm0, arm0, arm0] none) ∧ Ready user ∧ Ready (armed user [arm0] (some (loopAt 0 1))) ∧
    Ready (armed user [{ arm0 with armB := true }] none) ∧ Ready (armed user [arm0] none) ∧
    4 ≤ (armed user [arm0, arm0, arm0, arm0] none).act.arms.length ∧ (armed user [arm0, arm0, arm0] none).act.arms.length < 4 ∧
    (armed user [arm0] (some (loopAt 0 1))).act.loop = some (loopAt 0 1) ∧ (2 : WReg) ≠ arm0.wreg ∧ (1 : WReg) = arm0.wreg :=
  ⟨ready_of (by decide +kernel), ready_of (by decide +kernel), ready_of (by decide +kernel), ready_of (by decide +kernel),
    ready_of (by decide +kernel), by decide +kernel⟩

/-- An arm pair in arm B whose window holds one store of a byte by element 0 of arm A. -/
def arm1 : Arm :=
  { arm0 with armB := true, window := [{ armB := false, elems := [0], va := 0x40000200, loc := 0x40000200, data := [1], store := 0,
                                         block := none, weight := 0x8000 }] }
def sArm (l : List Arm) : State := armed ((vec .fp32 2).setW 1 0x80008000) l none
theorem witness_ArmEnd : Ready (sArm [arm1]) ∧ Ready (sArm [{ arm0 with armB := true }]) ∧ Ready (sArm [arm1, { arm0 with stores := 64 }]) ∧
    Ready (sArm [arm1, { arm0 with stores := 63 }]) ∧ (sArm [arm1]).act.loop = none ∧
    ((armed (sArm [arm1]) [arm1] (some (loopAt 0 0))).act.loop = some (loopAt 0 0) ∧ (loopAt 0 0).depth ≠ [arm1].length) ∧ arm1.armB = true ∧
    (let s := sArm [arm1]
     let live := s.survivors arm1
     live.length = 1 ∧ okR (s.retranslate ((live.filter fun p => !p.1.armB) ++ live.filter fun p => p.1.armB)) = true ∧ 64 < 64 + (live.map fun p => p.1.store).eraseDups.length ∧
     63 + (live.map fun p => p.1.store).eraseDups.length ≤ 64) :=
  ⟨ready_of (by decide +kernel), ready_of (by decide +kernel), ready_of (by decide +kernel), ready_of (by decide +kernel), by decide +kernel⟩

theorem witness_JoinsAndSoftLoops : Ready (vec .fp32 2) ∧ Ready (vec .i32 2) ∧ Ready (armed user [] (some (loopAt 0x40000080 0))) ∧
    Ready (armed user [] (some (loopAt 0x40000078 0))) ∧ (vec .fp32 2).act.streams = [] ∧ fmtFloat (vec .i32 2).fmt = false ∧
    floatOf (vec .fp32 2).fmt = some fp32 ∧ (29 : Reg).toNat ≤ 29 ∧ (vec .fp32 2).act.loop = none ∧
    (loopAt 0x40000080 0).addr = user.act.pc ∧ (loopAt 0x40000078 0).addr ≠ user.act.pc ∧
    (loopAt 0x40000078 0).addr = user.act.pc + 8 * (0x7FFF : BitVec 15).signExtend 64 :=
  ⟨ready_of (by decide +kernel), ready_of (by decide +kernel), ready_of (by decide +kernel), ready_of (by decide +kernel), by decide +kernel⟩

theorem witness_MemoryWrite : user.mem.wf = true ∧ 127 % 128 + [1#8].length ≤ 128 := by decide +kernel

/-- Bytes written to memory. -/
def poke (s : State) (a : Nat) (bs : List Byte) : State := { s with mem := s.mem.writeL a bs }
/-- The page is a tensor of 4 planes (R328, R421). -/
def npPage (s : State) : State :=
  poke (poke (withPart s fun r => { r with nptab := 0x5000 }) 0x3008 (leBytes 8 0x4000031F)) 0x5000
    (leBytes 8 0x40000200 ++ leBytes 8 0x40020000 ++ leBytes 4 1)

/-- The page lies on package 1. -/
def far (s : State) : State := { poke s 0x3008 (leBytes 8 0x100004000001F) with dom := { Dom.reset with members := [0, 1] } }
/-- What an access waits for is a line of another package. -/
def asksFar (c : Chk × State) : Bool := match c.1 with | .stall (.far _) => true | _ => false

def sLd : State := gs { user with full := [2 ^ 48] } 0x1FFFFF000000000 0x1FFFFF000000010 0x40000203 0x40000200
theorem witness_ScalarLoads : Ready sLd ∧ (sLd.g 3 + (1 : BitVec 13).signExtend 64).toNat % 8 ≠ 0 ∧
    chk (sLd.access 0 8 8 .read false false) = 1 ∧ chk (sLd.access (sLd.g 4).toNat 8 8 .read false false) = 0 ∧
    (chk (sLd.access (sLd.g 1).toNat 8 8 .read true false) = 0 ∧ sLd.isFull (2 ^ 52) = true) ∧
    (chk (sLd.access (sLd.g 2).toNat 8 8 .read true false) = 0 ∧ sLd.isFull (2 ^ 52 + 16) = false) ∧
    asksFar ((far sLd).access (sLd.g 4).toNat 8 8 .read false false) = true :=
  ⟨ready_of (by decide +kernel), by decide +kernel⟩

theorem witness_ScalarStores : Ready sLd ∧ (sLd.g 3 + (0 : BitVec 13).signExtend 64).toNat % 8 ≠ 0 ∧
    chk (sLd.access 0 8 8 .write false false) = 1 ∧ chk (sLd.access (sLd.g 4).toNat 8 8 .write false false) = 0 ∧
    (chk (sLd.access (sLd.g 1).toNat 8 8 .write true false) = 0 ∧ sLd.isFull (2 ^ 52) = true) ∧
    (chk (sLd.access (sLd.g 2).toNat 8 8 .write true false) = 0 ∧ sLd.isFull (2 ^ 52 + 16) = false) ∧
    (sLd.access (sLd.g 4).toNat 8 8 .write false false).2.mem.wf = true ∧ 0x40000200 % 128 + 8 ≤ 128 ∧
    (let s : State := { sLd with dom := { sLd.dom with hostLines := [0x40000200 / 128] } }
     chk (s.access (s.g 4).toNat 8 8 .write false false) = 2) :=
  ⟨ready_of (by decide +kernel), by decide +kernel⟩

/-- One element. -/
def sVecCold : State := gs (vec .i32 1) 0x40000200 0x40000400 0 0
/-- The same, its translation cached. -/
def sVec : State := warm sVecCold
/-- Four planes, one element. -/
def sNp : State := npPage (gs (vec .np 1) 0x40000200 0 0 0)
theorem witness_VectorLoads : Ready sVec ∧ Ready sNp ∧ sVec.act.streams = [] ∧ sNp.act.streams = [] ∧ sVec.act.arms = [] ∧ sVec.flight = [] ∧
    sVec.actives t = [0] ∧ okAt sVec 0x40000200 (sVec.access (sVec.g 1).toNat 4 4 .read false false) = true ∧
    sVec.readSync (sVec.coreDie sVec.act.core) 0x40000200 = sVec ∧ okR (sVec.loadElems 2 .plain (fun x i => unitAddr (sVec.g 1) x.sew i) [0]) = true ∧
    (sNp.fmt = .np ∧ (30 : Reg).toNat ≤ 30 ∧ sNp.actives t = [0] ∧ okR (sNp.loadNp 30 0x40000200 .plain 4 false [0]) = true ∧
      sNp.act.arms = [] ∧ sNp.vl ≠ 0 ∧ (sNp.g 1 + (1 : BitVec 13).signExtend 64).toNat % 8 ≠ 0) ∧
    sVec.fmt ≠ .np := ⟨ready_of (by decide +kernel), ready_of (by decide +kernel), by decide +kernel⟩

/-- An append record with room for one word, and one with none (R202). -/
def sApp : State := poke (poke sVec 0x40000200 (leBytes 8 0x40000800 ++ leBytes 8 0x40000804)) 0x40000400 (leBytes 8 0x40000804 ++ leBytes 8 0x40000804)
/-- Two elements, and a scratchpad's address. -/
def sPad : State := gs (vec .i32 2) 0x01FFFFF000000000 0x01FFFFF000000020 8 0
def padPlace (g : Nat) : Nat := 2 ^ 48 + (g - 0x01FFFFF00000000)
/-- A word of the scratchpad: the access passes whatever memory and the dies hold. -/
theorem access_pad (y : State) (hc : y.act.core = 0) (hp : y.poison = []) (va : Nat) (h4 : va % 4 = 0) (h0 : 0x01FFFFF000000000 ≤ va) (h1 : va < 0x01FFFFF000200000) :
    y.access va 4 4 .write false false = (.ok (.at_ (16 * padPlace (va / 16) + va % 16) none), y) := by
  have hr : inRegion va = true := by
    rw [inRegion, Bool.and_eq_true, decide_eq_true_eq, decide_eq_true_eq]; omega
  have ha : 16 * padPlace (va / 16) + va % 16 = padBase (pairOf 0) + (va - 0x01FFFFF000000000) := by
    have e : padBase (pairOf 0) = 4503599627370496 := rfl
    have f : padPlace (va / 16) = 281474976710656 + (va / 16 - 0x01FFFFF00000000) := rfl
    omega
  have hq : isPad (padBase (pairOf 0) + (va - 0x01FFFFF000000000)) = true := by
    rw [isPad, decide_eq_true_eq, padBase]; omega
  have hx : ∀ a n w, y.poisonHit a n w = false := by simp [State.poisonHit, hp, NSet.has]
  have h57 : ¬ 2 ^ 57 ≤ va := by omega
  have h21 : va - 0x01FFFFF000000000 < 2 ^ 21 := by omega
  have hk : y.check y.act.core y.act.part va 4 4 .write false false = (.ok (.at_ (padBase (pairOf 0) + (va - 0x01FFFFF000000000)) none), y) := by
    simp only [State.check, hc, h4, hr, hx, h57, h21]; simp
  rw [State.access, hk, ha]
  simp only [hq]; simp [Kind.reads]
theorem pad_access (va : Nat) (h : va ∈ [0x01FFFFF000000000, 0x01FFFFF000000004, 0x01FFFFF000000008]) (m : Memory) (ds : NMap Die) (fl : List Batch)
    (lk : Links) (n : Nat) :
    let y : State := { sPad with mem := m, dies := ds, flight := fl, links := lk, freeCount := n }
    y.access va 4 4 .write false false = (.ok (.at_ (16 * padPlace (va / 16) + va % 16) none), y) := by
  have hc : sPad.act.core = 0 := by decide +kernel
  have hp : sPad.poison = [] := by decide +kernel
  have h3 : va % 4 = 0 ∧ 0x01FFFFF000000000 ≤ va ∧ va < 0x01FFFFF000200000 := by
    simp only [List.mem_cons, List.not_mem_nil, or_false] at h
    omega
  intro y
  exact access_pad y hc hp va h3.1 h3.2.1 h3.2.2
theorem pad_unit : ∀ j ∈ [0, 1], (sPad.g 1 + BitVec.ofNat 64 (j * 4)).toNat ∈ [0x01FFFFF000000000, 0x01FFFFF000000004, 0x01FFFFF000000008] := by
  decide +kernel
theorem pad_stride : ∀ j ∈ [0, 1], (sPad.g 1 + BitVec.ofNat 64 j * sPad.g 3).toNat ∈ [0x01FFFFF000000000, 0x01FFFFF000000004, 0x01FFFFF000000008] := by
  decide +kernel
theorem witness_VectorStores_bytes : Ready sPad ∧ sPad.mem.wf = true ∧ sPad.fmt ≠ .np ∧ sPad.act.arms = [] ∧ sPad.act.streams = [] ∧
    sPad.actives t = [0, 1] ∧
    (∀ j ∈ [0, 1], ∀ y : State, y = { sPad with mem := y.mem, dies := y.dies, flight := y.flight, links := y.links, freeCount := y.freeCount } →
      ∃ lf : Option TlbEntry, (∀ e, lf = some e → e.hostShared = false) ∧
        y.access (sPad.g 1 + BitVec.ofNat 64 (j * 4)).toNat 4 4 .write false false =
          (.ok (.at_ (16 * padPlace ((sPad.g 1 + BitVec.ofNat 64 (j * 4)).toNat / 16) + (sPad.g 1 + BitVec.ofNat 64 (j * 4)).toNat % 16) lf), y)) ∧
    (∀ j ∈ [0, 1], ∀ y : State, y = { sPad with mem := y.mem, dies := y.dies, flight := y.flight, links := y.links, freeCount := y.freeCount } →
      ∃ lf : Option TlbEntry, (∀ e, lf = some e → e.hostShared = false) ∧
        y.access (sPad.g 1 + BitVec.ofNat 64 j * sPad.g 3).toNat 4 4 .write false false =
          (.ok (.at_ (16 * padPlace ((sPad.g 1 + BitVec.ofNat 64 j * sPad.g 3).toNat / 16) + (sPad.g 1 + BitVec.ofNat 64 j * sPad.g 3).toNat % 16) lf), y)) := by
  refine ⟨ready_of (by decide +kernel), by decide +kernel, by decide +kernel, by decide +kernel, by decide +kernel, by decide +kernel, ?_, ?_⟩
  · intro j hj y hy
    rw [hy]
    exact ⟨none, by simp, pad_access _ (pad_unit j hj) y.mem y.dies y.flight y.links y.freeCount⟩
  · intro j hj y hy
    rw [hy]
    exact ⟨none, by simp, pad_access _ (pad_stride j hj) y.mem y.dies y.flight y.links y.freeCount⟩

theorem witness_VectorStores : Ready sVec ∧ Ready sNp ∧ Ready (vec .i32 0) ∧ sVec.act.streams = [] ∧ sNp.act.streams = [] ∧
    okR (sVec.storeElems 2 .plain (fun y i => unitAddr (sVec.g 1) y.sew i) [0]) = true ∧
    okR (sVec.storeElems 2 .plain (fun y i => strideAddr (y.g 1) (y.g 2) i) [0]) = true ∧
    okR (sVec.storeElems 2 .plain (fun y i => indexAddr (y.g 1) y.sew (lane (y.v 3) y.sew i)) [0]) = true ∧
    okR (sNp.storeNp t 30 0x40000200 .plain 4 false false [0]) = true ∧ okR (sNp.storeNp t 30 0x40000200 .plain 4 true true [0]) = true ∧
    ((vec .i32 0).actives t = [] ∧ (vec .i32 0).act.arms = []) ∧ sApp.act.prog.reserved = none ∧
    ((vec .np 0).actives t = [] ∧ (vec .np 0).vl = 0 ∧ (vec .np 0).act.arms = []) ∧
    (sNp.vl ≠ 0 ∧ sNp.act.arms = [] ∧ (sNp.g 1 + (1 : BitVec 13).signExtend 64).toNat % 8 ≠ 0) ∧
    (match sApp.reserve (sApp.g 1).toNat 4 4 with
     | (.ok (.got y), u) => okR (State.append { u with act := { u.act with prog := { u.act.prog with reserved := some (y, 0) } } } t 3 y 0 [0]) && decide (y + 4 < 2 ^ 64)
     | _ => false) = true ∧
    (match sApp.reserve (sApp.g 2).toNat 4 4 with | (.ok .full, _) => true | _ => false) = true ∧
    (match (poke sApp 0x40000200 [1]).reserve (sApp.g 1).toNat 4 4 with | (.ok (.misaligned _), _) => true | _ => false) = true ∧
    (match (far (gs (vec .i32 1) 0x40000200 0 0 0)).reserve 0x40000200 4 4 with | (.stall (.home _ _), _) => true | _ => false) = true :=
  ⟨ready_of (by decide +kernel), ready_of (by decide +kernel), ready_of (by decide +kernel), by decide +kernel⟩

theorem witness_ScalarAtomics : Ready sLd ∧ chk (sLd.access (sLd.g 3).toNat 8 8 .atomic false false) = 1 ∧
    chk (sLd.access (sLd.g 4).toNat 8 8 .atomic false false) = 0 ∧
    ([sLd, far sLd].all fun s => match s.access (s.g 4).toNat 8 8 .atomic false false with
      | (.ok l, u) => u.far l.addr == (s.dom.members == [0, 1]) | _ => false) = true ∧
    (let s : State := { sLd with dom := { sLd.dom with hostLines := [0x40000200 / 128] } }
     chk (s.access (s.g 4).toNat 8 8 .atomic false false) = 2) ∧
    (let z := (far sLd).onAct fun a => { a with prog := { Progress.none with errand := some { tag := 5, home := 9, answer := some ([7], none) } } }
     match z.access (z.g 4).toNat 8 8 .atomic false false with | (.ok l, u) => u.far l.addr | _ => false) = true :=
  ⟨ready_of (by decide +kernel), by decide +kernel⟩

/-- The first value is a result. -/
def okG {α : Type} (c : Get α × State) : Bool := match c.1 with | .ok _ => true | _ => false
/-- The first value is a fault. -/
def isBad {α : Type} (c : Get α × State) : Bool := match c.1 with | .bad _ _ => true | _ => false
theorem witness_VectorAtomicsAndBlocks : Ready sVec ∧ Ready (gs (vec .fp32 1) 0x40000200 0 0 0) ∧ sVec.act.streams = [] ∧
    sVec.fmt = .i32 ∧ (vec .i32 0).actives t = [] ∧ sVec.actives t = [0] ∧
    okG (sVec.amoAt (sVec.g 1).toNat 4 .add 1 1) = true ∧ isBad (sVec.amoAt 0x40000201 4 .add 1 1) = true ∧ sVec.fmt ≠ .fp32 ∧ isBad (sVec.bfaLoc .atomic 1) = true ∧
    (match (far sVecCold).amoAt 0x40000200 4 .add 1 1 with | (.stall (.home _ _), _) => true | _ => false) = true ∧ isBad (sVec.bfaLoc .look 1) = true ∧
    (let s := gs (vec .fp32 1) 0x40000200 0 0 0
     s.fmt = .fp32 ∧ s.actives t ≠ [] ∧ (sPad.g 1).toNat % 256 = 0 ∧ 0x01FFFFF000000000 ≤ (sPad.g 1).toNat ∧ (sPad.g 1).toNat < 0x01FFFFF000200000 ∧ okG (s.bfaLoc .atomic (s.g 1).toNat) = true ∧ okG (s.bfaLoc .look (s.g 1).toNat) = true ∧
     ([Kind.atomic, .look].all fun k => match (far s).bfaLoc k (s.g 1).toNat with | (.ok l, u) => u.far l | _ => false) = true ∧
     ([Kind.atomic, .look].all fun k => match s.bfaLoc k (s.g 1).toNat with | (.ok l, u) => !u.far l | _ => false) = true) :=
  ⟨ready_of (by decide +kernel), ready_of (by decide +kernel), by decide +kernel⟩

/-- Operations of the acting strand that run. -/
def busy (n : Nat) : State :=
  { user with engines := (List.range n).map fun k => (k, { user.newOp (.cpy 0 0 16) none with st := .running }), nextOp := n }
theorem witness_Fences : Ready user ∧ Ready (busy 1) ∧ user.enginesBusy = false ∧ (busy 1).enginesBusy = true :=
  ⟨ready_of (by decide +kernel), ready_of (by decide +kernel), by decide +kernel⟩

def sFe : State := gs user 0x1FFFFF000000000 32 0x1FFFFF000000001 0x40000200
def sStrm : State := sFe.onAct fun a => { a with streams := [(24, { base := 0, len := 16, pos := 0, ahead := [] })] }
theorem witness_FullEmptyStreamsStashes : Ready sFe ∧ Ready sStrm ∧ (sFe.g 3).toNat % 16 ≠ 0 ∧
    ((sFe.g 4).toNat % 16 = 0 ∧ (sFe.g 2).toNat % 16 = 0 ∧ (sFe.g 2).toNat ≠ 0 ∧ ¬(0x01FFFFF000000000 ≤ (sFe.g 4).toNat)) ∧
    (0x01FFFFF000000000 ≤ (sFe.g 1).toNat ∧ (sFe.g 1).toNat + (sFe.g 2).toNat ≤ 0x01FFFFF000200000 ∧ NSet.rising sFe.full = true) ∧
    (sStrm.act.streams.get? 24).isSome = true ∧ sFe.act.streams.get? 24 = none ∧ (sFe.g 2).toNat ≤ 2 ^ 40 ∧ 2 ^ 40 < (sFe.g 1).toNat ∧ 2 ^ 32 < (sFe.g 4).toNat * 8 ∧
    (sFe.g 0).toNat = 0 ∧ okR (eachLine (fun line s => s.bring true line) (linesOf 0x40000200 32) sFe) = true ∧
    okR (eachLine (fun line s => s.lineAct .write line fun _ u => u) (linesOf 0x40000200 32) sFe) = true :=
  ⟨ready_of (by decide +kernel), ready_of (by decide +kernel), by decide +kernel⟩

/-- Counters 0 to 99; a counter word for counter 5 and one for 100. -/
def sEng : State := gs (withPart user fun r => { r with ctrLast := 99 }) 0x40000200 0x10005 0x10064 0x8000000040000200
/-- What the look at the shape record of a copy answers, the state being as it was. -/
def shapeIs (s : State) (job : EngJob) (x : Option Nat) : Bool := match s.badShape job with | (.ok y, u) => y == x && u == s | _ => false
theorem witness_EngineInstructions : Ready sEng ∧ Ready (busy 16) ∧ (busy 16).engineRoom 0 = false ∧ sEng.engineRoom 0 = true ∧
    (wordCtr (sEng.g 3) = some 100 ∧ sEng.ownCtr 0 100 = false) ∧ (wordCtr (sEng.g 2) = some 5 ∧ sEng.ownCtr 0 5 = true) ∧
    shapeIs sEng (.cpy 0 0 16) none = true ∧ ((sEng.g 1).getLsbD 63 = false ∧ (sEng.g 1).toNat % 16 = 0 ∧ (sEng.g 2).toNat % 16 ≠ 0) ∧
    ((sEng.g 4).getLsbD 63 = true ∧ (sEng.g 4).toNat % 64 = 0) ∧ CollKind.rs ≠ .ag ∧ Fmt.bf16 ∈ [Fmt.i32, .i64, .fp32, .bf16] ∧
    ((busy 1).watches 0 1).any (fun k => !k.ended) = true ∧
    (let s : State := { busy 1 with engines := (busy 1).engines.map fun o => (o.1, { o.2 with st := .failed }) }
     (s.watches 0 1).all (·.ended) = true ∧ ((s.watches 0 1).find? (·.failed)).isSome = true) ∧
    (busy 1).watches 0 2 = [] ∧ shapeIs (busy 1) (.cpy 0 0 (2 ^ 63 + 0x40000200)) (some 0x40000200) = true ∧
    (match (far (busy 1)).badShape (.cpy 0 0 (2 ^ 63 + 0x40000200)) with | (.error (.far _), _) => true | _ => false) = true :=
  ⟨ready_of (by decide +kernel), ready_of (by decide +kernel), by decide +kernel⟩

/-- A graph record with one node of 64 bytes at 0x40000200, a node record at 0x40000400 (R283, R284). -/
def sQueue : State :=
  poke (poke (withPart sEng fun r => { r with schedBud := 1 }) 0x40000200 (leBytes 4 1 ++ leBytes 2 1 ++ leBytes 2 1 ++ leBytes 8 0 ++ leBytes 8 0x40000400 ++ leBytes 8 0x40000800 ++
    leBytes 4 64)) 0x40000400 (leBytes 8 0x40010000 ++ leBytes 2 1)
theorem witness_MillraceInstructions : Ready sQueue ∧ Ready sEng ∧ Ready (sOp (opOf .posted collJob)) ∧
    (∃ o ∈ (sOp (opOf .posted collJob)).engines, o.2.sid = (sOp (opOf .posted collJob)).act.sid ∧ o.2.st = .posted) ∧
    (sEng.engines = [] ∧ sEng.budgetLeft sEng.act.part = false) ∧ (sQueue.engines = [] ∧ sQueue.budgetLeft sQueue.act.part = true) ∧
    ((sQueue.g 1).toNat % 64 = 0 ∧ (sQueue.g 2).toNat % 64 ≠ 0 ∧ (sQueue.g 2).toNat % 2 ^ 17 ≥ 2 ^ 16 ∧
      sQueue.ownCtr 0 ((sQueue.g 2).toNat % 2 ^ 16) = true ∧ sQueue.ownCtr 0 ((sQueue.g 3).toNat % 2 ^ 16) = false) ∧
    ((sQueue.ctr 5).st = .idle ∧ sQueue.mill.ctrs.rising = true) ∧
    (match (sQueue.bringAlong (sQueue.coreDie sQueue.act.core) sQueue.millDie).agentRead sQueue.millDie 0 0x40000400 128 with
     | (.ok bs, u) => !nodeBad bs && (u.gateTrap 0).isNone && (nodeOf 0 0x40000400 bs).succ.isEmpty | _ => false) = true ∧
    (match (sQueue.bringAlong (sQueue.coreDie sQueue.act.core) sQueue.millDie).agentRead sQueue.millDie 0 0x40000800 128 with | (.ok bs, _) => nodeBad bs | _ => false) = true ∧
    (match (sQueue.bringAlong (sQueue.coreDie sQueue.act.core) sQueue.millDie).agentRead sQueue.millDie 0 0x40000200 64 with
     | (.ok bs, u) => (graphOf bs).nn == 1 && (graphOf bs).plen == 64 && okR (u.patch 0x40000800 0x40000200 7) | _ => false) = true ∧
    (graphOf (sQueue.bytesAt 0 0x40000200 64)).plen ≤ (sQueue.g 2 + 59).toNat % 2 ^ 16 ∧
    ([(sQueue, 128), (sQueue, 64), (far sQueue, 128), (far sQueue, 64)].all fun x =>
      match x.1.agentRead x.1.millDie 0 0x40000400 x.2 with
      | (.ok _, u) => (x.1.missing u).isNone && x.1.dom.members != [0, 1]
      | (.error _, u) => (x.1.missing u).isSome && x.1.dom.members == [0, 1]) = true :=
  ⟨ready_of (by decide +kernel), ready_of (by decide +kernel), ready_of (by decide +kernel), ⟨_, List.mem_cons_self .., rfl, rfl⟩, by decide +kernel⟩

/-- A node of the acting strand: at a tier, with members. -/
def nodeRun (tier : Tier) (members : List (Nat × Nat)) : NodeRun :=
  { nodeOf 0 0x40000400 [] with tier := tier, members := members, st := .running }
def sNode (tier : Tier) (ms : List (Nat × Nat)) : State :=
  { (vec .i32 2).onMill fun m => { m with nodes := [(0, nodeRun tier ms)] } with
    parked := [{ user.act with sid := 7, core := 8, index := 1 }] }
/-- Entries in the Leat of pair 0. -/
def sLeat (n len : Nat) : State := (vec .i32 2).onPair 0 fun p =>
  { p with leat := List.replicate n { data := 0, len := len, fmt := .i32, ok := 0xFFFF, poison := false } }
theorem witness_GroupsAndLeat : Ready (sNode .core [(0, 0)]) ∧ Ready (sNode .stack [(0, 0), (7, 8)]) ∧ Ready (sLeat 16 8) ∧
    (sNode .core []).act.streams = [] ∧ (sNode .core [(0, 0)]).node? 0 = some (nodeRun .core [(0, 0)]) ∧
    (tierRank .core ≤ tierRank .pair ∧ tierRank .quad < tierRank .stack) ∧
    ((nodeRun .stack [(0, 0), (7, 8)]).members.find? fun m => m.1 == (vec .i32 2).act.sid) = some (0, 0) ∧
    ((sNode .core [(0, 0)]).arriveSplit .core 0).1.isSome = true ∧ ((sNode .stack [(0, 0), (7, 8)]).arriveSplit .stack 0).1 = none ∧
    (((vec .i32 2).onCore 1 fun x => { x with lost := true }).core 1).lost = true ∧
    ((sLeat 16 8).core 1).lost = false ∧ (sLeat 16 8).leatFree 0 = 0 ∧ 0 < (sLeat 15 8).leatFree 0 ∧
    ((vec .i32 2).pair 0).leat = [] ∧ 256 * (sLeat 1 2049).act.clusters < 2049 ∧ 2048 ≤ 256 * (sLeat 1 2048).act.clusters :=
  ⟨ready_of (by decide +kernel), ready_of (by decide +kernel), ready_of (by decide +kernel), by decide +kernel⟩

/-- A barrier object of core 0, index 3, and pending arrivals. -/
def sBar (b : Barrier) (l : List Arrival) : State :=
  (user.setBarrier (user.barrierOf .core 3) b).onAct fun a => { a with arrivals := l }
def openB (arr : Nat) : Barrier := { isOpen := true, n := 2, arr := arr, gen := 4 }
def mineA (i : Nat) (gen : BitVec 32) : Arrival := { tier := .core, unit := 0, idx := i, gen := gen }
/-- Package 2 of a domain whose home is package 0, with packages lost. -/
def sDom (lost : NSet) (l : List Msg) : State :=
  { withPart user fun r => { r with domBar := 8 } with
    dom := { Dom.reset with pkg := 2, members := [0, 2], lost := lost }, links := { Links.reset with inbox := l } }
theorem witness_Barriers : Ready (sDom [0] []) ∧ Ready (sDom [] []) ∧ Ready (sBar (openB 0) []) ∧ Ready (sBar (openB 1) [mineA 3 4]) ∧
    user.ownsBarrier .domain 3 = false ∧ (user.ownsBarrier .core 3 = true ∧ user.homeLost .core = false ∧ user.farBarrier .core = false) ∧
    ((sDom [0] []).ownsBarrier .domain 3 = true ∧ (sDom [0] []).homeLost .domain = true) ∧
    ((sDom [] []).ownsBarrier .domain 3 = true ∧ (sDom [] []).homeLost .domain = false ∧ (sDom [] []).farBarrier .domain = true) ∧ (barrierCap .core < 9 ∧ 8 ≤ barrierCap .core) ∧
    ((sBar (openB 1) []).barrier (user.barrierOf .core 3) = openB 1 ∧ 0 < (openB 1).arr) ∧
    (let here (e : Arrival) : Bool := e.tier == .core && e.unit == unitOf .core user.act.core && e.idx == 3
     [mineA 3 4].any here = true ∧ [mineA 2 4].any here = false ∧ [mineA 3 4].find? here = some (mineA 3 4)) ∧
    4 ≤ [mineA 0 0, mineA 1 0, mineA 2 0, mineA 4 0].length ∧ (user.barrier (user.barrierOf .core 3)).isOpen = false ∧
    ((openB 1).arr + 1 = (openB 1).n ∧ (openB 0).arr + 1 ≠ (openB 0).n) ∧ ((openB 0).gen = (mineA 3 4).gen ∧ (openB 0).gen ≠ (mineA 3 3).gen) ∧
    ([0, 1].all fun k => let w : Word := BitVec.ofNat 64 (2 ^ 40 + 8 + k)
      w.getLsbD 40 && w.getLsbD 0 == (k == 1) && w.extractLsb' 1 32 == (4 : BitVec 32)) = true ∧
    (let e (gen : BitVec 32) : Arrival := { tier := .domain, unit := 0, idx := 3, gen := gen }
     let here (x : Arrival) : Bool := x.tier == .domain && x.unit == unitOf .domain 0 && x.idx == 3
     [e 4].find? here = some (e 4) ∧ [e 3].find? here = some (e 3) ∧ [e 0].find? here = some (e 0) ∧ (BitVec.ofNat 64 (2 ^ 40 + 1)).extractLsb' 1 32 = (0 : BitVec 32) ∧ ((sDom [] []).barrier ((sDom [] []).barrierOf .domain 3)).gen = 0) :=
  ⟨ready_of (by decide +kernel), ready_of (by decide +kernel), ready_of (by decide +kernel), ready_of (by decide +kernel), by decide +kernel⟩

/-- A strand that holds the matrix engine, with two slots of one run. -/
def sMatCold : State := (gs (vec .fp32 64) 0 0x40000200 0x40000400 0x40000401).onAct fun a => { a with
  hdr := { a.hdr with slots := 4 }
  mat := { a.mat with slots := [(0, { st := .filled, run := 0, image := 0, poison := [] }), (1, { st := .empty, run := 0, image := 0, poison := [] }),
    (3, { st := .filled, run := 3, image := 0, poison := [7] })] } }
/-- The same, its translation cached. -/
def sMat : State := warm sMatCold
/-- The same on a sail core. -/
def onSail (s : State) : State := s.onAct fun a => { a with core := 1, mat := { a.mat with mvl := 32 } }
theorem witness_MatrixModesAndSlots : Ready user ∧ Ready sMat ∧ Ready (onSail sMat) ∧ sMat.act.csr.mpend = false ∧ user.act.hdr.slots = 0 ∧
    (8 * 2 ^ (3 : BitVec 2).toNat = 64 ∧ (onSail sMat).act.core % 2 = 1) ∧ sMat.act.hdr.slots ≠ 0 ∧ sMat.act.mat.seq ≠ .suspended ∧
    16 < (17 : BitVec 6).toNat ∧ sMat.act.hdr.slots < sMat.act.mat.slots.length + 3 ∧
    (sMat.act.mat.slots.length + 1 ≤ sMat.act.hdr.slots ∧ ∀ i, i < 1 → sMat.act.mat.slots.get? (2 + i) = none) ∧
    sMat.act.mat.slots.get? 2 = none ∧ (sMat.act.mat.slots.get? 1).map (·.run) = some 0 ∧ sMat.act.mat.slots.rising = true ∧
    (sMat.g 2).toNat % 128 = 0 ∧ (sMat.g 4).toNat % 128 ≠ 0 ∧ sMat.flight = [] ∧
    ((List.range 65).all fun l => sMat.readSync (sMat.coreDie sMat.act.core) (0x40000200 + 128 * l) == sMat) = true ∧
    ((List.range 65).all fun l => okAt sMat (0x40000200 + 128 * l)
      (sMat.access (0x40000200 + 128 * l) (min 128 (8256 - 128 * l)) 1 .read false false)) = true :=
  ⟨ready_of (by decide +kernel), ready_of (by decide +kernel), ready_of (by decide +kernel), by decide +kernel⟩

theorem witness_MatrixTiles : Ready sMat ∧ sMat.act.csr.mpend = false ∧ sMat.act.hdr.slots ≠ 0 ∧ sMat.act.mat.seq ≠ .suspended ∧
    sMat.act.mat.mvl ≤ 64 ∧ sMat.fmt = .fp32 ∧ (vec .bf16 2).fmt ≠ .fp32 ∧ sMat.act.streams = [] ∧ sMat.flight = [] ∧
    (sStrm.act.streams.get? 24).isSome = true ∧ (sMat.g 4).toNat % 32 ≠ 0 ∧
    okAt sMat 0x40000200 (sMat.access (sMat.g 2).toNat 32 32 .read false false) = true ∧
    sMat.readSync (sMat.coreDie sMat.act.core) 0x40000200 = sMat :=
  ⟨ready_of (by decide +kernel), by decide +kernel⟩

/-- A latched weight tile, and the outer-product mode. -/
def latched (q : Fmt) : State := sMat.onMat fun m =>
  { m with latch := some { fs := { fmt := q, nm1 := 0, km1 := 0, rhu := false }, image := 0 } }
def outer : State := sMat.onMat fun m => { m with op := true }
theorem witness_MatrixProducts : Ready sMat ∧ Ready outer ∧ Ready (latched .bf16) ∧ sMat.act.csr.mpend = false ∧ sMat.act.hdr.slots ≠ 0 ∧
    sMat.act.mat.seq ≠ .suspended ∧ sMat.act.streams = [] ∧ Fmt.i16 ∉ [Fmt.np, .bf16, .fp16, .i8] ∧ outer.act.mat.op = true ∧
    (sMat.act.mat.op = false ∧ sMat.act.mat.slots.get? (sMat.g 2).toNat = none) ∧
    (sMat.act.mat.slots.get? 1).map (·.st) = some .empty ∧ (sMat.act.mat.slots.get? (sMat.g 1).toNat).map (·.st) = some .filled ∧
    ((sMat.act.mat.slots.get? 3).map (·.poison) = some [7]) ∧ (vec .np 0).vl = 0 ∧ (vec .bf16 1).vl % 64 ≠ 0 ∧ (sMat.vl % sMat.act.mat.mvl = 0 ∧ 0 < sMat.act.mat.mvl ∧ sMat.act.mat.mvl ≤ 64) ∧
    sMat.act.mat.latch = none ∧ sMat.fmt ∈ [Fmt.np, .fp32, .bf16, .fp16, .i8] ∧ wsCombo .i8 .bf16 = false ∧ wsCombo .bf16 .bf16 = true :=
  ⟨ready_of (by decide +kernel), ready_of (by decide +kernel), ready_of (by decide +kernel), by decide +kernel⟩

/-- A store record of FP32, one cell, with room up to `limit` (R218); and a sequence record of `nw` words `mzero z0` (R221). -/
def recBytes (limit fail : Nat) : List Byte :=
  leBytes 8 0 ++ leBytes 1 0xA ++ leBytes 7 0 ++ leBytes 8 0x40000800 ++ leBytes 8 limit ++ leBytes 8 0 ++ leBytes 8 fail
def seqBytes (nw count : Nat) : List Byte :=
  leBytes 1 nw ++ leBytes 1 1 ++ leBytes 6 0 ++ leBytes 4 count ++ leBytes 244 0 ++ leBytes 8 (full 0x9D 0 0 0 0 0 0 0).toNat ++
    leBytes 8 (full 0x9D 0 0 0 0 0 0 0).toNat ++ leBytes 496 0
def sSeq (st : SeqSt) (nw count : Nat) : State :=
  poke (sMat.onMat fun m => { m with seq := st, seqRec := seqBytes nw count }) 0x40000400 (recBytes 0x40000900 0)
theorem witness_TileStoresAndSequencer : Ready (sSeq .empty 1 1) ∧ Ready (sSeq .suspended 1 1) ∧ Ready (sSeq .defined 1 1) ∧
    (sSeq .empty 1 1).act.csr.mpend = false ∧ (sSeq .empty 1 1).act.hdr.slots ≠ 0 ∧ (sMat.g 3).toNat % 64 = 0 ∧ (sMat.g 4).toNat % 64 ≠ 0 ∧
    (match (sSeq .empty 1 1).elemRead .read 0x40000400 64 64 .plain false with
     | (.ok bs, s1) => (match storeRec s1.mvl s1.rmode bs with | some x => okR (State.storeRows 0x40000200 0 x (List.range x.rows) s1) | none => false)
     | _ => false) = true ∧
    (match (sSeq .empty 1 1).elemRead .read 0x40000200 64 64 .plain false with
     | (.ok bs, s1) => (storeRec s1.mvl s1.rmode bs).isNone | _ => false) = true ∧
    chk ((sSeq .empty 1 1).access 0x40000400 64 64 .atomic false false) = 0 ∧
    ([sMatCold, far sMatCold].map fun s => match s.access 0x40000400 64 64 .atomic false false with | (.ok l, u) => some (u.far l.addr) | _ => none) = [some false, some true] ∧
    (let s := sSeq .empty 1 1
     match storeRec s.mvl s.rmode (s.bytesAt 0 0x40000400 64) with
     | some x => !x.fail.testBit 63 && decide (x.next + (s.tileImage 0 x.fmt x.mode).1.length ≤ x.limit) &&
         decide (0x40000800 < x.next + (s.tileImage 0 x.fmt x.mode).1.length) &&
         okR ((s.reservedAt (some (x.next, packStore x.fmt x.mode))).writeImage 0 0 x.next x.fmt x.mode 0)
     | none => false) = true ∧
    (2 ^ 63).testBit 63 = true ∧ seqBad (seqBytes 1 1) = none ∧ (seqBad (seqBytes 0 1)).isSome = true ∧
    (match State.readPieces 0x40000200 12 (sSeq .empty 1 1) with | (.ok _, _) => true | _ => false) = true ∧
    (sSeq .empty 1 1).act.mat.seq = .empty ∧ (sSeq .suspended 1 1).act.mat.seq = .suspended ∧ (sSeq .defined 1 1).act.mat.seq = .defined ∧
    seqCount (seqBytes 1 0) 0 = 0 ∧
    (match seqOp (seqWordAt (seqBytes 2 1) 0) with | some op => okR (State.seqExec (sSeq .defined 2 1) op) | none => false) = true ∧
    seqSkip (seqBytes 2 1) [0] 0 0 = false ∧ 1 < recNat (seqBytes 2 1) 0 1 ∧ recNat (seqBytes 1 1) 0 1 ≤ 1 ∧ nextVec [0] [1] = none :=
  ⟨ready_of (by decide +kernel), ready_of (by decide +kernel), ready_of (by decide +kernel), by decide +kernel⟩

theorem fresh_of {s : State} (h : (s.act.resume = none ∧ s.act.woke = none ∧ s.act.late = none ∧ s.budget = none ∧
    s.act.prog = Progress.none) ∧ s.act.csr.vstart = 0 ∧
    s.act.csr.vpend = false) : Fresh s := ⟨ready_of h.1, h.2.1, h.2.2⟩
/-- A tensor, a parameter record of zeros and a state array. -/
def sOpt : State := npPage (gs (vec .fp32 1) 0x40000200 0x40010000 0x40011000 0x40000201)
theorem witness_OptimiserAndSparsity : Fresh sOpt ∧ Fresh (vec .bf16 9) ∧ Fresh (vec .fp32 0) ∧ sOpt.act.streams = [] ∧ sOpt.fmt = .fp32 ∧
    (sOpt.actives t = [0] ∧ blocksOf sOpt.vl [0] = [0]) ∧ (vec .fp32 0).actives t = [] ∧ (vec .bf16 9).fmt = .bf16 ∧
    (match sOpt.optOpen 4 2 with | (.bad _ _, _) => true | _ => false) = true ∧
    (match sOpt.optOpen 1 2 with
     | (.ok (tn, par), s1) =>
       okR (State.optBlocks { k := .sgd, t := tn, par := par, grad := 3, state := 0x40011000, act := [0] } none [0] none [] s1)
     | _ => false) = true := ⟨fresh_of (by decide +kernel), fresh_of (by decide +kernel), fresh_of (by decide +kernel), by decide +kernel⟩

def ctx0 (st : QSt) (sid : Nat) (terms : List QTerm) : QCtx :=
  { st := st, sid := sid, part := 0, core := 1, terms := terms, vec := none, area := 0x40001000, k := 1, ctr := none, epc := 0, order := 1
    err := 0, errAddr := 0, count := 0, lines := [], saved := [], unsaved := false }
def term0 (list : Nat) : QTerm := { list := list, weight := 1, role := .should }
/-- Contexts 0 of a strand on core 1. -/
def sQry (q : Option QCtx) : State :=
  let s := onSail (gs sEng 0x40001080 (2 ^ 16 + 5) (2 ^ 16 + 100) (2 ^ 17))
  match q with | some x => { s with queries := [(0, x)] } | none => s
theorem witness_Queries : Ready user ∧ Ready (sQry none) ∧ Ready (sQry (some (ctx0 .building 0 []))) ∧ user.act.core % 2 = 0 ∧
    (sQry none).act.core % 2 = 1 ∧ (4 ≤ (sQry none).g 1 ∧ 3 < 4 ∧ 3 * 2 ^ 16 - 1 < 3 * 2 ^ 16) ∧
    ((sQry none).queries.get? 0 = none ∧ (sQry (some (ctx0 .building 7 []))).queries.get? 0 = some (ctx0 .building 7 []) ∧
      (ctx0 .building 7 []).sid ≠ (sQry none).act.sid ∧ (ctx0 .done 0 []).sid = (sQry none).act.sid ∧ (ctx0 .done 0 []).st ≠ .building) ∧
    16 ≤ (List.replicate 16 (term0 0)).length ∧ roleOf 2 = some .not ∧ ((sQry none).g 1).toNat % 128 = 0 ∧ ((sQry none).g 2).toNat % 128 ≠ 0 ∧
    (((sQry none).g 2).getLsbD 16 = true ∧ (sQry none).ownCtr 0 5 = true ∧ (sQry none).ownCtr 0 100 = false) ∧
    ((sQry none).g 4).getLsbD 17 = true ∧ 256 + 3 < 512 ∧
    (let s : State := { sQry (some (ctx0 .building 0 [term0 0])) with engines := [(3, opOf .posted collJob)] }
     s.engines.any (fun o => o.2.sid == s.act.sid && o.2.st == .posted) = true) :=
  ⟨ready_of (by decide +kernel), ready_of (by decide +kernel), ready_of (by decide +kernel), by decide +kernel⟩

/-- The acting strand in a wait, beside a parked one. -/
def waiting (w : Wait) : State := { user.onAct fun a => { a with wait := some w } with parked := [{ user.act with sid := 7, core := 8, index := 1 }] }
def splitDone : Split := { node := 0, tier := .core, unit := 0, arrived := [(0, 0, 1)] }
theorem witness_WaitsEnd :
    (user.onAct fun a => { a with woke := some 3 }).act.woke = some 3 ∧
    (let s := (sNode .core [(0, 0)]).onMill fun m => { m with splits := [splitDone] }
     s.mill.splits.find? (fun x => s.roundComplete (s.splitMembers x) x) = some splitDone ∧ (splitDone.arrived.map (·.1)).Nodup) ∧
    ((waiting (.sleep 5)).strand? 0).map (·.life) = some .running ∧
    ([.sleep 5, .waitt 0x40000200 1 5, .lput, .lget, .fe 0 true, .barrier .core 0 3 0, .barHome 3, .pgate 0 true, .engine, .issue, .budget,
        .ewait 1, .snoop 9].all fun w =>
      ((waiting w).strand? 0).map (·.wait) == some (some w) && (waiting w).act.hold.isNone) = true ∧
    ([.fe 0 true, .engine].all fun w => let s := user.onAct fun a => { a with hold := some w }
      (s.strand? 0).map (·.hold) == some (some w) && s.act.wait.isNone) = true ∧
    (let s := user.onAct fun a => { a with wait := some (.barrier .core 0 3 0), posted := [user.asPosted, { user.asPosted with wait := some .lput }] }
     (s.strand? 0).map (fun a => a.life == .running && (a.posted.map (·.wait)) == [none, some .lput] && a.hold.isNone) = some true) ∧
    (waiting (.sleep 5)).watched 0 0x40000200 ≠ 1 ∧ (waiting (.sleep 5)).watched 0 0x40000200 = 0 := by decide +kernel

/-- A copy of one granule. -/
def copyJob (dst src : Nat) : EngJob := .cpy dst src 16
/-- A collective of group g with P participants, which has them all. -/
def collAt (p g : Nat) : EngJob := .coll .ar .i32 0x40000200 0x40000400 16 0 p 9 g true
/-- A participant of two beside a block from package 1 with a P. -/
def sBlock (p : Nat) : State :=
  { sOp (opOf .running (.coll .ar .i32 0x40000200 0x40000400 32 0 2 9 3 false)) with
    links := { Links.reset with inbox := [.block 1 .ar .i32 p 32 9 1 0 false (List.replicate 16 5)] } }
/-- A gather of an element of 2^k bytes, sent to die 0. -/
def gathOf (k : Nat) (st : EngSt) : EngOp := { opOf st (.gath 0x40000200 0x40000400 0x40000600 k 1) with
  sent := 1, out := [{ owner := 0, elems := [{ idx := 0, srcVa := 0x40000400, dstVa := 0x40000200, src := 0x40000400, dst := 0x40000200, data := [] }] }] }
/-- A query that fails has written its header. -/
def okQ (r : Except State State) : Bool := match r with | .ok _ => true | .error _ => false
def moveIs (e : EngOp) (p : Move → Bool) : Bool := p ((sOp e).opMove e 0)
theorem witness_EngineAndQueryEvents :
    (sOp (opOf .posted collJob)).op? 3 = some (opOf .posted collJob) ∧ (16 : Word).getLsbD 63 = false ∧
    (((sOp (opOf .posted collJob)).collsOf 0).length < 64 ∧
      ((sOp (opOf .posted collJob)).engines.all fun o => o.2.st == .posted) = true) ∧
    64 ≤ (State.collsOf { user with engines := (List.range 64).map fun k => (k, opOf .running (collAt 2 k)) } 0).length ∧
    moveIs (opOf .running (copyJob 0x40000200 0x40000400)) (fun m => match m with | .put _ _ => true | _ => false) = true ∧
    moveIs { opOf .running (copyJob 0x40000200 0x40000400) with moved := [0] } (fun m => match m with | .finish => true | _ => false) = true ∧
    moveIs (opOf .running (copyJob 0 0)) (fun m => match m with | .bad c _ => c == .dataXlt | _ => false) = true ∧
    moveIs (opOf .running (copyJob 0x01FFFFF800000000 0x40000400)) (fun m => match m with | .bad c _ => c == .perm | _ => false) = true ∧
    (let e := opOf .running (copyJob 0x40000200 0x40000400)
     match (far (sOp e)).opMove e 0 with | .ask _ => true | _ => false) = true ∧
    (let e := opOf .running (.scat 0x40000200 0x40000400 0x40000600 3 2)
     e.sent < 2 ∧ (2 ^ 3 : Nat) < 16 ∧ { e with out := [{ owner := 0, elems := [] }] }.held = true) ∧
    user.gone 0 = false ∧ user.links.badTags.getD 9 0 = 0 ∧ user.links.inbox = [] ∧
    (let e := opOf .running collJob
     e.own = none ∧ okG ((sOp e).engRead 0 0 0x40000400 (collNeed .ar 16 1)) = true) ∧
    ([0, 2].all fun p => (sBlock p).links.inbox == [.block 1 .ar .i32 p 32 9 1 0 false (List.replicate 16 5)] &&
      (sBlock p).engines.all (fun o => match o.2.job with | .coll _ _ _ _ _ r _ _ _ _ => r == 0 && o.2.senders.isEmpty && o.2.got.isEmpty | _ => false) &&
      (sBlock p).engines.rising && partLen 32 2 0 == 16) = true ∧
    ([(3, EngSt.running), (3, .suspended), (4, .running)].all fun x =>
      let s := sOp (gathOf x.1 x.2)
      (gathOf x.1 x.2).out.all (fun r => r.owner / 8 == s.dom.pkg && r.elems.all fun y => !s.away y.src && !s.away y.dst && y.dst % 2 ^ x.1 == 0 &&
        !s.lent y.dst 16 && !s.poisonHit y.dst 16 false && !s.poisonHit y.src (2 ^ x.1) false)) = true ∧
    ({ sOp (gathOf 3 .running) with poison := [0x4000040] } : State).poisonHit 0x40000400 8 false = true ∧
    ({ sOp (gathOf 3 .running) with poison := [0x4000020] } : State).poisonHit 0x40000200 8 false = true ∧
    (let s := user.onAct fun a => { a with streams := [(24, { base := 0x40000200, len := 16, pos := 0, ahead := [] })] }
     (s.strand? 0).map (·.life) = some .running ∧ (s.act.streams.get? 24).isSome = true ∧
       (match s.leafOf 0 0 .read 0x40000200 with | (.ok f, _) => f.pl == 0 | _ => false) = true ∧
       (match s.engRead 0 0 0x40000200 16 with | (.ok _, u) => decide (u.strand? 0 = some s.act) | _ => false) = true) ∧
    (let s := sQry (some (ctx0 .queued 0 [term0 0]))
     s.queries.rising = true ∧ s.quadCtxs 0 .saved = [] ∧ s.quadCtxs 0 .queued = [(0, ctx0 .queued 0 [term0 0])] ∧ (s.quadCtxs 0 .running).length < 4) ∧
    (match (poke (sQry none) 0x40001080 [5, 0, 0, 0, 1, 0, 1, 1, 5, 0, 0, 0, 0, 0, 0, 0, 1]).qFinish 0 (ctx0 .running 0 [term0 0x40001080]) with
     | (.ok y, u) => !u.gone y.sid && y.count == 1 | _ => false) = true ∧
    (match (sQry none).qFinish 0 (ctx0 .running 0 [term0 128]) with | (.error (.suspend _), _) => true | _ => false) = true ∧
    (match (poke (sQry none) 0x40001080 [1]).qFinish 0 (ctx0 .running 0 [term0 0x40001080]) with
     | (.error (.fail err va), u) => !u.gone 0 && okQ (u.qFail? 0 (ctx0 .running 0 [term0 0x40001080]) err (BitVec.ofNat 64 va)) | _ => false) = true ∧
    (let x := { ctx0 .suspended 0 [term0 0x40001080] with err := 3 }
     okQ ((sQry (some x)).qFail? 0 x 3 0) = true ∧ (sQry (some x)).gone 0 = false) ∧
    okQ (State.qFail? { sQry none with dom := { Dom.reset with members := [0], hostLines := [0x40001000 / 128] } } 0 (ctx0 .running 0 [term0 0x40001080]) 3 0) = false := by
  decide +kernel


/-- A node of the ready pool with one strand, in queue 0. -/
def pooled : NodeRun := { nodeOf 0 0x40000400 [] with nstr := 1, verified := true, st := .ready }
/-- The acting strand changed, with nodes and a pool, in a partition that holds quad 0. -/
def sMill (nodes : NMap NodeRun) (pool : List Nat) (f : Strand → Strand) : State :=
  let s := withPart (user.onAct f) fun r => { r with quads := 1, schedBud := 1, ctrLast := 2000, faultArea := 0x40004000 }
  s.onMill fun m => { m with nodes := nodes, pool := pool, nextId := 100 }
/-- A queue word that is enabled with priority 7 for queue 1. -/
def prio7 (s : State) : State := withPart s fun r => { r with queues := r.queues.set 1 0xF }
/-- A life state of the acting strand. -/
def living (l : Life) : State := { (sMill [(0, nodeRun .core [(0, 0)])] [] fun a => { a with life := l }) with dom := { Dom.reset with members := [0, 1] } }
/-- Port 0 carries messages to package 1. -/
def routed (s : State) : State := { s with links := { s.links with routes := [(1, [0])], ports := [(0, { Port.reset with st := .up })] } }
/-- A record of the acting strand. -/
def rec0 (fw : Bool) : FaultRec :=
  { part := 0, owner := .strand 0, epc := 0, tval := 0, spc := 0, cause := 1, flags := if fw then 16 else 0, core := 0, strand := 0, vstart := 0, mstart := 0 }
/-- A reply counter that has fired, with a reply. -/
def sReply (act : Nat) : State :=
  poke ((living .trapped).onMill fun m => { m with slots := [(0, rec0 false)], ctrs := [(1, { count := 0, st := .fired, bound := none })] })
    0x40004038 (leBytes 8 act)
/-- A kernel that is resident. -/
def kern (ctrl : Bool) : Kernel := { base := 0x40010000, part := 0, ref := 0, hdr := { Header.zero with ctrl := ctrl, handler := 128 }, query := false }
/-- A spawned node that is not verified. -/
def spawned (k : Nat) : NodeRun := { pooled with st := .waiting, verified := false, kernel := k }
/-- A replay that is pending, its graph of one node at 0x40000200 with its kernel resident. -/
def rep0 : Replay :=
  { graph := 0x40000200, part := 0, core := 0, epc := 0, user := true, launch := 0, st := .pending, slot := 0, gen := 0, ctrs := [], kernels := [], errand := none }
def sReplay (version : Nat) : State :=
  let s := poke (poke (sMill [] [] fun a => a) 0x40000200 (leBytes 4 version ++ leBytes 2 1 ++ leBytes 2 1 ++ leBytes 8 0 ++ leBytes 8 0x40000400 ++
    leBytes 8 0x40000800 ++ leBytes 4 64 ++ leBytes 2 1000)) 0x40000400 (leBytes 8 0x80010000 ++ leBytes 2 1)
  s.onMill fun m => { m with replays := [(1, rep0)], kernels := [{ kern false with base := 0x80010000 }] }

theorem witness_StrandAndNodeEvents_dispatch : (let s := sMill [(5, pooled)] [5] fun a => a
    s.saveAway = s ∧ s.missing (s.dispatch 1) = none ∧ s.quadPart (quadOf 1) = some 0 ∧ (s.part 0).st = .running ∧ s.budgetLeft 0 = true ∧ pooled.members = [] ∧
    (match (List.range 8).reverse.findSome? fun p => (s.serve 0 1 p (List.range 16)).map fun r => (p, r) with
     | some (_, q, _) => (s.offer 0 1 (q % 16)).isSome | none => false) = true ∧
    (s.queueHead 0 0).isSome = true ∧ s.queuePrio 0 0 < 7) := by decide +kernel

theorem witness_StrandAndNodeEvents :
    (let s := prio7 (sMill [(0, nodeRun .core [(0, 0)]), (5, { pooled with queue := 1 })] [5] fun a => { a with clMap := 0xFF })
     ({ s with cores := (List.range 7).map fun k => (k + 1, { Core.reset with lost := true }) } : State).victim = some 0) ∧
    ([Life.running, .stopping, .trapped, .saved, .migrating].all fun l => ((living l).strand? 0).map (·.life) == some l) = true ∧
    ((living .saved).leatsEmpty 0 = true ∧ ((living .saved).strands.all fun b => b.life == .saved && b.arrivals.isEmpty && b.wait.isNone) = true) ∧
    (let s := living .migrating
     s.opsEnded 0 = true ∧ s.links.reels.get? 0 = none ∧ s.links.away.get? 0 = none ∧ (s.node? 0).isSome = true ∧ s.sameWay 0 (some 1) = true ∧
     (s.reelFits (nodeRun .core [(0, 0)]) 0 0 0 = true ∧ s.queriesFit 0 0 = true ∧ s.sameWay 0 none = true) ∧
     1 ≠ s.dom.pkg ∧ NSet.has 1 s.dom.members = true ∧ NSet.has 1 s.dom.lost = false ∧ s.links.inbox = [] ∧ s.links.held = [] ∧ s.act.asks = false ∧
     s.links.routes.getD 1 [] = [] ∧
      ((routed s).links.routes.getD 1 []).filter (fun p => ((routed s).port p).usable) = [0]) ∧
    (let s := (sMill [] [] fun a => a).onMill fun m => { m with updates := [(0, 5, 1)] }
     s.mill.updates = [(0, 5, 1)] ∧ 0 < (s.part 0).record.schedBud ∧ (s.ctr 5).st = .idle ∧ s.mill.ctrs.rising = true) ∧
    (rec0 true).toFirmware = true ∧ (rec0 false).toFirmware = false ∧
    ([true, false].all fun fw => let s := (sMill [] [] fun a => a).onMill fun m => { m with faults := [rec0 fw] }
      s.mill.faults.find? s.writable == some (rec0 fw)) = true ∧
    ([0, 1].all fun a => let s := sReply a
      s.mill.slots.get? 0 == some (rec0 false) && (s.strand? 0).map (·.life) == some .trapped &&
      (s.ctr ((s.part 0).record.ctrBase + 1)).st == .fired && !s.lacks s.millDie (s.part 0).record.faultArea && s.readSync s.millDie (s.part 0).record.faultArea == s &&
      field (s.bytesAt s.millDie (s.part 0).record.faultArea 64) 56 8 == a) = true ∧
    (let s := living .halted
     s.node? 0 = some (nodeRun .core [(0, 0)]) ∧ s.mill.nodes.rising = true ∧ s.nodeLive 0 = false ∧ (nodeRun .core [(0, 0)]).replay = none ∧
     s.missing (s.nodeComplete 0) = none ∧ (nodeRun .core [(0, 0)]).killed = false ∧ (nodeRun .core [(0, 0)]).due = [] ∧ ((s.performNode (nodeRun .core [(0, 0)])).addErrs (nodeRun .core [(0, 0)])).isSome = true) ∧
    (let s := (sMill [(5, spawned 1), (6, spawned 0x40010000)] [] fun a => a).onMill fun m => { m with kernels := [kern false] }
     s.mill.nodes.rising = true ∧ s.node? 5 = some (spawned 1) ∧ s.node? 6 = some (spawned 0x40010000) ∧ okE (s.verify 0 1 true) = false ∧
     okE (s.verify 0 0x40010000 true) = true ∧ s.missing (s.verify 0 1 true).2 = none ∧ s.missing (s.verify 0 0x40010000 true).2 = none) ∧
    (let s := (living .halted).onNode 0 fun x => { x with killed := true }
     (s.node? 0).map (·.killed) = some true ∧ s.missing (s.nodeComplete 0) = none) ∧
    ((user.onAct fun a => { a with life := .stopping, prog := { a.prog with errand := some { tag := 0, home := 9, answer := none } } }).act.asks = true) ∧
    (let s := (sMill [(5, { pooled with st := .outside })] [] fun a => a).onMill fun m => { m with outside := [5] }
     (s.mill.outside.find? fun n => match s.node? n with | some x => s.poolRoom x.part | none => false) = some 5) := by decide +kernel

/-- Replays of the same graph that hold a slot and a generation. -/
def held (s : State) (n : Nat) : State :=
  s.onMill fun m => { m with replays := [(1, rep0)] ++ (List.range n).map fun k => (k + 2, { rep0 with st := .live, slot := k, gen := k + 1 }) }
theorem witness_StrandAndNodeEvents_replay :
    ([0, 1].all fun v => let s := sReplay v
      s.mill.replays.get? 1 == some rep0 && s.mill.replays.rising &&
      match s.agentRead s.millDie 0 0x40000200 64 with
      | (.ok b, s1) => s1.dirty rep0 == 0 && s1.freeSlot 1 rep0 (max 1 (min 4 (graphOf b).nrep)) == some 0 && graphBad b == (v == 0) &&
        match s1.snapshot rep0 (graphOf b) with
        | (.ok _, s2) => (s.missing s2).isNone && (v == 0 || match s2.readNodes 0 (graphOf b).nodes (graphOf b).nn 0 with
          | (.ok ns, s3) =>
            match s3.readKernels true ns with
            | (.ok _, s4) => (s.missing s4).isNone && (List.range (graphOf b).nn).all fun i => s4.ownCtr 0 ((graphOf b).cbase + i) && !s4.faultCtr 0 ((graphOf b).cbase + i)
            | _ => false
          | _ => false)
        | _ => false
      | _ => false) = true ∧
    (held (sReplay 1) 1).freeSlot 1 rep0 1 = none ∧
    rep0.errand = none ∧ { rep0 with errand := some { tag := 0, home := 9, answer := some ([0], none) } }.errand ≠ none ∧
    (let s := poke (held (sReplay 1) 1) 0x40000208 [1]
     s.dirty rep0 ≠ 0 ∧ s.freeSlot 1 rep0 2 = some 1 ∧ s.genHeld 1 rep0 ((0 + 1) % 4) = true) := by decide +kernel

theorem witness_StepKeepsMemory : user.Inv ∧ user.agenda = [] ∧ user.act.canRun = true := ⟨by unfold State.Inv; decide +kernel, by decide +kernel⟩

theorem witness_EncodeAndDecodeAgree :
    (Instr.vadd 1 2 (.lit 7) t).wf = true ∧ (encode (Instr.vadd 1 2 (.lit 7) t)).isSome = true ∧
    needsLit (full 0x00 0 1 2 3 0 0 0) = false ∧ decode (full 0x00 0 1 2 3 0 0 0) none = .instr (.add 1 2 (.reg 3) t) := by decide +kernel

/-- Fetch answers, whatever the number of cycles that the tick counts: these bytes lie at the pc of a placed program. -/
def fetched (s : State) : Option (Word × Option Word) := match s.tick.fetch with | .ok w _ => some w | _ => none
def posted0 : Posted := { user.asPosted with word := full 0x38 0 1 2 3 0 0 0, lit := none }
/-- Posted work waits; the scalar part holds a word. -/
def sAhead (w : Word) : State :=
  (user.onAct fun a => { a with posted := [posted0], wait := some .lget, csr := { a.csr with vl := 1, vt := { fmt := .i32, np := 0 } } }).place
    (leBytes 8 w.toNat) |>.onAct fun a => { a with posted := [posted0], wait := some .lget }
theorem witness_StepRunsTheDecodedInstruction :
    user.agenda = [] ∧ user.unitEvent = none ∧ user.act.canRun = true ∧ user.act.posted = [] ∧
    (sOp (opOf .posted (copyJob 0x40000200 0x40000400))).unitEvent = some (.engineIssue 3) ∧
    (fetched (user.place (leBytes 8 (full 0x00 0 1 2 3 0 0 0).toNat)) = some (full 0x00 0 1 2 3 0 0 0, none) ∧
      fetched (user.place (leBytes 8 (full 0x00 0x3F 0 0 0 0 0 0).toNat)) = some (full 0x00 0x3F 0 0 0 0 0 0, none) ∧
      fetched (user.goto 0x40000081) = none) ∧
    ((far user).agenda = [] ∧ (far user).unitEvent = none ∧ (far user).act.canRun = true ∧
      (match (far user).tick.fetch with | .wait (.own (.far _)) _ => true | _ => false) = true) ∧
    ((user.onAct fun a => { a with posted := [{ posted0 with wait := some .lget }] }).act.canDrain = true) ∧
    ([(posted0, none), ({ posted0 with word := full 0x92 1 2 0 0 0 0 0 }, some Wait.lget)].all fun x =>
      let s := (vec .i32 1).onAct fun a => { a with wait := some (.barrier .core 0 3 0), posted := [posted0, x.1] }
      s.agenda == [] && s.unitEvent == none && s.act.canGo && s.act.atBarrier && s.act.pastBarrier x.1.word && x.1.wait == none &&
      match decode x.1.word x.1.lit with
      | .instr i =>
        let s0 := s.onAct fun a => { a with posted := [], wait := none, csr := { a.csr with vpend := false } }
        (match exec i (s0.begin x.1) with | .next u => !tookTrap s0 u && u.act.wait == x.2 && u.act.posted.isEmpty == x.2.isNone | _ => false)
      | _ => false) = true ∧
    decode (full 0x00 0 1 2 3 0 0 0) none = .instr (.add 1 2 (.reg 3) t) ∧ decode (full 0x00 0x3F 0 0 0 0 0 0) none = .bad .illegal ∧
    decode posted0.word posted0.lit = .instr (.vadd 1 2 (.reg 3) t) ∧
    (user.onAct fun a => { a with posted := [posted0] }).act.canDrain = true ∧
    (let s := sAhead (full 0x00 0 1 2 3 0 0 0)
     s.agenda = [] ∧ s.unitEvent = none ∧ s.act.canGo = true ∧ s.act.canDrain = false ∧ s.act.posted ≠ [] ∧ s.act.atBarrier = false ∧
     (match s.tick.fetch with
      | .ok w t =>
        let u : State := { t with ir := w }
        !u.mayPost && u.irAhead && !anyTrap u (exec (.add 1 2 (.reg 3) Tests.t) u) && !sendsAtomic (exec (.add 1 2 (.reg 3) Tests.t) u)
      | _ => false) = true) ∧
    (let s := sAhead (full 0x38 0 1 2 3 0 0 0)
     (match s.tick.fetch with
      | .ok w t => ({ t with ir := w } : State).mayPost
      | _ => false) = true) ∧
    ({ user with agenda := [.event .powerWindow] } : State).agenda = [.event .powerWindow] := by decide +kernel

/-- Messages that have arrived. -/
def sIn (l : List Msg) : State := { user with links := { user.links with inbox := l } }
/-- One write of a byte, and its batch. -/
def wr0 : Wr := { addr := 0x40000200, quad := 0, data := [some 7] }
def batch0 (d : Nat) (arrived : List Nat) : Batch :=
  { src := (homeDie 0x40000200 + 1) % 8, seq := 1, vec := [((homeDie 0x40000200 + 1) % 8, 1)], writes := [wr0], headed := arrived, arrived := arrived, applied := [d] }
def sFly (b : Batch) : State := { user with flight := [b] }
theorem witness_FabricEvents :
    (let s : State := { user with dies := [(0, { Die.reset with pending := [wr0] })] }
     0 ∈ s.allDies ∧ (s.dieAt 0).pending ≠ []) ∧
    (let s : State := { user with dom := { Dom.reset with members := [0, 1] } }
     9 ∈ s.allDies ∧ 9 / 8 ≠ s.dom.pkg) ∧
    (let d := homeDie 0x40000200
     let src := (d + 1) % 8
     d ∈ user.allDies ∧ (batch0 src [src]).here d = false ∧ (batch0 src [src]).src = src ∧
     (let s := sIn ((List.range 8).flatMap fun i => .batchHead (8 * 0 + i) 9 1 [(9, 1)] (i == d) :: if i == d then [.batchData (8 * 0 + i) 9 1 [wr0]] else [])
      d / 8 = s.dom.pkg ∧ 9 / 8 ≠ s.dom.pkg ∧ s.flight = [] ∧
        s.mayApply d { batch0 src [] with src := 9, vec := [(9, 1)], writes := [wr0], applied := [] } = true) ∧
     (let s := sFly (batch0 src [d])
      s.flight.find? (fun b => b.src == src && b.here d && s.mayApply d b) = some (batch0 src [d])) ∧
     (batch0 src [d]).writes = [wr0] ∧ homeDie wr0.addr = d ∧ user.mem.wf = true) ∧
    (let s := sIn [.read 3 9 0x40000200 8 [(3, 0)]]
     3 / 8 = s.dom.pkg ∧ s.flight = [] ∧ s.reaches 3 [(3, 0)] = true ∧ s.unreachable 0x40000200 = false ∧ s.unreachable (2 ^ 50) = true) ∧
    (let line := 0x40000200 / 128
     let s : State := { sIn [.reply 0 0x40000200 [7] [] [4] none none] with
       act := (waiting (.far line)).act, dies := [(0, { Die.reset with asked := [line] })] }
     s.reaches 0 [] = true ∧ NSet.has line (s.dieAt 0).asked = true ∧ NSet.rising (s.dieAt 0).asked = true ∧ (s.dieAt 0).copies.get? line = none ∧ (s.dieAt 0).own = [] ∧
       (s.strand? 0).map (fun a => a.life == .running && a.wait == some (.far line) && a.posted.isEmpty && a.hold.isNone) = some true) ∧
    (let e : Errand := { tag := 5, home := 9, answer := none }
     let s := user.onAct fun a => { a with
       posted := [{ user.asPosted with prog := { Progress.none with errand := some e } }], prog := { Progress.none with errand := some e }
       wait := some (.home (homeDie 0x40000200) 5), hold := some (.home (homeDie 0x40000200) 5) }
     (s.strand? 0).map (fun a => (a.posted.map (·.prog.errand)) == [some e] && a.prog.errand == some e && a.life == .running) = some true) ∧
    (let d := homeDie 0x40000200
     d / 8 = user.dom.pkg ∧ user.flight = [] ∧ user.reaches d [] = true ∧ user.lent 0x40000200 8 = false ∧
       ({ user with dom := { user.dom with hostLines := [0x40000200 / 128] } } : State).lent 0x40000200 8 = true ∧ 0x40000200 < 2 ^ 52 ∧ d = homeDie 0x40000200 ∧
       RemoteOp.writes (.amo .add 1 0) (user.bytesAt d 0x40000200 8) = some (0, [1, 0, 0, 0, 0, 0, 0, 0]) ∧ 0x40000200 % 256 + 0 + 8 ≤ 256) ∧
    ((((waiting (.far (2 ^ 41))).strand? 0).map (fun a => a.wait == some (.far (2 ^ 41)) && a.hold.isNone && a.posted.isEmpty) = some true) ∧ 128 * 2 ^ 41 / 2 ^ 48 = 1 ∧
      user.act.wait = none ∧ 9 / 8 = 1) ∧
    ((user.strand? 0).map (·.life) = some .running ∧ 1 ≠ user.dom.pkg) := by decide +kernel
theorem witness_FabricEvents_messages :
    (let b : Barrier := { isOpen := true, n := 2, arr := 1, gen := 0 }
     let s := (sIn [.barrier 2 0 3 .arrive]).setBarrier (barrierKey .domain 0 3) b
     s.barrierHome = true ∧ s.barrier (barrierKey .domain 0 3) = b ∧ b.arr + 1 = b.n) ∧
    (let s := (sDom [] [.barrierReply 0 true 4]).onAct fun a => { a with wait := some (.barHome 3) }
     (s.strand? 0).map (·.wait) = some (some (.barHome 3)) ∧ s.act.hold = none ∧ s.act.posted = [] ∧ s.links.inbox = [.barrierReply 0 true 4]) ∧
    0 < ((5 : BitVec 32) - ((sDom [] [.barrierGen 3 5]).barrier (barrierKey .domain 0 3)).gen).toInt ∧
    (let s : State := { sMill [] [] fun a => a with links := { Links.reset with inbox := [.counter 9 0 5 1 []] } }
     s.ownCtr 0 5 = true ∧ (s.ctr 5).st = .idle ∧ s.mill.ctrs.rising = true ∧ s.flight = [] ∧ s.reaches s.millDie [] = true ∧
       s.budgetLeft 0 = true) ∧
    (let s := living .running
     1 ≠ s.dom.pkg ∧ NSet.has 1 s.dom.members = true ∧ NSet.has 1 s.dom.lost = false) ∧
    (let s : State := { user with dom := { user.dom with hostUp := true } }
     s.dom.hostUp = true ∧ s.hostReach 0x40000200 64 = true ∧ s.inReset 0x40000200 64 = false ∧ s.flight = [] ∧ s.dies = [] ∧ s.poisonHit 0x40000200 64 false = false ∧
     ({ s with poison := [0x4000020] } : State).poisonHit 0x40000200 64 false = true ∧ s.hostTears 0x40000201 3 = false ∧
     ({ s with poison := [0x4000020] } : State).hostTears 0x40000201 3 = true) ∧
    (32 ≤ 40 ∧ 0x40000200 < 2 ^ 53 ∧ (((sLeat 2 8).pair 0).leat[1]?).isSome = true) ∧
    ((sMat.strand? 0).map (fun a => a.onCore && a.core == 0 && (a.mat.slots.get? 3).isSome) = some true) ∧
    256 = NMap.getD [(64, 256)] 64 0 ∧ user.mgmt.remap.get? 0 = none ∧ (user.part 0).st = .running := by decide +kernel

/-- A flit of 256 bytes passes its CRC, comes as it was sent, and holds its fields. -/
theorem flit_fields (type vc seq credits : Nat) (pay : List Byte) (hp : pay.length = 232) :
    flitGood (flitOf type vc seq pay credits) = true ∧ received (flitOf type vc seq pay credits) = flitOf type vc seq pay credits ∧
    flitType (flitOf type vc seq pay credits) = (16 * type + vc) % 256 / 16 ∧ flitSeq (flitOf type vc seq pay credits) = seq % 65536 := by
  unfold flitOf
  dsimp only
  generalize hh : leBytes 1 (16 * type + vc) ++ leBytes 1 0 ++ leBytes 2 seq ++ pay ++ leBytes 4 credits = head
  have h240 : head.length = 240 := by subst hh; simp [hp]
  generalize hb : head ++ leBytes 8 (Config.crc64 head).toNat = body
  have h248 : body.length = 248 := by subst hb; simp [h240]
  have hw (x : BitVec 64) : leNat (leBytes 8 x.toNat) = x.toNat := by rw [leNat_leBytes]; exact Nat.mod_eq_of_lt x.isLt
  have n1 (x : Nat) : leNat (leBytes 1 x) = x % 256 := leNat_leBytes 1 x
  have n2 (x : Nat) : leNat (leBytes 2 x) = x % 65536 := leNat_leBytes 2 x
  have t248 (l : List Byte) : (body ++ l).take 248 = body := by rw [← h248]; simp
  have d248 (l : List Byte) : (body ++ l).drop 248 = l := by rw [← h248]; simp
  have t240 (l : List Byte) : (body ++ l).take 240 = head := by subst hb; rw [← h240]; simp
  have d240 (l : List Byte) : ((body ++ l).drop 240).take 8 = leBytes 8 (Config.crc64 head).toNat := by
    subst hb; rw [List.append_assoc, ← h240, List.drop_left]; exact List.take_left' (by simp)
  refine ⟨?_, ?_, ?_, ?_⟩
  · simp [flitGood, t240, d240, hw, h248]
  · simp [received, t248, d248, hw, h248]
  · subst hb; subst hh
    simp only [flitType, List.append_assoc]
    rw [List.take_left' (by simp), n1]
  · subst hb; subst hh
    have : (leBytes 1 (16 * type + vc) ++ leBytes 1 0).length = 2 := by simp
    simp only [flitSeq, List.append_assoc]
    rw [← List.append_assoc (leBytes 1 (16 * type + vc)), ← this, List.drop_left, List.take_left' (by simp), this, n2]

/-- Port 0 in a state, with lanes and with flits that have arrived. -/
def sPort (st : PortSt) (lanes : Nat) (f : List (List Byte)) : State :=
  { user with links := { user.links with ports := [(0, { Port.reset with
    st := st, lanes := List.range lanes, arrived := f, attested := true, sameDomain := true })] } }
/-- A flit of zeros but for its type. -/
def zeroFlit (type : Nat) : List Byte := flitOf type 0 0 (List.replicate 232 0) 0
/-- A data flit of a later SEQ. -/
def lateFlit : List Byte := flitOf 1 0 5 (List.replicate 232 0) 0
theorem witness_PortEvents :
    ((sPort .up 8 [zeroFlit 1]).headFlit 0 = some (zeroFlit 1) ∧ (sPort .up 8 [zeroFlit 2]).headFlit 0 = some (zeroFlit 2) ∧
      (sPort .up 8 [zeroFlit 3]).headFlit 0 = some (zeroFlit 3)) ∧
    ((sPort .up 8 [lateFlit]).headFlit 0 = some lateFlit ∧ flitGood lateFlit = true ∧ flitType lateFlit = 1 ∧
      flitSeq lateFlit ≠ ((sPort .up 8 [lateFlit]).port 0).expected) ∧
    (∀ type, flitGood (zeroFlit type) = true ∧ flitSeq (zeroFlit type) = ((sPort .up 8 []).port 0).expected) ∧
    (flitType (zeroFlit 1) = 1 ∧ flitType (zeroFlit 2) = 2 ∧ flitType (zeroFlit 3) = 3) ∧
    (∃ f, (sPort .up 8 [[]]).headFlit 0 = some f) ∧ flitGood [] = false ∧
    (((sPort .up 8 []).port 0).replays = [] ∧ ((sPort .up 8 []).port 0).sent = [] ∧ ((sPort .up 8 []).port 0).queue = [] ∧
      (List.map (·.1) [((0 : Nat), ([] : List Byte)), (1, [])]).Nodup) ∧
    ((sPort .down 0 []).port 0).st = .down ∧
    (((sPort .training 4 []).port 0).st = .training ∧ 4 ≤ ((sPort .training 4 []).port 0).lanes.length ∧
      ((sPort .training 4 []).port 0).attested = true ∧ ((sPort .training 4 []).port 0).sameDomain = true) ∧
    ((sPort .training 3 []).port 0).lanes.length < 4 ∧
    (((sPort .degraded 4 []).port 0).st = .degraded ∧ NSet.has 3 ((sPort .degraded 4 []).port 0).lanes = true) ∧
    ((sPort .retrain 3 []).port 0).st = .retrain := by
  have h (type : Nat) := flit_fields type 0 0 0 (List.replicate 232 0) (by simp)
  have hd (f : List Byte) (hr : received f = f) : (sPort .up 8 [f]).headFlit 0 = some f := by
    have hu : ((sPort .up 8 [f]).port 0).usable = true := rfl
    have ha : ((sPort .up 8 [f]).port 0).arrived = [f] := rfl
    simp [State.headFlit, hu, ha, hr]
  have hl := flit_fields 1 0 5 0 (List.replicate 232 0) (by simp)
  have h5 : flitSeq lateFlit = 5 := hl.2.2.2
  refine ⟨⟨hd _ (h 1).2.1, hd _ (h 2).2.1, hd _ (h 3).2.1⟩, ⟨hd _ hl.2.1, hl.1, hl.2.2.1, by rw [h5]; decide +kernel⟩, fun type => ⟨(h type).1, (h type).2.2.2⟩,
    ⟨(h 1).2.2.1, (h 2).2.2.1, (h 3).2.2.1⟩, ⟨_, rfl⟩, by decide +kernel⟩

/-- Core 0 with these in its rail controller. -/
def sRail (step count : Nat) (cyc : BitVec 64) : State :=
  { user with cores := [(0, { Core.reset with railStep := step, railCount := count, cyc := cyc })]
              act := { user.act with hdr := { user.act.hdr with slots := 4, ebud := 10 } } }
/-- Pair 0 with a gate. -/
def sGated (g : Gate) : State := { user with pairs := [(0, { Pair.reset with gate := g })] }
theorem witness_PowerEvents :
    ((user.quad 0).blind = false ∧ 5 ≠ (user.quad 0).point) ∧
    (let s : State := { user with quads := [(0, { Quad.reset with sensors := [] })] }
     (s.quad 0).blind = true ∧ 0 ≠ (s.quad 0).point) ∧
    95 * ({ user with power := { Power.reset with cap := 0 } } : State).power.cap ≤ 0 ∧ user.board.form.rating = some 1800 ∧
    2 ^ 24 ≤ ((sRail 15 0 0x1000000).core 0).cyc.toNat - ((sRail 15 0 0x1000000).core 0).windowStart ∧
    ((sRail 14 2 0x1000000).ebud? 0 = some 10 ∧ 2 ≤ 10 / 4 ∧ railFloor 1 < 14 ∧ 10 / 4 < 3) ∧
    ((sRail 14 11 0).ebud? 0 = some 10 ∧ 10 < ((sRail 14 11 0).core 0).railCount ∧ ((sRail 14 11 0).core 0).railStep < 15) ∧
    ((sRail 15 11 0).ebud? 0 = some 10 ∧ 15 ≤ ((sRail 15 11 0).core 0).railStep ∧ ((sRail 15 11 0).core 0).fidSat = false) ∧
    (∃ a ∈ user.strands, a.onCore = true ∧ a.core = 0) ∧ (∀ a ∈ user.strands, a.onCore = true → a.core ≠ 1) ∧
    ((sGated .draining).pair 0).gate = .draining ∧ (∀ a ∈ (sGated .draining).strands, a.onCore = true → a.core ≠ 2 * 0 + 1) ∧
    (((sGated .waking).pair 0).gate = .waking ∧ ((sGated .waking).pair 0).request = false) := by decide +kernel

/-- A controller that is up, with an owner and one command of host 3. -/
def sCmd (o : Owner) (c : Cmd) (s : State) : State := { s with mgmt := { s.mgmt with up := true, owner := o, mailbox := [(3, c)] } }
/-- A partition record of zeros with 300 counters, and one with other quads. -/
def record0 (quads pool : Nat) : List Byte :=
  leBytes 8 0 ++ leBytes 8 quads ++ leBytes 18 0 ++ leBytes 2 300 ++ leBytes 4 pool ++ leBytes 88 0
/-- Partition 0 in a state. -/
def sPart (st : PartSt) : State := { State.reset with parts := [(0, { Part.absent with st := st, record := recordOf (record0 1 0) 0 })] }
theorem witness_Ownership :
    (sCmd .vacant .claim user).mgmt.mailbox = [(3, .claim)] ∧ (sCmd .vacant .claim user).mgmt.up = true ∧
    (∀ c ∈ [Cmd.claim, .renew, .handover 5, .accept, .read, .attest [] 0, .spdm [] 0], c.isCommand = true) ∧
    (Owner.owned 4 ≠ .vacant ∧ Owner.owned 4 ≠ .owned 3 ∧ (∀ x, Owner.owned 4 ≠ .pending 3 x) ∧ ∀ o d, Owner.owned 4 ≠ .pending o d) ∧
    (sCmd (.owned 3) .renew user).mgmt.owner = .owned 3 ∧ (sCmd (.pending 3 5) (.handover 6) user).mgmt.owner = .pending 3 5 ∧
    (sCmd (.pending 4 3) .accept user).mgmt.owner = .pending 4 3 ∧ (5 : Nat) ≠ 3 := by
  refine ⟨rfl, rfl, by decide, ⟨by simp, by simp, by simp, by simp⟩, rfl, rfl, rfl, by decide⟩

theorem witness_PartitionCommands :
    (sCmd (.owned 3) (.reset 0) user).mgmt.mailbox = [(3, .reset 0)] ∧ (sCmd (.owned 3) (.reset 0) user).mgmt.up = true ∧
    (∀ c ∈ [Cmd.create [], .modify [], .start 0 0, .reset 0, .destroy 0, .fwupdate [] [] 0], c.isCommand = true) ∧
    (Owner.owned 4 ≠ .owned 3 ∧ ∀ x, Owner.owned 4 ≠ .pending 3 x) ∧
    ((State.reset.part (field (record0 1 0) 0 1)).st = .absent ∧ State.reset.valid 0 (record0 1 0) (recordOf (record0 1 0) 0) = true ∧
      State.reset.valid 0 (record0 0 0) (recordOf (record0 0 0) 0) = false) ∧
    (((sPart .running).part 0).st = .running ∧
      let o := ((sPart .running).part 0).record
      let n := recordOf (record0 1 5) o.fcount
      (recordOf (record0 2 0) o.fcount).quads ≠ o.quads ∧
      (n.quads = o.quads ∧ n.ptroot = o.ptroot ∧ n.ctrBase = o.ctrBase ∧ n.ctrLast = o.ctrLast ∧ n.pool ≠ o.pool) ∧
      (sPart .running).valid 0 (record0 1 5) n = true) ∧
    (((sPart .stopped).part 0).st = .stopped ∧ (sPart .stopped).valid 0 (record0 1 0) (recordOf (record0 1 0) 0) = true) ∧
    okE ((sPart .stopped).verify 0 1 false) = false ∧ ((sPart .stopped).missing ((sPart .stopped).verify 0 1 false).2).isNone = true ∧
    (let s (c : Bool) := (sPart .stopped).onMill fun m => { m with kernels := [kern c] }
     okE ((s true).verify 0 0x40010000 false) = true ∧ ((s true).missing ((s true).verify 0 0x40010000 false).2).isNone = true ∧ (kern true).hdr.ctrl = true ∧
     okE ((s false).verify 0 0x40010000 false) = true ∧ (kern false).hdr.ctrl = false) ∧
    (sPart .stopped).parts.rising = true ∧ ((sPart .resetting).part 0).st = .resetting ∧
    (user.mgmt.fwPending = none ∧
     ({ user with mgmt := { user.mgmt with fwPending := some ([1], [2], 3) } } : State).mgmt.fwPending = some ([1], [2], 3)) := by
  refine ⟨rfl, rfl, by decide, ⟨by simp, by simp⟩, by decide +kernel⟩

end Sys2Proof.Tests
end

section
/-!
PROOFS. Who owns the device (R398): the next command of the mailbox, and what each command of the table answers.
-/

namespace Sys2Proof.Machine

/-- The command at the head of the mailbox is the one that the controller serves next, once bring-up is done. -/
theorem State.take?_of_head (s : State) (h : Nat) (c : Cmd) (r : List (Nat × Cmd)) (hm : s.mgmt.mailbox = (h, c) :: r)
    (hc : c.isCommand = true) (hu : s.mgmt.up = true) :
    s.take? h = some (c, { s with mgmt := { s.mgmt with mailbox := r } }) := by
  have hn : s.command? = some (h, c) := by simp [State.command?, hm, hc]
  simp [State.take?, hn, hu, State.onMgmt, hm]

/-- A host owns the device where it is the owner, or the owner that hands it over. -/
theorem State.owns_iff (s : State) (h : Nat) : s.owns h = true ↔ s.mgmt.owner = .owned h ∨ ∃ t, s.mgmt.owner = .pending h t := by
  unfold State.owns
  cases s.mgmt.owner <;> simp

theorem State.owner_of_owns {s : State} {h : Nat} (f : State → State) (ho : s.owns h = true) : s.owner h f = f s := if_pos ho

theorem State.owner_denied {s : State} {h : Nat} (f : State → State) (ho : ¬s.owns h = true) : s.owner h f = s.answer h .denied :=
  if_neg ho

/-! What each command does that `take?` gives: `u` is the state without it in the mailbox. -/

section Commands
variable {s u : State} {h : Nat}

theorem execClaim_vacant (ht : s.take? h = some (.claim, u)) (ho : u.mgmt.owner = .vacant) :
    execClaim h s = .next ((u.onMgmt fun m => { m with owner := .owned h }).answer h .ok) := by
  unfold execClaim; rw [ht]; simp only [ho]

theorem execClaim_taken (ht : s.take? h = some (.claim, u)) (ho : u.mgmt.owner ≠ .vacant) :
    execClaim h s = .next (u.answer h (if u.owns h then .ok else .denied)) := by
  unfold execClaim; rw [ht]; simp only

theorem execRenew_eq (ht : s.take? h = some (.renew, u)) : execRenew h s = .next (u.owner h fun v => v.answer h .ok) := by
  unfold execRenew; rw [ht]

theorem execHandover_denied {d : Nat} (ht : s.take? h = some (.handover d, u)) (ho : ¬u.owns h = true) :
    execHandover h d s = .next (u.answer h .denied) := by
  unfold execHandover; rw [ht]; simp only [ne_eq, not_true_eq_false, if_false, State.owner_denied _ ho]

theorem execHandover_owned {d : Nat} (ht : s.take? h = some (.handover d, u)) (ho : u.mgmt.owner = .owned h) :
    execHandover h d s = .next ((u.onMgmt fun m => { m with owner := .pending h d }).answer h .ok) := by
  have hw : u.owns h = true := (u.owns_iff h).2 (.inl ho)
  unfold execHandover; rw [ht]; simp only [ne_eq, not_true_eq_false, if_false, State.owner_of_owns _ hw, ho]

theorem execHandover_pending {d x : Nat} (ht : s.take? h = some (.handover d, u)) (ho : u.mgmt.owner = .pending h x) :
    execHandover h d s = .next (u.answer h (.refused 0)) := by
  have hw : u.owns h = true := (u.owns_iff h).2 (.inr ⟨x, ho⟩)
  unfold execHandover; rw [ht]; simp only [ne_eq, not_true_eq_false, if_false, State.owner_of_owns _ hw, ho]

theorem execAccept_named {o : Nat} (ht : s.take? h = some (.accept, u)) (ho : u.mgmt.owner = .pending o h) :
    execAccept h s = .next ((u.onMgmt fun m => { m with owner := .owned h }).answer h .ok) := by
  unfold execAccept; rw [ht]; simp only [ho, if_true]

theorem execAccept_other {o d : Nat} (ht : s.take? h = some (.accept, u)) (ho : u.mgmt.owner = .pending o d) (hd : d ≠ h) :
    execAccept h s = .next ((u.onMgmt fun m => { m with owner := .owned o }).answer h .denied) := by
  unfold execAccept; rw [ht]; simp only [ho, if_neg hd]

theorem execAccept_none (ht : s.take? h = some (.accept, u)) (ho : ∀ o d, u.mgmt.owner ≠ .pending o d) :
    execAccept h s = .next (u.answer h .denied) := by
  unfold execAccept; rw [ht]; simp only

/-- R24, R398: the report of a device that is up. -/
theorem execRead_up (ht : s.take? h = some (.read, u)) (hu : u.mgmt.up = true) :
    execRead h s = .next (u.answer h (.state
      { up := true, owner := u.mgmt.owner, events := u.mgmt.events, board := u.board, totals := Totals.package
        lost := (u.cores.filter fun c => !c.2.lostClusters.isEmpty).map fun c => (c.1, c.2.lostClusters) })) := by
  unfold execRead; rw [ht]; simp only [State.readOut, hu]

theorem execAttest_eq {n : List Byte} {p : Nat} (ht : s.take? h = some (.attest n p, u)) :
    execAttest h s = .next (u.answer h (.bytes (u.attestation n p))) := by
  unfold execAttest; rw [ht]

theorem execSpdmMeasurement_eq {n : List Byte} {p : Nat} (ht : s.take? h = some (.spdm n p, u)) :
    execSpdmMeasurement h s = .next (u.answer h (.bytes (u.attestation n p))) := by
  unfold execSpdmMeasurement; rw [ht]

end Commands

theorem execLeaseLapse_owned {s : State} {h : Nat} (ho : s.mgmt.owner = .owned h) :
    execLeaseLapse s = .next ((s.onMgmt fun m => { m with owner := .vacant }).event .leaseLapsed) := by
  unfold execLeaseLapse; simp only [ho]

theorem execHandoverTimeout_pending {s : State} {h d : Nat} (ho : s.mgmt.owner = .pending h d) :
    execHandoverTimeout s = .next (s.onMgmt fun m => { m with owner := .owned h }) := by
  unfold execHandoverTimeout; simp only [ho]

/-- Settles O59: a command at the head of the mailbox is the one taken, and each case of the table is one branch of its event. -/
theorem ownership : Obligations.Ownership := by
  unfold Obligations.Ownership
  refine ⟨fun s h c r hm hc hu => ?_, fun s h ho => execLeaseLapse_owned ho, fun s h d ho => execHandoverTimeout_pending ho⟩
  have ht := s.take?_of_head h c r hm hc hu
  intro u tells owned to_ denied
  have hown : u.owns h = true ↔ owned := u.owns_iff h
  refine ⟨?claim, ?renew, ?handover, ?accept, ?read, ?attest, ?spdm⟩
  case claim =>
    rintro rfl
    refine ⟨execClaim_vacant ht, fun ho hn => ?_, fun ho => ?_⟩
    · exact (execClaim_taken ht ho).trans (by rw [if_neg (mt hown.1 hn)])
    · have hv : u.mgmt.owner ≠ .vacant := by
        rcases ho with e | ⟨x, e⟩ <;> exact fun hv => nomatch e.symm.trans hv
      exact (execClaim_taken ht hv).trans (by rw [if_pos (hown.2 ho)])
  case renew =>
    rintro rfl
    exact ⟨fun hn => (execRenew_eq ht).trans (by rw [State.owner_denied _ (mt hown.1 hn)]),
      fun ho => (execRenew_eq ht).trans (by rw [State.owner_of_owns _ (hown.2 ho)])⟩
  case handover =>
    rintro d rfl
    exact ⟨fun hn => execHandover_denied ht (mt hown.1 hn), execHandover_owned ht, fun x => execHandover_pending ht⟩
  case accept =>
    rintro rfl
    exact ⟨fun o => execAccept_named ht, fun o d => execAccept_other ht, execAccept_none ht⟩
  case read =>
    rintro rfl
    exact execRead_up ht hu
  case attest => rintro n p rfl; exact execAttest_eq ht
  case spdm => rintro n p rfl; exact execSpdmMeasurement_eq ht

end Sys2Proof.Machine
end

section
/-!
PROOFS. Reading back a write event (R342, R344, R347): the bytes that an agent of a die writes are the bytes that its agents read,
whether they lie in the home's line, in the die's copy of it, or in the die's own order behind what the home has.
-/

namespace Sys2Proof.Machine

/-! Lines of 128 bytes. -/

/-- Bytes of one line have one home. -/
theorem homeDie_of_line {a x : Nat} (h : x / 128 = a / 128) : homeDie x = homeDie a := by
  have h8 : x >>> 8 = a >>> 8 := by simp only [Nat.shiftRight_eq_div_pow]; omega
  have hl : (x % 2 ^ 48) >>> 8 = (a % 2 ^ 48) >>> 8 := by simp only [Nat.shiftRight_eq_div_pow]; omega
  have hp : x / 2 ^ 48 = a / 2 ^ 48 := by omega
  unfold homeDie homeSlice
  rw [hl, hp]

theorem isPad_of_line {a x : Nat} (h : x / 128 = a / 128) : isPad x = isPad a := by
  unfold isPad
  rw [decide_eq_decide]
  omega

/-- A range within one line touches that line alone, and none where it is empty. -/
theorem linesOf_within {a n : Nat} (h : a % 128 + n ≤ 128) : linesOf a n = if n = 0 then [] else [a / 128] := by
  unfold linesOf
  split
  · rfl
  · have : (a + n - 1) / 128 - a / 128 + 1 = 1 := by omega
    rw [this]; rfl

/-! A die after a write of its own. -/

section Write
variable {a x : Nat} {l : List Byte}

/-- A byte of the written range, or what stood there. -/
def overByte (a : Nat) (l : List Byte) (x : Nat) (old : Byte) : Byte := if a ≤ x ∧ x < a + l.length then l.getD (x - a) 0 else old

theorem overByte_outside (old : Byte) (h : ¬(a ≤ x ∧ x < a + l.length)) : overByte a l x old = old := if_neg h

theorem overByte_inside (old old' : Byte) (h : a ≤ x ∧ x < a + l.length) : overByte a l x old = overByte a l x old' := by
  unfold overByte; rw [if_pos h, if_pos h]

theorem Memory.read_writeO_some (m : Memory) (h : m.wf = true) : (m.writeO a (l.map some)).read x = overByte a l x (m.read x) := by
  rw [Memory.read_writeO _ _ _ _ h]
  unfold overByte
  by_cases h1 : a ≤ x
  · by_cases h2 : x < a + l.length
    · have : x - a < l.length := by omega
      simp [h1, h2, this]
    · have : l.length ≤ x - a := by omega
      simp [h1, h2, this]
  · simp [h1]

/-- A byte of a copy after a write laid over it. -/
theorem overLine_getD (quad : Nat) (old : List Byte) :
    (overLine (x / 128) old { addr := a, quad := quad, data := l.map some }).getD (x % 128) 0 =
      overByte a l x (old.getD (x % 128) 0) := by
  have hx : x / 128 * 128 + x % 128 = x := by omega
  have hi : x % 128 < 128 := Nat.mod_lt _ (by decide)
  unfold overLine overByte
  simp only [List.getD_eq_getElem?_getD, List.getElem?_map, List.getElem?_range hi, Option.map_some, Option.getD_some, hx]
  by_cases h1 : a ≤ x
  · by_cases h2 : x < a + l.length
    · have : x - a < l.length := by omega
      simp [h1, h2, this]
    · have : l.length ≤ x - a := by omega
      simp [h1, h2, this]
  · simp [h1]

/-- A copy of a line after a write within one line: laid over where it is the line written. -/
theorem Die.copyWrite_get? (y : Die) (quad line : Nat) (hn : a % 128 + l.length ≤ 128) :
    (y.copyWrite { addr := a, quad := quad, data := l.map some }).copies.get? line =
      if line = a / 128 ∧ l ≠ [] then
        (y.copies.get? line).map fun old => overLine line old { addr := a, quad := quad, data := l.map some }
      else y.copies.get? line := by
  unfold Die.copyWrite
  simp only [List.length_map, linesOf_within hn]
  by_cases hl : l = []
  · simp [hl]
  · simp only [List.length_eq_zero_iff, hl, if_false, List.foldl_cons, List.foldl_nil, ne_eq, not_false_eq_true, and_true]
    by_cases he : line = a / 128
    · subst he
      rw [if_pos rfl]
      cases hc : y.copies.get? (a / 128) with
      | none => simp only [Option.map_none]; exact hc
      | some old => simp only [NMap.get?_set_self, Option.map_some]
    · rw [if_neg he]
      cases hc : y.copies.get? (a / 128) with
      | none => rfl
      | some old => exact NMap.get?_set_ne _ _ he

/-- The byte of the die's copy of a line after a write within one line. -/
theorem Die.copyWrite_byte (y : Die) (quad : Nat) (hn : a % 128 + l.length ≤ 128) :
    ((y.copyWrite { addr := a, quad := quad, data := l.map some }).copies.get? (x / 128)).map (·.getD (x % 128) 0) =
      (y.copies.get? (x / 128)).map fun old => overByte a l x (old.getD (x % 128) 0) := by
  rw [Die.copyWrite_get? y quad _ hn]
  split
  · rw [Option.map_map]
    exact congrArg (Option.map · _) (funext fun old => overLine_getD quad old)
  · rename_i hne
    have hout : ¬(a ≤ x ∧ x < a + l.length) := fun h => hne ⟨by omega, by rintro rfl; simp at h; omega⟩
    exact congrArg (Option.map · _) (funext fun old => (overByte_outside _ hout).symm)

/-- The die's own bytes after a write of its own. -/
theorem ownWrite_get? (k : Nat) (m : NMap (Byte × Nat)) :
    (ownWrite k a (l.map some) m).get? x = if a ≤ x ∧ x < a + l.length then some (l.getD (x - a) 0, k) else m.get? x := by
  induction l generalizing a m with
  | nil => rw [if_neg (by simp)]; rfl
  | cons b r ih =>
    rw [List.map_cons, ownWrite, ih]
    by_cases hx : x = a
    · subst hx; rw [if_neg (by omega), if_pos (by simp), NMap.get?_set_self]; simp
    · rw [NMap.get?_set_ne _ _ hx]
      by_cases hr : a + 1 ≤ x ∧ x < a + 1 + r.length
      · rw [if_pos hr, if_pos (by simp only [List.length_cons]; omega), show x - a = (x - (a + 1)) + 1 by omega]; simp
      · rw [if_neg hr, if_neg (by simp only [List.length_cons]; omega)]

end Write

/-! What does not change a byte that a die's agents read. -/

/-- What an agent reads rests on memory and on its die's copies and own bytes. -/
theorem State.byteAt_congr {s t : State} {d : Nat} (x : Nat) (hm : t.mem = s.mem) (hc : (t.dieAt d).copies = (s.dieAt d).copies)
    (ho : (t.dieAt d).own = (s.dieAt d).own) : t.byteAt d x = s.byteAt d x := by
  unfold State.byteAt; rw [hm, hc, ho]

@[simp] theorem State.carry_dies (s : State) (p : Parcel) : (s.carry p).dies = s.dies := by
  unfold State.carry; split
  · rfl
  · simp only [State.setPort_dies]; rfl

@[simp] theorem State.sendMsg_dies (s : State) (src dst : Nat) (m : Msg) : (s.sendMsg src dst m).dies = s.dies := State.carry_dies _ _

theorem State.dataFor_dies (s : State) (e : Nat) (b : Batch) : (s.dataFor e b).2.dies = s.dies := by
  unfold State.dataFor; simp only; repeat' split
  all_goals rfl

/-- Sending a batch leaves the dies as they are: each is told by a message. -/
theorem State.sendBatch_dies (s : State) (b : Batch) : (s.sendBatch b).dies = s.dies := by
  unfold State.sendBatch
  generalize s.allDies.filter (fun e => !s.ownDie e) = l
  induction l generalizing s with
  | nil => rfl
  | cons e r ih =>
    rw [List.foldl_cons, ih]
    simp only
    split <;> simp [State.dataFor_dies]

theorem State.closeBatch_dieAt (s : State) (d : Nat) :
    ((s.closeBatch d).dieAt d).copies = (s.dieAt d).copies ∧ ((s.closeBatch d).dieAt d).own = (s.dieAt d).own := by
  unfold State.closeBatch; simp only
  split
  · exact ⟨rfl, rfl⟩
  · simp only [State.dieAt, State.sendBatch_dies, NMap.getD_set, if_true, and_self]

theorem State.closeBatch_byteAt (s : State) (d x : Nat) : (s.closeBatch d).byteAt d x = s.byteAt d x :=
  State.byteAt_congr x (s.closeBatch_mem d) (s.closeBatch_dieAt d).1 (s.closeBatch_dieAt d).2

theorem State.pend_byteAt (s : State) (d x : Nat) (w : Wr) :
    (s.onDie d fun y => { y with pending := y.pending ++ [w] }).byteAt d x = s.byteAt d x :=
  State.byteAt_congr x rfl (by rw [State.dieAt_onDie, if_pos rfl]) (by rw [State.dieAt_onDie, if_pos rfl])

/-- Whether a write joins the open batch does not matter to the agents of its die. -/
theorem State.join_byteAt (c : Prop) [Decidable c] (s : State) (d x : Nat) (w : Wr) (p : Prop) [Decidable p] :
    (if c then
      (if p then (s.onDie d fun y => { y with pending := y.pending ++ [w] }).closeBatch d
        else s.onDie d fun y => { y with pending := y.pending ++ [w] })
      else s).byteAt d x = s.byteAt d x := by
  split
  · split
    · rw [State.closeBatch_byteAt, State.pend_byteAt]
    · rw [State.pend_byteAt]
  · rfl

/-! The places where the bytes come to lie. -/

/-- A byte as the agents of a die read it: the home's line, the die's copy, the die's own bytes. -/
theorem State.byteAt_eq (s : State) (d x : Nat) :
    s.byteAt d x =
      if isPad x = true ∨ homeDie x = d then s.mem.read x
      else (((s.dieAt d).copies.get? (x / 128)).map (·.getD (x % 128) 0)).getD
        ((((s.dieAt d).own.get? x).map (·.1)).getD (s.mem.read x)) := by
  unfold State.byteAt
  by_cases hp : isPad x = true
  · rw [if_pos hp, if_pos (.inl hp)]
  · by_cases hh : homeDie x = d
    · rw [if_neg hp, if_pos hh, if_pos (.inr hh)]
    · rw [if_neg hp, if_neg hh, if_neg (by simp [hp, hh])]
      cases (s.dieAt d).copies.get? (x / 128) with
      | some c => rfl
      | none => cases (s.dieAt d).own.get? x <;> rfl

section Places
variable {s t : State} {d quad a x k : Nat} {l : List Byte}

/-- A write outside the scratchpads within one line: what its die has of memory, of copies and of its own bytes says what its agents
read. -/
theorem State.byteAt_overByte (hw : s.mem.wf = true) (hn : a % 128 + l.length ≤ 128) (hp : isPad a = false)
    (hm : t.mem = if homeDie a = d then s.mem.writeO a (l.map some) else s.mem)
    (hc : (t.dieAt d).copies = ((s.dieAt d).copyWrite { addr := a, quad := quad, data := l.map some }).copies)
    (ho : (t.dieAt d).own = if homeDie a = d then (s.dieAt d).own else ownWrite k a (l.map some) (s.dieAt d).own) :
    t.byteAt d x = overByte a l x (s.byteAt d x) := by
  have hline : a ≤ x ∧ x < a + l.length → x / 128 = a / 128 := fun h => by omega
  have hread : homeDie a = d → t.mem.read x = overByte a l x (s.mem.read x) := fun h => by
    rw [hm, if_pos h, Memory.read_writeO_some _ hw]
  rw [State.byteAt_eq, State.byteAt_eq]
  by_cases hd : isPad x = true ∨ homeDie x = d
  · rw [if_pos hd, if_pos hd]
    by_cases hh : homeDie a = d
    · exact hread hh
    · have hout : ¬(a ≤ x ∧ x < a + l.length) := fun h => by
        rw [isPad_of_line (hline h), homeDie_of_line (hline h)] at hd
        simp [hp, hh] at hd
      rw [overByte_outside _ hout, hm, if_neg hh]
  · rw [if_neg hd, if_neg hd, hc, Die.copyWrite_byte _ _ hn]
    cases (s.dieAt d).copies.get? (x / 128) with
    | some old => rfl
    | none =>
      simp only [Option.map_none, Option.getD_none, ho]
      by_cases hh : homeDie a = d
      · have hout : ¬(a ≤ x ∧ x < a + l.length) := fun h => hd (.inr ((homeDie_of_line (hline h)).trans hh))
        rw [if_pos hh, hread hh, overByte_outside _ hout, overByte_outside _ hout]
      · rw [if_neg hh, hm, if_neg hh, ownWrite_get?]
        unfold overByte
        split <;> rfl

/-- A write into a scratchpad within one line. -/
theorem State.byteAt_pad (hw : s.mem.wf = true) (hn : a % 128 + l.length ≤ 128) (hp : isPad a = true) :
    ({ s with mem := s.mem.writeO a (l.map some) } : State).byteAt d x = overByte a l x (s.byteAt d x) := by
  have hread := Memory.read_writeO_some (a := a) (x := x) (l := l) s.mem hw
  by_cases hin : a ≤ x ∧ x < a + l.length
  · have hx : isPad x = true := (isPad_of_line (by omega)).trans hp
    rw [State.byteAt_eq, State.byteAt_eq, if_pos (.inl hx), if_pos (.inl hx)]
    exact hread
  · rw [overByte_outside _ hin] at hread ⊢
    rw [State.byteAt_eq, State.byteAt_eq]
    simp only [hread]
    rfl

end Places

/-- R342, R344, R347: a write event within one line, read back by the agents of the writer's die. -/
theorem State.write_byteAt (s : State) (d quad a x : Nat) (l : List Byte) (hw : s.mem.wf = true) (hn : a % 128 + l.length ≤ 128) :
    (s.write d quad a l).byteAt d x = overByte a l x (s.byteAt d x) := by
  unfold State.write State.writeSome
  split
  · exact State.byteAt_pad hw hn ‹_›
  · rename_i hp
    simp only
    rw [State.join_byteAt]
    have hc := s.dieAt_onDie d d fun y => y.copyWrite { addr := a, quad := quad, data := l.map some }
    rw [if_pos rfl] at hc
    have hcopies := congrArg Die.copies hc
    have hown := congrArg Die.own hc
    refine State.byteAt_overByte (quad := quad) (k := (s.dieAt d).vec.getD d 0 + 1) hw hn (by simpa using hp) ?_ ?_ ?_
    · split <;> rfl
    · split
      · exact hcopies
      · rw [State.dieAt_onDie, if_pos rfl]; exact hcopies
    · split
      · exact hown
      · rw [State.dieAt_onDie, if_pos rfl, hc]; rfl

/-- Settles O26: the byte that `overByte` names is what the agents of the writer's die read. -/
theorem memoryWrite : Obligations.MemoryWrite := by
  unfold Obligations.MemoryWrite
  exact fun s d quad a x l hw hn => s.write_byteAt d quad a x l hw hn

end Sys2Proof.Machine
end

section
/-!
PROOFS. The canonical form of memory as a property of states, of the results of pieces of instructions and of outcomes: what the
operations that all others are made of keep. `h.f` reads: the form that `h` gives stands after `f`.

`State.Inv.f` says that the function `f` of the model keeps the form; the lemmas stand in the order of the model's files and follow its
functions down to `writeO`, `writeL` and `filter`, which alone make a new memory. `h.same` is a change of other fields. A proof after a
`split` takes the state of a branch from the branch's equation, `‹_›`. The proofs are elaborated one after another: all at once, they
ask for more threads than the limit on memory gives stacks.
-/

set_option Elab.async false
namespace Sys2Proof.Machine

/-- Every state in which a piece of an instruction may end has its memory in canonical form. -/
def Res.Inv {α : Type} : Res α → Prop
  | .ok _ s => s.Inv
  | .trap _ s => s.Inv
  | .wait _ s => s.Inv

/-- The next state, where an outcome is one, has its memory in canonical form. -/
def Out.Inv : Out → Prop
  | .next s => s.Inv
  | _ => True

/-! Taking results apart. -/

/-- A state with the same memory. -/
theorem State.Inv.same {s t : State} (h : s.Inv) (e : t.mem = s.mem := by rfl) : t.Inv := by
  unfold State.Inv; rw [e]; exact h

theorem State.Inv.snd {α : Type} {p : α × State} {a : α} {u : State} (h : p.2.Inv) (e : p = (a, u)) : u.Inv := by
  subst e; exact h

theorem State.Inv.thd {α β : Type} {p : α × β × State} {a : α} {b : β} {u : State} (h : p.2.2.Inv) (e : p = (a, b, u)) : u.Inv := by
  subst e; exact h

theorem Res.Inv.ok {α : Type} {r : Res α} {a : α} {u : State} (h : r.Inv) (e : r = .ok a u) : u.Inv := by
  subst e; exact h

theorem Res.Inv.trap {α : Type} {r : Res α} {x : Trap} {u : State} (h : r.Inv) (e : r = .trap x u) : u.Inv := by
  subst e; exact h

theorem Res.Inv.wait {α : Type} {r : Res α} {w : Wait} {u : State} (h : r.Inv) (e : r = .wait w u) : u.Inv := by
  subst e; exact h

theorem Out.Inv.next {o : Out} {u : State} (h : o.Inv) (e : o = .next u) : u.Inv := by
  subst e; exact h

/-! Putting results together. -/

theorem State.Inv.toOk {α : Type} {s : State} {a : α} (h : s.Inv) : (Res.ok a s).Inv := h
theorem State.Inv.toTrap {α : Type} {s : State} {x : Trap} (h : s.Inv) : (Res.trap x s : Res α).Inv := h
theorem State.Inv.toWait {α : Type} {s : State} {w : Wait} (h : s.Inv) : (Res.wait w s : Res α).Inv := h
theorem State.Inv.toNext {s : State} (h : s.Inv) : Out.Inv (.next s) := h

theorem State.Inv.ite {c : Prop} {_ : Decidable c} {s t : State} (h : s.Inv) (k : t.Inv) : (if c then s else t).Inv := by
  split <;> assumption

theorem State.Inv.ite2 {α : Type} {c : Prop} {_ : Decidable c} {p q : α × State} (h : p.2.Inv) (k : q.2.Inv) :
    (if c then p else q).2.Inv := by
  split <;> assumption

theorem Res.Inv.ite {α : Type} {c : Prop} {_ : Decidable c} {r q : Res α} (h : r.Inv) (k : q.Inv) : (if c then r else q).Inv := by
  split <;> assumption

theorem Out.Inv.ite {c : Prop} {_ : Decidable c} {o p : Out} (h : o.Inv) (k : p.Inv) : Out.Inv (if c then o else p) := by
  split <;> assumption

theorem State.Inv.foldl {α : Type} {f : State → α → State} {l : List α} {s : State} (h : s.Inv)
    (hf : ∀ s x, s.Inv → (f s x).Inv) : (l.foldl f s).Inv := wf_foldl l h hf

theorem Res.Inv.bind {α β : Type} {r : Res α} {f : α → State → Res β} (h : r.Inv) (hf : ∀ a s, s.Inv → (f a s).Inv) :
    (r.bind f).Inv := by
  cases r with
  | ok a s => exact hf a s h
  | trap x s => exact h
  | wait w s => exact h

theorem Res.Inv.waits {α : Type} {r : Res α} {f : State → State} (h : r.Inv) (hf : ∀ s, s.Inv → (f s).Inv) : (r.waits f).Inv := by
  cases r with
  | ok a s => exact h
  | trap x s => exact h
  | wait w s => exact hf s h

theorem Res.Inv.map {α β : Type} {r : Res α} {f : α → β} (h : r.Inv) : (r.map f).Inv := h.bind fun _ _ h => h

theorem Res.Inv.fin {r : Res Unit} {s0 : State} {nx : Word} (h : r.Inv) : (r.fin s0 nx).Inv := by
  cases r with
  | ok a s => exact h.same (s.done_mem _ _)
  | trap x s => exact h.same (s.takeTrap_mem _ _)
  | wait w s => exact h.same (s.stall_mem _ _ _)

/-! Memory and the sites (Laws/Sites). -/

section Sites
variable {s : State}

theorem State.Inv.setPort {p : Nat} {x : Port} (h : s.Inv) : (s.setPort p x).Inv := h.same (s.setPort_mem p x)
theorem State.Inv.carry {p : Parcel} (h : s.Inv) : (s.carry p).Inv := h.same (s.carry_mem p)
theorem State.Inv.sendMsg {src dst : Nat} {m : Msg} (h : s.Inv) : (s.sendMsg src dst m).Inv := h.same (s.sendMsg_mem src dst m)
theorem State.Inv.closeBatch {d : Nat} (h : s.Inv) : (s.closeBatch d).Inv := h.same (s.closeBatch_mem d)
theorem State.Inv.ask {d a : Nat} (h : s.Inv) : (s.ask d a).Inv := h.same (s.ask_mem d a)
theorem State.Inv.room {d n : Nat} (h : s.Inv) : (s.room d n).Inv := h.same (s.room_mem d n)
theorem State.Inv.setG {r : Reg} {x : Word} (h : s.Inv) : (s.setG r x).Inv := h.same (s.setG_mem r x)
theorem State.Inv.setM {r : MReg} {x : BitVec 2048} (h : s.Inv) : (s.setM r x).Inv := h.same (s.setM_mem r x)
theorem State.Inv.feLoad {fq : Feq} {a : Nat} {held : Bool} (h : s.Inv) : (s.feLoad fq a held).2.Inv := h.same (s.feLoad_mem fq a held)
theorem State.Inv.feStore {fq : Feq} {a : Nat} {held : Bool} (h : s.Inv) : (s.feStore fq a held).2.Inv :=
  h.same (s.feStore_mem fq a held)
theorem State.Inv.atomicFar {d a n : Nat} {op : RemoteOp} {e : Option Errand} (h : s.Inv) : (s.atomicFar d a n op e).2.Inv :=
  h.same (s.atomicFar_mem d a n op e)
theorem State.Inv.applyBatch {e : Nat} {b : Batch} (h : s.Inv) : (s.applyBatch e b).Inv := s.applyBatch_wf e b h
theorem State.Inv.catchUp {e : Nat} {v : NMap Nat} (h : s.Inv) : (s.catchUp e v).Inv := s.catchUp_wf e v h
theorem State.Inv.exchange {d e : Nat} (h : s.Inv) : (s.exchange d e).Inv := s.exchange_wf d e h
theorem State.Inv.readSync {d a : Nat} (h : s.Inv) : (s.readSync d a).Inv := s.readSync_wf d a h
theorem State.Inv.writeSome {d quad a : Nat} {l : List (Option Byte)} (h : s.Inv) : (s.writeSome d quad a l).Inv :=
  s.writeSome_wf d quad a l h
theorem State.Inv.write {d quad a : Nat} {l : List Byte} (h : s.Inv) : (s.write d quad a l).Inv := s.write_wf d quad a l h
theorem State.Inv.reach {d e : Nat} (h : s.Inv) : (s.reach d e).Inv := s.reach_wf d e h
theorem State.Inv.performAt {d : Nat} {tier : Tier} (h : s.Inv) : (s.performAt d tier).Inv := s.performAt_wf d tier h
theorem State.Inv.bringAlong {d e : Nat} (h : s.Inv) : (s.bringAlong d e).Inv := s.bringAlong_wf d e h
theorem State.Inv.physWrite {a : Nat} {l : List Byte} (h : s.Inv) : (s.physWrite a l).Inv := s.physWrite_wf a l h
theorem State.Inv.writeReel {a : Strand} (h : s.Inv) : (s.writeReel a).Inv := s.writeReel_wf a h
theorem State.Inv.reelSound {sid : Nat} (h : s.Inv) : (s.reelSound sid).2.Inv := s.reelSound_wf sid h
theorem State.Inv.tableRead {d a n : Nat} (h : s.Inv) : (s.tableRead d a n).2.Inv := s.tableRead_wf d a n h
theorem State.Inv.walk {d va n table level : Nat} (h : s.Inv) : (s.walk d va n table level).2.Inv := s.walk_wf d va n table level h
theorem State.Inv.lookup {core part va : Nat} (h : s.Inv) : (s.lookup core part va).2.Inv := (s.lookup_keeps core part va).2 h
theorem State.Inv.check {core part va n algn : Nat} {k : Kind} {fe whole : Bool} (h : s.Inv) :
    (s.check core part va n algn k fe whole).2.Inv := (s.check_keeps core part va n algn k fe whole).2 h
theorem State.Inv.access {va n algn : Nat} {k : Kind} {fe whole : Bool} (h : s.Inv) : (s.access va n algn k fe whole).2.Inv :=
  s.access_wf va n algn k fe whole h
theorem State.Inv.agentRead {d part va n : Nat} (h : s.Inv) : (s.agentRead d part va n).2.Inv := s.agentRead_wf d part va n h
theorem State.Inv.agentWrite {d part quad va : Nat} {l : List Byte} (h : s.Inv) : (s.agentWrite d part quad va l).2.Inv :=
  s.agentWrite_wf d part quad va l h
theorem State.Inv.atomicNear {d quad a n : Nat} {op : RemoteOp} (h : s.Inv) : (s.atomicNear d quad a n op).2.Inv :=
  s.atomicNear_wf d quad a n op h
theorem State.Inv.agentSwap {d part va x : Nat} {e : Option Errand} (h : s.Inv) : (s.agentSwap d part va x e).2.Inv :=
  s.agentSwap_wf d part va x e h

end Sites

end Sys2Proof.Machine
end

section
/-!
PROOFS. The canonical form of memory in what a request to a list and a move of an engine operation answer.
-/
set_option Elab.async false
namespace Sys2Proof.Machine

/-- The state that the elements served leave, where they leave one, has its memory in canonical form. -/
def Served.Inv : Served → Prop
  | .ok _ s => s.Inv
  | .bad _ _ s => s.Inv
  | .wait => True

/-- The state that a move leaves, where it leaves one, has its memory in canonical form. -/
def Move.Inv : Move → Prop
  | .ask s => s.Inv
  | .put _ s => s.Inv
  | _ => True

theorem Served.Inv.ok {r : Served} {e' : EngOp} {u : State} (h : r.Inv) (e : r = .ok e' u) : u.Inv := by
  subst e; exact h

theorem Served.Inv.bad {r : Served} {c : Cause} {va : Nat} {u : State} (h : r.Inv) (e : r = .bad c va u) : u.Inv := by
  subst e; exact h

theorem Move.Inv.ask {r : Move} {u : State} (h : r.Inv) (e : r = .ask u) : u.Inv := by
  subst e; exact h

theorem Move.Inv.put {r : Move} {e' : EngOp} {u : State} (h : r.Inv) (e : r = .put e' u) : u.Inv := by
  subst e; exact h

theorem State.Inv.toServed {s : State} {e : EngOp} (h : s.Inv) : (Served.ok e s).Inv := h
theorem State.Inv.toServedBad {s : State} {c : Cause} {va : Nat} (h : s.Inv) : (Served.bad c va s).Inv := h

theorem Served.Inv.ite {c : Prop} {_ : Decidable c} {r q : Served} (h : r.Inv) (k : q.Inv) : (if c then r else q).Inv := by
  split <;> assumption

theorem Move.Inv.ite {c : Prop} {_ : Decidable c} {r q : Move} (h : r.Inv) (k : q.Inv) : (if c then r else q).Inv := by
  split <;> assumption

end Sys2Proof.Machine
end

section
/-!
PROOFS. Memory's canonical form: changes of other fields, and functions that answer no state at all in some cases.
-/
set_option Elab.async false
namespace Sys2Proof.Machine

/-! Changes of other fields than memory. -/

section Fields
variable {s : State}

theorem State.Inv.onAct {f : Strand → Strand} (h : s.Inv) : (s.onAct f).Inv := h
theorem State.Inv.onCsr {f : Csrs → Csrs} (h : s.Inv) : (s.onCsr f).Inv := h
theorem State.Inv.setV {r : Reg} {x : BitVec 16384} (h : s.Inv) : (s.setV r x).Inv := h
theorem State.Inv.setVok {r : Reg} {x : BitVec 16} (h : s.Inv) : (s.setVok r x).Inv := h
theorem State.Inv.setW {r : WReg} {x : BitVec 32768} (h : s.Inv) : (s.setW r x).Inv := h
theorem State.Inv.onLinks {f : Links → Links} (h : s.Inv) : (s.onLinks f).Inv := h
theorem State.Inv.onDie {d : Nat} {f : Die → Die} (h : s.Inv) : (s.onDie d f).Inv := h
theorem State.Inv.onCore {c : Nat} {f : Core → Core} (h : s.Inv) : (s.onCore c f).Inv := h
theorem State.Inv.onPair {p : Nat} {f : Pair → Pair} (h : s.Inv) : (s.onPair p f).Inv := h
theorem State.Inv.setFull {a : Nat} (h : s.Inv) : (s.setFull a).Inv := h
theorem State.Inv.setEmpty {a : Nat} (h : s.Inv) : (s.setEmpty a).Inv := h
theorem State.Inv.onErrand {e : Option Errand} (h : s.Inv) : (s.onErrand e).Inv := h
theorem State.Inv.onStrands {p : Strand → Bool} {f : Strand → Strand} (h : s.Inv) : (s.onStrands p f).Inv := h
theorem State.Inv.onMill {f : Millrace → Millrace} (h : s.Inv) : (s.onMill f).Inv := h
theorem State.Inv.setCtr {c : Nat} {x : Ctr} (h : s.Inv) : (s.setCtr c x).Inv := h
theorem State.Inv.idleCtr {c : Nat} (h : s.Inv) : (s.idleCtr c).Inv := h
theorem State.Inv.spend {p : Nat} (h : s.Inv) : (s.spend p).Inv := h
theorem State.Inv.setOp {k : Nat} {e : EngOp} (h : s.Inv) : (s.setOp k e).Inv := h
theorem State.Inv.setCtx {k : Nat} {x : QCtx} (h : s.Inv) : (s.setCtx k x).Inv := h
theorem State.Inv.freeCtx {k : Nat} (h : s.Inv) : (s.freeCtx k).Inv := h
theorem State.Inv.setLeat {l : List LeatEntry} (h : s.Inv) : (s.setLeat l).Inv := h
theorem State.Inv.setBarrier {k : Nat} {b : Barrier} (h : s.Inv) : (s.setBarrier k b).Inv := h
theorem State.Inv.setLoop {l : Option SoftLoop} (h : s.Inv) : (s.setLoop l).Inv := h
theorem State.Inv.event {e : MgmtEvent} (h : s.Inv) : (s.event e).Inv := h
theorem State.Inv.dropTlb {p : TlbEntry → Bool} (h : s.Inv) : (s.dropTlb p).Inv := h
theorem State.Inv.sweep (h : s.Inv) : s.sweep.Inv := h

end Fields

section Options
variable {s t : State}

theorem State.Inv.take (h : s.Inv) (e : s.take = some t) : t.Inv := by
  unfold State.take at e
  split at e
  · cases e; exact h
  · cases e
  · cases e; exact h.same

theorem State.Inv.countStore (h : s.Inv) (e : s.countStore = some t) : t.Inv := by
  unfold State.countStore at e
  split at e
  · cases e; exact h
  · split at e
    · cases e; exact h
    · split at e
      · cases e
      · cases e; exact h.same

end Options
end Sys2Proof.Machine
end

section
/-!
PROOFS. Memory's canonical form through the operations on the state, the links and the memory system.
-/

set_option Elab.async false
namespace Sys2Proof.Machine

/-! Machine/Ops. -/

theorem State.Inv.raise {s : State} {f : FFlags} (h : s.Inv) : (s.raise f).Inv := h.same
theorem State.Inv.draw {s : State} {n : Nat} (h : s.Inv) : (s.draw n).2.Inv := h.same
theorem State.Inv.begin {s : State} {p : Posted} (h : s.Inv) : (s.begin p).Inv := h.same
theorem State.Inv.report {s : State} {f : FaultRec} (h : s.Inv) : (s.report f).Inv := h.same

theorem State.Inv.trapReturn {s : State} (h : s.Inv) : s.trapReturn.Inv := by
  unfold State.trapReturn
  simp only
  split <;> exact h.same

/-! Machine/Links. -/

theorem State.Inv.tell {s : State} {pkg : Nat} {m : Msg} (h : s.Inv) : (s.tell pkg m).Inv := h.sendMsg
theorem State.Inv.consume {s : State} {m : Msg} (h : s.Inv) : (s.consume m).Inv := h.onLinks

theorem State.Inv.receive {s : State} {p : Parcel} (h : s.Inv) : (s.receive p).Inv := by
  unfold State.receive
  simp only
  split
  · exact h
  · split
    · exact h.onLinks.carry.ite h.onLinks
    · split <;> exact h.onLinks.onLinks

theorem State.Inv.inTurn {s : State} {p : Nat} {f : List Byte} {take : Port → State} (h : s.Inv)
    (htake : ∀ (x : Port), (take x).Inv) : (s.inTurn p f take).Inv :=
  (htake _).ite (h.setPort.ite h)

theorem State.Inv.takeData {s : State} {p : Nat} {f : List Byte} (h : s.Inv) : (s.takeData p f).Inv :=
  h.inTurn (fun _ => h.setPort.foldl (fun _ _ h1 => h1.receive))

theorem State.Inv.dropFlit {s : State} {p : Nat} (h : s.Inv) : (s.dropFlit p).Inv := h.setPort

theorem State.Inv.execFlitData {port : Nat} {s : State} (h : s.Inv) : (execFlitData port s).Inv := by
  unfold Machine.execFlitData
  simp only
  split
  · exact h
  · exact h.dropFlit.setPort.ite (h.ite (h.dropFlit.takeData.ite h.dropFlit))

theorem State.Inv.execFlitCredit {port : Nat} {s : State} (h : s.Inv) : (execFlitCredit port s).Inv := by
  unfold Machine.execFlitCredit
  simp only
  split
  · exact h
  · exact (h.dropFlit.inTurn (fun _ => h.dropFlit.setPort)).ite h

/-! Machine/Mem. -/

theorem State.Inv.rebuildOwn {s : State} {d line : Nat} (h : s.Inv) : (s.rebuildOwn d line).Inv := h.onDie

theorem State.Inv.tensorEntry {s : State} {d part tix : Nat} (h : s.Inv) : (s.tensorEntry d part tix).2.Inv := by
  unfold State.tensorEntry
  split <;> exact h.tableRead.snd ‹_›

theorem State.Inv.tensorFor {s : State} {core : Nat} {t : TlbEntry} (h : s.Inv) : (s.tensorFor core t).2.Inv := by
  unfold State.tensorFor
  simp only
  split
  · exact h
  · split
    · exact h.tensorEntry.snd ‹_›
    · exact (h.tensorEntry.snd ‹_›).same

theorem State.Inv.locSync {s : State} {core : Nat} {c : Loc} (h : s.Inv) : (s.locSync core c).Inv := by
  unfold State.locSync
  split
  · exact h.readSync
  · exact h

theorem State.Inv.load {s : State} {va n : Nat} {fq : Feq} (h : s.Inv) : (s.load va n fq).Inv := by
  unfold State.load
  simp only
  split
  · exact h.access.snd ‹_›
  · exact h.access.snd ‹_›
  · split
    · exact (h.access.snd ‹_›).feLoad.snd ‹_›
    · exact ((h.access.snd ‹_›).feLoad.snd ‹_›).locSync

theorem State.Inv.store {s : State} {va n x : Nat} {fq : Feq} (h : s.Inv) : (s.store va n x fq).Inv := by
  unfold State.store
  simp only
  split
  · exact h.access.snd ‹_›
  · exact h.access.snd ‹_›
  · split
    · exact (h.access.snd ‹_›).feStore.snd ‹_›
    · exact ((h.access.snd ‹_›).feStore.snd ‹_›).write

end Sys2Proof.Machine
end

section
/-!
PROOFS. Memory's canonical form through operands, lanes, vector memory, streams, arms and atomics.
-/

set_option Elab.async false
namespace Sys2Proof.Machine

/-! Machine/Operands. -/

theorem State.Inv.withSrc {s : State} {src : Src} {k : Res Unit} (h : s.Inv) (hk : k.Inv) : (s.withSrc src k).Inv :=
  (hk.ite h.toTrap).fin

theorem State.Inv.privileged {s : State} {k : Res Unit} (h : s.Inv) (hk : k.Inv) : (s.privileged k).Inv := h.toTrap.ite hk
theorem State.Inv.queueDone {s : State} (h : s.Inv) : s.queueDone.Inv := h.onCsr
theorem Res.Inv.finQ {r : Res Unit} {s0 : State} (hr : r.Inv) : (r.finQ s0).Inv := (hr.bind (fun _ _ h1 => h1.queueDone.toOk)).fin

/-! Machine/Lanes. -/

theorem State.Inv.prune {s : State} {i : Nat} (h : s.Inv) : (s.prune i).Inv := by
  unfold State.prune
  simp only
  split
  · exact h
  · exact h.same.setW.onCsr

theorem State.Inv.waitAt {s : State} {i : Nat} {w : Wait} (h : s.Inv) : (s.waitAt i w).Inv := h.onCsr

theorem State.Inv.unit {s : State} {i : Nat} {k : State → Res Unit} (h : s.Inv) (hk : ∀ (t : State), t.Inv → (k t).Inv) :
    (s.unit i k).Inv := by
  unfold State.unit
  split
  · exact h.waitAt
  · exact hk _ (h.take ‹_›)

theorem State.Inv.takeUpTo {s : State} {n : Nat} (h : s.Inv) : (s.takeUpTo n).2.Inv := by
  unfold State.takeUpTo
  split
  · exact h
  · exact h.same

theorem State.Inv.upTo {s : State} {l : List Nat} {f : List Nat → State → Res Unit} {k : State → Res Unit} (h : s.Inv)
    (hf : ∀ x (t : State), t.Inv → (f x t).Inv) (hk : ∀ (t : State), t.Inv → (k t).Inv) : (s.upTo l f k).Inv := by
  unfold State.upTo
  refine Res.Inv.bind ?_ (fun a s1 h1 => ?_)
  · split
    · exact h.toOk.ite (hf _ _ h)
    · exact h.same.toOk.ite (hf _ _ h.same)
  · split
    · exact hk _ h1
    · exact h1.waitAt

theorem State.Inv.elemFault {s : State} {prunes : Bool} {c : Cause} {va : Nat → Nat} {l : List Nat} (h : s.Inv) :
    (s.elemFault prunes c va l).Inv := by
  induction l generalizing s with
  | nil =>
    simp only [State.elemFault]
    exact h
  | cons x r ih =>
    simp only [State.elemFault]
    exact (ih h.prune).ite h.toTrap

theorem State.Inv.eachElem {f : Nat → State → Res Unit} {l : List Nat} {s : State} (h : s.Inv)
    (hf : ∀ x (t : State), t.Inv → (f x t).Inv) : (eachElem f l s).Inv := by
  induction l generalizing s with
  | nil =>
    simp only [Machine.eachElem]
    exact h
  | cons x r ih =>
    simp only [Machine.eachElem]
    exact (h.unit (hf _)).bind (fun _ _ => ih)

theorem State.Inv.fill {s : State} {d : Reg} {w : Nat} {l : List Nat} {f : Nat → FRes} (h : s.Inv) : (s.fill d w l f).Inv :=
  h.setV.raise

theorem State.Inv.okSet {s : State} {d : Reg} {w : Nat} (h : s.Inv) : (s.okSet d w).Inv := h.setVok
theorem State.Inv.okAnd {s : State} {d : Reg} {srcs : BitVec 16} (h : s.Inv) : (s.okAnd d srcs).Inv := h.setVok
theorem State.Inv.okResult {s : State} {d : Reg} {srcs : List Reg} (h : s.Inv) : (s.okResult d srcs).Inv := h.okAnd.ite h.okSet

/-! Machine/Vmem. -/

theorem State.Inv.storeDone {s : State} (h : s.Inv) : s.storeDone.Inv := by
  unfold State.storeDone
  simp only
  split
  · exact h
  · exact h.same

theorem State.Inv.enter {s : State} {elems : List Nat} {block : Option Nat} {va loc : Nat} {data : List Byte} (h : s.Inv) :
    (s.enter elems block va loc data).Inv := by
  unfold State.enter
  simp only
  split
  · exact h
  · exact (h.draw.ite2 h).same rfl

theorem State.Inv.hold {s : State} {fq : Feq} {va : Nat} (h : s.Inv) : (s.hold fq va).Inv := h.ite h.same
theorem State.Inv.moved {s : State} {fq : Feq} {i : Nat} (h : s.Inv) : (s.moved fq i).Inv := h.ite h.same

theorem State.Inv.eachRun {f : List Nat → State → Res Unit} {l : List (List Nat)} {s : State} (h : s.Inv)
    (hf : ∀ x (t : State), t.Inv → (f x t).Inv) : (eachRun f l s).Inv := by
  induction l generalizing s with
  | nil =>
    simp only [Machine.eachRun]
    exact h
  | cons x r ih =>
    simp only [Machine.eachRun]
    exact (h.unit (hf _)).bind (fun _ _ => ih)

theorem State.Inv.inRun {f : Nat → State → Res Unit} {l : List Nat} {s : State} (h : s.Inv)
    (hf : ∀ x (t : State), t.Inv → (f x t).Inv) : (inRun f l s).Inv := by
  induction l generalizing s with
  | nil =>
    simp only [Machine.inRun]
    exact h
  | cons x r ih =>
    simp only [Machine.inRun]
    exact (hf _ _ h).bind (fun _ _ => ih)

theorem State.Inv.hostOrder {s : State} {l : Loc} (h : s.Inv) : (s.hostOrder l).Inv := by
  unfold State.hostOrder
  split
  · exact h.reach.ite h
  · exact h

theorem State.Inv.elemRead {s : State} {k : Kind} {va n algn : Nat} {fq : Feq} {see : Bool} (h : s.Inv) :
    (s.elemRead k va n algn fq see).2.Inv := by
  unfold State.elemRead
  simp only
  split
  · exact h.access.snd ‹_›
  · exact h.access.snd ‹_›
  · split
    · exact (h.access.snd ‹_›).feLoad.snd ‹_›
    · exact ((h.access.snd ‹_›).feLoad.snd ‹_›).hold.locSync

theorem State.Inv.elemEnter {s : State} {va algn : Nat} {bs : List Byte} {elems : List Nat} {block : Option Nat} (h : s.Inv) :
    (s.elemEnter va algn bs elems block).2.Inv := by
  unfold State.elemEnter
  split
  · exact h.access.snd ‹_›
  · exact h.access.snd ‹_›
  · exact (h.access.snd ‹_›).enter

theorem State.Inv.runWrite {s : State} {fq : Feq} {addr : Nat → Nat} {n : Nat} {data : Nat → List Byte} {l : List Nat} (h : s.Inv) :
    (s.runWrite fq addr n data l).Inv := by
  unfold State.runWrite
  simp only
  split
  · exact (h.access.snd ‹_›).elemFault
  · exact (h.access.snd ‹_›).waitAt
  · split
    · exact ((h.access.snd ‹_›).feStore.snd ‹_›).waitAt
    · exact (((h.access.snd ‹_›).feStore.snd ‹_›).hold.foldl (fun _ _ h1 => h1.moved)).writeSome.hostOrder

theorem State.Inv.writeRuns {s : State} {fq : Feq} {addr : Nat → Nat} {n : Nat} {data : Nat → List Byte} {l : List Nat} (h : s.Inv)
    : (s.writeRuns fq addr n data l).Inv :=
  h.eachRun (fun _ _ h1 => h1.runWrite)

theorem State.Inv.getFin {α : Type} {r : Get α × State} {prunes : Bool} {i : Nat} {k : α → State → Res Unit} (hr : r.2.Inv)
    (hk : ∀ x (t : State), t.Inv → (k x t).Inv) : (Get.fin r prunes i k).Inv := by
  unfold Get.fin
  split
  · exact hk _ _ hr
  · exact hr.elemFault
  · exact hr.waitAt

theorem State.Inv.mapped {s : State} {core part va : Nat} (h : s.Inv) : (s.mapped core part va).2.Inv := by
  unfold State.mapped
  simp only
  split
  · exact h
  · split
    · exact h
    · split <;> exact h.lookup.snd ‹_›

theorem State.Inv.leafOf {s : State} {core part : Nat} {k : Kind} {va : Nat} (h : s.Inv) : (s.leafOf core part k va).2.Inv := by
  unfold State.leafOf
  split
  · exact h.mapped.snd ‹_›
  · exact (h.mapped.snd ‹_›).ite2 ((h.mapped.snd ‹_›).ite2 (h.mapped.snd ‹_›))

theorem State.Inv.npOpen {s : State} {core part ea : Nat} (h : s.Inv) : (s.npOpen core part ea).2.Inv := by
  unfold State.npOpen
  simp only
  split
  · exact h
  · split
    · exact h.mapped.snd ‹_›
    · have h1 := h.mapped.snd ‹_›
      split
      · exact h1
      · split
        · exact h1.tensorFor.snd ‹_›
        · exact h1.tensorFor.snd ‹_›
        · have h2 := h1.tensorFor.snd ‹_›
          exact h2.ite2 h2

theorem State.Inv.npFault {s : State} {prunes : Bool} {f : NpFail} {ea : Nat} {l : List Nat} (h : s.Inv) :
    (s.npFault prunes f ea l).Inv := by
  unfold State.npFault
  split
  · exact h.elemFault
  · exact h.toOk.ite h.waitAt

theorem State.Inv.npStrip {s : State} {core part : Nat} {k : Kind} {t : NpT} {strip : Int} (h : s.Inv) :
    (s.npStrip core part k t strip).2.Inv := by
  unfold State.npStrip
  split
  · exact h
  · split
    · exact h.leafOf.snd ‹_›
    · exact (h.leafOf.snd ‹_›).ite2 (h.leafOf.snd ‹_›)

theorem State.Inv.readPlanes {get : ByteGet} {t : NpT} {strip : Int} {b n m : Nat} {s : State} (h : s.Inv)
    (hget : ∀ (t : State) x y, t.Inv → (get t x y).2.Inv) : (readPlanes get t strip b n m s).2.Inv := by
  induction n generalizing m s with
  | zero =>
    simp only [Machine.readPlanes]
    exact h
  | succ n ih =>
    simp only [Machine.readPlanes]
    split
    · exact (hget _ _ _ h).snd ‹_›
    · exact (hget _ _ _ h).snd ‹_›
    · split
      · exact (ih ((hget _ _ _ h).snd ‹_›)).snd ‹_›
      · exact ih ((hget _ _ _ h).snd ‹_›)

theorem State.Inv.readBlock {get : ByteGet} {t : NpT} {strip : Int} {b m : Nat} {s : State} (h : s.Inv)
    (hget : ∀ (t : State) x y, t.Inv → (get t x y).2.Inv) : (readBlock get t strip b m s).2.Inv := by
  unfold Machine.readBlock
  split
  · exact (h.readPlanes hget).snd ‹_›
  · exact (h.readPlanes hget).snd ‹_›
  · split <;> exact (hget _ _ _ ((h.readPlanes hget).snd ‹_›)).snd ‹_›

theorem State.Inv.npFetch {s : State} {k : Kind} {get : ByteGet} {t : NpT} {j m : Nat} (h : s.Inv)
    (hget : ∀ (t : State) x y, t.Inv → (get t x y).2.Inv) : (s.npFetch k get t j m).2.Inv := by
  unfold State.npFetch
  split
  split
  · exact h.npStrip.snd ‹_›
  · exact h.npStrip.snd ‹_›
  · split
    · exact (((h.npStrip.snd ‹_›).readBlock hget).snd ‹_›).readBlock hget
    · exact (h.npStrip.snd ‹_›).readBlock hget

/-! Machine/Streams. -/

theorem State.Inv.aheadGet {ah : NMap Byte} {s : State} {n m : Nat} (h : s.Inv) : (aheadGet ah s n m).2.Inv := by
  unfold Machine.aheadGet
  split
  · exact h
  · split
    · exact h.elemRead.snd ‹_›
    · exact h.elemRead

theorem State.Inv.aheadGet2 {ah : NMap Byte} {s : State} {va n : Nat} (h : s.Inv) : (aheadGet2 ah s va n).2.Inv := by
  unfold Machine.aheadGet2
  simp only
  split
  · rename_i u e
    have hu : u.Inv := h.aheadGet.snd e
    split
    · exact hu
    · split
      · exact hu.aheadGet.snd ‹_›
      · exact hu.aheadGet
  · exact h.aheadGet

theorem State.Inv.deliver {s : State} {need : Nat → Bool} {q : Stream} {r : Reg} {w : Nat} {l : List Nat} (h : s.Inv) :
    (s.deliver need q r w l).Inv := by
  induction l generalizing s with
  | nil =>
    simp only [State.deliver]
    exact h
  | cons x ls ih =>
    simp only [State.deliver]
    split
    · exact ih ((h.ite2 h.aheadGet2).snd ‹_›).setV
    · exact ((h.ite2 h.aheadGet2).snd ‹_›).toOk.ite (ih ((h.ite2 h.aheadGet2).snd ‹_›))
    · exact (h.ite2 h.aheadGet2).snd ‹_›

theorem State.Inv.putExp {s : State} {r : Reg} {j e : Nat} (h : s.Inv) : (s.putExp r j e).Inv := h.setV.setVok

theorem State.Inv.putBlocks {s : State} {r : Reg} {idx : List Nat} {e : Nat} (h : s.Inv) : (s.putBlocks r idx e).Inv :=
  h.foldl (fun _ _ h1 => h1.setVok.putExp.ite h1.setVok)

theorem State.Inv.deliverNp {s : State} {need : Nat → Bool} {q : Stream} {t : NpT} {r : Reg} {k total vl : Nat} {l : List Nat}
    (h : s.Inv) : (s.deliverNp need q t r k total vl l).Inv := by
  induction l generalizing s with
  | nil =>
    simp only [State.deliverNp]
    exact h
  | cons x ls ih =>
    simp only [State.deliverNp]
    split
    · exact ih h.setV.putBlocks
    · split
      · split
        · exact (h.npFetch (fun _ _ _ h1 => h1.aheadGet)).snd ‹_›
        · exact ih ((h.npFetch (fun _ _ _ h1 => h1.aheadGet)).snd ‹_›)
      · exact (h.npFetch (fun _ _ _ h1 => h1.aheadGet)).snd ‹_›
      · exact ih ((h.npFetch (fun _ _ _ h1 => h1.aheadGet)).snd ‹_›).setV.putBlocks

theorem State.Inv.freeBlocks {s : State} {r : Reg} {l : List Nat} (h : s.Inv) : (s.freeBlocks r l).Inv := by
  induction l generalizing s with
  | nil =>
    simp only [State.freeBlocks]
    exact h
  | cons x ls ih =>
    simp only [State.freeBlocks]
    exact ih (h.draw.draw.putExp.ite h.draw.draw).setVok

theorem State.Inv.deliverSrc {s : State} {need : Nat → Bool} {req : SReq} {q : Stream} (h : s.Inv) : (s.deliverSrc need req q).Inv := by
  unfold State.deliverSrc
  extract_lets +onlyGivenNames np
  have hnp : np.2.Inv := by
    simp only [np]
    split
    · exact h
    · split
      · exact (h.mapped.snd ‹_›).ite2 (h.mapped.snd ‹_›).npOpen
      · exact h.mapped.snd ‹_›
      · exact h.mapped.snd ‹_›
  clear_value np
  simp only
  split
  · exact hnp.toTrap.ite hnp.deliver.map
  · split <;> exact hnp
  · exact hnp.toTrap.ite (hnp.deliverNp.bind (fun _ _ h1 => h1.freeBlocks.toOk))

theorem State.Inv.deliverAll {need : Nat → Bool} {seen : List Reg} {l : List SReq} {s : State} (h : s.Inv) :
    (State.deliverAll need seen l s).Inv := by
  induction l generalizing seen s with
  | nil =>
    simp only [State.deliverAll]
    exact h
  | cons x r ih =>
    simp only [State.deliverAll]
    split
    · exact ih h
    · exact (ih h).ite (h.deliverSrc.bind (fun _ _ h1 => (ih h1).bind (fun _ _ h2 => h2.toOk)))

theorem State.Inv.advance {s : State} {adv : List (Reg × Nat)} (h : s.Inv) : (s.advance adv).Inv := by
  unfold State.advance
  refine h.foldl (fun s1 x h1 => ?_)
  simp only
  split
  · exact h1.same
  · exact h1

theorem State.Inv.stillCounted {s0 s : State} (hs : s.Inv) : (s0.stillCounted s).Inv := by
  unfold State.stillCounted
  simp only
  split
  · rename_i e e1
    exact hs.same.ite hs
  · exact hs

theorem State.Inv.vecRes {s : State} {t : Ctl} {F : VecForm} {body : List Nat → State → Res Unit} (h : s.Inv)
    (hbody : ∀ x (t : State), t.Inv → (body x t).Inv) : (s.vecRes t F body).Inv := by
  unfold State.vecRes
  simp only
  split
  · exact h
  · split
    · exact h
    · split
      · exact h
      · refine (h.deliverAll.waits (fun _ h1 => h1.same)).bind (fun a s1 h1 => ?_)
        split
        · exact (hbody _ _ h1).bind (fun _ _ h2 => h2.advance.queueDone.toOk)
        · exact ((hbody _ _ h1).bind (fun _ _ h2 => h2.stillCounted.toTrap)).ite h1.toTrap

theorem State.Inv.vecOp {s : State} {t : Ctl} {F : VecForm} {nx : Word} {body : List Nat → State → Res Unit} (h : s.Inv)
    (hbody : ∀ x (t : State), t.Inv → (body x t).Inv) : (s.vecOp t F nx body).Inv :=
  (h.vecRes hbody).fin

/-! Machine/Arms. -/

theorem State.Inv.fillW {s : State} {d : WReg} {l : List Nat} {f : Nat → FRes} (h : s.Inv) : (s.fillW d l f).Inv := h.setW.raise

theorem State.Inv.weightOp {s : State} {t : Ctl} {legal ok : Bool} {d : WReg} {srcs : List Reg} {nx : Word} {f : State → Nat → FRes}
    (h : s.Inv) : (s.weightOp t legal ok d srcs nx f).Inv :=
  h.vecOp (fun _ _ h1 => h1.fillW.toOk)

theorem State.Inv.weightSig {s : State} {t : Ctl} {d : WReg} {a : Reg} {f : Rnd → FVal → FRes} (h : s.Inv) :
    (s.weightSig t d a f).Inv :=
  h.weightOp

theorem State.Inv.putMask {s : State} {d : MReg} {l : List Nat} {f : Nat → Bool} (h : s.Inv) : (s.putMask d l f).Inv := h.setM
theorem State.Inv.redirect {s : State} {pc : Word} (h : s.Inv) : (s.redirect pc).Inv := h.same

theorem State.Inv.skipTo {s0 s : State} {skip : Bool} {off : BitVec 15} (hs : s.Inv) : (s0.skipTo s skip off).Inv :=
  (hs.queueDone.redirect.ite hs.queueDone).toOk.fin

theorem State.Inv.execArmb {a : WReg} {off : BitVec 15} {c : Ctl} {s : State} (h : s.Inv) : (execArmb a off c s).Inv := by
  unfold Machine.execArmb
  simp only
  split
  · exact h.toTrap.fin
  · exact h.toTrap.fin
  · exact h.toTrap.fin.ite (h.toTrap.fin.ite h.same.skipTo)

theorem State.Inv.retranslate {s : State} {l : List (WinEnt × List (Option Byte))} (h : s.Inv) : (s.retranslate l).Inv := by
  induction l generalizing s with
  | nil =>
    simp only [State.retranslate]
    exact h
  | cons x r ih =>
    simp only [State.retranslate]
    split
    · exact h.access.snd ‹_›
    · exact h.access.snd ‹_›
    · exact (ih (h.access.snd ‹_›)).map

theorem State.Inv.putGroup {s : State} {l : List (WinEnt × Loc × List (Option Byte))} (h : s.Inv) : (s.putGroup l).Inv :=
  (h.room.foldl (fun _ _ h1 => h1.writeSome)).foldl (fun _ _ h1 => h1.hostOrder)

theorem State.Inv.commitWindow {s : State} {l : List (WinEnt × List (Option Byte))} (h : s.Inv) : (s.commitWindow l).Inv := by
  unfold State.commitWindow
  refine h.retranslate.bind fun ws s hs => ?_
  have hf : ((ws.splitBy fun x y => x.1.sameEvent y.1).foldl State.putGroup s).Inv := hs.foldl fun _ _ h1 => h1.putGroup
  exact hf.same

theorem State.Inv.handOver {s : State} {outer : Arm} {r : List Arm} {l : List (WinEnt × List (Option Byte))} (h : s.Inv) :
    (s.handOver outer r l).Inv :=
  h.toTrap.ite h.same.toOk

theorem State.Inv.execArmend {c : Ctl} {s : State} (h : s.Inv) : (execArmend c s).Inv := by
  unfold Machine.execArmend
  refine Res.Inv.finQ ?_
  split
  · exact h
  · exact h
  · split
    · exact h
    · split
      · exact h.commitWindow
      · exact h.handOver

theorem State.Inv.execJoin {d a b : Reg} {c : WReg} {t : Ctl} {s : State} (h : s.Inv) : (execJoin d a b c t s).Inv := by
  unfold Machine.execJoin
  refine h.vecOp (fun x t1 h1 => ?_)
  split
  · exact h1.fill.okSet
  · exact h1

theorem State.Inv.execJoinb {d a b c : Reg} {e : WReg} {t : Ctl} {s : State} (h : s.Inv) : (execJoinb d a b c e t s).Inv := by
  unfold Machine.execJoinb
  refine h.vecOp (fun x t1 h1 => ?_)
  simp only
  split
  · exact h1
  · exact h1.foldl (fun _ _ h2 => h2.fill.okSet)

theorem State.Inv.execWloop {d : WReg} {a : Reg} {off : BitVec 15} {c : Ctl} {s : State} (h : s.Inv) : (execWloop d a off c s).Inv := by
  unfold Machine.execWloop
  simp only
  split
  · exact h.setLoop.skipTo.ite h.skipTo
  · exact h.toTrap.fin.ite (h.setLoop.skipTo.ite h.setLoop.skipTo)

theorem State.Inv.execWlend {off : BitVec 15} {c : Ctl} {s : State} (h : s.Inv) : (execWlend off c s).Inv := by
  unfold Machine.execWlend
  split
  · exact h.toTrap.fin
  · exact h.skipTo.ite h.toTrap.fin

/-! Machine/Atomics. -/

theorem State.Inv.atomicAt {s : State} {va a n : Nat} {op : RemoteOp} (h : s.Inv) : (s.atomicAt va a n op).2.Inv := by
  unfold State.atomicAt
  simp only
  split
  · split <;> exact (h.atomicFar.snd ‹_›).onErrand
  · exact h.atomicNear

end Sys2Proof.Machine
end

section
/-!
PROOFS. Memory's canonical form through control, reels, strands and the agents' accesses.
-/

set_option Elab.async false
namespace Sys2Proof.Machine

/-! Machine/Control. -/

theorem State.Inv.jump {s s' : State} {pc : Word} (hs' : s'.Inv) : (s.jump s' pc).Inv := hs'.toOk.fin
theorem State.Inv.branch {s : State} {c : Cond} {a b : Reg} {off : BitVec 15} (h : s.Inv) : (s.branch c a b off).Inv := h.jump
theorem State.Inv.setEcnt {s : State} {i : Fin 4} {op : CsrOp} {x : Word} (h : s.Inv) : (s.setEcnt i op x).Inv := h.onCore

theorem State.Inv.csrWrite {s : State} {r : Csr} {op : CsrOp} {x : Word} (h : s.Inv) : (s.csrWrite r op x).Inv := by
  unfold State.csrWrite
  simp only
  split
  · exact h.same
  · exact h.same
  · exact h.same
  · exact h.same
  · exact h.same
  · exact h.same
  · exact h.same
  · exact h.same
  · exact h.same
  · exact h.same
  · exact h.setEcnt
  · exact h.setEcnt
  · exact h.setEcnt
  · exact h.setEcnt
  · exact h.same
  · exact h.same
  · exact h.same
  · exact h.same
  · exact h
  · exact h
  · exact h
  · exact h
  · exact h
  · exact h
  · exact h

theorem State.Inv.csrForm {s : State} {r : Csr} {op : CsrOp} {a : Reg} (h : s.Inv) : (s.csrForm r op a).Inv :=
  (h.toTrap.ite h.csrWrite.toOk).fin

/-! Machine/Reel. -/

theorem State.Inv.writeScalars {s : State} {a : Strand} (h : s.Inv) : (s.writeScalars a).Inv := h.physWrite
theorem State.Inv.readScalars {s : State} {a : Strand} (h : s.Inv) : (s.readScalars a).2.Inv := h.foldl (fun _ _ h1 => h1.readSync)

/-! Machine/Strands. -/

theorem State.Inv.onStrand {s : State} {sid : Nat} {f : Strand → Strand} (h : s.Inv) : (s.onStrand sid f).Inv := h.onAct.ite h.same

theorem State.Inv.wakeIf {s : State} {sid : Nat} {x : Word} {p : Strand → Wait → Bool} (h : s.Inv) : (s.wakeIf sid x p).Inv :=
  h.onStrand

theorem State.Inv.pokeFence {s : State} {sid : Nat} (h : s.Inv) : (s.pokeFence sid).Inv := h.wakeIf
theorem State.Inv.stopNode {s : State} {node : Nat} (h : s.Inv) : (s.stopNode node).Inv := h.onStrands
theorem State.Inv.pass {s : State} {core k : Nat} (h : s.Inv) : (s.pass core k).Inv := h.onCore.onStrands

theorem State.Inv.save {s : State} {sid : Nat} {life : Life} (h : s.Inv) : (s.save sid life).Inv := by
  unfold State.save
  simp only
  split
  · exact h
  · exact h.onStrand.writeReel

theorem State.Inv.saveTrapped {s : State} {core : Nat} (h : s.Inv) : (s.saveTrapped core).Inv := h.foldl (fun _ _ h1 => h1.save)
theorem State.Inv.freeQueries {s : State} {sid : Nat} (h : s.Inv) : (s.freeQueries sid).Inv := h.same
theorem State.Inv.freeOps {s : State} {sid : Nat} (h : s.Inv) : (s.freeOps sid).Inv := h.same

theorem State.Inv.gateRequest {s : State} {pair : Nat} {gate : Bool} (h : s.Inv) : (s.gateRequest pair gate).Inv := by
  unfold State.gateRequest
  simp only
  split
  · exact h
  · split
    · exact h.onPair.saveTrapped
    · exact h.onPair
    · exact h.onPair
    · exact h.onPair
    · exact h

/-! Machine/Agents. -/

theorem State.Inv.miss {s : State} {c : Stop} (h : s.Inv) : (s.miss c).Inv := by
  unfold State.miss
  split
  · exact h.onLinks
  · exact h

theorem State.Inv.missing {s t : State} {x : Nat × State} (h : s.Inv) (e : s.missing t = some x) : x.2.Inv := by
  unfold State.missing at e
  simp only [Option.map_eq_some_iff] at e
  obtain ⟨l, -, rfl⟩ := e
  exact h.foldl fun _ _ h1 => h1.ask

theorem State.Inv.onceThere {s t : State} (h : s.Inv) (ht : t.Inv) : (s.onceThere t).Inv := by
  unfold State.onceThere
  split
  · exact h.missing ‹_›
  · exact ht

theorem State.Inv.clearPoison {s : State} {a : Nat} {bs : List Byte} (h : s.Inv) : (s.clearPoison a bs).Inv := h.same.ite h

theorem State.Inv.onNode {s : State} {n : Nat} {f : NodeRun → NodeRun} (h : s.Inv) : (s.onNode n f).Inv := by
  unfold State.onNode
  split
  · exact h.onMill
  · exact h

theorem State.Inv.nodeReady {s : State} {n : Nat} (h : s.Inv) : (s.nodeReady n).Inv := by
  unfold State.nodeReady
  split
  · exact h
  · exact h.ite (h.onNode.onMill.ite h.onNode.onMill)

theorem State.Inv.underflow {s : State} {c : Nat} (h : s.Inv) : (s.underflow c).Inv := by
  unfold State.underflow
  split
  · exact h.onMill
  · exact h

theorem State.Inv.ctrTo {s : State} {c n : Nat} (h : s.Inv) : (s.ctrTo c n).Inv := by
  unfold State.ctrTo
  simp only
  split
  · exact h.setCtr
  · exact h.underflow
  · split
    · exact h.setCtr
    · split
      · exact h.setCtr.nodeReady
      · exact h.setCtr

theorem State.Inv.ctrSet {s : State} {c n : Nat} (h : s.Inv) : (s.ctrSet c n).Inv := h.ctrTo
theorem State.Inv.ctrDec {s : State} {c n : Nat} (h : s.Inv) : (s.ctrDec c n).Inv := h.ctrTo
theorem State.Inv.bindCtr {s : State} {c count : Nat} {b : CtrBind} (h : s.Inv) : (s.bindCtr c count b).Inv := h.ite h.setCtr.ctrDec
theorem State.Inv.update {s : State} {part c n : Nat} (h : s.Inv) : (s.update part c n).Inv := h.spend.ctrDec.ite h.onMill
theorem State.Inv.serveUpdates {s : State} (h : s.Inv) : s.serveUpdates.Inv := h.onMill.foldl (fun _ _ h1 => h1.update)

theorem State.Inv.ctrDone {s : State} {part : Nat} {c : Option Nat} (h : s.Inv) : (s.ctrDone part c).Inv := by
  unfold State.ctrDone
  split
  · exact h.update
  · exact h

theorem State.Inv.engReport {s : State} {part : Nat} {owner : FaultOf} {epc tval : Word} {cause : BitVec 8} {core strand : Nat}
    (h : s.Inv) : (s.engReport part owner epc tval cause core strand).Inv :=
  h.same.report

theorem State.Inv.haltStrand {s : State} {sid : Nat} (h : s.Inv) : (s.haltStrand sid).Inv :=
  (h.foldl (fun _ _ h1 => h1.engReport)).onStrand.freeQueries.freeOps

end Sys2Proof.Machine
end

section
/-!
PROOFS. Memory's canonical form through the Millrace and the control-strand instructions.
-/

set_option Elab.async false
namespace Sys2Proof.Machine

/-! Machine/Mill. -/

theorem State.Inv.scanCode {d part n m : Nat} {c : Bool} {s : State} (h : s.Inv) : (State.scanCode d part n m c s).2.Inv := by
  induction n generalizing m c s with
  | zero =>
    simp only [State.scanCode]
    exact h
  | succ n ih =>
    simp only [State.scanCode]
    split
    · exact ih (h.agentRead.snd ‹_›)
    · exact h.agentRead.snd ‹_›

theorem State.Inv.codePages {s : State} {d part stop n m : Nat} (h : s.Inv) : (s.codePages d part stop n m).2.Inv := by
  induction n generalizing s m with
  | zero =>
    simp only [State.codePages]
    exact h
  | succ n ih =>
    simp only [State.codePages]
    split
    · exact h
    · split
      · exact h
      · split
        · exact (h.walk.snd ‹_›).miss
        · exact (ih (h.walk.snd ‹_›)).ite2 (h.walk.snd ‹_›)

theorem State.Inv.measure {s : State} {part base : Nat} {image : List Byte} (h : s.Inv) : (s.measure part base image).Inv :=
  (h.physWrite.ite h).same rfl

theorem State.Inv.header {s : State} {d part base : Nat} (h : s.Inv) : (s.header d part base).2.Inv := by
  unfold State.header
  split
  · exact h.agentRead.snd ‹_›
  · split
    · rename_i e _ _ _ e1
      exact (h.agentRead.snd e).agentRead.snd e1
    · rename_i e _ _ _ e1
      split
      · exact (h.agentRead.snd e).agentRead.snd e1
      · split
        · rename_i e2
          exact ((h.agentRead.snd e).agentRead.snd e1).agentRead.snd e2
        · rename_i e2
          split <;> exact ((h.agentRead.snd e).agentRead.snd e1).agentRead.snd e2

theorem State.Inv.verify {s : State} {part base : Nat} {user : Bool} (h : s.Inv) : (s.verify part base user).2.Inv := by
  unfold State.verify
  simp only
  split
  · exact h
  · split
    · exact h
    · split
      · exact h.header.snd ‹_›
      · split
        · exact (h.header.snd ‹_›).scanCode.snd ‹_›
        · split
          · exact ((h.header.snd ‹_›).scanCode.snd ‹_›).codePages
          · split
            · exact ((h.header.snd ‹_›).scanCode.snd ‹_›).codePages
            · split
              · exact ((h.header.snd ‹_›).scanCode.snd ‹_›).codePages
              · split
                · exact ((h.header.snd ‹_›).scanCode.snd ‹_›).codePages
                · split
                  · exact ((h.header.snd ‹_›).scanCode.snd ‹_›).codePages.agentRead.snd ‹_›
                  · exact (((h.header.snd ‹_›).scanCode.snd ‹_›).codePages.agentRead.snd ‹_›).measure.onMill

theorem State.Inv.kref {s : State} {part base : Nat} {f : Nat → Nat} (h : s.Inv) : (s.kref part base f).Inv := h.onMill

theorem State.Inv.nameKernel {s : State} {replay : Option Nat} {part base : Nat} (h : s.Inv) : (s.nameKernel replay part base).Inv := by
  unfold State.nameKernel
  split
  · exact h
  · exact h.ite h.kref.onMill

theorem State.Inv.readNodes {s : State} {part base n m : Nat} (h : s.Inv) : (s.readNodes part base n m).2.Inv := by
  induction n generalizing s m with
  | zero =>
    simp only [State.readNodes]
    exact h
  | succ n ih =>
    simp only [State.readNodes]
    split
    · exact h.agentRead.snd ‹_›
    · split
      · exact h.agentRead.snd ‹_›
      · split
        · exact (ih (h.agentRead.snd ‹_›)).snd ‹_›
        · exact ih (h.agentRead.snd ‹_›)

theorem State.Inv.releaseKernels {s : State} (h : s.Inv) : s.releaseKernels.Inv := h.onMill

theorem State.Inv.replayFails {s : State} {id : Nat} {r : Replay} {tval : Nat} {c : Cause} (h : s.Inv) :
    (s.replayFails id r tval c).Inv :=
  h.engReport.onMill.releaseKernels

theorem State.Inv.readKernels {s : State} {user : Bool} {l : List NodeRun} (h : s.Inv) : (s.readKernels user l).2.Inv := by
  induction l generalizing s with
  | nil =>
    simp only [State.readKernels]
    exact h
  | cons x r ih =>
    simp only [State.readKernels]
    split
    · exact h.verify.snd ‹_›
    · split
      · exact (ih (h.verify.snd ‹_›)).snd ‹_›
      · exact ih (h.verify.snd ‹_›)

theorem State.Inv.snapshot {s : State} {r : Replay} {g : Machine.Graph} (h : s.Inv) : (s.snapshot r g).2.Inv := by
  unfold State.snapshot
  simp only
  split
  · exact h.agentSwap.snd ‹_›
  · exact h.agentSwap.snd ‹_›
  · split
    · exact (h.agentSwap.snd ‹_›).agentRead.snd ‹_›
    · split
      · exact ((h.agentSwap.snd ‹_›).agentRead.snd ‹_›).agentWrite.snd ‹_›
      · split
        · rename_i e _ _ _ e1
          exact (((h.agentSwap.snd ‹_›).agentRead.snd ‹_›).agentWrite.snd e).agentWrite.snd e1
        · rename_i e _ _ _ e1
          exact ((((h.agentSwap.snd ‹_›).agentRead.snd ‹_›).agentWrite.snd e).agentWrite.snd e1).performAt

theorem State.Inv.goLive {s : State} {id : Nat} {r : Replay} {g : Machine.Graph} {slot gen : Nat} {ns : List NodeRun} (h : s.Inv) :
    (s.goLive id r g slot gen ns).Inv :=
  (h.onMill.foldl (fun _ _ h1 => h1.kref)).foldl (fun _ _ h1 => h1.bindCtr)

theorem State.Inv.verifyReplay {s : State} {id : Nat} {r : Replay} {b : List Byte} {slot gen : Nat} (h : s.Inv) :
    (s.verifyReplay id r b slot gen).Inv := by
  unfold State.verifyReplay
  simp only
  split
  · exact h.replayFails
  · split
    · exact (h.readNodes.snd ‹_›).replayFails
    · split
      · exact ((h.readNodes.snd ‹_›).readKernels.snd ‹_›).replayFails
      · split
        · exact ((h.readNodes.snd ‹_›).readKernels.snd ‹_›).replayFails
        · exact ((h.readNodes.snd ‹_›).readKernels.snd ‹_›).goLive

theorem State.Inv.sent {s : State} {id : Nat} {r : Replay} {home tag : Nat} (h : s.Inv) : (s.sent id r home tag).Inv := h.onMill

theorem State.Inv.bindReplay {s0 : State} {id : Nat} (h : s0.Inv) : (s0.bindReplay id).Inv := by
  unfold State.bindReplay
  simp only
  split
  · exact h
  · split
    · exact h
    · split
      · exact (h.agentRead.snd ‹_›).replayFails
      · split
        · exact h
        · split
          · exact h
          · split
            · exact ((h.agentRead.snd ‹_›).snapshot.snd ‹_›).sent.ite h
            · exact h
            · exact ((h.agentRead.snd ‹_›).snapshot.snd ‹_›).replayFails
            · exact ((h.agentRead.snd ‹_›).snapshot.snd ‹_›).verifyReplay

theorem State.Inv.forget {s : State} {n : Nat} (h : s.Inv) : (s.forget n).Inv := h.same

theorem State.Inv.endReplay {s : State} {id : Nat} {r : Replay} (h : s.Inv) : (s.endReplay id r).Inv :=
  (((h.foldl (fun _ _ h1 => h1.idleCtr)).foldl (fun _ _ h1 => h1.kref)).foldl (fun _ _ h1 => h1.forget)).onMill.releaseKernels

theorem State.Inv.settleReplay {s : State} {id : Nat} (h : s.Inv) : (s.settleReplay id).Inv := by
  unfold State.settleReplay
  simp only
  split
  · exact h
  · split
    · exact h
    · exact h.endReplay.ctrDone.ite h
    · exact h.endReplay.ite h

theorem State.Inv.drainReplay {s : State} {id : Nat} (h : s.Inv) : (s.drainReplay id).Inv := by
  unfold State.drainReplay
  simp only
  split
  · exact h
  · exact h.settleReplay.ite h.onMill.settleReplay

theorem State.Inv.performNode {s : State} {x : NodeRun} (h : s.Inv) : (s.performNode x).Inv := h.foldl (fun _ _ h1 => h1.performAt)

theorem State.Inv.addErrs {s t : State} {x : NodeRun} (h : s.Inv) (e : s.addErrs x = some t) : t.Inv := by
  unfold State.addErrs at e
  split at e
  · cases e; exact h
  · split at e
    · cases e; exact h.agentRead.snd ‹_›
    · split at e
      · cases e
      · cases e; exact ((h.agentRead.snd ‹_›).agentWrite.snd ‹_›).performAt

theorem State.Inv.nodeOver {s : State} {n : Nat} {x : NodeRun} (h : s.Inv) : (s.nodeOver n x).Inv := by
  unfold State.nodeOver
  extract_lets s1 s2 s3
  have h2 : s2.Inv := (h.onNode.foldl fun _ _ h1 => h1.update).forget
  have h3 : s3.Inv := by
    simp only [s3]
    split
    · exact h2.idleCtr.ite h2
    · exact h2
  clear_value s3
  split
  · exact h3.settleReplay
  · exact h3.onMill.releaseKernels

theorem State.Inv.nodeGone {s : State} {n : Nat} {x : NodeRun} (h : s.Inv) : (s.nodeGone n x).Inv := by
  unfold State.nodeGone
  split
  · exact h.settleReplay
  · exact h.forget.onMill.releaseKernels

theorem State.Inv.nodeComplete {s : State} {n : Nat} (h : s.Inv) : (s.nodeComplete n).Inv := by
  unfold State.nodeComplete
  split
  · exact h
  · split
    · exact h
    · split
      · exact h.nodeGone
      · split
        · exact h
        · exact (h.performNode.addErrs ‹_›).nodeOver

theorem State.Inv.afterHalt {s : State} {node : Nat} (h : s.Inv) : (s.afterHalt node).Inv := by
  unfold State.afterHalt
  split
  · split
    · split
      · exact h.settleReplay.ite h
      · exact h
    · exact h
  · exact h.releaseKernels

theorem State.Inv.writeRecord {s : State} {f : FaultRec} (h : s.Inv) : (s.writeRecord f).Inv := by
  unfold State.writeRecord
  split
  · exact h.same
  · split
    · exact h
    · extract_lets r rctr s1 s2 s3 s4
      have h1 : s1.Inv := h.physWrite
      have h3 : s3.Inv := h1.setCtr.onMill
      have h4 : s4.Inv := h3.spend.ctrDec
      exact h4.same

theorem State.Inv.recordStep {s : State} (h : s.Inv) : s.recordStep.Inv := by
  unfold State.recordStep
  split
  · cases s.mill.faults.findSome? fun f => if f.toFirmware then none else s.replyFar f.part with
    | none => exact h
    | some a => exact h.ask
  · exact State.Inv.writeRecord h.same

theorem State.Inv.resumeStrand {s : State} {sid : Nat} {b : List Byte} (h : s.Inv) : (s.resumeStrand sid b).Inv := by
  unfold State.resumeStrand
  simp only
  split
  · exact h
  · exact (h.readScalars.ite2 h).onStrand.writeScalars.stopNode.ite (h.readScalars.ite2 h).onStrand

theorem State.Inv.killStrand {s : State} {sid : Nat} (h : s.Inv) : (s.killStrand sid).Inv := by
  unfold State.killStrand
  simp only
  split
  · exact h
  · split
    · exact h.haltStrand.afterHalt
    · split
      · exact h.haltStrand.onNode.drainReplay.afterHalt
      · exact h.haltStrand.onNode

/-! Machine/Context. -/

theorem State.Inv.execWaitt {a b : Reg} {c : Ctl} {s : State} (h : s.Inv) : (execWaitt a b c s).Inv := by
  unfold Machine.execWaitt
  refine Res.Inv.finQ ?_
  simp only
  split
  · exact h
  · split
    · exact h.access.snd ‹_›
    · exact h.access.snd ‹_›
    · exact (h.access.snd ‹_›).locSync.toWait.ite (h.access.snd ‹_›).locSync.toOk

theorem State.Inv.execGrant {d a : Reg} {c : Ctl} {s : State} (h : s.Inv) : (execGrant d a c s).Inv := by
  unfold Machine.execGrant
  extract_lets l old s1
  have h1 : s1.Inv := h.onAct
  have h2 : (s1.setG d (BitVec.ofNat 64 l.length)).Inv := h1.setG
  exact h2.toOk.finQ

theorem State.Inv.execPgate {a b : Reg} {c : Ctl} {s : State} (h : s.Inv) : (execPgate a b c s).Inv :=
  (h.privileged (h.toTrap.ite (h.toOk.ite (h.gateRequest.toWait.ite h.gateRequest.toOk)))).finQ

end Sys2Proof.Machine
end

section
/-!
PROOFS. Memory's canonical form through engine operations, their requests, queries and seats.
-/

set_option Elab.async false
namespace Sys2Proof.Machine

/-! Machine/Engines. -/

theorem State.Inv.engBytes {s : State} {d core part va : Nat} {l : Loc} {m : Nat} (h : s.Inv) :
    (s.engBytes d core part va l m).2.Inv := by
  unfold State.engBytes
  simp only
  split
  · exact h.ask.ite2 h.readSync
  · exact h

theorem State.Inv.engReadF {d core part n m k : Nat} {s : State} (h : s.Inv) : (State.engReadF d core part n m k s).2.Inv := by
  induction n generalizing m k s with
  | zero =>
    simp only [State.engReadF]
    exact h
  | succ n ih =>
    simp only [State.engReadF]
    split
    · exact h
    · split
      · exact h.check.snd ‹_›
      · exact h.check.snd ‹_›
      · split
        · split
          · exact (ih ((h.check.snd ‹_›).engBytes.snd ‹_›)).snd ‹_›
          · exact ih ((h.check.snd ‹_›).engBytes.snd ‹_›)
        · exact (h.check.snd ‹_›).engBytes

theorem State.Inv.engRead {s : State} {core part va n : Nat} (h : s.Inv) : (s.engRead core part va n).2.Inv := h.engReadF
theorem State.Inv.fillPad {s : State} {a n : Nat} (h : s.Inv) : (s.fillPad a n).Inv := (h.foldl (fun _ _ h1 => h1.setFull)).ite h

theorem State.Inv.writeGranules {s : State} {d quad a : Nat} {bs : List Byte} (h : s.Inv) : (s.writeGranules d quad a bs).Inv :=
  h.foldl (fun _ _ h1 => h1.clearPoison.write)

theorem State.Inv.engPut {s : State} {core a : Nat} {bs : List Byte} {fill : Bool} (h : s.Inv) : (s.engPut core a bs fill).Inv :=
  h.writeGranules.fillPad.ite h.writeGranules

theorem State.Inv.engLoc {s : State} {core part va n : Nat} {k : Kind} {whole : Bool} (h : s.Inv) :
    (s.engLoc core part va n k whole).2.Inv := by
  unfold State.engLoc
  split <;> exact h.check.snd ‹_›

theorem State.Inv.readShape {s : State} {core part va : Nat} (h : s.Inv) : (s.readShape core part va).2.Inv := by
  unfold State.readShape
  simp only
  split
  · exact h
  · split
    · exact h.engRead.snd ‹_›
    · exact h.engRead.snd ‹_›
    · exact (h.engRead.snd ‹_›).onCore

theorem State.Inv.gather {e : EngOp} {dst src : Nat} {l : List Nat} {ls : List (Option Byte)} {s : State} (h : s.Inv) :
    (State.gather e dst src l ls s).2.Inv := by
  induction l generalizing ls s with
  | nil =>
    simp only [State.gather]
    exact h
  | cons x r ih =>
    simp only [State.gather]
    split
    · exact h
    · split
      · exact h
      · split
        · exact h.engRead.snd ‹_›
        · exact h.engRead.snd ‹_›
        · exact ih (h.engRead.snd ‹_›)

theorem State.Inv.copyGranule {s : State} {e : EngOp} {dst src u : Nat} (h : s.Inv) : (s.copyGranule e dst src u).2.Inv := by
  unfold State.copyGranule
  simp only
  split
  · exact h.gather.snd ‹_›
  · exact h.gather.snd ‹_›
  · have h1 := h.gather.snd ‹_›
    split
    · exact h1.engLoc.snd ‹_›
    · exact h1.engLoc.snd ‹_›
    · have h2 := h1.engLoc.snd ‹_›
      exact (h2.clearPoison.ite h2).writeSome.fillPad

theorem State.Inv.ofWait {w : Wait} {s : State} (h : s.Inv) : (Move.ofWait w s).Inv := by
  unfold Move.ofWait
  split
  · exact h
  · exact trivial

theorem State.Inv.moveOn {e : EngOp} {u : Nat} {go : Get (List Nat) × State} (hgo : go.2.Inv) : (e.moveOn u go).Inv := by
  unfold EngOp.moveOn
  split
  · exact trivial
  · split
    · exact trivial
    · split
      · exact hgo
      · exact trivial
      · exact hgo.ofWait

theorem State.Inv.listElem {s : State} {e : EngOp} {gather : Bool} {dst src idx esz j : Nat} (h : s.Inv) :
    (s.listElem e gather dst src idx esz j).2.Inv := by
  unfold State.listElem
  simp only
  split
  · exact h.engRead.snd ‹_›
  · exact h.engRead.snd ‹_›
  · have h1 := h.engRead.snd ‹_›
    split
    · exact h1.engLoc.snd ‹_›
    · exact h1.engLoc.snd ‹_›
    · have h2 := h1.engLoc.snd ‹_›
      split
      · exact h2.engLoc.snd ‹_›
      · exact h2.engLoc.snd ‹_›
      · have h3 := h2.engLoc.snd ‹_›
        exact h3.ask.ite2 (h3.ite h3.readSync)

theorem State.Inv.listMove {s : State} {e : EngOp} {gather : Bool} {dst src idx esz n : Nat} (h : s.Inv) :
    (s.listMove e gather dst src idx esz n).Inv := by
  unfold State.listMove
  split
  · exact Move.Inv.ite trivial trivial
  · split
    · exact trivial
    · exact (h.listElem.snd ‹_›).ofWait
    · exact trivial

theorem State.Inv.opMove {s : State} {e : EngOp} {u : Nat} (h : s.Inv) : (s.opMove e u).Inv := by
  unfold State.opMove
  split
  · split
    · split
      · exact h.readShape.snd ‹_›
      · exact trivial
      · exact (h.readShape.snd ‹_›).ofWait
    · exact h.copyGranule.moveOn
  · exact h.listMove
  · exact h.listMove
  · split
    · split
      · exact trivial
      · exact (h.engRead.snd ‹_›).ofWait
      · exact trivial
    · split
      · exact trivial
      · split
        · exact Move.Inv.ite trivial trivial
        · refine State.Inv.moveOn ?_
          split
          · exact h.engLoc.snd ‹_›
          · exact h.engLoc.snd ‹_›
          · exact (h.engLoc.snd ‹_›).engPut

theorem State.Inv.endOp {s : State} {k : Nat} {e : EngOp} {st : EngSt} (h : s.Inv) : (s.endOp k e st).Inv :=
  h.same.ite h.setOp.pokeFence

theorem State.Inv.performOp {s : State} {e : EngOp} (h : s.Inv) : (s.performOp e).Inv :=
  h.performAt.foldl (fun _ _ h1 => h1.performAt)

theorem State.Inv.finishOp {s : State} {k : Nat} {e : EngOp} (h : s.Inv) : (s.finishOp k e).Inv := h.performOp.endOp.ctrDone

theorem State.Inv.stopOp {s : State} {k : Nat} {e : EngOp} {st : EngSt} {c : Cause} {tval : Nat} (h : s.Inv) :
    (s.stopOp k e st c tval).Inv :=
  h.engReport.setOp.ite h.engReport.performOp.endOp

theorem State.Inv.probe {s : State} {d : Nat} (h : s.Inv) : (s.probe d).Inv := h.foldl (fun _ _ h1 => h1.ask)

theorem State.Inv.hostEvent {s : State} {core part : Nat} {c : Cause} {va : Nat} (h : s.Inv) : (s.hostEvent core part c va).Inv := by
  unfold State.hostEvent
  exact (h.probe.probe.ite h).event.ite (h.probe.probe.ite h)

theorem State.Inv.failOp {s : State} {k : Nat} {e : EngOp} {c : Cause} {va : Nat} (h : s.Inv) : (s.failOp k e c va).Inv :=
  h.stopOp.hostEvent

theorem State.Inv.sendBlocks {s : State} {e : EngOp} {here : List Nat} {reduced told : Bool} {data : Nat → List Byte} (h : s.Inv) :
    (s.sendBlocks e here reduced told data).Inv := by
  unfold State.sendBlocks
  simp only
  split
  · exact h.foldl (fun _ _ h1 => h1.foldl (fun _ _ h2 => h2.sendMsg))
  · exact h

theorem State.Inv.failColls {s : State} {l : NMap EngOp} {tag : Nat} (h : s.Inv) : (s.failColls l tag).Inv :=
  h.foldl (fun _ _ h1 => h1.stopOp)

theorem State.Inv.mismatch {s : State} {l : NMap EngOp} {tag : Nat} (h : s.Inv) : (s.mismatch l tag).Inv :=
  (h.foldl (fun _ _ h1 => h1.sendBlocks)).onLinks.failColls

theorem State.Inv.lateColl {s : State} {k : Nat} {e : EngOp} {tag left : Nat} (h : s.Inv) : (s.lateColl k e tag left).Inv :=
  h.onLinks.failColls

theorem State.Inv.joinColl {s : State} {k : Nat} {e : EngOp} {kind : CollKind} {f : Fmt} {dst src len rank p tag : Nat} (h : s.Inv)
    : (s.joinColl k e kind f dst src len rank p tag).Inv :=
  h.setOp.lateColl.ite (h.setOp.mismatch.ite (h.foldl (fun _ _ h1 => h1.setOp)).setOp)

theorem State.Inv.issueOp {s : State} {k : Nat} {e : EngOp} (h : s.Inv) : (s.issueOp k e).Inv := by
  unfold State.issueOp
  simp only
  split
  · exact h.joinColl.ite h.setOp
  · split
    · split
      · exact (h.readShape.snd ‹_›).setOp
      · exact (h.readShape.snd ‹_›).setOp.stopOp.ite (h.readShape.snd ‹_›).setOp.failOp
      · exact (h.readShape.snd ‹_›).setOp
    · exact h.setOp
  · exact h.setOp

theorem State.Inv.badShape {s : State} {c : EngJob} (h : s.Inv) : (s.badShape c).2.Inv := by
  unfold State.badShape
  split
  · split
    · split
      · exact h
      · exact h.readShape.snd ‹_›
      · exact h
    · exact h
  · exact h

theorem State.Inv.issue {s : State} {job : EngJob} {word : Word} (h : s.Inv) : (s.issue job word).Inv := by
  unfold State.issue
  simp only
  split
  · exact h
  · split
    · exact h
    · exact h.badShape.snd ‹_›
    · exact h
    · exact h.same.issueOp

/-! Machine/Requests. -/

theorem State.Inv.sendList {gather : Bool} {dst src idx esz n m : Nat} {s : State} {c : EngOp} {l : List SubReq} (h : s.Inv) :
    (State.sendList gather dst src idx esz n m s c l).2.2.Inv := by
  induction m generalizing s c l with
  | zero =>
    simp only [State.sendList]
    exact h
  | succ m ih =>
    simp only [State.sendList]
    split
    · exact h
    · split
      · exact ih (h.listElem.snd ‹_›)
      · exact h.listElem.snd ‹_›
      · exact h

theorem State.Inv.sendReq {s : State} {op : Nat} {e : EngOp} {r : SubReq} (h : s.Inv) : (s.sendReq op e r).Inv := by
  unfold State.sendReq
  simp only
  split
  · exact h.closeBatch.sendMsg
  · exact h

theorem State.Inv.askOwners {s : State} {op : Nat} {e : EngOp} (h : s.Inv) : (s.askOwners op e).Inv := by
  unfold State.askOwners
  simp only
  split
  · exact h.sendList.setOp.foldl (fun _ _ h1 => h1.sendReq)
  · exact h.sendList.setOp.foldl (fun _ _ h1 => h1.sendReq)
  · exact h

theorem State.Inv.serveFar {owner : Nat} {gather : Bool} {n m : Nat} {l : List (Nat × List Byte)} {s : State} (h : s.Inv) :
    (State.serveFar owner gather n m l s).2.2.Inv := by
  induction l generalizing m s with
  | nil =>
    simp only [State.serveFar]
    exact h
  | cons x r ih =>
    simp only [State.serveFar]
    split
    · exact h
    · split
      · exact h
      · split
        · exact ih h
        · exact ih h.writeGranules

theorem State.Inv.serveList {s : State} {c : Msg} (h : s.Inv) : (s.serveList c).Inv := by
  unfold State.serveList
  simp only
  split
  · exact h.ite h.consume.catchUp.closeBatch.serveFar.closeBatch.sendMsg
  · exact h

theorem State.Inv.execGatherSubrequest {op : Nat} {s : State} (h : s.Inv) : (execGatherSubrequest op s).Inv := by
  unfold Machine.execGatherSubrequest
  split
  · exact h.serveList
  · split
    · exact h.askOwners
    · exact h

theorem State.Inv.listPut {s : State} {e : EngOp} {n count : Nat} {x : ReqElem} {bs : List Byte} (h : s.Inv) :
    (s.listPut e n count x bs).Inv := by
  unfold State.listPut
  simp only
  split
  · exact Served.Inv.ite trivial h.engPut.toServed
  · exact h.toServed.ite (h.toServedBad.ite (Served.Inv.ite trivial h.engPut.toServed))

theorem State.Inv.serveHere {s : State} {e : EngOp} {gather : Bool} {owner n count : Nat} {x : ReqElem} (h : s.Inv) :
    (s.serveHere e gather owner n count x).Inv :=
  h.toServedBad.ite (h.toServedBad.ite (h.toServedBad.ite
    (h.toServedBad.ite ((h.ite h.closeBatch.exchange).readSync.listPut.ite
      (Served.Inv.ite trivial (h.ite h.closeBatch.exchange).writeGranules.toServed)))))

theorem State.Inv.serveElem {s : State} {e : EngOp} {gather : Bool} {owner n count : Nat} {x : ReqElem} {reply : Option (List Byte)}
    (h : s.Inv) : (s.serveElem e gather owner n count x reply).Inv := by
  unfold State.serveElem
  split
  · exact h.serveHere
  · exact h.toServed.ite (h.toServedBad.ite h.listPut)

theorem State.Inv.serveElems {gather : Bool} {owner n count : Nat} {reply : Option (List (List Byte))} {l : List ReqElem}
    {c : EngOp} {s : State} (h : s.Inv) : (State.serveElems gather owner n count reply l c s).Inv := by
  induction l generalizing reply c s with
  | nil =>
    simp only [State.serveElems]
    exact h
  | cons x r ih =>
    simp only [State.serveElems]
    split
    · exact ih (h.serveElem.ok ‹_›)
    · exact h.serveElem

theorem State.Inv.settleOp {s : State} {k : Nat} {e : EngOp} (h : s.Inv) : (s.settleOp k e).Inv := h.performOp.endOp.ite h.setOp

theorem State.Inv.elemFails {s : State} {k : Nat} {e : EngOp} {r : SubReq} {c : Cause} {va : Nat} (h : s.Inv) :
    (s.elemFails k e r c va).Inv :=
  h.settleOp.ite h.failOp

theorem State.Inv.serveReq {s : State} {op : Nat} {e : EngOp} {r : SubReq} {reply : Option (List (List Byte))} (h : s.Inv) :
    (s.serveReq op e r reply).Inv := by
  unfold State.serveReq
  split
  · exact h
  · split
    · exact (h.serveElems.ok ‹_›).settleOp
    · exact (h.serveElems.bad ‹_›).elemFails
    · exact h

theorem State.Inv.sendNext {s : State} {op owner : Nat} (h : s.Inv) : (s.sendNext op owner).Inv := by
  unfold State.sendNext
  split
  · split
    · exact h.sendReq
    · exact h
  · exact h

theorem State.Inv.takeReply {s : State} {op : Nat} {e : EngOp} {r : SubReq} {c : Msg} (h : s.Inv) : (s.takeReply op e r c).Inv := by
  unfold State.takeReply
  simp only
  split
  · split
    · exact h
    · split
      · exact h.ite h.catchUp.elemFails.consume.sendNext
      · exact h.ite h.catchUp.serveReq.consume.sendNext
  · exact h

theorem State.Inv.execGatherReply {op owner : Nat} {s : State} (h : s.Inv) : (execGatherReply op owner s).Inv := by
  unfold Machine.execGatherReply
  split
  · exact h.onLinks
  · split
    · exact h
    · split
      · exact h.serveReq
      · split
        · exact h.takeReply
        · exact h

theorem State.Inv.flushReqs {s : State} {part : Nat → Bool} (h : s.Inv) : (s.flushReqs part).Inv := by
  unfold State.flushReqs
  refine h.foldl (fun s1 x h1 => ?_)
  split
  · refine h1.foldl (fun s2 x1 h2 => ?_)
    split
    · exact h2.serveReq.ite h2
    · exact h2
  · exact h1

theorem State.Inv.abandonOp {s : State} {k : Nat} {e : EngOp} (h : s.Inv) : (s.abandonOp k e).Inv := by
  unfold State.abandonOp
  refine h.settleOp.foldl (fun s1 x h1 => ?_)
  split
  · exact h1.serveReq.ite h1
  · exact h1

/-! Machine/Queries. -/

theorem State.Inv.qKeep {s : State} {k key : Nat} {b : List Byte} (h : s.Inv) : (s.qKeep k key b).Inv := h.same

theorem State.Inv.qRead {s : State} {k : Nat} {x : QCtx} {va n : Nat} (h : s.Inv) : (s.qRead k x va n).2.Inv := by
  unfold State.qRead
  simp only
  split
  · exact h
  · split
    · exact h
    · split
      · exact (h.engReadF.snd ‹_›).qKeep
      · exact h.engReadF.snd ‹_›
      · exact h.engReadF.snd ‹_›

theorem State.Inv.qWriteF {x : QCtx} {n m : Nat} {l : List Byte} {s : State} (h : s.Inv) : (State.qWriteF x n m l s).2.Inv := by
  induction n generalizing m l s with
  | zero =>
    simp only [State.qWriteF]
    exact h
  | succ n ih =>
    simp only [State.qWriteF]
    split
    · exact h
    · split
      · exact h.check.snd ‹_›
      · exact h.check.snd ‹_›
      · exact ih (h.check.snd ‹_›).write

theorem State.Inv.qWrite {s : State} {x : QCtx} {va : Nat} {bs : List Byte} (h : s.Inv) : (s.qWrite x va bs).2.Inv := h.qWriteF

theorem State.Inv.qUndone {s : State} {x : QCtx} {c : QStop} (h : s.Inv) : (s.qUndone x c).Inv := by
  unfold State.qUndone
  split
  · exact h.ask
  · exact h

theorem State.Inv.plist {k : Nat} {x : QCtx} {n m : Nat} {c : Option Nat} {s : State} (h : s.Inv) : (State.plist k x n m c s).2.Inv := by
  induction n generalizing m c s with
  | zero =>
    simp only [State.plist]
    exact h
  | succ n ih =>
    simp only [State.plist]
    split
    · exact h.qRead.snd ‹_›
    · split
      · exact h.qRead.snd ‹_›
      · split
        · exact h.qRead.snd ‹_›
        · split
          · exact (ih (h.qRead.snd ‹_›)).snd ‹_›
          · exact ih (h.qRead.snd ‹_›)

theorem State.Inv.plists {k : Nat} {x : QCtx} {l : List QTerm} {s : State} (h : s.Inv) : (State.plists k x l s).2.Inv := by
  induction l generalizing s with
  | nil =>
    simp only [State.plists]
    exact h
  | cons y r ih =>
    simp only [State.plists]
    split
    · exact h.plist.snd ‹_›
    · split
      · exact (ih (h.plist.snd ‹_›)).snd ‹_›
      · exact ih (h.plist.snd ‹_›)

theorem State.Inv.qVector {s : State} {k : Nat} {x : QCtx} {v : QVec} (h : s.Inv) : (s.qVector k x v).2.Inv := by
  unfold State.qVector
  split
  · exact h.qRead.snd ‹_›
  · split
    · exact h.qRead.snd ‹_›
    · split
      · rename_i e _ _ _ _ e1
        exact (h.qRead.snd e).qRead.snd e1
      · rename_i e _ _ _ _ e1
        exact (h.qRead.snd e).qRead.snd e1

theorem State.Inv.qCands {s : State} {k : Nat} {x : QCtx} {b : List Byte} (h : s.Inv) : (s.qCands k x b).2.Inv := by
  unfold State.qCands
  simp only
  split
  · exact h.qRead.snd ‹_›
  · split <;> exact h.qRead.snd ‹_›

theorem State.Inv.scores {k : Nat} {x : QCtx} {ts : List (QTerm × List (Nat × Nat))} {l : List Nat} {s : State} (h : s.Inv) :
    (State.scores k x ts l s).2.Inv := by
  induction l generalizing s with
  | nil => exact h
  | cons y r ih =>
    unfold State.scores
    extract_lets +onlyGivenNames row
    have hrow : row.2.Inv := by
      simp only [row]
      split
      · split <;> exact h.qRead.snd ‹_›
      · exact h
    clear_value row
    split
    · exact hrow
    · have hr : (State.scores k x ts r _).2.Inv := ih hrow
      split
      · exact hr.snd ‹_›
      · exact hr

theorem State.Inv.qSet {s : State} {k : Nat} {x : QCtx} (h : s.Inv) : (s.qSet k x).2.Inv := by
  unfold State.qSet
  extract_lets +onlyGivenNames vec
  have hvec : vec.2.Inv := by
    simp -zeta only [vec]
    split
    · exact h
    · extract_lets +onlyGivenNames rd
      have hrd : rd.2.Inv := by
        simp only [rd]
        split
        · exact h
        · exact h.qVector
      clear_value rd
      split
      · exact hrd
      · split <;> exact hrd.qCands.snd ‹_›
  clear_value vec
  split
  · exact hvec
  · split <;> exact hvec.plists.snd ‹_›

theorem State.Inv.qRestore {s : State} {x : QCtx} (h : s.Inv) : (s.qRestore x).2.Inv := by
  unfold State.qRestore
  split
  · exact h
  · split <;> exact h.engReadF.snd ‹_›

theorem State.Inv.qEval {s : State} {k : Nat} {x : QCtx} (h : s.Inv) : (s.qEval k x).2.Inv := by
  unfold State.qEval
  split
  · exact h
  · split
    · exact h.qRestore.snd ‹_›
    · split
      · exact (h.qRestore.snd ‹_›).qSet.snd ‹_›
      · split <;> exact ((h.qRestore.snd ‹_›).qSet.snd ‹_›).scores.snd ‹_›

theorem State.Inv.qFinish {s : State} {k : Nat} {x : QCtx} (h : s.Inv) : (s.qFinish k x).2.Inv := by
  unfold State.qFinish
  simp only
  split
  · exact h.qEval.snd ‹_›
  · split
    · exact (h.qEval.snd ‹_›).qUndone
    · split
      · rename_i e _ _ _ e1
        exact (h.qEval.snd ‹_›).qUndone
      · rename_i e _ _ _ e1
        exact (((h.qEval.snd ‹_›).qWrite.snd e).qWrite.snd e1).performAt

theorem State.Inv.qEnd {s : State} {k : Nat} {x : QCtx} (h : s.Inv) : (s.qEnd k x).Inv :=
  (h.freeCtx.engReport.ite h.freeCtx).ite h.setCtx.pokeFence

theorem State.Inv.qCount {s : State} {k : Nat} {x : QCtx} (h : s.Inv) : (s.qCount k x).2.Inv := by
  unfold State.qCount
  split
  · exact h
  · exact h.draw

theorem State.Inv.qFailOk {s t : State} {k : Nat} {x : QCtx} {err : Nat} {va : Word} (h : s.Inv) (e : s.qFail? k x err va = .ok t) :
    t.Inv := by
  unfold State.qFail? at e
  simp only at e
  split at e
  · cases e; exact (h.qCount.qWrite.snd ‹_›).performAt.qEnd
  · cases e
  · cases e
  · cases e; exact h.qCount.qEnd

theorem State.Inv.qFailError {s t : State} {k : Nat} {x : QCtx} {err : Nat} {va : Word} (h : s.Inv)
    (e : s.qFail? k x err va = .error t) : t.Inv := by
  unfold State.qFail? at e
  simp only at e
  split at e
  · cases e
  · cases e; exact h
  · cases e; exact h.qUndone
  · cases e

theorem State.Inv.qFail {s : State} {k : Nat} {x : QCtx} {err : Nat} {va : Word} (h : s.Inv) : (s.qFail k x err va).Inv := by
  unfold State.qFail
  split
  · exact h.qFailOk ‹_›
  · exact (h.qFailError ‹_›).setCtx

theorem State.Inv.dropFault {s : State} {k : Nat} (h : s.Inv) : (s.dropFault k).Inv := h.onMill
theorem State.Inv.qToRestart {s : State} {k : Nat} {x : QCtx} (h : s.Inv) : (s.qToRestart k x).Inv := h.ite (h.same.qEval.same rfl)

theorem State.Inv.qStore {s : State} {k : Nat} {x : QCtx} (h : s.Inv) : (s.qStore k x).Inv := by
  unfold State.qStore
  simp only
  split
  · exact (h.qWrite.snd ‹_›).setCtx
  · exact h.setCtx
  · exact h.qUndone.setCtx
  · exact h.setCtx
  · exact h.setCtx

theorem State.Inv.qSave {s : State} {k : Nat} {x : QCtx} (h : s.Inv) : (s.qSave k x).Inv :=
  h.dropFault.qToRestart.setCtx.ite (h.dropFault.qToRestart.same).qStore

theorem State.Inv.qResume {s : State} {k core order : Nat} {x : QCtx} (h : s.Inv) : (s.qResume k core order x).Inv := by
  unfold State.qResume
  simp only
  split <;> exact (h.qRestore.snd ‹_›).setCtx

theorem State.Inv.qBegin {s : State} {k : Nat} {x : QCtx} (h : s.Inv) : (s.qBegin k x).Inv := by
  unfold State.qBegin
  simp only
  split
  · split
    · refine State.Inv.setCtx ?_
      split <;> exact h.qRestore.snd ‹_›
    · split
      · refine ((State.Inv.setCtx ?_).qVector.snd ‹_›).setCtx
        split <;> exact h.qRestore.snd ‹_›
      · refine (State.Inv.setCtx ?_).qVector.snd ‹_›
        split <;> exact h.qRestore.snd ‹_›
  · refine State.Inv.setCtx ?_
    split <;> exact h.qRestore.snd ‹_›

theorem State.Inv.qFill {quad n : Nat} {s : State} (h : s.Inv) : (State.qFill quad n s).Inv := by
  induction n generalizing s with
  | zero =>
    simp only [State.qFill]
    exact h
  | succ n ih =>
    simp only [State.qFill]
    split
    · exact h
    · split
      · exact ih h.qBegin
      · exact h

theorem State.Inv.execQueryDone {quad ctx : Nat} {s : State} (h : s.Inv) : (execQueryDone quad ctx s).Inv := by
  unfold Machine.execQueryDone
  split
  · exact h
  · split
    · exact (h.qFinish.snd ‹_›).qEnd.ctrDone
    · exact h.qFinish.snd ‹_›
    · exact h

theorem State.Inv.execQuerySuspend {quad ctx : Nat} {s : State} (h : s.Inv) : (execQuerySuspend quad ctx s).Inv := by
  unfold Machine.execQuerySuspend
  simp only
  split
  · exact h
  · split
    · exact (h.qFinish.snd ‹_›).setCtx.engReport
    · exact h

theorem State.Inv.failing {s t : State} {quad ctx err va : Nat} {x : QCtx} (h : s.Inv)
    (e : s.failing quad ctx = some (x, err, va, t)) : t.Inv := by
  unfold State.failing at e
  split at e
  · split at e
    · cases e; exact h
    · split at e
      · split at e
        · cases e; exact h.qFinish.snd ‹_›
        · cases e
      · cases e
  · cases e

theorem State.Inv.execQueryFail {quad ctx : Nat} {s : State} (h : s.Inv) : (execQueryFail quad ctx s).Inv := by
  unfold Machine.execQueryFail
  split
  · exact h
  · split
    · exact ((h.failing ‹_›).qFailOk ‹_›).hostEvent.ite ((h.failing ‹_›).qFailOk ‹_›)
    · exact (h.failing ‹_›).qFailError ‹_›

theorem State.Inv.queryOp {s : State} {r : Res Unit} (h : s.Inv) (hr : r.Inv) : (s.queryOp r).Inv := (h.toTrap.ite hr).finQ

theorem State.Inv.execQterm {a b c : Reg} {x : Ctl} {s : State} (h : s.Inv) : (execQterm a b c x s).Inv := by
  unfold Machine.execQterm
  refine h.queryOp ?_
  split
  · exact h
  · split
    · exact h
    · split
      · exact h
      · split
        · exact h
        · exact h.toTrap.ite h.setCtx.toOk

theorem State.Inv.execQvec {a b c : Reg} {x : Ctl} {s : State} (h : s.Inv) : (execQvec a b c x s).Inv := by
  unfold Machine.execQvec
  refine h.queryOp ?_
  split
  · exact h
  · split
    · exact h
    · split
      · exact h
      · exact h.setCtx

theorem State.Inv.execQexec {a b : Reg} {c : Ctl} {s : State} (h : s.Inv) : (execQexec a b c s).Inv := by
  unfold Machine.execQexec
  refine h.queryOp ?_
  simp only
  split
  · exact h
  · split
    · exact h
    · split
      · exact h
      · exact h
      · split
        · exact h
        · split
          · exact h
          · split
            · exact h
            · exact (h.bringAlong.same).setCtx

theorem State.Inv.execQstat {d a : Reg} {c : Ctl} {s : State} (h : s.Inv) : (execQstat d a c s).Inv := by
  unfold Machine.execQstat
  refine h.queryOp ?_
  simp only
  split
  · exact h
  · split
    · exact h.setG
    · exact (h.freeCtx.ite h).setG

theorem State.Inv.engineReply {s : State} {o : FaultOf} {resume : Bool} (h : s.Inv) : (s.engineReply o resume).Inv := by
  unfold State.engineReply
  split
  · split
    · exact h.ite (h.setOp.ite h.abandonOp)
    · exact h
  · split
    · exact h.ite (h.setCtx.ite h.qFail)
    · exact h
  · exact h

theorem State.Inv.faultReply {s : State} {part slot : Nat} (h : s.Inv) : (s.faultReply part slot).Inv := by
  unfold State.faultReply
  extract_lets r rctr a s1 b resume s2 s3
  have h3 : s3.Inv := h.readSync.idleCtr.onMill
  clear_value s3
  split
  · exact h
  · split
    · exact h
    · split
      · exact h.ask
      · split
        · split
          · exact h3.ite (h3.resumeStrand.ite h3.killStrand)
          · exact h3
        · exact h3.engineReply

/-! Machine/Place. -/

theorem State.Inv.moveCtxs {s : State} {sid core : Nat} (h : s.Inv) : (s.moveCtxs sid core).Inv := h.same

theorem State.Inv.constants {s : State} {x : NodeRun} (h : s.Inv) : (s.constants x).2.Inv := by
  unfold State.constants
  split <;> exact h.agentRead.snd ‹_›

theorem State.Inv.handRail {s : State} {core : Nat} {c : Header} (h : s.Inv) : (s.handRail core c).Inv := h.ite h.onCore

theorem State.Inv.launchOne {s : State} {n : Nat} {x : NodeRun} {cb : List (BitVec 32)} {seat : Seat} {cl : BitVec 8} (h : s.Inv) :
    (s.launchOne n x cb seat cl).Inv :=
  h.onNode.same rfl

theorem State.Inv.resumeOps {s : State} {sid core : Nat} (h : s.Inv) : (s.resumeOps sid core).Inv :=
  h.same.foldl (fun _ _ h1 => h1.qResume)

theorem State.Inv.saveOps {s : State} {sid : Nat} (h : s.Inv) : (s.saveOps sid).Inv := h.same.foldl (fun _ _ h1 => h1.qSave)

theorem State.Inv.saveAway {s : State} (h : s.Inv) : s.saveAway.Inv := by
  unfold State.saveAway
  refine h.foldl (fun s1 x h1 => ?_)
  split
  · exact h1.ite (h1.foldl (fun _ _ h2 => h2.saveOps))
  · exact h1

theorem State.Inv.reelFault {s : State} {a : Strand} (h : s.Inv) : (s.reelFault a).Inv := h.onStrand.report

theorem State.Inv.bringQueries {s : State} {a : Strand} {core : Nat} (h : s.Inv) : (s.bringQueries a core).Inv :=
  h.bringAlong.bringAlong.ite h

theorem State.Inv.resumeOne {s : State} {seat : Seat} {cl : BitVec 8} (h : s.Inv) : (s.resumeOne seat cl).Inv := by
  unfold State.resumeOne
  simp only
  split
  · exact h
  · split
    · exact (h.reelSound.snd ‹_›).reelFault
    · exact (h.reelSound.snd ‹_›).readScalars.bringAlong.bringQueries.onStrand.resumeOps

theorem State.Inv.dispatchNode {s : State} {n : Nat} {x : NodeRun} {plan : List Seat} (h : s.Inv) : (s.dispatchNode n x plan).Inv := by
  unfold State.dispatchNode
  extract_lets cores cls
  have h1 : (if x.members.isEmpty then s.constants x else ([], s)).2.Inv := h.constants.ite2 h
  split
  exact (((h1.snd ‹_›).foldl fun _ _ h => h.onCore).foldl fun _ _ h => h.handRail.launchOne.ite h.handRail.resumeOne).onNode.onMill

theorem State.Inv.dispatch {s : State} {core : Nat} (h : s.Inv) : (s.dispatch core).Inv := by
  unfold State.dispatch
  simp only
  split
  · exact h
  · split
    · exact h
    · split
      · exact h
      · split
        · exact h
        · exact h.onMill.dispatchNode.spend

theorem State.Inv.requeue {s : State} {n : Nat} (h : s.Inv) : (s.requeue n).Inv := by
  unfold State.requeue
  split
  · exact h
  · exact h.ite h.onNode.onMill

/-! Machine/EngineOps. -/

theorem State.Inv.execCpy {a b c e : Reg} {x : Ctl} {s : State} (h : s.Inv) : (execCpy a b c e x s).Inv :=
  ((h.toTrap.ite h.issue).ite (h.toTrap.ite (h.toTrap.ite (h.toTrap.ite h.issue)))).finQ

theorem State.Inv.listOp {s : State} {a b c e : Reg} {job : Nat → Nat → Nat → Nat → Nat → EngJob} (h : s.Inv) :
    (s.listOp a b c e job).Inv :=
  (h.toTrap.ite (h.toTrap.ite (h.toTrap.ite h.issue))).finQ

theorem State.Inv.collOp {s : State} {kind : CollKind} {f : Fmt} {a b c e : Reg} (h : s.Inv) : (s.collOp kind f a b c e).Inv :=
  (h.toTrap.ite (h.toTrap.ite (h.toTrap.ite (h.toTrap.ite h.issue)))).finQ

theorem State.Inv.retire {s : State} {w : Watch} (h : s.Inv) : (s.retire w).Inv := h.freeCtx.ite h.same

theorem State.Inv.execEwait {a : Reg} {c : Ctl} {s : State} (h : s.Inv) : (execEwait a c s).Inv := by
  unfold Machine.execEwait
  refine Res.Inv.finQ ?_
  simp only
  split
  · exact h
  · split
    · exact (h.foldl (fun _ _ h1 => h1.retire)).retire
    · exact h.foldl (fun _ _ h1 => h1.retire)

theorem State.Inv.execEngineIssue {op : Nat} {s : State} (h : s.Inv) : (execEngineIssue op s).Inv := by
  unfold Machine.execEngineIssue
  split
  · exact h.issueOp.ite h
  · exact h

theorem State.Inv.dropStray {s : State} {e : EngOp} (h : s.Inv) : (s.dropStray e).Inv := by
  unfold State.dropStray
  split
  · exact h.ite (h.foldl (fun _ _ h1 => h1.foldl (fun _ _ h2 => h2.foldl (fun _ _ h3 => h3.onLinks))))
  · exact h

theorem State.Inv.execEngineDone {op unit : Nat} {s : State} (h : s.Inv) : (execEngineDone op unit s).Inv := by
  unfold Machine.execEngineDone
  split
  · exact h
  · split
    · exact (h.opMove.put ‹_›).setOp
    · exact h.opMove.ask ‹_›
    · exact h.finishOp.dropStray
    · exact h

theorem State.Inv.execEngineSuspend {op unit : Nat} {s : State} (h : s.Inv) : (execEngineSuspend op unit s).Inv := by
  unfold Machine.execEngineSuspend
  split
  · exact h
  · split
    · exact h.stopOp
    · exact h

theorem State.Inv.execEngineFail {op unit : Nat} {s : State} (h : s.Inv) : (execEngineFail op unit s).Inv := by
  unfold Machine.execEngineFail
  split
  · exact h
  · split
    · exact h.ite h.failOp
    · split
      · exact h.mismatch
      · exact h

theorem State.Inv.refillBlock {s : State} {a : Strand} {q : Stream} {t : NpT} {j : Nat} (h : s.Inv) :
    (s.refillBlock a q t j).2.Inv := by
  unfold State.refillBlock
  simp only
  split
  · exact h
  · split
    · exact h.npStrip.snd ‹_›
    · have h1 := h.npStrip.snd ‹_›
      split
      · have h2 := (h1.readBlock fun _ _ _ h => h.engRead).snd ‹_›
        split <;> exact (h2.readBlock fun _ _ _ h => h.engRead).snd ‹_›
      · exact (h1.readBlock fun _ _ _ h => h.engRead).snd ‹_›

theorem State.Inv.execStreamRefill {sid : Nat} {r : Reg} {granule : Nat} {s : State} (h : s.Inv) :
    (execStreamRefill sid r granule s).Inv := by
  unfold Machine.execStreamRefill
  simp only
  split
  · exact h
  · split
    · exact h
    · split
      · exact h
      · split
        · exact h
        · split
          · split
            · exact h
            · split
              · exact (h.engRead.snd ‹_›).onStrand
              · exact h.engRead.snd ‹_›
              · exact h
          · split
            · exact h
            · split
              · exact (((h.leafOf.snd ‹_›).npOpen.snd ‹_›).refillBlock.snd ‹_›).onStrand
              · exact h

theorem State.Inv.offered {s t : State} {e : EngOp} {rank : Nat} {reduced : Bool} {src : Option Nat} {bs : List Byte} (h : s.Inv)
    (he : s.offered e rank reduced = some (src, bs, t)) : t.Inv := by
  unfold State.offered at he
  split at he
  · split at he
    · simp only [Option.map_eq_some_iff] at he
      obtain ⟨b, -, hb⟩ := he
      cases hb; exact h
    · simp only [Option.bind_eq_some_iff, Option.map_eq_some_iff] at he
      obtain ⟨m, -, y, -, hy⟩ := he
      cases hy; exact h.consume
  · cases he

theorem State.Inv.contribute {s : State} {op : Nat} {e : EngOp} {here : List Nat} (h : s.Inv) : (s.contribute op e here).Inv := by
  unfold State.contribute
  simp only
  split
  · split
    · exact (h.engRead.snd ‹_›).sendBlocks.setOp
    · exact h.engRead.snd ‹_›
    · exact h
  · exact h.sendBlocks.setOp.ite h
  · exact h

theorem State.Inv.execCollBlock {op rank : Nat} {s : State} (h : s.Inv) : (execCollBlock op rank s).Inv := by
  unfold Machine.execCollBlock
  simp only
  split
  · exact h
  · split
    · split
      · exact h.mismatch.onLinks
      · split
        · exact h
        · split
          · exact h.contribute
          · split
            · split
              · exact (h.offered ‹_›).setOp
              · exact h
            · split
              · split
                · exact (h.offered ‹_›).setOp
                · exact h
              · exact h
    · exact h

end Sys2Proof.Machine
end

section
/-!
PROOFS. Memory's canonical form through ports, barriers and splits, pages, reset, the scheduler and the fabric.
-/

set_option Elab.async false
namespace Sys2Proof.Machine

/-! Machine/Ports. -/

theorem State.Inv.abandonReel {s : State} {sid : Nat} (h : s.Inv) : (s.abandonReel sid).Inv := by
  unfold State.abandonReel
  simp only
  split
  · exact h.onLinks.onStrand.requeue.ite h.onLinks
  · exact h.onLinks

theorem State.Inv.abandonHeld {s : State} {l : List Parcel} (h : s.Inv) : (s.abandonHeld l).Inv := by
  unfold State.abandonHeld
  refine h.onLinks.foldl (fun s1 x h1 => ?_)
  split
  · exact h1.abandonReel
  · exact h1

theorem State.Inv.resend {s : State} {p : Nat} (h : s.Inv) : (s.resend p).Inv :=
  (h.setPort.foldl (fun _ _ h1 => h1.carry)).abandonHeld

theorem State.Inv.retrain {s : State} {p : Nat} (h : s.Inv) : (s.retrain p).Inv := h.setPort.resend

theorem State.Inv.execFlitReplayRequest {port : Nat} {s : State} (h : s.Inv) : (execFlitReplayRequest port s).Inv := by
  unfold Machine.execFlitReplayRequest
  simp only
  split
  · exact h
  · exact (h.dropFlit.setPort.retrain.ite h.dropFlit.setPort).ite h

theorem State.Inv.trainPort {s : State} {p : Nat} (h : s.Inv) : (s.trainPort p).Inv := h.same.setPort

theorem State.Inv.joinPort {s : State} {p : Nat} {x : Port} (h : s.Inv) : (s.joinPort p x).Inv :=
  h.same.setPort.onLinks.foldl (fun _ _ h1 => h1.carry)

theorem State.Inv.portDown {s : State} {p : Nat} (h : s.Inv) : (s.portDown p).Inv := h.setPort.event

/-! Machine/Groups. -/

theorem State.Inv.endRound {s : State} {x : Split} (h : s.Inv) : (s.endRound x).Inv := (h.foldl (fun _ _ h1 => h1.onStrand)).onMill

theorem State.Inv.arriveSplit {s : State} {tier : Tier} {colour : Nat} (h : s.Inv) : (s.arriveSplit tier colour).2.Inv :=
  h.onMill.endRound.ite2 h.onMill

theorem State.Inv.execGsplit {tier : Tier} {d a : Reg} {c : Ctl} {s : State} (h : s.Inv) : (execGsplit tier d a c s).Inv := by
  unfold Machine.execGsplit
  refine Res.Inv.finQ ?_
  split
  · exact h.setG
  · split
    · exact (h.arriveSplit.snd ‹_›).setG
    · exact h.arriveSplit.snd ‹_›

theorem State.Inv.reserveLeat {s : State} (h : s.Inv) : s.reserveLeat.Inv := by
  unfold State.reserveLeat
  simp only
  split
  · exact h.onAct.ite h
  · exact h

theorem State.Inv.execLput {a : Reg} {t : Ctl} {s : State} (h : s.Inv) : (execLput a t s).Inv :=
  h.toTrap.fin.ite (h.toWait.fin.ite (h.vecOp (fun _ _ h1 => h1.setLeat.toOk)))

theorem State.Inv.execLget {d : Reg} {c : Ctl} {s : State} (h : s.Inv) : (execLget d c s).Inv := by
  unfold Machine.execLget
  refine Res.Inv.finQ ?_
  split
  · exact h
  · split
    · exact h
    · exact h.toTrap.ite (h.toTrap.ite (h.same.toTrap.ite h.setLeat.setV.setVok.toOk))

theorem State.Inv.tellPhase {s : State} {idx : Nat} {old new : BitVec 32} (h : s.Inv) : (s.tellPhase idx old new).Inv :=
  h.ite (h.foldl (fun _ _ h1 => h1.tell))

theorem State.Inv.askFar {α : Type} {s : State} {idx : Nat} {op : BarOp} (h : s.Inv) : (s.askFar idx op : Res α).Inv := h.tell

theorem State.Inv.askBarrier {s : State} {tier : Tier} {idx : Nat} {op : BarOp} (h : s.Inv) : (s.askBarrier tier idx op).Inv := by
  unfold State.askBarrier
  simp only
  split
  · split
    · exact h.onAct
    · exact h.onAct.askFar
  · exact (h.ite h.setBarrier).tellPhase.ite (h.ite h.setBarrier)

theorem State.Inv.execBari {tier : Tier} {i : BitVec 6} {b : Reg} {c : Ctl} {s : State} (h : s.Inv) : (execBari tier i b c s).Inv := by
  unfold Machine.execBari
  exact (h.toTrap.ite (h.toTrap.ite (h.toTrap.ite (h.askBarrier.bind (fun _ _ h1 => h1.toOk.ite h1.toTrap))))).finQ

theorem State.Inv.barr {s : State} {tier : Tier} {idx : Nat} (h : s.Inv) : (s.barr tier idx).Inv := by
  unfold State.barr
  simp only
  split
  · exact h
  · exact h.toTrap.ite (h.toTrap.ite (h.performAt.askBarrier.bind (fun _ _ h1 => h1.toTrap.ite h1.onAct.toOk)))

theorem State.Inv.barw {s : State} {tier : Tier} {idx : Nat} (h : s.Inv) : (s.barw tier idx).Inv := by
  unfold State.barw
  split
  · exact h
  · refine h.askBarrier.bind (fun a s1 h1 => ?_)
    split
    · exact h1
    · exact h1.toTrap.ite (h1.onAct.toOk.ite (h1.toWait.ite h1.askFar))

/-! Machine/Page. -/

theorem State.Inv.flushAll {s : State} (h : s.Inv) : s.flushAll.Inv := h.foldl (fun _ _ h1 => h1.performAt)
theorem State.Inv.remapWrites {s : State} {part : Nat → Bool} (h : s.Inv) : (s.remapWrites part).Inv := h.onStrands

theorem State.Inv.invalidate {s : State} {part : Nat → Bool} {p : TlbEntry → Bool} (h : s.Inv) : (s.invalidate part p).Inv :=
  h.flushReqs.toWait.ite (h.flushReqs.same).flushAll.dropTlb.remapWrites.toOk

theorem State.Inv.pageQuery {s : State} {va : Nat} (h : s.Inv) : (s.pageQuery va).Inv := by
  unfold State.pageQuery
  split
  · exact h
  · split
    · extract_lets off
      clear_value off
      exact h.toOk.ite (h.toOk.ite h.toOk)
    · split
      · split <;> exact h.lookup.snd ‹_›
      · exact h.lookup.snd ‹_›

/-! Machine/Reset. -/

theorem State.Inv.freeBarriers {s : State} {p : Nat → Bool} (h : s.Inv) : (s.freeBarriers p).Inv :=
  h.same.foldl (fun _ _ h1 => h1.tellPhase)

theorem State.Inv.zeroPads {s : State} {q : BitVec 64} (h : s.Inv) : (s.zeroPads q).Inv := Memory.filter_wf s.mem _ h

theorem State.Inv.zeroL2 {s : State} {pid : Nat} {q : BitVec 64} (h : s.Inv) : (s.zeroL2 pid q).Inv :=
  h.foldl (fun _ _ h1 => h1.foldl (fun _ _ h2 => h2.onDie.rebuildOwn))

theorem State.Inv.cutLinks {s : State} {pid : Nat} (h : s.Inv) : (s.cutLinks pid).Inv := h.onLinks

theorem State.Inv.resetPart {s : State} {pid : Nat} (h : s.Inv) : (s.resetPart pid).Inv := by
  unfold State.resetPart
  extract_lets r s1 s2 s3 s4
  have h1 : s1.Inv := h.flushReqs.flushAll.dropTlb.cutLinks
  have h2 : s2.Inv := h1.same
  have h3 : s3.Inv := h2.onMill.freeBarriers
  have h4 : s4.Inv := h3.zeroPads.zeroL2
  exact h4.same

theorem State.Inv.contain {s : State} {pid : Nat} (h : s.Inv) : (s.contain pid).Inv := h.resetPart.ite h

/-! Machine/Sched. -/

theorem State.Inv.execPriorityPreemption {s : State} (h : s.Inv) : (execPriorityPreemption s).Inv := by
  unfold Machine.execPriorityPreemption
  split
  · exact h.stopNode
  · exact h

theorem State.Inv.execPreemptionRequest {sid : Nat} {s : State} (h : s.Inv) : (execPreemptionRequest sid s).Inv := by
  unfold Machine.execPreemptionRequest
  split
  · exact h.stopNode.ite h
  · exact h

theorem State.Inv.strandStopped {s : State} {sid : Nat} (h : s.Inv) : (s.strandStopped sid).Inv := by
  unfold State.strandStopped
  split
  · exact h.save.requeue.ite h
  · exact h

theorem State.Inv.execTrappedSave {sid : Nat} {s : State} (h : s.Inv) : (execTrappedSave sid s).Inv := by
  unfold Machine.execTrappedSave
  split
  · exact h.save.ite h
  · exact h

theorem State.Inv.execFaultReply {part slot : Nat} {s : State} (h : s.Inv) : (execFaultReply part slot s).Inv := by
  unfold Machine.execFaultReply
  simp only
  split
  · exact h.faultReply.requeue
  · exact h.faultReply

theorem State.Inv.execNodeComplete {node : Nat} {s : State} (h : s.Inv) : (execNodeComplete node s).Inv :=
  (h.onceThere h.nodeComplete).ite ((h.onceThere h.nodeComplete).foldl (fun _ _ h1 => h1.tell.onLinks))

theorem State.Inv.execReadyPoolEntry {s : State} (h : s.Inv) : (execReadyPoolEntry s).Inv := by
  unfold Machine.execReadyPoolEntry
  split
  · exact h.onNode.onMill
  · exact h

theorem State.Inv.discard {s : State} {n : Nat} (h : s.Inv) : (s.discard n).Inv := h.onMill

theorem State.Inv.execSpawnedKernelReject {node : Nat} {s : State} (h : s.Inv) : (execSpawnedKernelReject node s).Inv := by
  unfold Machine.execSpawnedKernelReject
  simp only
  split
  · exact h
  · split
    · exact h
    · refine h.onceThere ?_
      split
      · exact (h.verify.snd ‹_›).nameKernel.onNode
      · split
        · exact (h.verify.snd ‹_›).engReport.discard.drainReplay
        · exact (h.verify.snd ‹_›).engReport.discard.releaseKernels

theorem State.Inv.execMigrationSelect {sid : Nat} {s : State} (h : s.Inv) : (execMigrationSelect sid s).Inv := by
  unfold Machine.execMigrationSelect
  simp only
  split
  · exact h
  · exact h.toNext.ite ((h.foldl (fun _ _ h1 => h1.onStrand)).onMill.foldl (fun _ _ h1 => h1.saveOps)).toNext

theorem State.Inv.writtenBy {s : State} {core : Nat} (h : s.Inv) : (s.writtenBy core).2.Inv := h.closeBatch.closeBatch

theorem State.Inv.execReelTransfer {sid pkg : Nat} {s : State} (h : s.Inv) : (execReelTransfer sid pkg s).Inv := by
  unfold Machine.execReelTransfer
  simp only
  split
  · exact h
  · split
    · exact h
    · exact h.toNext.ite ((h.readScalars.foldl (fun _ _ h1 => h1.readSync)).foldl
        (fun _ _ h1 => h1.readSync)).writtenBy.onLinks.tell.abandonHeld.toNext

theorem State.Inv.reelConfirmed {s : State} {sid pkg : Nat} (h : s.Inv) : (s.reelConfirmed sid pkg).Inv :=
  h.onLinks.onMill.onNode.same rfl

theorem State.Inv.bringSplit {s : State} {a : Strand} {x : NodeRun} (h : s.Inv) : (s.bringSplit a x).Inv := by
  unfold State.bringSplit
  simp only
  split
  · exact h.onMill
  · exact h

theorem State.Inv.placeReel {s : State} {core src : Nat} {a : Strand} {n : NodeRun} {ops : NMap EngOp} {qs : NMap QCtx}
    {vec : NMap Nat} (h : s.Inv) : (s.placeReel core src a n ops qs vec).Inv := by
  unfold State.placeReel
  extract_lets sid s1 s2
  split
  extract_lets x s3 first s4 s5 b s6 s7
  have h1 : s1.Inv := h.catchUp
  have h2 : s2.Inv := h1.ite h1.catchUp
  have h3 : s3.Inv := h2.onMill
  have h4 : s4.Inv := State.Inv.foldl h3.same fun _ _ h => h.setOp
  have h5 : s5.Inv := State.Inv.foldl h4.same fun _ _ h => h.setCtx
  have h6 : s6.Inv := (State.Inv.same h5).bringSplit.writeReel
  have h7 : s7.Inv := h6.onLinks
  exact h7.tell.requeue

theorem State.Inv.reelAnswer {s : State} {sid pkg : Nat} (h : s.Inv) : (s.reelAnswer sid pkg).Inv :=
  h.reelConfirmed.consume.ite (h.abandonReel.consume.ite h)

theorem State.Inv.execReelArrived {sid core : Nat} {s : State} (h : s.Inv) : (execReelArrived sid core s).Inv := by
  unfold Machine.execReelArrived
  simp only
  split
  · exact h.reelAnswer
  · exact h.tell.consume.toNext.ite (h.placeReel.consume.toNext.ite h.toNext)
  · split
    · split
      · exact h
      · exact h.toNext.ite h.bringAlong.bringQueries.moveCtxs.onStrand.requeue.toNext
    · exact h

/-! Machine/Fabric. -/

theorem State.Inv.markBatch {s : State} {b : Batch} {f : Batch → Batch} (h : s.Inv) : (s.markBatch b f).Inv := h.same

theorem State.Inv.pieceArrives {s : State} {die : Nat} {b : Batch} {data : Bool} (h : s.Inv) : (s.pieceArrives die b data).Inv :=
  h.markBatch

theorem State.Inv.execBatchArrive {die src : Nat} {s : State} (h : s.Inv) : (execBatchArrive die src s).Inv := by
  unfold Machine.execBatchArrive
  simp only
  split
  · exact h
  · split
    · exact h.draw.pieceArrives
    · exact h.draw

theorem State.Inv.takeBatch {s : State} {src : Nat} {x : Nat × NMap Nat × List Wr} (h : s.Inv) : (s.takeBatch src x).Inv :=
  h.onLinks.ite h.same

theorem State.Inv.takeBatches {s : State} {src : Nat} (h : s.Inv) : (s.takeBatches src).Inv :=
  h.ite (h.foldl (fun _ _ h1 => h1.takeBatch))

theorem State.Inv.execBatchApply {die src : Nat} {s : State} (h : s.Inv) : (execBatchApply die src s).Inv := by
  unfold Machine.execBatchApply
  simp only
  split
  · exact h
  · split
    · exact h.takeBatches.applyBatch
    · exact h.takeBatches

theorem State.Inv.execRemoteReadRequest {die : Nat} {s : State} (h : s.Inv) : (execRemoteReadRequest die s).Inv := by
  unfold Machine.execRemoteReadRequest
  simp only
  split
  · exact h.consume.catchUp.closeBatch.sendMsg.ite h.consume.catchUp.closeBatch.onDie.sendMsg
  · exact h

theorem State.Inv.wakeAll {s : State} {p : Wait → Bool} (h : s.Inv) : (s.wakeAll p).Inv := h.onStrands

theorem State.Inv.answerErrand {s : State} {home tag : Nat} {x : List Byte × Option Denial} (h : s.Inv) :
    (s.answerErrand home tag x).Inv :=
  h.onStrands.onMill.wakeAll

theorem State.Inv.takeLine {s : State} {d line : Nat} {bs : List Byte} {v : NMap Nat} {marks : NSet} {denied : Option Denial}
    (h : s.Inv) : (s.takeLine d line bs v marks denied).Inv :=
  h.ite h.same.wakeAll

theorem State.Inv.execReadReply {die : Nat} {s : State} (h : s.Inv) : (execReadReply die s).Inv := by
  unfold Machine.execReadReply
  simp only
  split
  · split
    · exact h.consume.catchUp.answerErrand
    · exact h.consume.catchUp.takeLine
  · exact h.consume
  · exact h

theorem State.Inv.execRemoteAtomic {die : Nat} {s : State} (h : s.Inv) : (execRemoteAtomic die s).Inv := by
  unfold Machine.execRemoteAtomic
  simp only
  split
  · refine State.Inv.sendMsg ?_
    split
    · exact h.consume.catchUp.closeBatch.write.closeBatch
    · exact h.consume.catchUp.closeBatch
  · exact h

theorem State.Inv.execRemoteAccessTimeout {sid pkg : Nat} {s : State} (h : s.Inv) : (execRemoteAccessTimeout sid pkg s).Inv := by
  unfold Machine.execRemoteAccessTimeout
  simp only
  split
  · exact h.onStrand.ite h
  · exact h

theorem State.Inv.serveBarrier {s : State} {src sid idx : Nat} {op : BarOp} (h : s.Inv) : (s.serveBarrier src sid idx op).Inv :=
  (h.ite h.setBarrier).tell.tellPhase

theorem State.Inv.tellGen {s : State} {idx : Nat} {gen : BitVec 32} (h : s.Inv) : (s.tellGen idx gen).Inv := h.setBarrier.ite h

theorem State.Inv.execDomainBarrierArrival {s : State} (h : s.Inv) : (execDomainBarrierArrival s).Inv := by
  unfold Machine.execDomainBarrierArrival
  simp only
  split
  · exact h.consume.serveBarrier.ite h
  · split
    · exact h.consume.tellGen.onStrand
    · exact h.consume
  · exact h.consume.tellGen
  · exact h

theorem State.Inv.endedAway {s : State} {sid : Nat} {killed : Bool} (h : s.Inv) : (s.endedAway sid killed).Inv := by
  unfold State.endedAway
  simp only
  split
  · exact h.onLinks.killStrand
  · split
    · exact h.onLinks.haltStrand.afterHalt
    · exact h.onLinks

theorem State.Inv.execRemoteCounterUpdate {s : State} (h : s.Inv) : (execRemoteCounterUpdate s).Inv := by
  unfold Machine.execRemoteCounterUpdate
  simp only
  split
  · exact (h.consume.catchUp.spend.ctrDec.ite h.consume.catchUp).closeBatch.sendMsg
  · exact h.consume.endedAway.ite h.consume
  · exact h

theorem State.Inv.poisonLine {s : State} {line : Nat} (h : s.Inv) : (s.poisonLine line).Inv := h.foldl (fun _ _ h1 => h1.same)

theorem State.Inv.discardBatch {s : State} {e : Nat} {b : Batch} (h : s.Inv) : (s.discardBatch e b).Inv :=
  (h.foldl (fun _ _ h1 => h1.poisonLine.event)).applyBatch

theorem State.Inv.takeWhole {s : State} {pkg : Nat} (h : s.Inv) : (s.takeWhole pkg).Inv :=
  (h.foldl (fun _ _ h1 => h1.takeBatches)).onLinks

theorem State.Inv.loseBatches {s : State} {pkg e : Nat} (h : s.Inv) : (s.loseBatches pkg e).Inv :=
  (h.foldl (fun _ _ h1 => h1.discardBatch)).foldl (fun _ _ h1 => h1.markBatch)

theorem State.Inv.loseColls {s : State} {pkg : Nat} (h : s.Inv) : (s.loseColls pkg).Inv :=
  h.foldl (fun _ _ h1 => h1.mismatch.ite h1)

theorem State.Inv.loseAsked {s : State} {pkg : Nat} (h : s.Inv) : (s.loseAsked pkg).Inv :=
  (h.foldl (fun _ _ h1 => h1.onDie)).onStrands.onMill.wakeAll

theorem State.Inv.loseReels {s : State} {pkg : Nat} (h : s.Inv) : (s.loseReels pkg).Inv :=
  (h.onLinks.foldl (fun _ _ h1 => h1.onNode)).foldl (fun _ _ h1 => h1.reelAnswer.abandonReel.ite h1.reelAnswer)

theorem State.Inv.execPeerLoss {pkg : Nat} {s : State} (h : s.Inv) : (execPeerLoss pkg s).Inv := by
  unfold Machine.execPeerLoss
  split
  · exact h
  · extract_lets dom s1 s2 s3 s4 s5
    have h1 : s1.Inv := h.same
    have h2 : s2.Inv := h1.takeWhole.loseAsked
    have h3 : s3.Inv := h2.foldl fun _ _ h => h.loseBatches
    have h4 : s4.Inv := h3.sweep
    have h5 : s5.Inv := h4.foldl fun s x h => by
      split
      · exact h.settleOp.ite h.stopOp
      · exact h
    exact h5.loseColls.loseReels

theorem State.Inv.execHostPortUp {s : State} (h : s.Inv) : (execHostPortUp s).Inv := h.same
theorem State.Inv.answer {s : State} {host : Nat} {a : Answer} (h : s.Inv) : (s.answer host a).Inv := h.same
theorem State.Inv.lend {s : State} {addr len : Nat} (h : s.Inv) : (s.lend addr len).Inv := h.same
theorem State.Inv.clearLine {s : State} {line : Nat} (h : s.Inv) : (s.clearLine line).Inv := h.same

theorem State.Inv.homeWrite {n m : Nat} {l : List Byte} {s : State} (h : s.Inv) : (State.homeWrite n m l s).Inv := by
  induction n generalizing m l s with
  | zero =>
    simp only [State.homeWrite]
    exact h
  | succ n ih =>
    simp only [State.homeWrite]
    exact h.ite (ih (h.clearLine.ite h).write.performAt)

theorem State.Inv.execHostMemWrite {host addr : Nat} {s : State} (h : s.Inv) : (execHostMemWrite host addr s).Inv := by
  unfold Machine.execHostMemWrite
  simp only
  split
  · exact h.ite (h.same.answer.ite h.same.homeWrite.lend.answer)
  · exact h

theorem State.Inv.poisonLeat {s : State} {pair i : Nat} (h : s.Inv) : (s.poisonLeat pair i).Inv := h.onPair
theorem State.Inv.poisonSlot {s : State} {core slot g : Nat} (h : s.Inv) : (s.poisonSlot core slot g).Inv := h.onStrands

theorem State.Inv.poisonAt {s : State} {a : Nat} (h : s.Inv) : (s.poisonAt a).Inv :=
  h.poisonSlot.ite (h.poisonLeat.ite h.poisonLine.event)

end Sys2Proof.Machine
end

section
/-!
PROOFS. Memory's canonical form through the matrix unit and vector memory instructions.
-/

set_option Elab.async false
namespace Sys2Proof.Machine

/-! Machine/Matrix. -/

theorem State.Inv.onMat {s : State} {f : Machine.Matrix → Machine.Matrix} (h : s.Inv) : (s.onMat f).Inv := h.same
theorem State.Inv.matAt {s : State} {k : Nat} (h : s.Inv) : (s.matAt k).Inv := h.onCsr.ite h.same
theorem State.Inv.matDone {s : State} (h : s.Inv) : s.matDone.Inv := h.onCsr.ite h

theorem State.Inv.matRes {s : State} {r : Res Unit} (h : s.Inv) (hr : r.Inv) : (s.matRes r).Inv :=
  h.toTrap.ite (h.toTrap.ite (hr.bind (fun _ _ h1 => h1.matDone.toOk)))

theorem State.Inv.matOp {s : State} {r : Res Unit} (h : s.Inv) (hr : r.Inv) : (s.matOp r).Inv := (h.matRes hr).fin
theorem State.Inv.matWait {s : State} {k : Nat} {w : Wait} (h : s.Inv) : (s.matWait k w).Inv := h.matAt

theorem State.Inv.setZ {s : State} {d : ZReg} {z tail : BitVec 131072} {ints : BitVec 4096} (h : s.Inv) : (s.setZ d z tail ints).Inv := by
  unfold State.setZ
  exact h.onMat

theorem State.Inv.setCursor {s : State} {d : ZReg} {n : Nat} (h : s.Inv) : (s.setCursor d n).Inv := h.onMat
theorem State.Inv.setSlot {s : State} {k : Nat} {x : OpSlot} (h : s.Inv) : (s.setSlot k x).Inv := h.onMat

theorem State.Inv.execMclaim {d : Reg} {n : BitVec 6} {c : Ctl} {s : State} (h : s.Inv) : (execMclaim d n c s).Inv := by
  unfold Machine.execMclaim
  refine h.matOp ?_
  split
  · exact h
  · split
    · exact h
    · split
      · exact h
      · exact (h.foldl (fun _ _ h1 => h1.setSlot)).setG

theorem State.Inv.execMrel {a : Reg} {c : Ctl} {s : State} (h : s.Inv) : (execMrel a c s).Inv := by
  unfold Machine.execMrel
  refine h.matOp ?_
  split
  · exact h
  · exact h.toTrap.ite h.onMat.toOk

theorem State.Inv.fillSlot {k base n m : Nat} {c : OpSlot} {s : State} (h : s.Inv) : (State.fillSlot k base n m c s).Inv := by
  induction n generalizing m c s with
  | zero =>
    simp only [State.fillSlot]
    exact h.setSlot
  | succ n ih =>
    simp only [State.fillSlot]
    split
    · exact h.setSlot
    · split
      · exact h.setSlot.matWait
      · split
        · exact ((h.take ‹_›).elemRead.snd ‹_›).setSlot
        · exact ((h.take ‹_›).elemRead.snd ‹_›).setSlot.matWait
        · exact ih ((h.take ‹_›).elemRead.snd ‹_›)

theorem State.Inv.mlds {s : State} {a b : Reg} (h : s.Inv) : (s.mlds a b).Inv := by
  unfold State.mlds
  simp only
  split
  · exact h
  · exact h.toTrap.ite h.fillSlot

theorem State.Inv.mldw {s : State} {a : Reg} {fs : FmtSpec} (h : s.Inv) : (s.mldw a fs).Inv := by
  unfold State.mldw
  split
  · exact h
  · split
    · exact h
    · split
      · exact h
      · split
        · exact h
        · exact h.toTrap.ite (h.same.toTrap.ite h.onMat.toOk)

theorem Res.Inv.decodeFirst {r k : Res Unit} (hr : r.Inv) (hk : k.Inv) : (r.decodeFirst k).Inv := by
  unfold Res.decodeFirst
  split
  · split
    · exact hr
    · exact hk
  · exact hk

theorem State.Inv.railCheck {s : State} {core : Nat} (h : s.Inv) : (s.railCheck core).Inv := by
  unfold State.railCheck
  simp only
  split
  · exact h
  · exact h.ite (h.onCore.ite (h.ite h.onCore.event))

theorem State.Inv.countRail {s : State} {errs : List Nat} (h : s.Inv) : (s.countRail errs).Inv := h.ite h.onCore.onNode.railCheck
theorem State.Inv.railHand {s : State} {np : Bool} (h : s.Inv) : (s.railHand np).Inv := h.onCore.ite h

theorem State.Inv.accumulate {s : State} {d : ZReg} {q : MKind} {jobs : List MJob} (h : s.Inv) : (s.accumulate d q jobs).Inv := by
  unfold State.accumulate
  split
  · exact h
  · extract_lets a s1
    have h1 : s1.Inv := h.railHand.setZ.raise
    clear_value s1
    exact h1.ite (State.Inv.same h1).countRail

theorem State.Inv.accumulateAll {s : State} {d : ZReg} {q : MKind} {chunks : List (List MJob)} (h : s.Inv) :
    (s.accumulateAll d q chunks).Inv :=
  h.foldl (fun _ _ h1 => h1.accumulate)

theorem Res.Inv.atMat {α : Type} {r : Res α} {k : Nat} (hr : r.Inv) : (r.atMat k).Inv := by
  unfold Res.atMat
  split <;> exact hr

theorem State.Inv.takes {α : Type} {s : State} {l : List α} (h : s.Inv) : (s.takes l).2.Inv := by
  induction l generalizing s with
  | nil =>
    simp only [State.takes]
    exact h
  | cons x r ih =>
    simp only [State.takes]
    split
    · exact h
    · exact ih (h.take ‹_›)

theorem State.Inv.matStream {s : State} {reqs : List SReq} {unit : Nat} {segs : List (Nat × Nat)}
    {run : List (Nat × Nat) → State → State} (h : s.Inv) (hrun : ∀ x (t : State), t.Inv → (run x t).Inv) :
    (s.matStream reqs unit segs run).Inv := by
  unfold State.matStream
  refine h.deliverAll.atMat.bind (fun a s1 h1 => ?_)
  simp only
  split
  · exact (hrun _ _ h1.takes).matWait.ite (hrun _ _ h1.takes).advance.toOk
  · exact (hrun _ _ h1.takes).matWait.ite (hrun _ _ h1.takes).toTrap

theorem State.Inv.mstrm {s : State} {d : ZReg} {a : Reg} {fs : FmtSpec} (h : s.Inv) : (s.mstrm d a fs).Inv := by
  unfold State.mstrm
  simp only
  split
  · exact h
  · split
    · split
      · exact h
      · split
        · exact h
        · split
          · exact h
          · split
            · exact h
            · split
              · rename_i e _ _ _ _ _ e1
                exact h
              · rename_i e _ _ _ _ _ _ e1
                exact (h.matStream (fun _ _ h1 => h1.accumulateAll)).bind (fun _ _ h1 => h1.setCursor.toOk)
    · split
      · exact h
      · split
        · exact h
        · split
          · exact h
          · split
            · exact h
            · split
              · rename_i e _ _ _ _ _ e1
                exact h
              · rename_i e _ _ _ _ _ _ e1
                exact (h.matStream (fun _ _ h1 => h1.accumulateAll)).bind (fun _ _ h1 => h1.setCursor.toOk)

theorem State.Inv.mxprod {s : State} {d : ZReg} {a b : Reg} (h : s.Inv) : (s.mxprod d a b).Inv :=
  h.toTrap.ite (h.toTrap.ite (h.toTrap.ite (h.toOk.ite (h.toTrap.ite (h.matStream (fun _ _ h1 => h1.accumulateAll))))))

theorem State.Inv.mzero {s : State} {d : ZReg} (h : s.Inv) : (s.mzero d).Inv := h.setZ.setCursor

theorem State.Inv.zvOp {s : State} {dsts : List Reg} {r : Res Unit} (h : s.Inv) (hr : r.Inv) : (s.zvOp dsts r).Inv :=
  (h.toTrap.ite (h.matRes (h.toTrap.ite hr))).fin

theorem State.Inv.putRow {s : State} {d : Reg} {f : Nat → FRes} (h : s.Inv) : (s.putRow d f).Inv := h.fill.okSet

theorem State.Inv.execMwrz {d : ZReg} {a b : Reg} {c : Ctl} {s : State} (h : s.Inv) : (execMwrz d a b c s).Inv := by
  unfold Machine.execMwrz
  refine h.zvOp (h.deliverAll.atMat.bind (fun a1 s1 h1 => ?_))
  simp only
  split
  · exact h1
  · exact h1.advance.toOk.ite h1.setZ.advance.toOk

theorem State.Inv.mtrs {s : State} {d a : ZReg} (h : s.Inv) : (s.mtrs d a).Inv := h.setZ.setCursor
theorem State.Inv.setK {s : State} {d : KReg} {x : BitVec 256} (h : s.Inv) : (s.setK d x).Inv := h.onMat

theorem State.Inv.execKld {d : KReg} {a : Reg} {c : Ctl} {s : State} (h : s.Inv) : (execKld d a c s).Inv := by
  unfold Machine.execKld
  refine h.matOp ?_
  split
  · exact h.elemRead.snd ‹_›
  · exact h.elemRead.snd ‹_›
  · exact (h.elemRead.snd ‹_›).setK

/-! Machine/Memory. -/

theorem State.Inv.loadTo {s : State} {d a : Reg} {off : BitVec 13} {fq : Feq} {n : Nat} {sgn : Bool} (h : s.Inv) :
    (s.loadTo d a off fq n sgn).Inv :=
  (h.load.bind (fun _ _ h1 => h1.setG.toOk)).fin

theorem State.Inv.storeFrom {s : State} {a b : Reg} {off : BitVec 13} {fq : Feq} {n : Nat} (h : s.Inv) :
    (s.storeFrom a b off fq n).Inv :=
  h.store.fin

theorem State.Inv.loadElems {s : State} {d : Reg} {fq : Feq} {addr : State → Nat → Word} {l : List Nat} (h : s.Inv) :
    (s.loadElems d fq addr l).Inv :=
  (h.eachRun (fun _ _ h1 => h1.inRun (fun _ _ h2 => h2.elemRead.getFin (fun _ _ h3 => h3.moved.setV.toOk)))).bind
    (fun _ _ h1 => h1.okSet.toOk)

theorem State.Inv.putNp {s : State} {d : Reg} {j : Nat} {l : List Nat} {x : NpBytes} {n k : Nat} {rhu : Bool} (h : s.Inv) :
    (s.putNp d j l x n k rhu).Inv :=
  h.setV.putExp.setVok

theorem State.Inv.loadBlocks {t : NpT} {d : Reg} {fq : Feq} {k : Nat} {rhu : Bool} {act l : List Nat} {s : State} (h : s.Inv) :
    (State.loadBlocks t d fq k rhu act l s).Inv := by
  induction l generalizing s with
  | nil =>
    simp only [State.loadBlocks]
    exact h
  | cons x r ih =>
    simp only [State.loadBlocks]
    refine h.upTo (fun x1 t1 h1 => ?_) (fun _ => ih)
    split
    · exact ((h1.npFetch (fun _ _ _ h2 => h2.elemRead)).snd ‹_›).putNp
    · exact ((h1.npFetch (fun _ _ _ h2 => h2.elemRead)).snd ‹_›).elemFault
    · exact ((h1.npFetch (fun _ _ _ h2 => h2.elemRead)).snd ‹_›).waitAt

theorem State.Inv.loadNp {s : State} {d : Reg} {ea : Nat} {fq : Feq} {k : Nat} {rhu : Bool} {l : List Nat} (h : s.Inv) :
    (s.loadNp d ea fq k rhu l).Inv := by
  unfold State.loadNp
  split
  · exact (h.npOpen.snd ‹_›).toOk.ite (h.npOpen.snd ‹_›).npFault
  · exact (h.npOpen.snd ‹_›).loadBlocks

theorem State.Inv.vload {s : State} {t : Ctl} {np : Bool} {d : Reg} {more : List Reg} {k : BitVec 5} {rhu : Bool}
    {body : List Nat → State → Res Unit} (h : s.Inv) (hbody : ∀ x (t : State), t.Inv → (body x t).Inv) :
    (s.vload t np d more k rhu body).Inv :=
  h.vecOp hbody

theorem State.Inv.counting {s : State} {win : Bool} {k : State → Res Unit} (h : s.Inv) (hk : ∀ (t : State), t.Inv → (k t).Inv) :
    (s.counting win k).Inv := by
  unfold State.counting
  split
  · split
    · exact h
    · exact (hk _ (h.countStore ‹_›)).bind (fun _ _ h1 => h1.storeDone.toOk)
  · exact hk _ h

theorem State.Inv.storeElems {s : State} {a : Reg} {fq : Feq} {addr : State → Nat → Word} {l : List Nat} (h : s.Inv) :
    (s.storeElems a fq addr l).Inv :=
  h.counting (fun _ h1 => (h1.eachRun (fun _ _ h2 => h2.inRun
    (fun _ _ h3 => h3.elemEnter.getFin (fun _ _ h4 => h4.toOk)))).ite h1.writeRuns)

theorem State.Inv.putPieces {s : State} {p : Pieces} (h : s.Inv) : (s.putPieces p).Inv := by
  unfold State.putPieces
  extract_lets c d lines put
  have hput : put.1.Inv := by
    refine List.foldlRecOn (motive := fun x : State × List Loc => x.1.Inv) lines _ h.room fun x hx line _ => ?_
    split
    · exact (hx.access.snd ‹_›).writeSome
    · exact hx.access.snd ‹_›
  exact hput.foldl fun _ _ h => h.hostOrder

theorem State.Inv.enterPieces {s : State} {j : Nat} {l all : List Nat} {p : Pieces} (h : s.Inv) : (s.enterPieces j l all p).Inv := by
  unfold State.enterPieces
  refine List.foldlRecOn (motive := Res.Inv) _ _ h.toOk fun r hr y _ => hr.bind fun _ s hs => ?_
  exact hs.elemEnter.getFin fun _ _ h => h.toOk

theorem State.Inv.stripEnd {s : State} {p : Pieces} {atomic : Bool} (h : s.Inv) : (s.stripEnd p atomic).Inv :=
  (h.ite h.putPieces).performAt.ite (h.ite h.putPieces)

theorem State.Inv.storeUnits {s : State} {pa same : Bool} {e : Nat} {l : List Nat} (h : s.Inv) : (s.storeUnits pa same e l).2.2.Inv := by
  unfold State.storeUnits
  split
  · split
    · exact h
    · split
      · exact h
      · exact h.take ‹_›
  · split
    exact h.takeUpTo.snd ‹_›

theorem State.Inv.storeBlocks {c : NpStore} {act l : List Nat} {x : Option Int} {ls : Pieces} {y : Bool} {s : State} (h : s.Inv) :
    (State.storeBlocks c act l x ls y s).Inv := by
  induction l generalizing x ls y s with
  | nil => exact h.stripEnd
  | cons z r ih =>
    unfold State.storeBlocks
    extract_lets next same s1 p atomic kind get
    have h1 : s1.Inv := h.ite h.stripEnd
    clear_value s1 p atomic
    split
    have h2 := h1.storeUnits.thd ‹_›
    extract_lets go
    have hgo {q b} {t : State} (ht : t.Inv) : (go q b t).Inv := by
      simp only [go]
      split
      · exact ht.stripEnd.waitAt
      · exact ih ht
    clear_value go
    have hf := h2.npFetch (k := kind) (get := get) (t := c.t) (j := z) (m := c.t.n) fun _ _ _ h1 => h1.elemRead
    split
    · exact hgo h2
    · split
      · exact (hf.snd ‹_›).stripEnd.elemFault.bind fun _ _ h1 => hgo h1
      · exact (hf.snd ‹_›).stripEnd.waitAt
      · have h3 := hf.snd ‹_›
        split
        · exact hgo h3
        · exact (h3.raise.enterPieces.bind fun _ _ h1 => hgo h1).ite (hgo h3.raise)

theorem State.Inv.storeNp {s : State} {t : Ctl} {a : Reg} {ea : Nat} {fq : Feq} {k : Nat} {stp pa : Bool} {l : List Nat} (h : s.Inv)
    : (s.storeNp t a ea fq k stp pa l).Inv := by
  unfold State.storeNp
  refine h.counting (fun t1 h1 => ?_)
  split
  · exact (h1.npOpen.snd ‹_›).toOk.ite (h1.npOpen.snd ‹_›).npFault
  · exact (h1.npOpen.snd ‹_›).storeBlocks

theorem State.Inv.vstore {s : State} {t : Ctl} {np : Bool} {a : Reg} {more : List Reg} {k : BitVec 5}
    {body : List Nat → State → Res Unit} (h : s.Inv) (hbody : ∀ x (t : State), t.Inv → (body x t).Inv) :
    (s.vstore t np a more k body).Inv :=
  h.vecOp hbody

theorem State.Inv.vecStp {s : State} {pa : Bool} {a b : Reg} {off : BitVec 13} {fq : Feq} {k : BitVec 5} {t : Ctl} (h : s.Inv) :
    (s.vecStp pa a b off fq k t).Inv :=
  h.vecOp (fun _ _ h1 => h1.storeNp)

theorem State.Inv.feSet {s : State} {full : Bool} {loc n : Nat} (h : s.Inv) : (s.feSet full loc n).Inv :=
  h.foldl (fun _ _ h1 => h1.setFull.ite h1.setEmpty)

theorem State.Inv.eachLine {f : Nat → State → Res Unit} {l : List Nat} {s : State} (h : s.Inv)
    (hf : ∀ x (t : State), t.Inv → (f x t).Inv) : (eachLine f l s).Inv := by
  induction l generalizing s with
  | nil =>
    simp only [Machine.eachLine]
    exact h
  | cons x r ih =>
    simp only [Machine.eachLine]
    split
    · exact h
    · exact (hf _ _ (h.take ‹_›)).bind (fun _ _ h1 => ih h1.same)

theorem State.Inv.onLines {s : State} {va n : Nat} {f : Nat → State → Res Unit} (h : s.Inv)
    (hf : ∀ x (t : State), t.Inv → (f x t).Inv) : (s.onLines va n f).Inv :=
  h.eachLine hf

theorem State.Inv.feRange {s : State} {full : Bool} {a b : Reg} (h : s.Inv) : (s.feRange full a b).Inv :=
  (h.toTrap.ite (h.toOk.ite ((h.onLines (fun _ _ h1 => h1.feSet.toOk)).ite h.toTrap))).finQ

theorem State.Inv.amoAt {s : State} {va n : Nat} {op : Amo} {b c : Nat} (h : s.Inv) : (s.amoAt va n op b c).2.Inv := by
  unfold State.amoAt
  split
  · exact h.access.snd ‹_›
  · exact h.access.snd ‹_›
  · split <;> exact (h.access.snd ‹_›).atomicAt.snd ‹_›

theorem State.Inv.amo {s : State} {op : Amo} {n32 : Bool} {d a b c : Reg} (h : s.Inv) : (s.amo op n32 d a b c).Inv := by
  unfold State.amo
  refine Res.Inv.fin ?_
  split
  · exact (h.amoAt.snd ‹_›).setG
  · exact h.amoAt.snd ‹_›
  · exact h.amoAt.snd ‹_›

theorem State.Inv.vamo {s : State} {op : Amo} {n32 : Bool} {d a b c : Reg} {t : Ctl} (h : s.Inv) : (s.vamo op n32 d a b c t).Inv := by
  unfold State.vamo
  exact h.vecOp (fun _ _ h1 => (h1.eachElem (fun _ _ h2 => h2.amoAt.getFin (fun _ _ h3 => h3.setV.toOk))).bind
    (fun _ _ h2 => h2.okSet.toOk))

theorem State.Inv.bfaLoc {s : State} {k : Kind} {va : Nat} (h : s.Inv) : (s.bfaLoc k va).2.Inv := by
  unfold State.bfaLoc
  split
  · exact h
  · split
    · exact h
    · split <;> exact h.access.snd ‹_›

theorem State.Inv.execAmoacc {md : Mode} {a b : Reg} {t : Ctl} {s : State} (h : s.Inv) : (execAmoacc md a b t s).Inv :=
  h.vecOp (fun _ _ h1 => h1.bfaLoc.getFin (fun _ _ h2 => h2.atomicAt.getFin (fun _ _ h3 => h3.raise.toOk)))

theorem State.Inv.execVldbfa {md : Mode} {d a : Reg} {t : Ctl} {s : State} (h : s.Inv) : (execVldbfa md d a t s).Inv :=
  h.vecOp (fun _ _ h1 => h1.bfaLoc.getFin (fun _ _ h2 => h2.atomicAt.getFin (fun _ _ h3 => h3.fill.okSet.toOk)))

theorem State.Inv.queueStep {s : State} {f : State → State} (h : s.Inv) (hf : ∀ (t : State), t.Inv → (f t).Inv) :
    (s.queueStep f).Inv :=
  (hf _ h).toOk.finQ

theorem State.Inv.fence {s : State} {tier : Tier} (h : s.Inv) : (s.fence tier).Inv := h.performAt
theorem State.Inv.setStreams {s : State} {f : NMap Stream → NMap Stream} (h : s.Inv) : (s.setStreams f).Inv := h.same

theorem State.Inv.execStrm {d a b : Reg} {c : Ctl} {s : State} (h : s.Inv) : (execStrm d a b c s).Inv :=
  (h.toTrap.ite (h.toTrap.ite (h.toTrap.ite h.setStreams.toOk))).finQ

theorem State.Inv.lineOp {s : State} {a b : Reg} {f : Nat → State → Res Unit} (h : s.Inv)
    (hf : ∀ x (t : State), t.Inv → (f x t).Inv) : (s.lineOp a b f).Inv :=
  (h.toTrap.ite (h.onLines hf)).finQ

theorem State.Inv.lineLoc {s : State} {k : Kind} {line : Nat} (h : s.Inv) : (s.lineLoc k line).2.Inv := by
  unfold State.lineLoc
  simp only
  split
  · exact h
  · split
    · exact h.ite2 (h.ite2 h)
    · split
      · exact h.lookup.snd ‹_›
      · exact (h.lookup.snd ‹_›).ite2 ((h.lookup.snd ‹_›).ite2 (h.lookup.snd ‹_›))

theorem State.Inv.fetchLine {s : State} {a : Nat} (h : s.Inv) : (s.fetchLine a).Inv := h.ite (h.ask.ite h.readSync.onDie)
theorem State.Inv.pin {s : State} {a : Nat} (h : s.Inv) : (s.pin a).Inv := h.ite h.same
theorem State.Inv.unpin {s : State} {a : Nat} (h : s.Inv) : (s.unpin a).Inv := h.same

theorem State.Inv.bring {s : State} {pin : Bool} {line : Nat} (h : s.Inv) : (s.bring pin line).Inv := by
  unfold State.bring
  split
  · exact (h.check.snd ‹_›).pin.fetchLine.ite (h.check.snd ‹_›).fetchLine
  · exact h.check.snd ‹_›
  · exact h.check.snd ‹_›

theorem State.Inv.lineAct {s : State} {k : Kind} {line : Nat} {f : Nat → State → State} (h : s.Inv)
    (hf : ∀ x (t : State), t.Inv → (f x t).Inv) : (s.lineAct k line f).Inv := by
  unfold State.lineAct
  split
  · exact hf _ _ (h.lineLoc.snd ‹_›)
  · exact h.lineLoc.snd ‹_›
  · exact h.lineLoc.snd ‹_›
  · exact h.lineLoc.snd ‹_›

theorem State.Inv.execStflush {a b : Reg} {c : Ctl} {s : State} (h : s.Inv) : (execStflush a b c s).Inv :=
  h.lineOp (fun _ _ h1 => h1.lineAct (fun _ _ h2 => h2.reach.unpin))

theorem State.Inv.execStinv {a b : Reg} {c : Ctl} {s : State} (h : s.Inv) : (execStinv a b c s).Inv :=
  h.lineOp (fun _ _ h1 => h1.lineAct (fun _ _ h2 => h2.unpin.ite h2.onDie.rebuildOwn.unpin))

theorem State.Inv.reserve {s : State} {va b unit : Nat} (h : s.Inv) : (s.reserve va b unit).2.Inv := by
  unfold State.reserve
  split
  · exact h.access.snd ‹_›
  · exact h.access.snd ‹_›
  · split <;> exact (h.access.snd ‹_›).atomicAt.snd ‹_›

theorem State.Inv.append {s : State} {t : Ctl} {b : Reg} {base v0 : Nat} {l : List Nat} (h : s.Inv) : (s.append t b base v0 l).Inv := by
  unfold State.append
  exact h.writeRuns

theorem State.Inv.execVcapp {a b : Reg} {t : Ctl} {s : State} (h : s.Inv) : (execVcapp a b t s).Inv := by
  unfold Machine.execVcapp
  refine h.vecOp (fun x t1 h1 => ?_)
  simp only
  split
  · exact h1.append
  · refine h1.reserve.getFin (fun x1 t2 h2 => ?_)
    split
    · exact h2.same.append
    · exact h2
    · exact h2

end Sys2Proof.Machine
end

section
/-!
PROOFS. Memory's canonical form through power and management.
-/

set_option Elab.async false
namespace Sys2Proof.Machine

/-! Machine/Power. -/

theorem State.Inv.onQuad {s : State} {q : Nat} {f : Quad → Quad} (h : s.Inv) : (s.onQuad q f).Inv := h.same

theorem State.Inv.setPoint {s : State} {q p : Nat} (h : s.Inv) : (s.setPoint q p).Inv :=
  (h.foldl (fun _ _ h1 => h1.same.pass.ite h1)).onQuad.onStrands

theorem State.Inv.readSensor {s : State} {q i : Nat} (h : s.Inv) : (s.readSensor q i).Inv := by
  unfold State.readSensor
  simp only
  split
  · exact h
  · exact h.draw.onQuad.ite h.draw.onQuad.event

theorem State.Inv.readSensors {s : State} (h : s.Inv) : s.readSensors.Inv := by
  refine h.foldl fun s q h1 => ?_
  have h2 : ((List.range 6).foldl (fun s i => s.readSensor q i) s).Inv := h1.foldl fun _ _ h => h.readSensor
  exact h2.setPoint.ite h2

theorem State.Inv.throttle {s : State} {watts : Nat} (h : s.Inv) : (s.throttle watts).Inv := by
  unfold State.throttle
  refine List.foldlRecOn (motive := fun x : Nat × State => x.2.Inv) _ _ h fun x hx q _ => ?_
  split
  · exact hx
  · exact hx.draw.setPoint

theorem State.Inv.unthrottle {s : State} (h : s.Inv) : s.unthrottle.Inv := h.foldl (fun _ _ h1 => h1.setPoint.ite h1)
theorem State.Inv.setCap {s : State} (h : s.Inv) : s.setCap.Inv := h.same.ite h.same

theorem State.Inv.execPowerWindow {s : State} (h : s.Inv) : (execPowerWindow s).Inv := by
  unfold Machine.execPowerWindow
  extract_lets s1
  have h1 : s1.Inv := h.readSensors.setCap
  clear_value s1
  split
  extract_lets quiet power s2
  have h2 : s2.Inv := (h1.draw.snd ‹_›).same
  clear_value s2
  exact h2.throttle.ite (h2.unthrottle.ite h2)

theorem State.Inv.trim {s : State} {core : Nat} (h : s.Inv) : (s.trim core).Inv :=
  ((h.same.onCore.foldl (fun _ _ h1 => h1.event)).foldl (fun _ _ h1 => h1.event)).onCore.ite
    ((h.same.onCore.foldl (fun _ _ h1 => h1.event)).foldl (fun _ _ h1 => h1.event))

theorem State.Inv.execLaneTrim {core : Nat} {s : State} (h : s.Inv) : (execLaneTrim core s).Inv :=
  h.ite ((h.foldl (fun _ _ h1 => h1.stopNode)).saveTrapped.onCore.ite h.trim.onCore)

/-! Machine/Mgmt. -/

theorem State.Inv.onMgmt {s : State} {f : Mgmt → Mgmt} (h : s.Inv) : (s.onMgmt f).Inv := h.same

theorem State.Inv.take? {s t : State} {host : Nat} {c : Cmd} (h : s.Inv) (e : s.take? host = some (c, t)) : t.Inv := by
  unfold State.take? at e
  split at e
  · split at e
    · cases e; exact h.onMgmt
    · cases e
  · cases e

theorem State.Inv.owner {s : State} {host : Nat} {f : State → State} (h : s.Inv) (hf : ∀ (t : State), t.Inv → (f t).Inv) :
    (s.owner host f).Inv :=
  (hf _ h).ite h.answer

theorem State.Inv.execClaim {host : Nat} {s : State} (h : s.Inv) : (execClaim host s).Inv := by
  unfold Machine.execClaim
  split
  · split
    · exact (h.take? ‹_›).onMgmt.answer
    · exact (h.take? ‹_›).answer
  · exact h

theorem State.Inv.execRenew {host : Nat} {s : State} (h : s.Inv) : (execRenew host s).Inv := by
  unfold Machine.execRenew
  split
  · exact (h.take? ‹_›).owner (fun _ h1 => h1.answer)
  · exact h

theorem State.Inv.execLeaseLapse {s : State} (h : s.Inv) : (execLeaseLapse s).Inv := by
  unfold Machine.execLeaseLapse
  split
  · exact h.onMgmt.event
  · exact h

theorem State.Inv.execHandover {host dest : Nat} {s : State} (h : s.Inv) : (execHandover host dest s).Inv := by
  unfold Machine.execHandover
  split
  · split
    · exact h
    · refine (h.take? ‹_›).owner (fun t h1 => ?_)
      split
      · exact h1.onMgmt.answer
      · exact h1.answer
  · exact h

theorem State.Inv.execAccept {host : Nat} {s : State} (h : s.Inv) : (execAccept host s).Inv := by
  unfold Machine.execAccept
  split
  · split
    · exact (h.take? ‹_›).onMgmt.answer.ite (h.take? ‹_›).onMgmt.answer
    · exact (h.take? ‹_›).answer
  · exact h

theorem State.Inv.execHandoverTimeout {s : State} (h : s.Inv) : (execHandoverTimeout s).Inv := by
  unfold Machine.execHandoverTimeout
  split
  · exact h.onMgmt
  · exact h

theorem State.Inv.execRead {host : Nat} {s : State} (h : s.Inv) : (execRead host s).Inv := by
  unfold Machine.execRead
  split
  · exact (h.take? ‹_›).answer
  · exact h

theorem State.Inv.execAttest {host : Nat} {s : State} (h : s.Inv) : (execAttest host s).Inv := by
  unfold Machine.execAttest
  split
  · exact (h.take? ‹_›).answer
  · exact h

theorem State.Inv.execSpdmMeasurement {host : Nat} {s : State} (h : s.Inv) : (execSpdmMeasurement host s).Inv := by
  unfold Machine.execSpdmMeasurement
  split
  · exact (h.take? ‹_›).answer
  · exact h

theorem State.Inv.unpinQuads {s : State} {pid : Nat} {gone : Nat → Bool} (h : s.Inv) : (s.unpinQuads pid gone).Inv :=
  (h.foldl (fun _ _ h1 => h1.performAt)).same rfl

theorem State.Inv.moveQuads {s : State} {moved : BitVec 64} (h : s.Inv) : (s.moveQuads moved).Inv :=
  (h.foldl (fun _ _ h1 => h1.qSave)).same rfl

theorem State.Inv.setRecord {s : State} {pid : Nat} {st : PartSt} {r : PartRec} (h : s.Inv) : (s.setRecord pid st r).Inv := by
  unfold State.setRecord
  extract_lets old moved s1 s2 s3 s4
  have h3 : s3.Inv := h.freeBarriers.freeBarriers.unpinQuads.moveQuads
  have h4 : s4.Inv := h3.onMill.ite h3
  exact h4.same

theorem State.Inv.create {s : State} {host : Nat} {b : List Byte} (h : s.Inv) : (s.create host b).Inv :=
  h.setRecord.answer.ite h.answer

theorem State.Inv.execCreate {host : Nat} {s : State} (h : s.Inv) : (execCreate host s).Inv := by
  unfold Machine.execCreate
  split
  · exact (h.take? ‹_›).owner (fun _ h1 => h1.create)
  · exact h

theorem State.Inv.modify {s : State} {host : Nat} {b : List Byte} (h : s.Inv) : (s.modify host b).Inv := by
  unfold State.modify
  simp only
  split
  · exact h.setRecord.answer.ite h.answer
  · exact h.answer.ite (h.setRecord.answer.ite h.answer)
  · exact h.answer

theorem State.Inv.execModify {host : Nat} {s : State} (h : s.Inv) : (execModify host s).Inv := by
  unfold Machine.execModify
  split
  · exact (h.take? ‹_›).owner (fun _ h1 => h1.modify)
  · exact h

theorem State.Inv.startRefused {s : State} {host pid reason : Nat} (h : s.Inv) : (s.startRefused host pid reason).Inv :=
  h.event.answer

theorem State.Inv.start {s : State} {host pid base : Nat} (h : s.Inv) : (s.start host pid base).Inv := by
  unfold State.start
  simp only
  split
  · exact h.answer
  · split
    · exact (h.verify.snd ‹_›).startRefused
    · exact h.startRefused.ite (h.verify.snd ‹_›).same.onMill.nodeReady.answer

theorem State.Inv.execStart {host : Nat} {s : State} (h : s.Inv) : (execStart host s).Inv := by
  unfold Machine.execStart
  refine h.onceThere ?_
  split
  · exact (h.take? ‹_›).owner (fun _ h1 => h1.start)
  · exact h

theorem State.Inv.execReset {host part : Nat} {s : State} (h : s.Inv) : (execReset host part s).Inv := by
  unfold Machine.execReset
  split
  · exact h.ite ((h.take? ‹_›).owner (fun _ h1 => h1.contain.answer.ite h1.answer))
  · exact h

theorem State.Inv.execDestroy {host part : Nat} {s : State} (h : s.Inv) : (execDestroy host part s).Inv := by
  unfold Machine.execDestroy
  split
  · rename_i p u e
    split
    · exact h
    · refine ((h.take? e).owner fun t ht => ?_).toNext
      have h1 : (t.setRecord p .absent PartRec.zero).Inv := ht.setRecord
      exact (State.Inv.same h1).answer.ite ht.answer
  · exact h

theorem State.Inv.execFwupdate {host : Nat} {s : State} (h : s.Inv) : (execFwupdate host s).Inv := by
  unfold Machine.execFwupdate
  split
  · exact (h.take? ‹_›).owner (fun _ h1 => h1.onMgmt.answer.ite h1.answer)
  · exact h

theorem State.Inv.afterReset {s : State} (h : s.Inv) : s.afterReset.Inv := Memory.filter_wf s.mem _ h

theorem State.Inv.bootFirmware {s : State} (h : s.Inv) : s.bootFirmware.2.Inv := by
  unfold State.bootFirmware
  extract_lets +onlyGivenNames s1
  have hs1 : s1.Inv := by
    simp only [s1]
    split
    · exact h.onMgmt
    · exact h
  clear_value s1
  exact hs1.onMgmt.ite2 hs1

theorem State.Inv.drawRoute {s : State} {k : Nat} (h : s.Inv) : (s.drawRoute k).Inv := h.same.onLinks
theorem State.Inv.number {s : State} (h : s.Inv) : s.number.Inv := h.same.foldl (fun _ _ h1 => h1.same.drawRoute.tell)
theorem State.Inv.fitBoard {s : State} (h : s.Inv) : s.fitBoard.Inv := h.same.foldl (fun _ _ h1 => h1.same.onMgmt)

theorem State.Inv.bringUp {s : State} (h : s.Inv) : s.bringUp.Inv := by
  unfold State.bringUp
  extract_lets stop
  have hstop {t : State} {k : Nat} (ht : t.Inv) : (stop t k).Inv := ht.event
  clear_value stop
  split
  split
  · exact hstop (h.bootFirmware.snd ‹_›)
  · extract_lets s1
    have h1 : s1.Inv := (h.bootFirmware.snd ‹_›).foldl fun _ _ h => h.trim
    clear_value s1
    split
    rename_i e1
    split
    rename_i e2
    split
    rename_i e3
    split
    rename_i e4
    have h2 := (((h1.draw.snd e1).draw.snd e2).draw.snd e3).draw.snd e4
    extract_lets s2 dom s3 s4
    have h3 : s3.Inv := h2.fitBoard.same
    have h4 : s4.Inv := (h3.foldl fun _ _ h => h.trainPort).number.setCap
    exact (hstop h2).ite ((hstop h2).ite ((hstop h2.fitBoard).ite ((hstop h3).ite h4.onMgmt)))

end Sys2Proof.Machine
end

section
/-!
PROOFS. Memory's canonical form through vector, scalar and queue instructions, reductions, tiles, the sequencer and waits.
-/

set_option Elab.async false
namespace Sys2Proof.Machine

/-! Machine/Vector. -/

theorem State.Inv.vecMapR {s : State} {t : Ctl} {ok : Fmt → Bool} {d : Reg} {srcs : List Reg} {src : Src} {f : State → Nat → FRes}
    (h : s.Inv) : (s.vecMapR t ok d srcs src f).Inv := by
  unfold State.vecMapR
  exact h.vecRes (fun _ _ h1 => h1.fill.okResult.toOk)

theorem State.Inv.vecMap {s : State} {t : Ctl} {ok : Fmt → Bool} {d : Reg} {srcs : List Reg} {src : Src} {nx : Word}
    {f : State → Nat → FRes} (h : s.Inv) : (s.vecMap t ok d srcs src nx f).Inv :=
  h.vecMapR.fin

theorem State.Inv.vecBinR {s : State} {ok : Fmt → Bool} {fn : BinFn} {d a : Reg} {src : Src} {t : Ctl} (h : s.Inv) :
    (s.vecBinR ok fn d a src t).Inv :=
  h.vecMapR

theorem State.Inv.vecBin {s : State} {ok : Fmt → Bool} {fn : BinFn} {d a : Reg} {src : Src} {t : Ctl} (h : s.Inv) :
    (s.vecBin ok fn d a src t).Inv :=
  h.vecBinR.fin

theorem State.Inv.vecFma {s : State} {negP negC : Bool} {d a b : Reg} {src : Src} {t : Ctl} (h : s.Inv) :
    (s.vecFma negP negC d a b src t).Inv :=
  h.vecMap

theorem State.Inv.vecUn {s : State} {ok : Fmt → Bool} {ints : Int → Int} {floats : FloatFmt → Rnd → Nat → FRes} {d a : Reg}
    {t : Ctl} (h : s.Inv) : (s.vecUn ok ints floats d a t).Inv :=
  h.vecMap

theorem State.Inv.fillMask {s : State} {d : MReg} {l : List Nat} {f : Nat → Bool × FFlags} (h : s.Inv) : (s.fillMask d l f).Inv := by
  unfold State.fillMask
  exact h.setM.raise

theorem State.Inv.vecCmp {s : State} {rel : Machine.Rel} {d : MReg} {a : Reg} {src : Src} {t : Ctl} (h : s.Inv) :
    (s.vecCmp rel d a src t).Inv :=
  h.vecOp (fun _ _ h1 => h1.fillMask.toOk)

theorem State.Inv.setGroupLane {s : State} {base : Reg} {w i x : Nat} (h : s.Inv) : (s.setGroupLane base w i x).Inv := h.setV
theorem State.Inv.setGroupOk {s : State} {base : Reg} {j : Nat} {ok : Bool} (h : s.Inv) : (s.setGroupOk base j ok).Inv := h.setVok

theorem State.Inv.fillGroup {s : State} {base : Reg} {w : Nat} {l : List (Nat × FRes)} (h : s.Inv) : (s.fillGroup base w l).Inv := by
  unfold State.fillGroup
  exact (h.foldl (fun _ _ h1 => h1.setGroupLane)).raise

theorem State.Inv.cvtBlock {s0 : State} {d a : Reg} {src : Fmt} {mode : RMode} {k j : Nat} {l : List Nat} {s : State} (hs : s.Inv) :
    (s0.cvtBlock d a src mode k j l s).Inv := by
  unfold State.cvtBlock
  simp only
  split
  · exact hs
  · exact (hs.foldl (fun _ _ h1 => h1.setGroupLane)).putExp.setGroupOk.raise

theorem State.Inv.okGroup {s : State} {q : Fmt} {d : Reg} (h : s.Inv) : (s.okGroup q d).Inv := h.foldl (fun _ _ h1 => h1.setVok)

theorem State.Inv.execVcvt {d a : Reg} {dst src : Fmt} {md : Mode} {satur : Bool} {j : BitVec 4} {t : Ctl} {s : State} (h : s.Inv) :
    (execVcvt d a dst src md satur j t s).Inv :=
  h.vecOp (fun _ _ h1 => ((h1.fillGroup.foldl (fun _ _ h2 => h2.putExp)).foldl (fun _ _ h2 => h2.setGroupOk)).toOk.ite
    ((h1.foldl (fun _ _ h2 => h2.cvtBlock)).toOk.ite h1.fillGroup.okGroup.toOk))

theorem State.Inv.vecSfu {s : State} {fn : Sfu} {d a : Reg} {t : Ctl} (h : s.Inv) : (s.vecSfu fn d a t).Inv := h.vecMap

/-! Machine/Optimiser. -/

theorem State.Inv.readState {va n : Nat} {s : State} (h : s.Inv) : (State.readState va n s).2.Inv := by
  induction n generalizing va s with
  | zero =>
    simp only [State.readState]
    exact h
  | succ n ih =>
    simp only [State.readState]
    split
    · split
      · exact (ih (h.elemRead.snd ‹_›)).snd ‹_›
      · exact ih (h.elemRead.snd ‹_›)
    · exact h.elemRead

theorem State.Inv.optOne {s : State} {c : OptJob} {j : Nat} (h : s.Inv) : (s.optOne c j).2.Inv := by
  unfold State.optOne
  simp only
  split
  · exact (h.npFetch (fun _ _ _ h1 => h1.elemRead)).snd ‹_›
  · exact (h.npFetch (fun _ _ _ h1 => h1.elemRead)).snd ‹_›
  · split <;> exact ((h.npFetch (fun _ _ _ h1 => h1.elemRead)).snd ‹_›).readState.snd ‹_›

theorem State.Inv.optBlocks {c : OptJob} {stop : Option (Nat × SFault)} {l : List Nat} {x : Option Int} {ls : Pieces} {s : State}
    (h : s.Inv) : (State.optBlocks c stop l x ls s).Inv := by
  induction l generalizing x ls s with
  | nil =>
    simp only [State.optBlocks]
    exact h.stripEnd
  | cons y r ih =>
    simp only [State.optBlocks]
    split
    · simp only
      split
      · exact h.stripEnd
      · split
        · exact (h.optOne.snd ‹_›).stripEnd
        · exact (h.optOne.snd ‹_›).stripEnd.waitAt
        · exact ih (h.optOne.snd ‹_›).raise
    · refine h.stripEnd.unit (fun t h1 => ?_)
      split
      · exact h1.stripEnd
      · split
        · exact (h1.optOne.snd ‹_›).stripEnd
        · exact (h1.optOne.snd ‹_›).stripEnd.waitAt
        · exact ih (h1.optOne.snd ‹_›).raise

theorem State.Inv.optOpen {s : State} {a e : Reg} (h : s.Inv) : (s.optOpen a e).2.Inv := by
  unfold State.optOpen
  split
  · split <;> exact h.npOpen.snd ‹_›
  · split
    · exact (h.npOpen.snd ‹_›).elemRead.snd ‹_›
    · exact (h.npOpen.snd ‹_›).elemRead.snd ‹_›
    · exact ((h.npOpen.snd ‹_›).elemRead.snd ‹_›).ite2 ((h.npOpen.snd ‹_›).elemRead.snd ‹_›)

theorem State.Inv.vopt {s : State} {k : Opt} {a b c e : Reg} {t : Ctl} (h : s.Inv) : (s.vopt k a b c e t).Inv := by
  unfold State.vopt
  simp only
  split
  · exact h
  · refine (h.deliverAll.waits (fun _ h1 => h1.same)).bind (fun a1 s1 h1 => Res.Inv.bind ?_
      (fun _ _ h2 => h2.advance.queueDone.toOk))
    split
    · exact h1
    · split
      · exact h1.optOpen.snd ‹_›
      · exact (h1.optOpen.snd ‹_›).waitAt
      · exact (h1.optOpen.snd ‹_›).optBlocks

/-! Machine/Scalar. -/

theorem State.Inv.int2 {s : State} {d a : Reg} {src : Src} {f : Word → Word → Word} (h : s.Inv) : (s.int2 d a src f).Inv :=
  h.withSrc h.setG.toOk

theorem State.Inv.int1 {s : State} {d a : Reg} {f : Word → Word} (h : s.Inv) : (s.int1 d a f).Inv := h.setG.toOk.fin
theorem State.Inv.putFloat {s : State} {d : Reg} {r : FRes} (h : s.Inv) : (s.putFloat d r).Inv := h.setG.raise

theorem State.Inv.fltBits {s : State} {q : FFmt} {d a : Reg} {src : Src} {f : FloatFmt → Nat → Nat → FRes} (h : s.Inv) :
    (s.fltBits q d a src f).Inv :=
  h.withSrc h.putFloat.toOk

theorem State.Inv.flt1 {s : State} {q : FFmt} {d : Reg} {src : Src} {f : FloatFmt → Rnd → Nat → FRes} (h : s.Inv) :
    (s.flt1 q d src f).Inv :=
  h.withSrc h.putFloat.toOk

theorem State.Inv.fltCmp {s : State} {q : FFmt} {d a : Reg} {src : Src} {rel : Machine.Rel} (h : s.Inv) :
    (s.fltCmp q d a src rel).Inv :=
  h.withSrc h.setG.raise.toOk

theorem State.Inv.flt3 {s : State} {q : FFmt} {d a b : Reg} {src : Src} {negP negC : Bool} (h : s.Inv) :
    (s.flt3 q d a b src negP negC).Inv :=
  h.withSrc h.putFloat.toOk

theorem State.Inv.execFcvt {d a : Reg} {dst src : Fmt} {md : Mode} {satur : Bool} {c : Ctl} {s : State} (h : s.Inv) :
    (execFcvt d a dst src md satur c s).Inv := by
  unfold Machine.execFcvt
  refine Res.Inv.fin ?_
  simp only
  split
  · exact h
  · split
    · exact h
    · exact h.setG.raise

/-! Machine/PairWord. -/

theorem State.Inv.slotInt {s : State} {x : Slot} {f : Word → Word → Word} (h : s.Inv) : (s.slotInt x f).Inv := h.setG
theorem State.Inv.slotMinMax {s : State} {x : Slot} {isMax : Bool} (h : s.Inv) : (s.slotMinMax x isMax).Inv := h.putFloat
theorem State.Inv.slotVec {s : State} {x : Slot} {ok : Fmt → Bool} {fn : BinFn} (h : s.Inv) : (s.slotVec x ok fn).Inv := h.vecBinR

theorem State.Inv.slot {s : State} {x : Slot} (h : s.Inv) : (s.slot x).Inv := by
  unfold State.slot
  split
  · exact h.slotInt
  · exact h.slotInt
  · exact h.slotInt
  · exact h.slotInt
  · exact h.slotInt
  · exact h.slotInt
  · exact h.slotInt
  · exact h.slotInt
  · exact h.slotInt
  · exact h.slotInt
  · exact h.putFloat.same rfl
  · exact h.putFloat.same rfl
  · exact h.putFloat.same rfl
  · exact h.slotMinMax
  · exact h.slotMinMax
  · exact h.load.bind (fun _ _ h1 => h1.setG.toOk)
  · exact h.load.bind (fun _ _ h1 => h1.setG.toOk)
  · exact h.store
  · exact h.store
  · split
    · exact h.slotVec
    · exact h

theorem State.Inv.pairSlots {s : State} {s0 s1 : Slot} (h : s.Inv) : (s.pairSlots s0 s1).Inv := by
  unfold State.pairSlots
  split
  · exact h
  · split
    · exact h
    · split
      · exact h
      · exact h
      · split
        · rename_i e _ _ _ e1
          exact h
        · rename_i e _ _ _ e1
          exact h
        · rename_i e _ _ _ e1
          exact ((h.slot.ok e).same.slot.ok e1).same

/-! Machine/Queue. -/

theorem State.Inv.atMill {s : State} {r : Res Unit} (h : s.Inv) (hr : r.Inv) : (s.atMill r).Inv := by
  unfold State.atMill
  split
  · exact State.Inv.toWait (h.missing ‹_›)
  · exact hr

theorem State.Inv.millOp {s : State} {k : State → Res Unit} (h : s.Inv) (hk : ∀ (t : State), t.Inv → (k t).Inv) : (s.millOp k).Inv := by
  unfold State.millOp
  exact (h.toWait.ite (h.toWait.ite ((h.bringAlong.atMill (hk _ h.bringAlong)).bind (fun _ _ h1 => h1.spend.toOk)))).finQ

theorem State.Inv.agentStop {s : State} {e : AgentFail} (h : s.Inv) : (s.agentStop e).Inv := by
  unfold State.agentStop
  split <;> exact h

theorem State.Inv.execGlaunch {a b : Reg} {c : Ctl} {s : State} (h : s.Inv) : (execGlaunch a b c s).Inv := by
  unfold Machine.execGlaunch
  refine h.millOp (fun t h1 => ?_)
  simp only
  split
  · exact h1
  · split
    · exact h1
    · exact h1.onMill

theorem State.Inv.spawn {s : State} {x : NodeRun} {gate : Option Nat} (h : s.Inv) : (s.spawn x gate).Inv := by
  unfold State.spawn
  simp only
  split
  · exact h.verify.releaseKernels
  · split
    · exact (h.verify.nameKernel.ite h.verify).onMill.nodeReady
    · exact (h.verify.nameKernel.ite h.verify).onMill.bindCtr

theorem State.Inv.execNspawn {a b : Reg} {c : Ctl} {s : State} (h : s.Inv) : (execNspawn a b c s).Inv := by
  unfold Machine.execNspawn
  refine h.millOp (fun t h1 => ?_)
  simp only
  split
  · exact h1
  · split
    · exact (h1.agentRead.snd ‹_›).agentStop
    · split
      · exact h1.agentRead.snd ‹_›
      · split
        · exact h1.agentRead.snd ‹_›
        · exact h1.agentRead.snd ‹_›
        · exact (h1.agentRead.snd ‹_›).spawn

theorem State.Inv.millAtomic {s : State} (h : s.Inv) : s.millAtomic.Inv := h.closeBatch.exchange

theorem State.Inv.ctrOp {s : State} {a : Reg} {f : State → Nat → State} (h : s.Inv)
    (hf : ∀ (t : State) (x : Nat), t.Inv → (f t x).Inv) : (s.ctrOp a f).Inv := by
  unfold State.ctrOp
  refine h.millOp (fun t h1 => ?_)
  split
  · exact h1
  · exact hf _ _ h1.millAtomic

theorem State.Inv.patch {s : State} {at_ graph : Nat} {x : Word} (h : s.Inv) : (s.patch at_ graph x).Inv := by
  unfold State.patch
  simp only
  split
  · exact (h.agentWrite.snd ‹_›).agentStop
  · split
    · rename_i e _ _ _ e1
      exact ((h.agentWrite.snd e).performAt.agentWrite.snd e1).agentStop
    · rename_i e _ _ _ e1
      exact ((h.agentWrite.snd e).performAt.agentWrite.snd e1).performAt

theorem State.Inv.execNpatch {a b c : Reg} {x : Ctl} {s : State} (h : s.Inv) : (execNpatch a b c x s).Inv := by
  unfold Machine.execNpatch
  refine h.millOp (fun t h1 => ?_)
  simp only
  split
  · exact h1
  · split
    · exact (h1.agentRead.snd ‹_›).agentStop
    · exact (h1.agentRead.snd ‹_›).toTrap.ite (h1.agentRead.snd ‹_›).patch

/-! Machine/Reduce. -/

theorem State.Inv.vecWhole {s : State} {t : Ctl} {reads : Reads} {legal : Bool} {ok : Fmt → Bool} {srcs dsts : List Reg} {nx : Word}
    {body : List Nat → State → State} (h : s.Inv) (hbody : ∀ x (t : State), t.Inv → (body x t).Inv) :
    (s.vecWhole t reads legal ok srcs dsts nx body).Inv :=
  h.vecOp (fun _ _ h1 => (hbody _ _ h1).toOk)

theorem State.Inv.redFloat {s : State} {d a b : Reg} {t : Ctl} {f : State → List (Option Nat) → Option Nat → FRes} (h : s.Inv) :
    (s.redFloat d a b t f).Inv :=
  h.vecWhole (fun _ _ h1 => h1.setG.raise)

theorem State.Inv.redInt {s : State} {d a b : Reg} {t : Ctl} {empty : Word} {f : Word → Word → Word} (h : s.Inv) :
    (s.redInt d a b t empty f).Inv :=
  h.vecWhole (fun _ _ h1 => h1.setG)

theorem State.Inv.okPermute {s : State} {d a : Reg} (h : s.Inv) : (s.okPermute d a).Inv := h.okAnd.ite h.okSet

theorem State.Inv.permute {s : State} {t : Ctl} {legal : Bool} {d a : Reg} {more : List Reg} {nx : Word}
    {f : State → Nat → Option Nat} (h : s.Inv) : (s.permute t legal d a more nx f).Inv :=
  h.vecWhole (fun _ _ h1 => h1.fill.okPermute)

theorem State.Inv.maskOp {s : State} {d : MReg} {x : BitVec 2048} (h : s.Inv) : (s.maskOp d x).Inv :=
  h.vecOp (fun _ _ h1 => h1.setM.toOk)

theorem State.Inv.maskQuery {s : State} {d : Reg} {a : MReg} {f : List Nat → Word} (h : s.Inv) : (s.maskQuery d a f).Inv :=
  h.vecOp (fun _ _ h1 => h1.setG.toOk)

/-! Machine/TileStore. -/

theorem State.Inv.withStoreRec {s : State} {va : Nat} {go : StoreRec → State → Res Unit} (h : s.Inv)
    (hgo : ∀ x (t : State), t.Inv → (go x t).Inv) : (s.withStoreRec va go).Inv := by
  unfold State.withStoreRec
  split
  · exact h
  · split
    · exact h.elemRead.snd ‹_›
    · exact h.elemRead.snd ‹_›
    · split
      · exact h.elemRead.snd ‹_›
      · exact hgo _ _ (h.elemRead.snd ‹_›)

theorem State.Inv.cellWrite {s : State} {va : Nat} {bs : List Byte} (h : s.Inv) : (s.cellWrite va bs).2.Inv := by
  unfold State.cellWrite
  split
  · exact h.access.snd ‹_›
  · exact h.access.snd ‹_›
  · exact (h.access.snd ‹_›).write.hostOrder

theorem State.Inv.storeRow {base : Nat} {b : ZReg} {x : StoreRec} {r : Nat} {l : List Nat} {s : State} (h : s.Inv) :
    (State.storeRow base b x r l s).Inv := by
  induction l generalizing s with
  | nil =>
    simp only [State.storeRow]
    exact h
  | cons y ls ih =>
    simp only [State.storeRow]
    split
    · exact h.cellWrite.snd ‹_›
    · exact (h.cellWrite.snd ‹_›).matWait
    · exact ih (h.cellWrite.snd ‹_›).raise

theorem State.Inv.storeRows {base : Nat} {b : ZReg} {x : StoreRec} {l : List Nat} {s : State} (h : s.Inv) :
    (State.storeRows base b x l s).Inv := by
  induction l generalizing s with
  | nil =>
    simp only [State.storeRows]
    exact h
  | cons y r ih =>
    simp only [State.storeRows]
    split
    · exact h.matWait
    · exact (h.take ‹_›).storeRow.bind (fun _ _ => ih)

theorem State.Inv.msts {s : State} {a : Reg} {b : ZReg} {c : Reg} (h : s.Inv) : (s.msts a b c).Inv :=
  h.withStoreRec (fun _ _ h1 => h1.storeRows)

theorem State.Inv.storeImage {base n m k : Nat} {l : List Byte} {s : State} (h : s.Inv) : (State.storeImage base n m k l s).Inv := by
  induction m generalizing k l s with
  | zero =>
    simp only [State.storeImage]
    exact h
  | succ m ih =>
    simp only [State.storeImage]
    split
    · exact h
    · split
      · exact h.matWait
      · split
        · exact (h.take ‹_›).cellWrite.snd ‹_›
        · exact ((h.take ‹_›).cellWrite.snd ‹_›).matWait
        · exact ih ((h.take ‹_›).cellWrite.snd ‹_›)

theorem State.Inv.reservedAt {s : State} {x : Option (Nat × Nat)} (h : s.Inv) : (s.reservedAt x).Inv := h.same

theorem State.Inv.writeImage {s : State} {a : Reg} {b : ZReg} {old : Nat} {f : Fmt} {mode : RMode} {start : Nat} (h : s.Inv) :
    (s.writeImage a b old f mode start).Inv :=
  h.storeImage.bind (fun _ _ h1 => h1.reservedAt.toOk)

theorem State.Inv.mstsCmp {s : State} {traps : Bool} {a : Reg} {b : ZReg} {c : Reg} (h : s.Inv) : (s.mstsCmp traps a b c).Inv := by
  unfold State.mstsCmp
  simp only
  split
  · exact h.writeImage
  · split
    · exact h.access.snd ‹_›
    · exact h.access.snd ‹_›
    · have h1 := h.access.snd ‹_›
      split
      · exact h1.atomicAt.snd ‹_›
      · exact h1.atomicAt.snd ‹_›
      · have h2 := h1.atomicAt.snd ‹_›
        split
        · exact h2
        · exact (h2.toTrap.ite h2.raise.toOk).ite h2.raise.reservedAt.writeImage

/-! Machine/Sequencer. -/

theorem State.Inv.seqExec {s : State} {c : SeqOp} (h : s.Inv) : (s.seqExec c).Inv := by
  unfold State.seqExec
  split
  · exact h.mlds
  · exact h.mldw
  · exact h.mstrm
  · exact h.mxprod
  · exact h.mzero
  · exact h.mtrs
  · exact h.msts
  · exact h.mstsCmp

theorem State.Inv.readPieces {va n : Nat} {s : State} (h : s.Inv) : (State.readPieces va n s).2.Inv := by
  induction n generalizing va s with
  | zero =>
    simp only [State.readPieces]
    exact h
  | succ n ih =>
    simp only [State.readPieces]
    split
    · split
      · exact (ih (h.elemRead.snd ‹_›)).snd ‹_›
      · exact ih (h.elemRead.snd ‹_›)
    · exact h.elemRead

theorem State.Inv.execSeqdef {a : Reg} {c : Ctl} {s : State} (h : s.Inv) : (execSeqdef a c s).Inv := by
  unfold Machine.execSeqdef
  refine h.matOp ?_
  split
  · exact h
  · split
    · exact h.readPieces.snd ‹_›
    · exact h.readPieces.snd ‹_›
    · split
      · exact h.readPieces.snd ‹_›
      · exact (h.readPieces.snd ‹_›).onMat

theorem State.Inv.seqAt {s : State} {idx : List Nat} {word k : Nat} (h : s.Inv) : (s.seqAt idx word k).Inv := h.onMat.matAt
theorem State.Inv.seqEnd {s : State} (h : s.Inv) : s.seqEnd.Inv := h.onMat.matDone

theorem State.Inv.seqWordRun {s : State} {ka : KReg} {idx : List Nat} {word : Nat} (h : s.Inv) : (s.seqWordRun ka idx word).Inv := by
  unfold State.seqWordRun
  extract_lets r nw nl w ir g back act inner run
  have hback {t : State} (ht : t.Inv) : (back t).Inv := ht.same
  have hrun : run.Inv := by
    simp only [run]
    split
    · exact h
    · split
      · exact (State.Inv.same h).seqExec
      · exact h
  clear_value run back
  split
  · exact (hback hrun).seqAt
  · exact (hback hrun).seqAt
  · have hb := hback hrun
    split
    · exact hb.seqAt
    · split
      · exact hb.seqAt
      · exact hb.seqEnd

theorem State.Inv.seqStep {s : State} {ka : KReg} (h : s.Inv) : (s.seqStep ka).Inv := by
  unfold State.seqStep
  simp only
  split
  · exact h
  · split
    · exact h
    · exact h.seqWordRun.ite h.toTrap
    · exact h.matDone.toOk.ite h.seqWordRun

theorem State.Inv.execSeqrun {a : KReg} {c : Ctl} {s : State} (h : s.Inv) : (execSeqrun a c s).Inv := by
  unfold Machine.execSeqrun
  split
  · exact (h.seqStep.ok ‹_›).toWait.fin
  · exact (h.seqStep.ok ‹_›).toOk.fin
  · exact (h.seqStep.trap ‹_›).toTrap.fin
  · exact (h.seqStep.wait ‹_›).toWait.fin

/-! Machine/Waits. -/

theorem State.Inv.runOut {s : State} {core left : Nat} (h : s.Inv) : (s.runOut core left).Inv := h.same.pass

theorem State.Inv.execSleepExpiry {sid : Nat} {s : State} (h : s.Inv) : (execSleepExpiry sid s).Inv := by
  unfold Machine.execSleepExpiry
  split
  · exact h.runOut.wakeIf
  · exact h

theorem State.Inv.execWaittEnd {sid : Nat} {s : State} (h : s.Inv) : (execWaittEnd sid s).Inv := by
  unfold Machine.execWaittEnd
  split
  · exact (h.ite h.runOut).wakeIf
  · exact h

theorem State.Inv.execGsplitRoundComplete {s : State} (h : s.Inv) : (execGsplitRoundComplete s).Inv := by
  unfold Machine.execGsplitRoundComplete
  split
  · exact h.endRound
  · exact h

end Sys2Proof.Machine
end

section
/-!
PROOFS. Memory's canonical form through the instruction table, fetch, events and the step.
-/

set_option Elab.async false
namespace Sys2Proof.Machine

/-! Machine/Dispatch. -/

/-- One arm per instruction, grouped where they share a shape. -/
theorem State.Inv.exec {s : State} (i : Instr) (h : s.Inv) : Out.Inv (Machine.exec i s) := by
  unfold Machine.exec
  cases i with
  | add | sub | and | or | xor | shl | shr | sra | min | max | minu | maxu | slt | sltu | seq | mul | mulh | mulhu | div
  | divu | rem | remu => exact h.int2
  | clz | ctz | popc | bswap | sxb | sxh | sxw | zxb | zxh | zxw => exact h.int1
  | addpc => exact h.withSrc h.setG.toOk
  | fadd | fsub | fmul | fdiv => exact h.withSrc h.putFloat.toOk
  | fmin | fmax => exact h.fltBits
  | fsqrt | fabs | fneg => exact h.flt1
  | feq | flt | fle => exact h.fltCmp
  | ffma | ffms | ffnma | ffnms => exact h.flt3
  | fcvt => exact h.execFcvt
  | jal | jr | subbr => exact h.setG.jump
  | bEq | bNe | bLt | bGe | bLtu | bGeu => exact h.branch
  | csrr => exact (h.toTrap.ite h.setG.toOk).fin
  | csrw | csrs | csrc => exact h.csrForm
  | setvl => exact (h.toTrap.ite h.onCsr.setG.toOk).fin
  | halt => exact h.toTrap.fin.ite h.haltStrand.afterHalt.toNext
  | yield => exact h.queueDone.stopNode.toOk.fin
  | trap => exact h.toTrap.fin
  | eret => exact h.toTrap.fin.ite h.trapReturn.toNext
  | sleep => exact (h.toOk.ite h.toWait).finQ
  | waitt => exact h.execWaitt
  | grant => exact h.execGrant
  | pgate => exact h.execPgate
  | xlinvAddr => exact (h.privileged h.invalidate).finQ
  | xlinvPart => exact (h.privileged (h.invalidate.ite h.toTrap)).finQ
  | xlinvAll => exact (h.invalidate.ite h.toTrap).finQ
  | pgq => exact (h.pageQuery.bind (fun _ _ h1 => h1.setG.toOk)).finQ
  | pairWord => exact h.pairSlots.fin
  | vadd | vsub | vmul | vdiv | vmin | vmax | vand | vor | vxor | vshl | vshr | vsra | vmulh | vabsd | vsgnj | vaddSat
  | vsubSat | vmulSat => exact h.vecBin
  | vfma | vfms | vfnma | vfnms => exact h.vecFma
  | vneg | vabs | vsqrt | vnot => exact h.vecUn
  | vmov => exact h.vecOp (fun _ _ h1 => h1.fill.setVok.toOk)
  | vcmpEq | vcmpNe | vcmpLt | vcmpLe | vcmpGt | vcmpGe | vcmpUn => exact h.vecCmp
  | vmerge | vid | vrngBits | vrngUnit | vdrop => exact h.vecMap
  | vcvt => exact h.execVcvt
  | vsfuExp | vsfuExp2 | vsfuLog | vsfuLog2 | vsfuRcp | vsfuRsqrt | vsfuSqrt | vsfuTanh | vsfuSig | vsfuGelu | vsfuSin
  | vsfuCos => exact h.vecSfu
  | vredFsum | vredFmax | vredFmin => exact h.redFloat
  | vredIsum | vredImax | vredImin | vredImaxu | vredIminu | vredAnd | vredOr | vredXor => exact h.redInt
  | vperm | vrot | vslideUp | vslideDn => exact h.permute
  | vcomp | vexp => exact h.vecWhole (fun _ _ h1 => h1.fill.okPermute)
  | mand | mor | mxor | mandn | mnot => exact h.maskOp
  | mcnt | many | mfirst => exact h.maskQuery
  | wset | wmul => exact h.weightOp
  | wsigH | wsigS => exact h.weightSig
  | wget | vsal => exact h.vecOp (fun _ _ h1 => h1.fill.okSet.toOk)
  | wcmp => exact h.vecOp (fun _ _ h1 => h1.putMask.toOk)
  | arm => exact h.toTrap.fin.ite h.same.skipTo
  | armb => exact h.execArmb
  | armend => exact h.execArmend
  | join => exact h.execJoin
  | joinb => exact h.execJoinb
  | wloop => exact h.execWloop
  | wlend => exact h.execWlend
  | ld8 | ld16 | ld32 | ld64 | ldz8 | ldz16 | ldz32 => exact h.loadTo
  | st8 | st16 | st32 | st64 => exact h.storeFrom
  | vld => exact h.vload (fun _ _ h1 => h1.loadNp.ite h1.loadElems)
  | vlds | vldx => exact h.vload (fun _ _ h1 => h1.loadElems)
  | vst => exact h.vstore (fun _ _ h1 => h1.storeNp.ite h1.storeElems)
  | vsts | vstx => exact h.vstore (fun _ _ h1 => h1.storeElems)
  | vstp | vstpPa => exact h.vecStp
  | feset | feclr => exact h.feRange
  | amoAdd | amoAnd | amoOr | amoXor | amoMin | amoMax | amoMinu | amoMaxu | amoSwap | amoCas => exact h.amo
  | vamoAdd | vamoAnd | vamoOr | vamoXor | vamoMin | vamoMax | vamoMinu | vamoMaxu | vamoSwap | vamoCas => exact h.vamo
  | amoacc => exact h.execAmoacc
  | vldbfa => exact h.execVldbfa
  | fenceC | fenceS | fenceHost => exact h.queueStep (fun _ h1 => h1.fence)
  | fenceRec => exact h.queueStep (fun _ h1 => h1.fence.same rfl)
  | fenceEng => exact (h.toWait.ite h.fence.toOk).finQ
  | strm => exact h.execStrm
  | strmx => exact h.queueStep (fun _ h1 => h1.setStreams)
  | stash | pref => exact h.lineOp (fun _ _ h1 => h1.bring)
  | stflush => exact h.execStflush
  | stinv => exact h.execStinv
  | vcapp => exact h.execVcapp
  | cpy => exact h.execCpy
  | gath | scat => exact h.listOp
  | collAg | collRs | collAr => exact h.collOp
  | ewait => exact h.execEwait
  | glaunch => exact h.execGlaunch
  | nspawn => exact h.execNspawn
  | dcset => exact h.ctrOp (fun _ _ h1 => h1.ctrSet)
  | dcdec => exact h.ctrOp (fun _ _ h1 => h1.ite h1.ctrDec)
  | npatch => exact h.execNpatch
  | gid => exact h.setG.toOk.finQ
  | gsplit => exact h.execGsplit
  | lput => exact h.execLput
  | lget => exact h.execLget
  | lfree => exact (h.toTrap.ite h.setG.toOk).finQ
  | bari => exact h.execBari
  | barr => exact h.barr.finQ
  | barw => exact h.barw.finQ
  | barrw => exact (h.barw.ite (h.barr.bind (fun _ _ h1 => h1.barw))).finQ
  | msmode => exact h.toTrap.fin.ite (h.matOp h.onMat.toOk)
  | mclaim => exact h.execMclaim
  | mrel => exact h.execMrel
  | mlds => exact h.matOp h.mlds
  | mldw => exact (h.mldw.decodeFirst (h.matRes h.mldw)).fin
  | mstrm => exact (h.mstrm.decodeFirst (h.matRes h.mstrm)).fin
  | mxprod => exact (h.mxprod.decodeFirst (h.matRes h.mxprod)).fin
  | mzero => exact h.matOp h.mzero
  | mrdzSplit => exact h.toTrap.fin.ite (h.zvOp h.putRow.putRow.toOk)
  | mrdzMerge | mcol => exact h.zvOp h.putRow.toOk
  | mwrz => exact h.execMwrz
  | mtrs => exact h.matOp h.mtrs
  | msts => exact h.matOp h.msts
  | mstsCmp | mstsCmpTrap => exact h.matOp h.mstsCmp
  | seqdef => exact h.execSeqdef
  | seqrun => exact h.execSeqrun
  | kset | kclr => exact h.matOp h.setK.toOk
  | kld => exact h.execKld
  | ktst => exact h.matOp h.setG.toOk
  | voptSgd | voptMsgd | voptAdam => exact h.vopt.fin
  | vnms => exact h.vecOp (fun _ _ h1 => h1.fillMask.toOk)
  | qterm => exact h.execQterm
  | qvec => exact h.execQvec
  | qexec => exact h.execQexec
  | qstat => exact h.execQstat
  | strandDispatch => exact h.saveAway.onceThere h.saveAway.dispatch
  | priorityPreemption => exact h.execPriorityPreemption
  | queueAging => exact h.onMill.ite h
  | preemptionRequest => exact h.execPreemptionRequest
  | strandStopped => exact h.strandStopped
  | trappedSave => exact h.execTrappedSave
  | faultRecordWrite => exact h.recordStep
  | faultReply => exact h.execFaultReply
  | migrationSelect => exact h.execMigrationSelect
  | reelTransfer => exact h.execReelTransfer
  | reelArrived => exact h.execReelArrived
  | nodeComplete => exact h.execNodeComplete
  | readyPoolEntry => exact h.execReadyPoolEntry
  | replayBind => exact h.onceThere h.bindReplay
  | spawnedKernelReject => exact h.execSpawnedKernelReject
  | arbiterPeriod => exact h.same.onMill.serveUpdates.ite h.same
  | engineIssue => exact h.execEngineIssue
  | engineDone => exact h.execEngineDone
  | engineSuspend => exact h.execEngineSuspend
  | engineFail => exact h.execEngineFail
  | postStallResume | leatSlotFreed | leatEntryArrives | feWaitSatisfied | barrierRelease | pgateWaitEnd | ewaitRetire => exact
    h.wakeIf
  | streamRefill => exact h.execStreamRefill
  | gatherSubrequest => exact h.execGatherSubrequest
  | gatherReply => exact h.execGatherReply
  | collBlock => exact h.execCollBlock
  | queryStart => exact (h.foldl (fun _ _ h1 => h1.qStore)).qFill
  | queryDone => exact h.execQueryDone
  | querySuspend => exact h.execQuerySuspend
  | queryFail => exact h.execQueryFail
  | batchTimeout => exact h.closeBatch.ite h
  | batchArrive => exact h.execBatchArrive
  | batchApply => exact h.execBatchApply
  | remoteReadRequest => exact h.execRemoteReadRequest
  | readReply => exact h.execReadReply
  | remoteAtomic => exact h.execRemoteAtomic
  | remoteAccessTimeout => exact h.execRemoteAccessTimeout
  | flitData => exact h.execFlitData
  | flitCredit => exact h.execFlitCredit
  | flitReplayRequest => exact h.execFlitReplayRequest
  | portEnable => exact h.trainPort.ite h
  | portTrained => exact h.joinPort.ite h
  | trainingTimeout | retrainFail => exact h.portDown.ite h
  | laneFail => exact h.ite (h.setPort.retrain.ite h.setPort)
  | retrainDone => exact h.same.joinPort.ite h
  | portDisable => exact h.ite h.setPort.resend
  | peerLoss => exact h.execPeerLoss
  | hostPortDown | resetComplete => exact h.same.event.ite h
  | hostMemRead => exact h.ite (h.answer.ite h.answer.lend)
  | hostMemWrite => exact h.execHostMemWrite
  | eccCorrected => exact h.ite (h.same.event.ite h.same)
  | eccUncorrectable => exact h.event.contain.ite h.poisonAt
  | dvfsTransition => exact h.setPoint.ite h
  | powerWindow => exact h.execPowerWindow
  | railWindow => exact h.railCheck.onCore.ite h
  | railStepRaise => exact h.railCheck.ite h
  | ballast => exact h.onQuad.ite h
  | laneTrim => exact h.execLaneTrim
  | gateDrained => exact h.onQuad.onPair.ite h
  | wakeDone => exact (h.trim.onPair.gateRequest.ite h.trim.onPair).ite h
  | sleepExpiry => exact h.execSleepExpiry
  | waittEnd => exact h.execWaittEnd
  | gsplitRoundComplete => exact h.execGsplitRoundComplete
  | claim => exact h.execClaim
  | renew => exact h.execRenew
  | leaseLapse => exact h.execLeaseLapse
  | handover => exact h.execHandover
  | accept => exact h.execAccept
  | handoverTimeout => exact h.execHandoverTimeout
  | read => exact h.execRead
  | attest => exact h.execAttest
  | spdmMeasurement => exact h.execSpdmMeasurement
  | create => exact h.execCreate
  | modify => exact h.execModify
  | start => exact h.execStart
  | reset => exact h.execReset
  | destroy => exact h.execDestroy
  | fwupdate => exact h.execFwupdate
  | deviceReset => exact h.afterReset.bringUp
  | hostPortUp => exact h.execHostPortUp
  | bisnpResponse => exact h.same.onStrands
  | domainBarrierArrival => exact h.execDomainBarrierArrival
  | remoteCounterUpdate => exact h.execRemoteCounterUpdate

/-! Machine/Fetch. -/

theorem State.Inv.fetchWord {s : State} {pc : Word} (h : s.Inv) : (s.fetchWord pc).Inv := by
  unfold State.fetchWord
  simp only
  split
  · exact h
  · split
    · exact h.access.snd ‹_›
    · exact h.access.snd ‹_›
    · exact (h.access.snd ‹_›).locSync

theorem State.Inv.fetch {s : State} (h : s.Inv) : s.fetch.Inv :=
  h.toTrap.ite (h.fetchWord.bind (fun _ _ h1 => (h1.fetchWord.bind (fun _ _ h2 => h2.toOk)).ite h1.toOk))

theorem State.Inv.tick {s : State} (h : s.Inv) : s.tick.Inv := h.same.pass
theorem State.Inv.post {s : State} (h : s.Inv) : s.post.Inv := h.same

theorem Out.Inv.heed {s : State} {o : Out} {k : Nat → Out} (ho : o.Inv) (hk : ∀ l, (k l).Inv) : (s.heed o k).Inv := by
  obtain e | ⟨t, l, -, -, -, e⟩ := s.heed_cases o k
  · rw [e]; exact ho
  · rw [e]; exact hk l

theorem State.Inv.heedScalar {s : State} {o : Out} (h : s.Inv) (ho : o.Inv) : (s.heedScalar o).Inv :=
  ho.heed (fun _ => h.onAct.toNext)

theorem State.Inv.heedPosted {s : State} {o : Out} (h : s.Inv) (ho : o.Inv) : (s.heedPosted o).Inv :=
  ho.heed (fun _ => h.onAct.toNext)

theorem State.Inv.switch {s : State} {sid : Nat} (h : s.Inv) : (s.switch sid).Inv := by
  unfold State.switch
  split
  · exact h
  · split
    · exact h.same
    · exact h

/-! Machine/Auto. -/

theorem State.Inv.eventOut {i : Instr} {s : State} (h : s.Inv) : Out.Inv (eventOut i s) := by
  unfold Machine.eventOut
  split
  · exact h.exec _
  · exact (h.exec i).heed fun _ => h

/-! Machine/Step. -/

theorem State.Inv.runIr {s : State} (h : s.Inv) : (runIr s).Inv := by
  unfold Machine.runIr
  split
  · exact h.exec _
  · exact h.toTrap.fin

theorem State.Inv.drainStep {s : State} (h : s.Inv) : (drainStep s).Inv := by
  unfold Machine.drainStep
  simp only
  split
  · exact h
  · split
    · exact h.onAct
    · exact h.heedPosted h.same.begin.runIr

theorem State.Inv.fetchStep {s : State} {k : State → Out} (h : s.Inv) (hk : ∀ (t : State), t.Inv → (k t).Inv) : (fetchStep s k).Inv := by
  unfold Machine.fetchStep
  refine h.heedScalar ?_
  split
  · exact hk _ (h.tick.fetch.ok ‹_›).same
  · exact (h.tick.fetch.trap ‹_›).toTrap.fin
  · exact (h.tick.fetch.wait ‹_›).toWait.fin

theorem State.Inv.holdScalar {s : State} (h : s.Inv) : s.holdScalar.Inv := h.same

theorem State.Inv.aheadStep {s : State} {k : Out} (h : s.Inv) (hk : k.Inv) : (aheadStep s k).Inv := by
  unfold Machine.aheadStep
  simp only
  split
  · exact (h.heedScalar (h.tick.fetch.ok ‹_›).same.post.toNext).ite ((h.heedScalar (h.tick.fetch.ok ‹_›).same.runIr).ite hk)
  · exact h.heedScalar (h.tick.fetch.wait ‹_›).toWait.fin
  · exact hk

theorem State.Inv.postStep {s : State} (h : s.Inv) : (postStep s).Inv :=
  (h.fetchStep (fun _ h1 => h1.post.toNext.ite h1.runIr)).ite (h.aheadStep (h.drainStep.ite h.holdScalar.toNext))

theorem State.Inv.behind {s t : State} {l : List Posted} (ht : t.Inv) : (s.behind t l).Inv := ht.onAct

theorem State.Inv.behindStep? {s : State} {o : Out} (h : s.Inv) (e : s.behindStep? = some o) : o.Inv := by
  unfold State.behindStep? at e
  split at e
  · split at e
    · extract_lets s0 at e
      have h0 : s0.Inv := h.onAct
      clear_value s0
      split at e
      · have ht := h0.begin.runIr.next ‹_›
        split at e
        · cases e
        · split at e
          · cases e; exact ht.behind
          · split at e
            · cases e; exact ht.behind
            · cases e
      · cases e
    · cases e
  · cases e

theorem State.Inv.behindLone? {s : State} {o : Out} (h : s.Inv) (e : s.behindLone? = some o) : o.Inv := by
  unfold State.behindLone? at e
  split at e
  · split at e
    · split at e
      · have h1 := h.tick.fetch.ok ‹_›
        extract_lets s0 at e
        have h0 : s0.Inv := h1.same
        clear_value s0
        split at e
        · split at e
          · split at e
            · cases e
            · cases e
              exact h.heedScalar (h0.runIr.next ‹_›).behind.toNext
          · cases e
        · cases e
      · cases e
    · cases e
  · cases e

theorem State.Inv.behind? {s : State} {o : Out} (h : s.Inv) (e : s.behind? = some o) : o.Inv := by
  unfold State.behind? at e
  cases hs : s.behindStep? with
  | some o' => rw [hs] at e; cases e; exact h.behindStep? hs
  | none => rw [hs] at e; exact h.behindLone? e

theorem State.Inv.strandStep {s : State} (h : s.Inv) : (strandStep s).Inv := by
  unfold Machine.strandStep
  split
  · exact h.drainStep
  · split
    · exact h.fetchStep fun _ ht => ht.runIr
    · cases hb : s.behind? with
      | some o => exact h.behind? hb
      | none => exact h.aheadStep h.holdScalar.toNext

theorem State.Inv.partStep {n : Nat} {s : State} (h : s.Inv) : (partStep n s).Inv := by
  unfold Machine.partStep
  have hb : ({ s with budget := some n } : State).Inv := h.same
  have hturn : Out.Inv (if s.act.posted.isEmpty then Machine.fetchStep { s with budget := some n } Machine.runIr
      else Machine.drainStep { s with budget := some n }) := (hb.fetchStep fun _ h => h.runIr).ite hb.drainStep
  split
  · exact (hturn.next ‹_›).same
  · exact hturn

theorem State.Inv.step {s : State} (h : s.Inv) : (step s).Inv := by
  unfold Machine.step
  split
  · exact h.same.eventOut
  · exact h.same.switch
  · exact h.same.postStep.ite h.same.toNext
  · exact h.same.drainStep.ite h.same.toNext
  · exact h.same.partStep.ite h.same.toNext
  · exact h.same.reserveLeat
  · split
    · exact h.eventOut
    · split
      · exact h.strandStep
      · split
        · exact h.switch
        · split
          · exact h.behindStep? ‹_›
          · exact h.switch
          · exact h.eventOut
          · exact h

end Sys2Proof.Machine
end

section
/-!
PROOFS. Every step keeps memory in its canonical form (R5, R344, R346, R370, R395, R420).
-/

set_option Elab.async false
namespace Sys2Proof.Machine

/-- Settles O51: only `writeO`, `writeL` and `filter` make a new memory, and each of them keeps the canonical form; `h.step` follows
every function of the step down to them. -/
theorem stepKeepsMemory : Obligations.StepKeepsMemory := by
  unfold Obligations.StepKeepsMemory
  intro s t h e
  exact Out.Inv.next (State.Inv.step h) e

end Sys2Proof.Machine
end
